-- ==== Sys2Proof/Word.lean ====
section
/-! DEFINITION. The three widths the spec treats as bits: wire bytes, 16-bit operands and 32-bit registers (rules R10, R20, R80). -/

namespace Sys2Proof

/-- A wire byte or a buffer byte: 8 bits, numbered 7 down to 0 (R10). -/
abbrev Byte := BitVec 8

/-- A 16-bit value: the `Y` operand, a baud, a module address, a decoded result (R80, R74, R229). -/
abbrev Half := BitVec 16

/-- A 32-bit host register or command word (R20, R80). -/
abbrev Word := BitVec 32

end Sys2Proof
end

