-- ==== Sys2Proof/Config.lean ====
section
/-! DEFINITION. The parameters that the model takes as arguments (rule R6), and the free values that stand for bytes the spec leaves unspecified. -/

namespace Sys2Proof

/-- The two protocol generations (R3). -/
inductive Gen where
  | A
  | B
  deriving DecidableEq, Repr

/-- The three buffers that can hold unspecified bytes (R31, R32, R34). -/
inductive Window where
  | tx
  | rx
  | mem
  deriving DecidableEq, Repr

/-- The parameters of rule R6, in its order. The block never changes them. For those to which the source gives a value
that value is normative: `Config.Valid` asks for it. `HOST_BAD_ACCESS` has no field: a model refuses such an access (R63).
The values that are no parameters (R7) are in `Machine/Constants.lean`. -/
structure Config where
  /-- `BIT_MS`, the wakeup bit period (R124): 200 in the source. -/
  bitMs : Nat
  /-- `WAKEUP_ADDR_BITS`, the address bits in the wakeup frame (R120): 7 in the source. -/
  wakeupAddrBits : Nat
  /-- `INTERBYTE_MS`, the delay before every transmit (R130): 1 in the source. -/
  interbyteMs : Nat
  /-- `RETRY_DELAY_MS`, the delay between autoconnect attempts (R195): 2000 in the source. -/
  retryDelayMs : Nat
  /-- `AUTO_BAUDS`, the autoconnect bauds in order (R195): 10400 and 9600 in the source. -/
  autoBauds : List Half
  /-- `AUTO_PASSES`, the passes over `AUTO_BAUDS` (R195): 2 in the source. -/
  autoPasses : Nat
  /-- `CHUNK_MAX`, the largest memory-read chunk (R226): 32 in the source. -/
  chunkMax : Word
  /-- `ID_LEN`, the bytes of an identification field (R33): 12 in the source. -/
  idLen : Nat
  /-- `ID_FIELDS`, the identification fields stored (R33): 3 in the source. -/
  idFields : Nat
  /-- `ID_BLOCKS`, the identification blocks received (R190): 4 in the source. -/
  idBlocks : Nat
  /-- `TITLE_ACK` (R96): 0x09 in the source. -/
  titleAck : Byte
  /-- `KW_TIMEOUT_MS`, Generation A's bound on empty polls (R184). -/
  kwTimeoutMs : Nat
  /-- `SETTLE_MS`, the wait before the confirmation byte (R186). -/
  settleMs : Nat
  /-- `MAX_BLOCK`, the largest block, counting its length byte (R155). -/
  maxBlock : Nat
  /-- `MEMBUF_BYTES`, the capacity of the memory-read buffer (R34). -/
  membufBytes : Nat
  /-- `EARLY_ACK_GEN`, the generation that takes the early-ACK shortcut (R189). -/
  earlyAckGen : Gen
  /-- `TITLE_ASCII` (R96). -/
  titleAscii : Byte
  /-- `TITLE_LOGIN` (R96). -/
  titleLogin : Byte
  /-- `TITLE_GROUP` (R96). -/
  titleGroup : Byte
  /-- `TITLE_RD_RAM` (R96). -/
  titleRdRam : Byte
  /-- `TITLE_RD_ROM` (R96). -/
  titleRdRom : Byte
  /-- `TITLE_RD_EE` (R96). -/
  titleRdEe : Byte
  /-- `TITLE_RR_RAM` (R96). -/
  titleRrRam : Byte
  /-- `TITLE_RR_ROM` (R96). -/
  titleRrRom : Byte
  /-- `TITLE_RR_EE` (R96). -/
  titleRrEe : Byte
  /-- `TITLE_CUSTOM` (R96). -/
  titleCustom : Byte
  /-- `SAFE_REQ`, the payload of the custom safe-code request (R97). -/
  safeReq : Byte
  /-- `SAFE_RESP_TITLE` (R98). -/
  safeRespTitle : Byte
  /-- `SAFE_OFFSET`, the payload index of the safe code's high byte (R230). -/
  safeOffset : Nat
  /-- `SAFE_EE_ADDR`, the EEPROM region that holds the safe code (R231). -/
  safeEeAddr : Half
  /-- `SAFE_EE_SIZE`, the size of that region (R231). -/
  safeEeSize : Word
  /-- `SAFE_EE_OFFSET`, the index of the high byte in that region (R231). -/
  safeEeOffset : Nat
  /-- `CKS_K1` (R97). -/
  cksK1 : Byte
  /-- `CKS_K2` (R97). -/
  cksK2 : Byte
  /-- `CKS_RESP_TITLE` (R98). -/
  cksRespTitle : Byte
  /-- `CKS_OFFSET`, the payload index of the checksum's high byte (R232). -/
  cksOffset : Nat
  /-- `HOST_BASE`, where the platform places the host register space (R60). -/
  hostBase : Nat
  /-- `TRANSPORT_RESET_BAUD`, the transport's baud before the first `Configure` (R292). -/
  transportResetBaud : Nat
  deriving DecidableEq, Repr

/-- The source's values and the reference values of rule R6, and for the parameters that have none the test configuration of 95_test_vectors.md
section 0.1; `hostBase` and `transportResetBaud` have neither and are 0 (assumption 1, DESIGN CHOICE). -/
def Config.reference : Config where
  bitMs := 200
  wakeupAddrBits := 7
  interbyteMs := 1
  retryDelayMs := 2000
  autoBauds := [10400, 9600]
  autoPasses := 2
  chunkMax := 32
  idLen := 12
  idFields := 3
  idBlocks := 4
  titleAck := 0x09
  kwTimeoutMs := 3000
  settleMs := 30
  maxBlock := 128
  membufBytes := 1024
  earlyAckGen := .A
  titleAscii := 0xF6
  titleLogin := 0x2B
  titleGroup := 0x29
  titleRdRam := 0x01
  titleRdRom := 0x03
  titleRdEe := 0x19
  titleRrRam := 0xFE
  titleRrRom := 0xFD
  titleRrEe := 0xEF
  titleCustom := 0x1B
  safeReq := 0xA1
  safeRespTitle := 0xA2
  safeOffset := 1
  safeEeAddr := 0x0010
  safeEeSize := 2
  safeEeOffset := 0
  cksK1 := 0xB1
  cksK2 := 0xB2
  cksRespTitle := 0xB3
  cksOffset := 2
  hostBase := 0
  transportResetBaud := 0

/-- The byte that an unspecified byte of a buffer holds (R31, R32, R34: "a draw"): which buffer, which time the buffer
became unspecified, and the index. It has no body, so a claim that holds holds whatever these bytes are (assumption 2). -/
opaque Config.freeByte : Window → Nat → Nat → Byte

end Sys2Proof
end

