-- ==== Sys2Proof/Syntax.lean ====
section
/-! DEFINITION. The commands ("instructions") of the block: one constructor per row of the opcode map (rule R83), with the operands of rule R82. -/

namespace Sys2Proof

/-- A decoded command. The operands are those that rule R82 lists for the command's word; an operand field that a command
ignores is not part of it (R81), and the operands that come from `ARG0` are read from the state when the command runs. -/
inductive Instr where
  /-- R121: send the 5-baud wakeup frame of `module_address`. -/
  | wakeup (address : Byte)
  /-- R130: send one byte and check its line echo. -/
  | sendEcho (byte : Byte)
  /-- R131: send one byte, check its echo, then the module's complement. -/
  | sendCompl (byte : Byte)
  /-- R132: receive one byte. -/
  | recvPlain
  /-- R133: receive one byte and reply with its complement. -/
  | recvCompl
  /-- R150: send the block in `TXBUF`. -/
  | sendBlock
  /-- R154: receive one block into `RXBUF`. -/
  | recvBlock
  /-- R158: receive one block and require its title. -/
  | recvBlockExpect (title : Byte)
  /-- R192: connect with Generation A. -/
  | connectA (address : Byte) (baud : Half)
  /-- R193: connect with Generation B. -/
  | connectB (address : Byte) (baud : Half)
  /-- R195: connect with Generation A, retried over the baud list. -/
  | autoconnect (address : Byte)
  /-- R196: end the session without touching the line. -/
  | disconnect
  /-- R221: log in; the workshop code is `ARG0[15:0]`. -/
  | login (safeCode : Half) (fern : Byte)
  /-- R222: request a group reading. -/
  | groupReading (group : Byte)
  /-- R223: read module RAM; the size is `ARG0`. -/
  | readMemRam (start : Half)
  /-- R224: read module ROM/EEPROM; the size is `ARG0`. -/
  | readMemRom (start : Half)
  /-- R225: read module EEPROM; the size is `ARG0`. -/
  | readMemEe (start : Half)
  /-- R230: read the safe code by the custom request. -/
  | safeCodeCustom
  /-- R231: read the safe code from the EEPROM region. -/
  | safeCodeEeprom
  /-- R232: request the checksum. -/
  | calcChecksum
  deriving DecidableEq, Repr

end Sys2Proof
end

