-- ==== Sys2Proof/WellFormed.lean ====
section
/-! DEFINITION. What is well formed: commands (their operands are exactly as wide as their fields, so every term is), parameter values (the constraints of rule R6), and lines of the assembler language of rules R86 and R87, whose operands are plain numbers. -/

namespace Sys2Proof

/-- Every command term is well formed: each operand has the width of its field (R80, R81), so a value "wider than its
field cannot be encoded" (R82) cannot be written as a term. The check on numbers is `SourceLine.wellFormed`. -/
def Instr.wellFormed : Instr → Bool
  | .wakeup _ => true
  | .sendEcho _ => true
  | .sendCompl _ => true
  | .recvPlain => true
  | .recvCompl => true
  | .sendBlock => true
  | .recvBlock => true
  | .recvBlockExpect _ => true
  | .connectA _ _ => true
  | .connectB _ _ => true
  | .autoconnect _ => true
  | .disconnect => true
  | .login _ _ => true
  | .groupReading _ => true
  | .readMemRam _ => true
  | .readMemRom _ => true
  | .readMemEe _ => true
  | .safeCodeCustom => true
  | .safeCodeEeprom => true
  | .calcChecksum => true

/-- The parameters to which the source gives a value have that value, which rule R6 calls normative. -/
structure Config.Sourced (c : Config) : Prop where
  bitMs : c.bitMs = 200
  wakeupAddrBits : c.wakeupAddrBits = 7
  interbyteMs : c.interbyteMs = 1
  retryDelayMs : c.retryDelayMs = 2000
  autoBauds : c.autoBauds = [10400, 9600]
  autoPasses : c.autoPasses = 2
  chunkMax : c.chunkMax = 32
  idLen : c.idLen = 12
  idFields : c.idFields = 3
  idBlocks : c.idBlocks = 4
  titleAck : c.titleAck = 0x09

/-- The values and constraints that rule R6 and 93_implementation_defined.md section 4 put on the parameters. -/
structure Config.Valid (c : Config) : Prop where
  /-- The source's values. -/
  sourced : c.Sourced
  /-- `KW_TIMEOUT_MS` is positive. -/
  kwTimeout_pos : 0 < c.kwTimeoutMs
  /-- `SETTLE_MS` is positive. -/
  settle_pos : 0 < c.settleMs
  /-- `MAX_BLOCK` is 36 to 256 (R155). -/
  maxBlock_ge : 36 ≤ c.maxBlock
  /-- `MAX_BLOCK` is 36 to 256 (R155). -/
  maxBlock_le : c.maxBlock ≤ 256
  /-- `MEMBUF_BYTES <= 0xF000` (R61). -/
  membuf_le : c.membufBytes ≤ 0xF000
  /-- `TITLE_ACK != TITLE_ASCII` (R189). -/
  ascii_ne_ack : c.titleAscii ≠ c.titleAck
  /-- `SAFE_EE_OFFSET + 2 <= SAFE_EE_SIZE` (R231). -/
  safeEe_fits : c.safeEeOffset + 2 ≤ c.safeEeSize.toNat
  /-- `SAFE_EE_SIZE <= MEMBUF_BYTES` (R231). -/
  safeEe_le : c.safeEeSize.toNat ≤ c.membufBytes
  /-- `CKS_OFFSET > SAFE_OFFSET` (R232). -/
  cks_gt : c.safeOffset < c.cksOffset

/-- The same as tests: the source's values. -/
def Config.sourced (c : Config) : Bool :=
  decide (c.bitMs = 200) && decide (c.wakeupAddrBits = 7) && decide (c.interbyteMs = 1) && decide (c.retryDelayMs = 2000)
    && decide (c.autoBauds = [10400, 9600]) && decide (c.autoPasses = 2) && decide (c.chunkMax = 32)
    && decide (c.idLen = 12) && decide (c.idFields = 3) && decide (c.idBlocks = 4) && decide (c.titleAck = 0x09)

/-- The same as tests: the values and the constraints. -/
def Config.valid (c : Config) : Bool :=
  c.sourced && decide (0 < c.kwTimeoutMs) && decide (0 < c.settleMs) && decide (36 ≤ c.maxBlock) && decide (c.maxBlock ≤ 256)
    && decide (c.membufBytes ≤ 0xF000) && decide (c.titleAscii ≠ c.titleAck)
    && decide (c.safeEeOffset + 2 ≤ c.safeEeSize.toNat) && decide (c.safeEeSize.toNat ≤ c.membufBytes)
    && decide (c.safeOffset < c.cksOffset)

/-- A line of a host program (R86), or a pseudo-command (R87). Operands are numbers as a program writes them. -/
inductive SourceLine where
  /-- `ARG0 <- value`. -/
  | arg0 (value : Nat)
  /-- `TX[i..] <- b0, b1, ...`. -/
  | tx (i : Nat) (bytes : List Nat)
  /-- `<MNEMONIC> [<X>][, <Y>]`, the operands in the order of R86. -/
  | command (mnemonic : String) (operands : List Nat)
  /-- `WAIT`. -/
  | wait
  /-- The pseudo-command `SEND_ACK`. -/
  | sendAck
  /-- The pseudo-command `EXPECT_ACK`. -/
  | expectAck
  deriving DecidableEq, Repr

/-- How the operands of a mnemonic are bounded, in the operand order of R86: an 8-bit field holds numbers below 256, a
16-bit field numbers below 65536, and a third operand is a preceding `ARG0` write. `none` for an unknown mnemonic. -/
def operandBounds (mnemonic : String) (count : Nat) : Option (List Nat) :=
  match mnemonic, count with
  | "WAKEUP", 1 => some [256]
  | "SEND_ECHO", 1 => some [256]
  | "SEND_COMPL", 1 => some [256]
  | "RECV_PLAIN", 0 => some []
  | "RECV_COMPL", 0 => some []
  | "SEND_BLOCK", 0 => some []
  | "RECV_BLOCK", 0 => some []
  | "RECV_BLOCK_EXPECT", 1 => some [256]
  | "CONNECT_A", 2 => some [256, 65536]
  | "CONNECT_B", 2 => some [256, 65536]
  | "AUTOCONNECT", 1 => some [256]
  | "DISCONNECT", 0 => some []
  | "LOGIN", 2 => some [65536, 256]
  | "LOGIN", 3 => some [65536, 256, 65536]
  | "GROUP_READING", 1 => some [256]
  | "READ_MEM_RAM", 1 => some [65536]
  | "READ_MEM_RAM", 2 => some [65536, 4294967296]
  | "READ_MEM_ROM", 1 => some [65536]
  | "READ_MEM_ROM", 2 => some [65536, 4294967296]
  | "READ_MEM_EE", 1 => some [65536]
  | "READ_MEM_EE", 2 => some [65536, 4294967296]
  | "SAFE_CODE_CUSTOM", 0 => some []
  | "SAFE_CODE_EEPROM", 0 => some []
  | "CALC_CHECKSUM", 0 => some []
  | _, _ => none

/-- A line is well formed when its numbers fit their fields (R82) and a `TX` line starts at a multiple of 4 (R86). -/
def SourceLine.wellFormed : SourceLine → Bool
  | .arg0 value => decide (value < 4294967296)
  | .tx i bytes => decide (i % 4 = 0) && bytes.all (fun b => decide (b < 256))
  | .command mnemonic operands =>
    match operandBounds mnemonic operands.length with
    | some bounds => (operands.zip bounds).all (fun p => decide (p.1 < p.2))
    | none => false
  | .wait => true
  | .sendAck => true
  | .expectAck => true

end Sys2Proof
end

