-- ==== Sys2Proof/Decode.lean ====
section
/-! DEFINITION. The command word format `CMDW` (rule R80), the opcode map (rules R83, R84), the decoder, the encoder, and the table's match and mask. -/

namespace Sys2Proof

/-- `OP`, bits 7:0 (R80). -/
def opField (w : Word) : Byte := w.extractLsb' 0 8

/-- `X`, bits 15:8 (R80). -/
def xField (w : Word) : Byte := w.extractLsb' 8 8

/-- `Y`, bits 31:16 (R80). -/
def yField (w : Word) : Half := w.extractLsb' 16 16

/-- `X[1:0]`, the kind of a memory read: bits 9:8 of the word (R82, R83). -/
def kindField (w : Word) : BitVec 2 := w.extractLsb' 8 2

/-- The word of R80 with the given fields. -/
def cmdWord (op x : Byte) (y : Half) : Word := y ++ x ++ op

/-- `decode(w)` of rule R84, total on every word; `none` is `Reserved` (R85). -/
def decode (w : Word) : Option Instr :=
  match (opField w).toNat with
  | 0x01 => some (.wakeup (xField w))
  | 0x10 => some (.sendEcho (xField w))
  | 0x11 => some (.sendCompl (xField w))
  | 0x12 => some .recvPlain
  | 0x13 => some .recvCompl
  | 0x20 => some .sendBlock
  | 0x21 => some .recvBlock
  | 0x22 => some (.recvBlockExpect (xField w))
  | 0x30 => some (.connectA (xField w) (yField w))
  | 0x31 => some (.connectB (xField w) (yField w))
  | 0x32 => some (.autoconnect (xField w))
  | 0x33 => some .disconnect
  | 0x40 => some (.login (yField w) (xField w))
  | 0x41 => some (.groupReading (xField w))
  | 0x42 =>
    match (kindField w).toNat with
    | 0 => some (.readMemRam (yField w))
    | 1 => some (.readMemRom (yField w))
    | 2 => some (.readMemEe (yField w))
    | _ => none
  | 0x43 => some .safeCodeCustom
  | 0x44 => some .safeCodeEeprom
  | 0x45 => some .calcChecksum
  | _ => none

/-- The word of four bytes in host byte order, the byte at the lowest address least significant (R62). -/
def wordOfBytes (b0 b1 b2 b3 : Byte) : Word := b3 ++ b2 ++ b1 ++ b0

/-- The four bytes of a word in host byte order (R62). -/
def bytesOfWord (w : Word) : List Byte :=
  [w.extractLsb' 0 8, w.extractLsb' 8 8, w.extractLsb' 16 8, w.extractLsb' 24 8]

/-- Decoding a byte stream: a command word is four bytes (R80), and the rest of the stream is handed back. -/
def decodeBytes : List Byte → Option (Instr × List Byte)
  | b0 :: b1 :: b2 :: b3 :: rest => (decode (wordOfBytes b0 b1 b2 b3)).map (fun i => (i, rest))
  | _ => none

/-- The word of a command, its ignored fields 0 (R81, R83). A memory read has its kind in `X[1:0]` (R82). -/
def encode : Instr → Word
  | .wakeup address => cmdWord 0x01 address 0
  | .sendEcho byte => cmdWord 0x10 byte 0
  | .sendCompl byte => cmdWord 0x11 byte 0
  | .recvPlain => cmdWord 0x12 0 0
  | .recvCompl => cmdWord 0x13 0 0
  | .sendBlock => cmdWord 0x20 0 0
  | .recvBlock => cmdWord 0x21 0 0
  | .recvBlockExpect title => cmdWord 0x22 title 0
  | .connectA address baud => cmdWord 0x30 address baud
  | .connectB address baud => cmdWord 0x31 address baud
  | .autoconnect address => cmdWord 0x32 address 0
  | .disconnect => cmdWord 0x33 0 0
  | .login safeCode fern => cmdWord 0x40 fern safeCode
  | .groupReading group => cmdWord 0x41 group 0
  | .readMemRam start => cmdWord 0x42 0 start
  | .readMemRom start => cmdWord 0x42 1 start
  | .readMemEe start => cmdWord 0x42 2 start
  | .safeCodeCustom => cmdWord 0x43 0 0
  | .safeCodeEeprom => cmdWord 0x44 0 0
  | .calcChecksum => cmdWord 0x45 0 0

/-- The bytes of a command's word as the host stores them (R62). -/
def encodeBytes (i : Instr) : List Byte := bytesOfWord (encode i)

/-- The bits of a command's word that select it or are its operands (R81, R82, R83); every other bit is ignored. -/
def usedBits : Instr → Word
  | .wakeup _ => 0x0000FFFF
  | .sendEcho _ => 0x0000FFFF
  | .sendCompl _ => 0x0000FFFF
  | .recvPlain => 0x000000FF
  | .recvCompl => 0x000000FF
  | .sendBlock => 0x000000FF
  | .recvBlock => 0x000000FF
  | .recvBlockExpect _ => 0x0000FFFF
  | .connectA _ _ => 0xFFFFFFFF
  | .connectB _ _ => 0xFFFFFFFF
  | .autoconnect _ => 0x0000FFFF
  | .disconnect => 0x000000FF
  | .login _ _ => 0xFFFFFFFF
  | .groupReading _ => 0x0000FFFF
  | .readMemRam _ => 0xFFFF03FF
  | .readMemRom _ => 0xFFFF03FF
  | .readMemEe _ => 0xFFFF03FF
  | .safeCodeCustom => 0x000000FF
  | .safeCodeEeprom => 0x000000FF
  | .calcChecksum => 0x000000FF

/-- One row of rule R83's table: `(word & mask) = match` selects it. -/
structure Row where
  mnemonic : String
  pattern : Word
  mask : Word
  deriving DecidableEq, Repr

/-- The opcode map of rule R83, row by row. -/
def opcodeMap : List Row :=
  [ ⟨"WAKEUP", 0x00000001, 0x000000FF⟩, ⟨"SEND_ECHO", 0x00000010, 0x000000FF⟩,
    ⟨"SEND_COMPL", 0x00000011, 0x000000FF⟩, ⟨"RECV_PLAIN", 0x00000012, 0x000000FF⟩,
    ⟨"RECV_COMPL", 0x00000013, 0x000000FF⟩, ⟨"SEND_BLOCK", 0x00000020, 0x000000FF⟩,
    ⟨"RECV_BLOCK", 0x00000021, 0x000000FF⟩, ⟨"RECV_BLOCK_EXPECT", 0x00000022, 0x000000FF⟩,
    ⟨"CONNECT_A", 0x00000030, 0x000000FF⟩, ⟨"CONNECT_B", 0x00000031, 0x000000FF⟩,
    ⟨"AUTOCONNECT", 0x00000032, 0x000000FF⟩, ⟨"DISCONNECT", 0x00000033, 0x000000FF⟩,
    ⟨"LOGIN", 0x00000040, 0x000000FF⟩, ⟨"GROUP_READING", 0x00000041, 0x000000FF⟩,
    ⟨"READ_MEM_RAM", 0x00000042, 0x000003FF⟩, ⟨"READ_MEM_ROM", 0x00000142, 0x000003FF⟩,
    ⟨"READ_MEM_EE", 0x00000242, 0x000003FF⟩, ⟨"SAFE_CODE_CUSTOM", 0x00000043, 0x000000FF⟩,
    ⟨"SAFE_CODE_EEPROM", 0x00000044, 0x000000FF⟩, ⟨"CALC_CHECKSUM", 0x00000045, 0x000000FF⟩ ]

/-- The mnemonic of a command, the table's spelling (R83). -/
def mnemonic : Instr → String
  | .wakeup _ => "WAKEUP"
  | .sendEcho _ => "SEND_ECHO"
  | .sendCompl _ => "SEND_COMPL"
  | .recvPlain => "RECV_PLAIN"
  | .recvCompl => "RECV_COMPL"
  | .sendBlock => "SEND_BLOCK"
  | .recvBlock => "RECV_BLOCK"
  | .recvBlockExpect _ => "RECV_BLOCK_EXPECT"
  | .connectA _ _ => "CONNECT_A"
  | .connectB _ _ => "CONNECT_B"
  | .autoconnect _ => "AUTOCONNECT"
  | .disconnect => "DISCONNECT"
  | .login _ _ => "LOGIN"
  | .groupReading _ => "GROUP_READING"
  | .readMemRam _ => "READ_MEM_RAM"
  | .readMemRom _ => "READ_MEM_ROM"
  | .readMemEe _ => "READ_MEM_EE"
  | .safeCodeCustom => "SAFE_CODE_CUSTOM"
  | .safeCodeEeprom => "SAFE_CODE_EEPROM"
  | .calcChecksum => "CALC_CHECKSUM"

/-- The word that `nbits` bits of the opcode table stand for: the bits above them are 0. -/
def tableWord (nbits w : Nat) : Word := BitVec.ofNat 32 (w % 2 ^ nbits)

/-- What the decoder reads from a table row's bits, laid out as the host stores them. -/
def decodeTableWord (nbits w : Nat) : Option Instr :=
  (decodeBytes (bytesOfWord (tableWord nbits w))).map Prod.fst

end Sys2Proof
end

