-- ==== Sys2Proof/Machine/State.lean ====
section
/-! DEFINITION. The state of the block (rules R20 to R46), of the line behind its transport (R9), and of the host's pending actions (R8, R73), as plain data. -/

namespace Sys2Proof.Machine

/-- `STATUS.OUTCOME` (R25); the encodings 5 to 7 are never produced. -/
inductive CmdOutcome where
  | none
  | ok
  | timeout
  | fatal
  | rejected
  deriving DecidableEq, Repr

/-- `STATUS.ERR_CODE`, the fatal classes (a) to (e) of R260 and R261. -/
inductive ErrCode where
  | none
  | echo
  | complement
  | counter
  | title
  | overflow
  deriving DecidableEq, Repr

/-- `STATUS.REJECT` (R25, R267). -/
inductive Reject where
  | none
  | badCmd
  | notReady
  | badArg
  deriving DecidableEq, Repr

/-- `STATUS.STATE`, the session controller's state (R26, R180). -/
inductive SessionState where
  | disconnected
  | addressing
  | awaitingKeyword
  | confirming
  | exchangingIdentity
  | ready
  deriving DecidableEq, Repr

/-- `line_mode` (R39). -/
inductive LineMode where
  | transport
  | direct
  deriving DecidableEq, Repr

/-- The kinds of module memory (R60, R82). -/
inductive MemKind where
  | ram
  | rom
  | ee
  deriving DecidableEq, Repr

/-- The fields of `STATUS` (R25). -/
structure Status where
  busy : Bool
  outcome : CmdOutcome
  errCode : ErrCode
  reject : Reject
  overrun : Bool
  memTrunc : Bool
  state : SessionState
  deriving DecidableEq, Repr

/-- The fields of `SESSION` (R27). -/
structure Session where
  counter : Byte
  firstSeen : Bool
  gen : Gen
  baud : Half
  deriving DecidableEq, Repr

/-- The fields of `ERRINFO` (R28). -/
structure ErrInfo where
  expected : Byte
  actual : Byte
  deriving DecidableEq, Repr

/-- The events of a run (R12): those of the transport and the line, the two ways the pseudocode is ended early, and the
host's admitted accesses with their bus address, their width in bytes and their value. -/
inductive Event where
  | configure (baud : Half)
  | send (b : Byte)
  | recv (b : Byte)
  | poll (available : Bool)
  | delay (ms : Nat)
  | lineAcquire
  | lineHold (level : Bool) (ms : Nat)
  | lineRelease
  | fatal (code : ErrCode) (expected actual : Byte)
  | timeout
  | memRead (address width : Nat) (value : Word)
  | memWrite (address width : Nat) (value : Word)
  deriving DecidableEq, Repr

/-- What the pseudocode does with the byte of a `Recv()`. -/
inductive RecvUse where
  /-- The line echo of a sent byte (R130). -/
  | echo (sent : Byte)
  /-- The module's complement of a sent byte (R131). -/
  | complement (sent : Byte)
  /-- The byte of RECV_PLAIN (R132). -/
  | plainResult
  /-- The byte of RECV_COMPL (R133). -/
  | complResult
  /-- The length byte of a block (R154). -/
  | length
  /-- Byte `i` of a block, answered with its complement (R154). -/
  | reply (i : Nat)
  /-- Byte `i` of a block, its last: no complement is sent (R154). -/
  | last (i : Nat)
  /-- A byte of the keyword wait of a generation (R184, R185). -/
  | keyword (gen : Gen)
  deriving DecidableEq, Repr

/-- One line of a command's pseudocode. The first seven make an event (R12); the others only compute, and take effect
with the event before them (R65). -/
inductive Op where
  | configure (baud : Half)
  | lineAcquire
  | lineHold (level : Bool) (ms : Nat)
  | lineRelease
  | delay (ms : Nat)
  | send (b : Byte)
  | recv (use : RecvUse)
  /-- `Poll()` of Generation A's keyword wait (R184); the eighth event. -/
  | poll
  /-- `attempt_start(gen)` (R181). -/
  | attemptStart (gen : Gen)
  /-- `STATUS.STATE <- v`. -/
  | setState (v : SessionState)
  /-- The start of the keyword wait (R184, R185). -/
  | keywordStart (gen : Gen)
  /-- `kw_elapsed <- kw_elapsed + 1` and the timeout test (R184). -/
  | keywordTick
  /-- `TXBUF[i] <- b` for each pair: a request block, less its placeholders (R97). -/
  | fillTx (bytes : List (Nat × Byte))
  /-- `send_block()` (R150). -/
  | sendBlock
  /-- The loop of `send_block()` at index `i` of a block of length `L` (R150). -/
  | sendFrom (i L : Nat)
  /-- `recv_block()` (R154). -/
  | recvBlock
  /-- The length byte has been received and answered (R154, R155). -/
  | storeLength (c : Byte)
  /-- The loop of `recv_block()` at index `i` (R154). -/
  | recvFrom (i : Nat)
  /-- Byte `i` has been received and, if due, answered (R154, R156). -/
  | storeByte (i : Nat) (b : Byte)
  /-- The title check of `recv_block_expect` (R158). -/
  | checkTitle (t : Byte)
  /-- `id_index <- 0` and the first identification block (R190). -/
  | identityStart
  /-- The checks and the copy after an identification block (R189, R190). -/
  | identityCheck
  /-- The end of the loop body of `identity` (R190). -/
  | identityNext
  /-- The start of an autoconnect attempt (R195). -/
  | attemptRun (address : Byte)
  /-- The end of an autoconnect attempt: a timeout of the attempt is caught here (R195, R266). -/
  | attemptCatch (address : Byte)
  /-- `mem_read(k, start, size)` (R226). -/
  | memRead (k : MemKind) (start : Half) (size : Word)
  /-- The loop of `mem_read` (R226). -/
  | memLoop (k : MemKind)
  /-- `append_payload()` (R228). -/
  | appendPayload
  /-- The end of the loop body of `mem_read`, after a chunk of `n` bytes (R226). -/
  | memAdvance (n : Word)
  /-- `RESULT <- MEMLEN` (R223). -/
  | resultMemlen
  /-- `RESULT <- zext_32(decode16(P[offset], P[offset+1]))` for the payload `P` (R230, R232). -/
  | resultPayload (offset : Nat)
  /-- `RESULT <- zext_32(decode16(MEMBUF[offset], MEMBUF[offset+1]))` (R231). -/
  | resultMembuf (offset : Nat)
  deriving DecidableEq, Repr

/-- `pc`, the sequencer position (R22): `IDLE`; the command whose word has just been accepted and stands in the `CMD`
latch, nothing of it done yet (R21 after its first four writes, R73); or the running command and what is left of its
pseudocode. The first line left that makes an event is the next event. -/
inductive Pc where
  | idle
  | accepted
  | running (command : Instr) (todo : List Op)
  deriving DecidableEq, Repr

/-- What the outside does to the block: a host access (R12, R63), a hardware reset (R290), a byte arriving on the line
(R39). An access carries its bus address and its width in bytes. -/
inductive Input where
  | read (address width : Nat)
  | write (address width : Nat) (value : Word)
  | reset
  | arrive (b : Byte)
  deriving DecidableEq, Repr

/-- `LINE`, the oracle behind the Byte Transport (R9), as a script (assumption 3): the bytes its `Recv()` calls answer, oldest first
(after the last one a `Recv()` never returns), the answers of its `Poll()` calls, and the transport's baud (R292). -/
structure Line where
  rx : List Byte
  polls : List Bool
  baud : Nat
  deriving DecidableEq, Repr

/-- The buffers of the host register space, byte by byte, keyed by host offset (R61). -/
abbrev Memory := List Host.Cell

/-- The state. `cfg` is the parameters (R6); `status` to `mem` are what the host can reach (R20); `pc` to `idIndex` are the
hidden state (R36 to R42); the rest is the model's own: the line's script, the outside's pending inputs with the number of
events that pass before each, the event history (R12, R303), the host's reads, and the marks of unspecified bytes. -/
structure State where
  cfg : Config
  status : Status
  cmd : Word
  arg0 : Word
  result : Word
  session : Session
  errinfo : ErrInfo
  memlen : Word
  rxcount : Word
  mem : Memory
  pc : Pc
  kwPos : Fin 4
  kwElapsed : Nat
  rxRemaining : Byte
  lineMode : LineMode
  attempt : Fin 4
  chunkAddr : Half
  chunkLeft : Word
  idIndex : Fin 4
  line : Line
  inputs : List (Nat × Input)
  history : List Event
  hostReads : List (Nat × Word)
  txMark : Nat
  rxMark : Nat
  memMark : Nat
  nextMark : Nat
  deriving DecidableEq, Repr

/-- Why a step stops with a fault. -/
inductive Fault where
  /-- Raised by a host access whose address lies outside the 64 KiB space at `HOST_BASE` (R60): the block has no such
  address. Safe: the model stops where the platform would route the access elsewhere. -/
  | hostAddressOutsideSpace
  deriving DecidableEq, Repr

/-- Why a step is refused. -/
inductive Refusal where
  /-- Raised by `exec` for a command without a meaning. Safe. No arm of this model raises it. -/
  | notModelled (mnemonic : String)
  /-- `HOST_BAD_ACCESS` (R63): raised by a host access that is not an aligned 32-bit access. Safe: "A model refuses
  such an access". -/
  | hostBadAccess
  deriving DecidableEq, Repr

/-- The state right after reset of a block with the given parameters (R45). The model's own fields are empty or 0
(assumption 18). -/
def State.resetWith (c : Config) : State where
  cfg := c
  status := ⟨false, .none, .none, .none, false, false, .disconnected⟩
  cmd := 0
  arg0 := 0
  result := 0
  session := ⟨0, false, .A, 0⟩
  errinfo := ⟨0, 0⟩
  memlen := 0
  rxcount := 0
  mem := []
  pc := .idle
  kwPos := 0
  kwElapsed := 0
  rxRemaining := 0
  lineMode := .transport
  attempt := 0
  chunkAddr := 0
  chunkLeft := 0
  idIndex := 0
  line := ⟨[], [], c.transportResetBaud⟩
  inputs := []
  history := []
  hostReads := []
  txMark := 0
  rxMark := 0
  memMark := 0
  nextMark := 1

/-- The machine right after reset, with the reference parameters (R45; assumption 1). -/
def State.reset : State := State.resetWith Config.reference

end Sys2Proof.Machine
end

