-- ==== Sys2Proof/Machine/Constants.lean ====
section
/-! DEFINITION. The values the source fixes that are no parameters (rule R7), and the offsets of the host register space (rule R61). -/

namespace Sys2Proof.Machine

/-- The keyword sequence `0x55, 0x01, 0x8A` (R91), by match position. -/
def keywordByte : Fin 4 → Option Byte
  | 0 => some 0x55
  | 1 => some 0x01
  | 2 => some 0x8A
  | 3 => none
/-- The confirmation byte (R92). -/
def confirmByte : Byte := 0x75
/-- The block terminator (R93). -/
def terminator : Byte := 0x03
/-- The complement of a byte, `c XOR 0xFF` (R7). -/
def compl (b : Byte) : Byte := b ^^^ 0xFF

/-- The offset of `STATUS` (R61). -/
def offStatus : Nat := 0x0000
/-- The offset of `CMD` (R61). -/
def offCmd : Nat := 0x0004
/-- The offset of `ARG0` (R61). -/
def offArg0 : Nat := 0x0008
/-- The offset of `RESULT` (R61). -/
def offResult : Nat := 0x000C
/-- The offset of `SESSION` (R61). -/
def offSession : Nat := 0x0010
/-- The offset of `ERRINFO` (R61). -/
def offErrinfo : Nat := 0x0014
/-- The offset of `MEMLEN` (R61). -/
def offMemlen : Nat := 0x0018
/-- The offset of `RXCOUNT` (R61). -/
def offRxcount : Nat := 0x001C
/-- The `TXBUF` window (R61). -/
def txBase : Nat := 0x0100
/-- The `RXBUF` window (R61). -/
def rxBase : Nat := 0x0200
/-- The `ID` window (R61). -/
def idBase : Nat := 0x0300
/-- The size of the `ID` window, 0x0300 to 0x0323 (R61). -/
def idBytes : Nat := 36
/-- The `MEMBUF` window (R61). -/
def memBase : Nat := 0x1000
/-- The `TXBUF` and `RXBUF` windows are 256 bytes wide (R61). -/
def windowBytes : Nat := 256
/-- Host offsets are 16 bits wide (R60). -/
def hostSpace : Nat := 0x10000

end Sys2Proof.Machine
end

