-- ==== Sys2Proof/Machine/Ops.lean ====
section
/-! DEFINITION. The named operations over the buffers and the sequencer: bytes of the windows, events, pushing pseudocode, and the four ways a command ends (rules R21, R264, R266, R267). -/

namespace Sys2Proof.Machine

/-! ## The buffers (R31 to R34) -/

/-- What an unlisted offset holds: an `ID` byte is 0x00 (R33); every other buffer byte is unspecified (R31, R32, R34). -/
def Memory.unlisted (a : Nat) : Option Byte :=
  if idBase ≤ a ∧ a < idBase + idBytes then some 0 else none

/-- The listed byte at an offset. -/
def Memory.listed : Memory → Nat → Option Byte
  | [], _ => none
  | (k, b) :: m, a => if k = a then some b else Memory.listed m a

/-- The byte at an offset; `none` when it is unspecified. -/
def Memory.read (m : Memory) (a : Nat) : Option Byte :=
  match Memory.listed m a with
  | some b => some b
  | none => Memory.unlisted a

/-- Put a cell in its place in rising order. -/
def Memory.insert : Memory → Nat → Byte → Memory
  | [], a, b => [(a, b)]
  | (k, v) :: m, a, b =>
    if a < k then (a, b) :: (k, v) :: m
    else if a = k then (a, b) :: m
    else (k, v) :: Memory.insert m a b

/-- Unlist the offsets from `lo` up to `hi`. -/
def Memory.forget (m : Memory) (lo hi : Nat) : Memory :=
  m.filter (fun c => decide (c.1 < lo) || decide (hi ≤ c.1))

/-- Store a byte: the value an unlisted offset holds is not listed. -/
def Memory.write (m : Memory) (a : Nat) (b : Byte) : Memory :=
  if Memory.unlisted a = some b then Memory.forget m a (a + 1) else Memory.insert m a b

/-- Store bytes at rising offsets. -/
def Memory.writeFrom (m : Memory) (a : Nat) : List Byte → Memory
  | [] => m
  | b :: bs => Memory.writeFrom (Memory.write m a b) (a + 1) bs

/-- The canonical form: offsets strictly rise, and no cell holds what its offset holds unlisted. -/
abbrev Memory.wf (m : Memory) : Prop :=
  m.Pairwise (fun x y => x.1 < y.1) ∧ ∀ c ∈ m, Memory.unlisted c.1 ≠ some c.2

/-- `TXBUF[i]` (R31), a draw where unspecified. -/
def State.txByte (s : State) (i : Nat) : Byte :=
  if i < windowBytes then (Memory.read s.mem (txBase + i)).getD (Config.freeByte .tx s.txMark i)
  else Config.freeByte .tx s.txMark i

/-- `RXBUF[i]` (R32), a draw where unspecified. -/
def State.rxByte (s : State) (i : Nat) : Byte :=
  if i < windowBytes then (Memory.read s.mem (rxBase + i)).getD (Config.freeByte .rx s.rxMark i)
  else Config.freeByte .rx s.rxMark i

/-- `ID[k / 12][k mod 12]` (R33, R61). -/
def State.idByte (s : State) (k : Nat) : Byte :=
  (Memory.read s.mem (idBase + k)).getD 0

/-- `MEMBUF[i]` (R34), a draw where unspecified. -/
def State.membufByte (s : State) (i : Nat) : Byte :=
  (Memory.read s.mem (memBase + i)).getD (Config.freeByte .mem s.memMark i)

/-- `TXBUF[i] <- b`. -/
def State.setTx (s : State) (i : Nat) (b : Byte) : State :=
  { s with mem := Memory.write s.mem (txBase + i) b }

/-- `TXBUF[i] <- b` for each pair, in order. -/
def State.setTxAll (s : State) : List (Nat × Byte) → State
  | [] => s
  | (i, b) :: rest => (s.setTx i b).setTxAll rest

/-- `ID[j][k] <- RXBUF[3 + k]` for `k` below `ID_LEN` (R190). -/
def State.copyId (s : State) (j : Nat) : State :=
  { s with
    mem := Memory.writeFrom s.mem (idBase + s.cfg.idLen * j)
      ((List.range s.cfg.idLen).map (fun k => s.rxByte (3 + k))) }

/-! ## Events and the sequencer (R12, R22) -/

/-- After `n` events, `n` fewer remain before the next input lands (assumption 4). -/
def elapse (n : Nat) : List (Nat × Input) → List (Nat × Input)
  | [] => []
  | (c, m) :: rest => (c - n, m) :: rest

/-- Record an event, newest first (R12). -/
def State.record (s : State) (e : Event) : State := { s with history := e :: s.history }

/-- An event of `ENGINE`: it is recorded, and the outside comes one event nearer (assumption 4). -/
def State.event (s : State) (e : Event) : State :=
  { s.record e with inputs := elapse 1 s.inputs }

/-- What is left of the running command's pseudocode. -/
def Pc.todo : Pc → List Op
  | .idle | .accepted => []
  | .running _ todo => todo

/-- Do `ops` before the rest of the running command. -/
def Pc.push : Pc → List Op → Pc
  | .idle, _ => .idle
  | .accepted, _ => .accepted
  | .running command todo, ops => .running command (ops ++ todo)

/-- Do `ops` before the rest of the running command. -/
def State.push (s : State) (ops : List Op) : State :=
  { s with pc := s.pc.push ops }

/-- `STATUS.STATE <- v` (R26). -/
def State.setSession (s : State) (v : SessionState) : State :=
  { s with status := { s.status with state := v } }

/-! ## How a command ends -/

/-- Completion (R21): the outcome, then `pc <- IDLE` and `STATUS.BUSY <- 0`. -/
def State.complete (s : State) (o : CmdOutcome) : State :=
  { s with status := { s.status with outcome := o, busy := false }, pc := .idle }

/-- `raise Fatal(code, expected, actual)` (R264), one event of the history (R12) that is made "as one step, after the
event that detected the error", so no input lands between the two (assumption 23). -/
def State.raiseFatal (s : State) (code : ErrCode) (expected actual : Byte) : State :=
  { s.event (.fatal code expected actual) with
    status := { s.status with errCode := code, state := .disconnected, outcome := .fatal, busy := false }
    errinfo := ⟨expected, actual⟩
    pc := .idle }

/-- `reject(reason)` (R267). -/
def State.reject (s : State) (reason : Reject) : State :=
  { s with status := { s.status with reject := reason, outcome := .rejected, busy := false }, pc := .idle }

/-- The number of autoconnect attempts, `AUTO_PASSES * len(AUTO_BAUDS)` (R195). -/
def autoAttempts (c : Config) : Nat := c.autoPasses * c.autoBauds.length

/-- The part of the pseudocode at which AUTOCONNECT catches a timeout (R195), if there is one. -/
def catchPoint : List Op → Option (Byte × List Op)
  | [] => none
  | .attemptCatch a :: rest => some (a, rest)
  | _ :: rest => catchPoint rest

/-- What `raise Timeout()` writes at once: STATE (R195, R266), and its event in the history (R12; assumption 23). -/
def State.timedOut (s : State) : State := (s.event .timeout).setSession .disconnected

/-- `raise Timeout()` (R266). Inside AUTOCONNECT it ends only the attempt: the next one follows after a
`Delay(RETRY_DELAY_MS)`, and after the last the command ends TIMEOUT (R195). -/
def State.raiseTimeout (s : State) : State :=
  match s.pc with
  | .idle | .accepted => s.timedOut.complete .timeout
  | .running command todo =>
    match catchPoint todo with
    | none => s.timedOut.complete .timeout
    | some (a, rest) =>
      if s.attempt.val + 1 < autoAttempts s.cfg then
        { s.timedOut with
          attempt := s.attempt + 1
          pc := .running command (.delay s.cfg.retryDelayMs :: .attemptRun a :: .attemptCatch a :: rest) }
      else s.timedOut.complete .timeout

/-- Acceptance of a command word (R21), up to its execution. -/
def State.accept (s : State) (w : Word) : State :=
  { s with
    status := { s.status with busy := true, outcome := .none, reject := .none, overrun := false }
    result := 0
    cmd := w
    pc := .accepted }

/-- A hardware reset (R45, R290): every piece of the block's state takes its reset value, and a line under direct
control is released by one recorded event. The parameters, the line and its transport, the host's own list of inputs and
the record of the run are not the block's, so they stay; the buffers are unspecified anew (assumption 10). -/
def State.hardReset (s : State) : State :=
  { State.resetWith s.cfg with
    line := s.line
    inputs := s.inputs
    history := match s.lineMode with
      | .direct => .lineRelease :: s.history
      | .transport => s.history
    hostReads := s.hostReads
    txMark := s.nextMark
    rxMark := s.nextMark
    memMark := s.nextMark
    nextMark := s.nextMark + 1 }

end Sys2Proof.Machine
end

