-- ==== Sys2Proof/Machine/Operands.lean ====
section
/-! DEFINITION. Operands: what a command takes from `ARG0` (rules R81, R82), the bytes of wire fields (rules R72, R74), and the request blocks the engine builds (rule R97). -/

namespace Sys2Proof.Machine

/-- The high byte of a 16-bit field: first on the wire (R72). -/
def hiByte (h : Half) : Byte := h.extractLsb' 8 8

/-- The low byte of a 16-bit field (R72). -/
def loByte (h : Half) : Byte := h.extractLsb' 0 8

/-- `workshop = ARG0[15:0]` (R82). -/
def State.workshop (s : State) : Half := s.arg0.extractLsb' 0 16

/-- `size = ARG0` (R82). -/
def State.size (s : State) : Word := s.arg0

/-- The size of the next chunk, `min(chunk_left, CHUNK_MAX)` (R226). -/
def chunkSize (c : Config) (left : Word) : Word := if left ≤ c.chunkMax then left else c.chunkMax

/-- The title of a memory-read request (R226). -/
def requestTitle (c : Config) : MemKind → Byte
  | .ram => c.titleRdRam
  | .rom => c.titleRdRom
  | .ee => c.titleRdEe

/-- The title of a memory-read response (R226). -/
def responseTitle (c : Config) : MemKind → Byte
  | .ram => c.titleRrRam
  | .rom => c.titleRrRom
  | .ee => c.titleRrEe

/-- Payload bytes at their block indexes, from index `i` (R93). -/
def payloadAt (i : Nat) : List Byte → List (Nat × Byte)
  | [] => []
  | b :: bs => (i, b) :: payloadAt (i + 1) bs

/-- A request block: length, title and payload at their indexes; the counter and the terminator are placeholders that
`send_block` fills in (R93, R97). -/
def requestBlock (title : Byte) (payload : List Byte) : List (Nat × Byte) :=
  (0, BitVec.ofNat 8 (payload.length + 3)) :: (2, title) :: payloadAt 3 payload

/-- The ACK request (R97, R187). -/
def ackRequest (c : Config) : List (Nat × Byte) := requestBlock c.titleAck []

/-- The login request (R97, R221). -/
def loginRequest (c : Config) (safeCode : Half) (fern : Byte) (workshop : Half) : List (Nat × Byte) :=
  requestBlock c.titleLogin [hiByte safeCode, loByte safeCode, fern, hiByte workshop, loByte workshop]

/-- The group-reading request (R97, R222). -/
def groupRequest (c : Config) (group : Byte) : List (Nat × Byte) :=
  requestBlock c.titleGroup [group]

/-- A memory-read request for `n` bytes (R97, R226). -/
def memRequest (c : Config) (k : MemKind) (n : Word) (address : Half) : List (Nat × Byte) :=
  requestBlock (requestTitle c k) [n.setWidth 8, hiByte address, loByte address]

/-- The custom safe-code request (R97, R230). -/
def safeCodeRequest (c : Config) : List (Nat × Byte) :=
  requestBlock c.titleCustom [c.safeReq]

/-- The checksum request (R97, R232). -/
def checksumRequest (c : Config) : List (Nat × Byte) :=
  requestBlock c.titleCustom [c.cksK1, c.cksK2]

/-- `decode16(hi, lo)` (R229). -/
def decode16 (hi lo : Byte) : Half := hi ++ lo

/-- `zext_32` of a byte (R10). -/
def zextByte (b : Byte) : Word := b.setWidth 32

/-- `zext_32` of a 16-bit value (R10). -/
def zextHalf (h : Half) : Word := h.setWidth 32

end Sys2Proof.Machine
end

