-- ==== Sys2Proof/Machine/Flags.lean ====
section
/-! DEFINITION. The status words the host reads (rules R25, R27, R28), and the computations that decide a flag or a code: parity (R90), the size check (R155), the counter check (R156), the keyword matcher (R183). -/

namespace Sys2Proof.Machine

/-- `STATUS.OUTCOME`, bits 3:1 (R25). -/
def CmdOutcome.code : CmdOutcome → BitVec 3
  | .none => 0
  | .ok => 1
  | .timeout => 2
  | .fatal => 3
  | .rejected => 4

/-- `STATUS.ERR_CODE`, bits 7:4 (R25). -/
def ErrCode.code : ErrCode → BitVec 4
  | .none => 0
  | .echo => 1
  | .complement => 2
  | .counter => 3
  | .title => 4
  | .overflow => 5

/-- `STATUS.REJECT`, bits 10:8 (R25). -/
def Reject.code : Reject → BitVec 3
  | .none => 0
  | .badCmd => 1
  | .notReady => 2
  | .badArg => 3

/-- `STATUS.STATE`, bits 18:16 (R25). -/
def SessionState.code : SessionState → BitVec 3
  | .disconnected => 0
  | .addressing => 1
  | .awaitingKeyword => 2
  | .confirming => 3
  | .exchangingIdentity => 4
  | .ready => 5

/-- A one-bit field. -/
def bit (b : Bool) : BitVec 1 := BitVec.ofBool b

/-- The word of `STATUS` (R25): bits 31:19 and 15:13 read 0. -/
def Status.word (t : Status) : Word :=
  (0 : BitVec 13) ++ t.state.code ++ (0 : BitVec 3) ++ bit t.memTrunc ++ bit t.overrun ++ t.reject.code
    ++ t.errCode.code ++ t.outcome.code ++ bit t.busy

/-- `SESSION.GEN`, bit 9 (R27). -/
def genBit : Gen → BitVec 1
  | .A => 0
  | .B => 1

/-- The word of `SESSION` (R27): bits 15:10 read 0. -/
def Session.word (t : Session) : Word :=
  t.baud ++ (0 : BitVec 6) ++ genBit t.gen ++ bit t.firstSeen ++ t.counter

/-- The word of `ERRINFO` (R28): bits 31:16 read 0. -/
def ErrInfo.word (t : ErrInfo) : Word := (0 : BitVec 16) ++ t.actual ++ t.expected

/-- The parity bit of a wakeup address: an accumulator of 1, and the address bits that are sent (R90, R120). -/
def wakeupParity (c : Config) (a : Byte) : Bool :=
  (List.range c.wakeupAddrBits).foldl (fun parity i => parity ^^ a.getLsbD i) true

/-- `wakeup_bits(a)` (R120). -/
def wakeupBits (c : Config) (a : Byte) : List Bool :=
  [false] ++ (List.range c.wakeupAddrBits).map (fun i => a.getLsbD i) ++ [wakeupParity c a, true]

/-- `kw_step(b)` (R183): a mismatched byte is not tested again. -/
def keywordStep (pos : Fin 4) (b : Byte) : Fin 4 :=
  if keywordByte pos = some b then pos + 1 else 0

/-- `check_size(c)` (R155): the claim `c + 1` fits. -/
def sizeFits (c : Config) (length : Byte) : Bool := decide (length.toNat + 1 ≤ c.maxBlock)

/-- The expected value a failed size check records, `(MAX_BLOCK - 1)[7:0]` (R155). -/
def sizeExpected (c : Config) : Byte := BitVec.ofNat 8 (c.maxBlock - 1)

/-- The result of `check_counter(b)` (R156): the new session, or the expected counter. -/
def checkCounter (t : Session) (b : Byte) : Except Byte Session :=
  if t.firstSeen = false then .ok { t with counter := b, firstSeen := true }
  else if b = t.counter + 1 then .ok { t with counter := b }
  else .error (t.counter + 1)

/-- The precondition of SEND_BLOCK on its length (R150). -/
def sendLengthOk (c : Config) (length : Byte) : Bool :=
  decide (3 ≤ length.toNat) && decide (length.toNat + 1 ≤ c.maxBlock)

end Sys2Proof.Machine
end

