-- ==== Sys2Proof/Machine/Procedures.lean ====
section
/-! DEFINITION. The spec's procedures (lower-case names in files 40 to 44) as lists of pseudocode lines, and the small state changes they name. -/

namespace Sys2Proof.Machine

/-- `send_echo(b)` (R130). -/
def sendEchoOps (c : Config) (b : Byte) : List Op := [.delay c.interbyteMs, .send b, .recv (.echo b)]

/-- `send_compl(b)` (R131). -/
def sendComplOps (c : Config) (b : Byte) : List Op := sendEchoOps c b ++ [.recv (.complement b)]

/-- The wakeup frame of an address, between `LineAcquire` and `LineRelease` (R121). -/
def frameOps (c : Config) (a : Byte) : List Op :=
  .lineAcquire :: (wakeupBits c a).map (fun v => .lineHold v c.bitMs) ++ [.lineRelease]

/-- `recv_block_expect(t)` (R158). -/
def recvBlockExpectOps (t : Byte) : List Op := [.recvBlock, .checkTitle t]

/-- `send_ack()` (R187). -/
def sendAckOps (c : Config) : List Op := [.fillTx (ackRequest c), .sendBlock]

/-- `recv_ack()` (R188). -/
def recvAckOps (c : Config) : List Op := recvBlockExpectOps c.titleAck

/-- `addressing(a, baud)` (R182). -/
def addressingOps (c : Config) (a : Byte) (baud : Half) : List Op :=
  .configure baud :: frameOps c a ++ [.setState .awaitingKeyword]

/-- `confirming()` (R186). -/
def confirmingOps (c : Config) : List Op :=
  [.setState .confirming, .delay c.settleMs] ++ sendEchoOps c confirmByte ++ [.setState .exchangingIdentity]

/-- `connect(gen, a, baud)` (R191). -/
def connectOps (c : Config) (gen : Gen) (a : Byte) (baud : Half) : List Op :=
  .attemptStart gen :: addressingOps c a baud ++ [.keywordStart gen] ++ confirmingOps c ++ [.identityStart]

/-- The next byte of a generation's keyword wait: Generation A polls first (R184), Generation B blocks (R185). -/
def keywordWaitOps : Gen → List Op
  | .A => [.poll]
  | .B => [.recv (.keyword .B)]

/-- The body of `mem_read`'s loop for a chunk of `n` bytes (R226). -/
def chunkOps (c : Config) (k : MemKind) (n : Word) (address : Half) : List Op :=
  [.fillTx (memRequest c k n address), .sendBlock] ++ recvBlockExpectOps (responseTitle c k)
    ++ [.appendPayload] ++ sendAckOps c ++ recvAckOps c ++ [.memAdvance n, .memLoop k]

/-- The baud of an autoconnect attempt, `AUTO_BAUDS[attempt mod len(AUTO_BAUDS)]` (R195). -/
def attemptBaud (c : Config) (attempt : Fin 4) : Half := c.autoBauds.getD (attempt.val % c.autoBauds.length) 0

/-- `attempt_start(gen)`: every `ID` byte is 0x00 again (R181). -/
def State.attemptStart (s : State) (gen : Gen) : State :=
  { s with
    mem := Memory.forget s.mem idBase (idBase + idBytes)
    session := ⟨0, false, gen, s.session.baud⟩
    status := { s.status with errCode := .none, state := .addressing }
    errinfo := ⟨0, 0⟩ }

/-- The writes that open `send_block()` (R150): the shared counter is incremented, then the counter and the terminator
fill their places. -/
def State.openBlock (s : State) (length : Byte) : State :=
  { s with
    session := { s.session with counter := s.session.counter + 1 }
    mem := Memory.write (Memory.write s.mem (txBase + 1) (s.session.counter + 1)) (txBase + length.toNat) terminator }

/-- `RXBUF[i] <- b ; RXCOUNT <- i + 1` (R154). -/
def State.storeRx (s : State) (i : Nat) (b : Byte) : State :=
  { s with mem := Memory.write s.mem (rxBase + i) b, rxcount := BitVec.ofNat 32 (i + 1) }

/-- `RXCOUNT <- 0`, and every `RXBUF` byte becomes unspecified anew: the start of `recv_block()` (R154). -/
def State.startReception (s : State) : State :=
  { s with
    mem := Memory.forget s.mem rxBase (rxBase + windowBytes)
    rxcount := 0
    rxMark := s.nextMark
    nextMark := s.nextMark + 1 }

/-- The length byte is stored and starts the countdown (R154). -/
def State.storedLength (s : State) (c : Byte) : State :=
  { s with mem := Memory.write s.mem rxBase c, rxcount := 1, rxRemaining := c }

/-- Byte `i` is stored, the session follows its counter check, and the countdown goes on (R154, R156). -/
def State.storedByte (s : State) (i : Nat) (b : Byte) (session : Session) : State :=
  { s with
    mem := Memory.write s.mem (rxBase + i) b
    rxcount := BitVec.ofNat 32 (i + 1)
    session := session
    rxRemaining := s.rxRemaining - 1 }

/-- `MEMLEN <- 0`, which leaves every `MEMBUF` byte unspecified (R34), `STATUS.MEM_TRUNC <- 0` and the chunk variables:
the start of `mem_read` (R226). -/
def State.startMemRead (s : State) (start : Half) (size : Word) : State :=
  { s with
    mem := Memory.forget s.mem memBase (memBase + s.cfg.membufBytes)
    memMark := s.nextMark
    nextMark := s.nextMark + 1
    memlen := 0
    status := { s.status with memTrunc := false }
    chunkAddr := start
    chunkLeft := size }

/-- The variables of the keyword wait at its start; only Generation A counts milliseconds (R36, R37, R184, R185). -/
def State.startKeyword (s : State) : Gen → State
  | .A => { s with kwPos := 0, kwElapsed := 0 }
  | .B => { s with kwPos := 0 }

/-- One step of `append_payload()` (R228). -/
def State.appendByte (s : State) (b : Byte) : State :=
  if s.memlen.toNat < s.cfg.membufBytes then
    { s with
      mem := Memory.write s.mem (memBase + s.memlen.toNat) b
      memlen := s.memlen + 1 }
  else { s with status := { s.status with memTrunc := true } }

/-- The steps of `append_payload()` over the payload's bytes (R228). -/
def State.appendBytes (s : State) : List Byte → State
  | [] => s
  | b :: bs => (s.appendByte b).appendBytes bs

/-- The payload of the received block, `RXBUF[3 .. RXBUF[0]-1]` (R98, R228). -/
def State.payload (s : State) : List Byte :=
  (List.range ((s.rxByte 0).toNat - 3)).map (fun k => s.rxByte (3 + k))

/-- The 16-bit value at an offset of the payload (R230, R232). -/
def State.payloadValue (s : State) (offset : Nat) : Half :=
  decode16 (s.rxByte (3 + offset)) (s.rxByte (4 + offset))

/-- The 16-bit value at an offset of `MEMBUF` (R231). -/
def State.membufValue (s : State) (offset : Nat) : Half :=
  decode16 (s.membufByte offset) (s.membufByte (offset + 1))

end Sys2Proof.Machine
end

