-- ==== Sys2Proof/Machine/Engine.lean ====
section
/-! DEFINITION. The sequencer (rule R22): what each line of pseudocode does, one move of `ENGINE`, and running until the command ends, the line does not answer, or the outside acts. -/

namespace Sys2Proof.Machine

/-! ## Receiving -/

/-- `RXBUF[i] <- b ; RXCOUNT <- i + 1`, the counter check on the second byte, and the countdown (R154, R156). -/
def State.storeByte (s : State) (i : Nat) (b : Byte) : State :=
  match (if i = 1 then checkCounter s.session b else .ok s.session) with
  | .ok session => (s.storedByte i b session).push [.recvFrom (i + 1)]
  | .error expected => (s.storeRx i b).raiseFatal .counter expected b

/-- The length byte is stored and checked, and starts the countdown (R154, R155). -/
def State.storeLength (s : State) (c : Byte) : State :=
  if sizeFits s.cfg c then (s.storedLength c).push [.recvFrom 1]
  else (s.storeRx 0 c).raiseFatal .overflow (sizeExpected s.cfg) c

/-- One byte of the keyword wait (R183, R184, R185). -/
def State.keywordReceived (s : State) (gen : Gen) (b : Byte) : State :=
  let pos := keywordStep s.kwPos b
  if pos = 3 then { s with kwPos := pos } else ({ s with kwPos := pos }).push (keywordWaitOps gen)

/-- What follows a `Recv()` that answered `b`. -/
def State.received (s : State) (use : RecvUse) (b : Byte) : State :=
  match use with
  | .echo sent => if b = sent then s else s.raiseFatal .echo sent b
  | .complement sent => if b = compl sent then s else s.raiseFatal .complement (compl sent) b
  | .plainResult => { s with result := zextByte b }
  | .complResult => ({ s with result := zextByte b }).push (sendEchoOps s.cfg (compl b))
  | .length => s.push (sendEchoOps s.cfg (compl b) ++ [.storeLength b])
  | .reply i => s.push (sendEchoOps s.cfg (compl b) ++ [.storeByte i b])
  | .last i => s.storeByte i b
  | .keyword gen => s.keywordReceived gen b

/-- `Recv()`: the line's next byte; while the line has none, `pc` stays where it is (R9, R22). -/
def State.receive (s : State) (use : RecvUse) : State :=
  match s.line.rx with
  | [] => s.push [.recv use]
  | b :: rest => (({ s with line := { s.line with rx := rest } }).event (.recv b)).received use b

/-! ## Polling (R9, R184) -/

/-- `Poll()`'s answer: a `true` means that the next `Recv()` returns (R9), so the line answers `true` only if it has a
byte; a script that says no more answers by that alone (assumption 3). -/
def Line.pollAnswer (l : Line) : Bool :=
  match l.polls with
  | [] => !l.rx.isEmpty
  | p :: _ => p && !l.rx.isEmpty

/-- `Poll()` of Generation A's keyword wait, and what follows (R184). -/
def State.pollKeyword (s : State) : State :=
  let polled := ({ s with line := { s.line with polls := s.line.polls.tail } }).event (.poll s.line.pollAnswer)
  if s.line.pollAnswer then polled.push [.recv (.keyword .A)] else polled.push [.delay 1, .keywordTick]

/-- The count of an empty poll and the timeout (R184). -/
def State.keywordTick (s : State) : State :=
  let counted := { s with kwElapsed := s.kwElapsed + 1 }
  if s.cfg.kwTimeoutMs ≤ s.kwElapsed + 1 then counted.raiseTimeout else counted.push [.poll]

/-! ## The identity exchange (R189, R190) -/

/-- After an identification block: the early-ACK shortcut, the title check, the copy, and the ACK. -/
def State.identityCheck (s : State) : State :=
  let t := s.rxByte 2
  if s.idIndex = 0 ∧ t = s.cfg.titleAck ∧ s.session.gen = s.cfg.earlyAckGen then s.setSession .ready
  else if t ≠ s.cfg.titleAscii then s.raiseFatal .title s.cfg.titleAscii t
  else if s.idIndex.val < s.cfg.idFields then (s.copyId s.idIndex.val).push (sendAckOps s.cfg ++ [.identityNext])
  else s.push (sendAckOps s.cfg ++ [.identityNext])

/-- The next identification block, or the final ACK and Ready. -/
def State.identityNext (s : State) : State :=
  if s.idIndex.val + 1 < s.cfg.idBlocks then ({ s with idIndex := s.idIndex + 1 }).push [.recvBlock, .identityCheck]
  else s.push (recvAckOps s.cfg ++ [.setState .ready])

/-! ## One line of pseudocode -/

/-- What one line of pseudocode does; the line has already been taken from `pc`. -/
def State.doOp (s : State) (op : Op) : State :=
  match op with
  | .configure baud =>
    ({ s with session := { s.session with baud := baud }, line := { s.line with baud := baud.toNat } }).event
      (.configure baud)
  | .lineAcquire => ({ s with lineMode := .direct }).event .lineAcquire
  | .lineHold level ms => s.event (.lineHold level ms)
  | .lineRelease => ({ s with lineMode := .transport }).event .lineRelease
  | .delay ms => s.event (.delay ms)
  | .send b => s.event (.send b)
  | .recv use => s.receive use
  | .poll => s.pollKeyword
  | .attemptStart gen => s.attemptStart gen
  | .setState v => s.setSession v
  | .keywordStart gen => (s.startKeyword gen).push (keywordWaitOps gen)
  | .keywordTick => s.keywordTick
  | .fillTx bytes => s.setTxAll bytes
  | .sendBlock => (s.openBlock (s.txByte 0)).push [.sendFrom 0 (s.txByte 0).toNat]
  | .sendFrom i L =>
    if i < L then s.push (sendComplOps s.cfg (s.txByte i) ++ [.sendFrom (i + 1) L]) else s.push (sendEchoOps s.cfg (s.txByte L))
  | .recvBlock => s.startReception.push [.recv .length]
  | .storeLength c => s.storeLength c
  | .recvFrom i =>
    if s.rxRemaining = 0 then s
    else if s.rxRemaining = 1 then s.push [.recv (.last i)]
    else s.push [.recv (.reply i)]
  | .storeByte i b => s.storeByte i b
  | .checkTitle t => if s.rxByte 2 = t then s else s.raiseFatal .title t (s.rxByte 2)
  | .identityStart => ({ s with idIndex := 0 }).push [.recvBlock, .identityCheck]
  | .identityCheck => s.identityCheck
  | .identityNext => s.identityNext
  | .attemptRun a => s.push (connectOps s.cfg .A a (attemptBaud s.cfg s.attempt))
  | .attemptCatch _ => s
  | .memRead k start size => (s.startMemRead start size).push [.memLoop k]
  | .memLoop k => if s.chunkLeft = 0 then s else s.push (chunkOps s.cfg k (chunkSize s.cfg s.chunkLeft) s.chunkAddr)
  | .appendPayload => s.appendBytes s.payload
  | .memAdvance n => { s with chunkAddr := s.chunkAddr + n.setWidth 16, chunkLeft := s.chunkLeft - n }
  | .resultMemlen => { s with result := s.memlen }
  | .resultPayload offset => { s with result := zextHalf (s.payloadValue offset) }
  | .resultMembuf offset => { s with result := zextHalf (s.membufValue offset) }

/-- Whether a line of pseudocode makes an event (R12). -/
def Op.isEvent : Op → Bool
  | .configure _ | .lineAcquire | .lineHold _ _ | .lineRelease | .delay _ | .send _ | .recv _ | .poll => true
  | .attemptStart _ | .setState _ | .keywordStart _ | .keywordTick | .fillTx _ | .sendBlock | .sendFrom _ _
  | .recvBlock | .storeLength _ | .recvFrom _ | .storeByte _ _ | .checkTitle _ | .identityStart | .identityCheck
  | .identityNext | .attemptRun _ | .attemptCatch _ | .memRead _ _ _ | .memLoop _ | .appendPayload | .memAdvance _
  | .resultMemlen | .resultPayload _ | .resultMembuf _ => false

/-! ## Moves of the engine -/

/-- One move of `ENGINE`: the next line of pseudocode, or completion OK when none is left (R21). -/
def State.tick (s : State) : State :=
  match s.pc with
  | .idle | .accepted => s
  | .running _ [] => s.complete .ok
  | .running command (op :: rest) => ({ s with pc := .running command rest }).doOp op

/-- An input of the outside is due before the next event (assumption 4). -/
def State.inputDue (s : State) : Bool :=
  match s.inputs with
  | (0, _) :: _ => true
  | _ => false

/-- The next line of pseudocode is a `Recv()` that the line does not answer (R9, R22). -/
def State.blocked (s : State) : Bool :=
  match s.pc with
  | .running _ (.recv _ :: _) => s.line.rx.isEmpty
  | _ => false

/-- `ENGINE` can move: a command runs, no `Recv()` blocks it, and no input is due before its next event. A line that makes
no event never waits for an input: its writes take effect with the event before it (R65). DESIGN CHOICE (assumption 24):
where the command has made no event before it, which R65 leaves open, they take effect together, when the command begins
(`State.beginCommand`). -/
def State.canRun (s : State) : Bool :=
  match s.pc with
  | .idle | .accepted => false
  | .running _ [] => true
  | .running _ (op :: _) => !s.blocked && !(op.isEvent && s.inputDue)

/-- At most `n` moves of `ENGINE`. -/
def State.run : Nat → State → State
  | 0, s => s
  | n + 1, s => if s.canRun then State.run n s.tick else s

/-- How many moves one step takes at most: enough for a command to use up the line's script and to time out in every
attempt. A command that needs more goes on in the next step, so nothing rests on the number (assumption 6). -/
def State.burst (s : State) : Nat :=
  64 * (s.line.rx.length + 1) + autoAttempts s.cfg * (3 * s.cfg.kwTimeoutMs + 64)

/-- `ENGINE` moves on until it cannot. -/
def State.runOn (s : State) : State := State.run s.burst s

/-- Run a command's pseudocode (R21). -/
def State.launch (s : State) (command : Instr) (ops : List Op) : State :=
  State.runOn { s with status := { s.status with busy := true }, pc := .running command ops }

/-- `require_ready()` (R220): outside Ready the command is rejected NOTREADY. -/
def State.whenReady (s : State) (k : State) : State :=
  if s.status.state = .ready then k else s.reject .notReady

end Sys2Proof.Machine
end

