-- ==== Sys2Proof/Machine/Codec.lean ====
section
/-! DEFINITION. The meanings of the codec's commands (41_codec.md). -/

namespace Sys2Proof.Machine

/-- SEND_ECHO (R130). -/
def execSendEcho (byte : Byte) (s : State) : Host.Outcome State Fault Refusal :=
  .next (s.launch (.sendEcho byte) (sendEchoOps s.cfg byte))

/-- SEND_COMPL (R131). -/
def execSendCompl (byte : Byte) (s : State) : Host.Outcome State Fault Refusal :=
  .next (s.launch (.sendCompl byte) (sendComplOps s.cfg byte))

/-- RECV_PLAIN (R132). -/
def execRecvPlain (s : State) : Host.Outcome State Fault Refusal :=
  .next (s.launch .recvPlain [.recv .plainResult])

/-- RECV_COMPL (R133): `RESULT` is written before the reply. -/
def execRecvCompl (s : State) : Host.Outcome State Fault Refusal :=
  .next (s.launch .recvCompl [.recv .complResult])

end Sys2Proof.Machine
end

