-- ==== Sys2Proof/Machine/Framer.lean ====
section
/-! DEFINITION. The meanings of the Block Framer's commands (42_framer.md). -/

namespace Sys2Proof.Machine

/-- SEND_BLOCK (R150): the length is checked before any event. -/
def execSendBlock (s : State) : Host.Outcome State Fault Refusal :=
  .next (if sendLengthOk s.cfg (s.txByte 0) then s.launch .sendBlock [.sendBlock] else s.reject .badArg)

/-- RECV_BLOCK (R154). -/
def execRecvBlock (s : State) : Host.Outcome State Fault Refusal :=
  .next (s.launch .recvBlock [.recvBlock])

/-- RECV_BLOCK_EXPECT (R158). -/
def execRecvBlockExpect (title : Byte) (s : State) : Host.Outcome State Fault Refusal :=
  .next (s.launch (.recvBlockExpect title) (recvBlockExpectOps title))

end Sys2Proof.Machine
end

