-- ==== Sys2Proof/Machine/ReadyOps.lean ====
section
/-! DEFINITION. The meanings of the Ready-state operations (44_operations.md). -/

namespace Sys2Proof.Machine

/-- LOGIN (R221): the response's title is not checked. -/
def execLogin (safeCode : Half) (fern : Byte) (s : State) : Host.Outcome State Fault Refusal :=
  .next (s.whenReady
    (s.launch (.login safeCode fern)
      [.fillTx (loginRequest s.cfg safeCode fern s.workshop), .sendBlock, .recvBlock]))

/-- GROUP_READING (R222): the response's title is not checked. -/
def execGroupReading (group : Byte) (s : State) : Host.Outcome State Fault Refusal :=
  .next (s.whenReady
    (s.launch (.groupReading group) [.fillTx (groupRequest s.cfg group), .sendBlock, .recvBlock]))

/-- The shared body of the three READ_MEM commands (R223). -/
def State.readMem (s : State) (command : Instr) (k : MemKind) (start : Half) : State :=
  s.whenReady
    (if s.cfg.membufBytes < s.size.toNat then s.reject .badArg
     else s.launch command [.memRead k start s.size, .resultMemlen])

/-- READ_MEM_RAM (R223). -/
def execReadMemRam (start : Half) (s : State) : Host.Outcome State Fault Refusal :=
  .next (s.readMem (.readMemRam start) .ram start)

/-- READ_MEM_ROM (R224). -/
def execReadMemRom (start : Half) (s : State) : Host.Outcome State Fault Refusal :=
  .next (s.readMem (.readMemRom start) .rom start)

/-- READ_MEM_EE (R225). -/
def execReadMemEe (start : Half) (s : State) : Host.Outcome State Fault Refusal :=
  .next (s.readMem (.readMemEe start) .ee start)

/-- SAFE_CODE_CUSTOM (R230). -/
def execSafeCodeCustom (s : State) : Host.Outcome State Fault Refusal :=
  .next (s.whenReady
    (s.launch .safeCodeCustom
      ([.fillTx (safeCodeRequest s.cfg), .sendBlock] ++ recvBlockExpectOps s.cfg.safeRespTitle
        ++ [.resultPayload s.cfg.safeOffset])))

/-- SAFE_CODE_EEPROM (R231): read with the EEPROM kind and its ACK exchanges. -/
def execSafeCodeEeprom (s : State) : Host.Outcome State Fault Refusal :=
  .next (s.whenReady
    (s.launch .safeCodeEeprom
      [.memRead .ee s.cfg.safeEeAddr s.cfg.safeEeSize, .resultMembuf s.cfg.safeEeOffset]))

/-- CALC_CHECKSUM (R232). -/
def execCalcChecksum (s : State) : Host.Outcome State Fault Refusal :=
  .next (s.whenReady
    (s.launch .calcChecksum
      ([.fillTx (checksumRequest s.cfg), .sendBlock] ++ recvBlockExpectOps s.cfg.cksRespTitle
        ++ [.resultPayload s.cfg.cksOffset])))

end Sys2Proof.Machine
end

