-- ==== Sys2Proof/Machine/Session.lean ====
section
/-! DEFINITION. The meanings of the session controller's commands (43_session.md). -/

namespace Sys2Proof.Machine

/-- CONNECT_A (R192). -/
def execConnectA (address : Byte) (baud : Half) (s : State) : Host.Outcome State Fault Refusal :=
  .next (if baud = 0 then s.reject .badArg else s.launch (.connectA address baud) (connectOps s.cfg .A address baud))

/-- CONNECT_B (R193). -/
def execConnectB (address : Byte) (baud : Half) (s : State) : Host.Outcome State Fault Refusal :=
  .next (if baud = 0 then s.reject .badArg else s.launch (.connectB address baud) (connectOps s.cfg .B address baud))

/-- AUTOCONNECT (R195): the attempt index starts at 0 (R40). -/
def execAutoconnect (address : Byte) (s : State) : Host.Outcome State Fault Refusal :=
  .next (State.launch { s with attempt := 0 } (.autoconnect address) [.attemptRun address, .attemptCatch address])

/-- DISCONNECT (R196): no event. -/
def execDisconnect (s : State) : Host.Outcome State Fault Refusal :=
  .next (s.launch .disconnect [.setState .disconnected])

end Sys2Proof.Machine
end

