-- ==== Sys2Proof/Machine/Wakeup.lean ====
section
/-! DEFINITION. The meaning of the Wakeup Signaler's command (40_wakeup.md). -/

namespace Sys2Proof.Machine

/-- WAKEUP (R121). -/
def execWakeup (address : Byte) (s : State) : Host.Outcome State Fault Refusal :=
  .next (s.launch (.wakeup address) (frameOps s.cfg address))

end Sys2Proof.Machine
end

