-- ==== Sys2Proof/Machine/Dispatch.lean ====
section
/-! DEFINITION. One meaning per command (rule R83). -/

namespace Sys2Proof.Machine

def exec (i : Instr) (s : State) : Host.Outcome State Fault Refusal :=
  match i with
  | .wakeup address => Sys2Proof.Machine.execWakeup address s
  | .sendEcho byte => Sys2Proof.Machine.execSendEcho byte s
  | .sendCompl byte => Sys2Proof.Machine.execSendCompl byte s
  | .recvPlain => Sys2Proof.Machine.execRecvPlain s
  | .recvCompl => Sys2Proof.Machine.execRecvCompl s
  | .sendBlock => Sys2Proof.Machine.execSendBlock s
  | .recvBlock => Sys2Proof.Machine.execRecvBlock s
  | .recvBlockExpect title => Sys2Proof.Machine.execRecvBlockExpect title s
  | .connectA address baud => Sys2Proof.Machine.execConnectA address baud s
  | .connectB address baud => Sys2Proof.Machine.execConnectB address baud s
  | .autoconnect address => Sys2Proof.Machine.execAutoconnect address s
  | .disconnect => Sys2Proof.Machine.execDisconnect s
  | .login safeCode fern => Sys2Proof.Machine.execLogin safeCode fern s
  | .groupReading group => Sys2Proof.Machine.execGroupReading group s
  | .readMemRam start => Sys2Proof.Machine.execReadMemRam start s
  | .readMemRom start => Sys2Proof.Machine.execReadMemRom start s
  | .readMemEe start => Sys2Proof.Machine.execReadMemEe start s
  | .safeCodeCustom => Sys2Proof.Machine.execSafeCodeCustom s
  | .safeCodeEeprom => Sys2Proof.Machine.execSafeCodeEeprom s
  | .calcChecksum => Sys2Proof.Machine.execCalcChecksum s

end Sys2Proof.Machine
end

