-- ==== Sys2Proof/Machine/HostPort.lean ====
section
/-! DEFINITION. The host register space (rules R60 to R64), the host's accesses to it, and the other things the outside does (rules R39, R290). -/

namespace Sys2Proof.Machine

/-! ## Reading -/

/-- The byte of a window at a host offset; every other offset reads 0 (R61). -/
def State.windowByte (s : State) (offset : Nat) : Byte :=
  if txBase ≤ offset ∧ offset < txBase + windowBytes then
    (if offset - txBase < s.cfg.maxBlock then s.txByte (offset - txBase) else 0)
  else if rxBase ≤ offset ∧ offset < rxBase + windowBytes then
    (if offset - rxBase < s.cfg.maxBlock then s.rxByte (offset - rxBase) else 0)
  else if idBase ≤ offset ∧ offset < idBase + idBytes then s.idByte (offset - idBase)
  else if memBase ≤ offset ∧ offset < memBase + s.cfg.membufBytes then s.membufByte (offset - memBase)
  else 0

/-- The register at an offset (R61). -/
def State.register (s : State) (offset : Nat) : Option Word :=
  if offset = offStatus then some s.status.word
  else if offset = offCmd then some s.cmd
  else if offset = offArg0 then some s.arg0
  else if offset = offResult then some s.result
  else if offset = offSession then some s.session.word
  else if offset = offErrinfo then some s.errinfo.word
  else if offset = offMemlen then some s.memlen
  else if offset = offRxcount then some s.rxcount
  else none

/-- The word a 32-bit read returns: a register, or four window bytes, the byte at the lowest offset least significant
(R61, R62). -/
def State.readWord (s : State) (offset : Nat) : Word :=
  match s.register offset with
  | some w => w
  | none =>
    wordOfBytes (s.windowByte offset) (s.windowByte (offset + 1)) (s.windowByte (offset + 2)) (s.windowByte (offset + 3))

/-! ## Writing -/

/-- A byte written at a host offset of no register: the `TXBUF` window takes it, but for an index of `MAX_BLOCK` or above;
every other offset ignores it (R61). -/
def State.writeWindowByte (s : State) (offset : Nat) (b : Byte) : State :=
  if txBase ≤ offset ∧ offset < txBase + windowBytes ∧ offset - txBase < s.cfg.maxBlock then s.setTx (offset - txBase) b
  else s

/-- The four bytes of a word written, the least significant at the lowest offset (R62). -/
def State.writeWindowWord (s : State) (offset : Nat) (w : Word) : State :=
  (((s.writeWindowByte offset (w.extractLsb' 0 8)).writeWindowByte (offset + 1) (w.extractLsb' 8 8)).writeWindowByte
    (offset + 2) (w.extractLsb' 16 8)).writeWindowByte (offset + 3) (w.extractLsb' 24 8)

/-- A write of a word anywhere but `CMD`: `ARG0` and `TXBUF` take it while the engine is idle, everything else ignores it
(R44, R61, R64). -/
def State.writeWord (s : State) (offset : Nat) (w : Word) : State :=
  if s.status.busy = true then s
  else if offset = offArg0 then { s with arg0 := w }
  else s.writeWindowWord offset w

/-! ## Commands -/

/-- Run a command word: its meaning, or BADCMD for a reserved word (R84, R85). -/
def execute (w : Word) (s : State) : Host.Outcome State Fault Refusal :=
  match decode w with
  | some i => exec i s
  | none => .next (s.reject .badCmd)

/-- An accepted command can begin: no input is due at once. One that is finds the block with BUSY 1 and nothing of the
command done (R73). -/
def State.canBegin (s : State) : Bool := decide (s.pc = .accepted) && !s.inputDue

/-- The accepted command begins: the word in the `CMD` latch is run. DESIGN CHOICE (assumption 24): that counts as one event
for the inputs to come. -/
def State.beginCommand (s : State) : Host.Outcome State Fault Refusal :=
  execute s.cmd { s with inputs := elapse 1 s.inputs }

/-- A write to `CMD` (R21, R44). -/
def issue (w : Word) (s : State) : Host.Outcome State Fault Refusal :=
  if s.status.busy = true then .next { s with status := { s.status with overrun := true } }
  else if (s.accept w).canBegin then (s.accept w).beginCommand
  else .next (s.accept w)

/-! ## What the outside does -/

/-- The host offset of an access, where the address lies in the block's space (R60). -/
def hostOffset (c : Config) (address : Nat) : Option Nat :=
  if c.hostBase ≤ address ∧ address < c.hostBase + hostSpace then some (address - c.hostBase) else none

/-- Only naturally aligned 32-bit accesses are admitted: the bus address is a multiple of 4 (R63). -/
def admitted (address width : Nat) : Bool := decide (width = 4) && decide (address % 4 = 0)

/-- A host access at an address of the block: outside its space it faults, not admitted it is refused (R60, R63). -/
def State.access (s : State) (address width : Nat) (k : Nat → Host.Outcome State Fault Refusal) :
    Host.Outcome State Fault Refusal :=
  match hostOffset s.cfg address with
  | none => .fault .hostAddressOutsideSpace
  | some offset => if admitted address width then k offset else .refused .hostBadAccess

/-- A byte arrives on the line: under direct control it is lost to `ENGINE` (R39, R122), else the line answers it to a
later `Recv()` (R71). -/
def State.arrive (s : State) (b : Byte) : State :=
  match s.lineMode with
  | .direct => s
  | .transport => { s with line := { s.line with rx := s.line.rx ++ [b] } }

/-- A host read: it changes nothing but the record of what the host did (R12, R64). -/
def State.noteRead (s : State) (address width offset : Nat) : State :=
  { s.record (.memRead address width (s.readWord offset)) with
    hostReads := (address, s.readWord offset) :: s.hostReads }

/-- One input of the outside takes effect; an admitted access is one event of the history, before what it starts (R12). -/
def land (m : Input) (s : State) : Host.Outcome State Fault Refusal :=
  match m with
  | .read address width => s.access address width (fun offset => .next (s.noteRead address width offset))
  | .write address width value =>
    s.access address width (fun offset =>
      let t := s.record (.memWrite address width value)
      if offset = offCmd then issue value t else .next (t.writeWord offset value))
  | .reset => .next s.hardReset
  | .arrive b => .next (s.arrive b)

/-- When the engine cannot move, the next input of the outside lands; with none, the machine stays as it is: idle (R277)
or blocked in a `Recv()` (R262, R300). -/
def awaitInput (s : State) : Host.Outcome State Fault Refusal :=
  match s.inputs with
  | [] => .next s
  | (_, m) :: rest => land m { s with inputs := rest }

/-- The inputs to come, the next of them one event later. -/
def postpone : List (Nat × Input) → List (Nat × Input)
  | [] => []
  | (n, m) :: rest => (n + 1, m) :: rest

/-- `s` with a command word about to be written to `CMD` by the host, the engine idle: how the block gets its next
instruction (R21, R291). No other input is due until the command has begun. -/
def State.offerCommand (s : State) (w : Word) : State :=
  { s with
    status := { s.status with busy := false }
    pc := .idle
    inputs := (0, .write (s.cfg.hostBase + offCmd) 4 w) :: postpone s.inputs }

end Sys2Proof.Machine
end

