-- ==== Sys2Proof/Machine/Step.lean ====
section
/-! DEFINITION. One step: the engine begins a command or moves on while it can, else the outside acts. -/

namespace Sys2Proof.Machine

/-- One step of the block and its outside. -/
def step (s : State) : Host.Outcome State Fault Refusal :=
  if s.canRun then .next s.runOn else if s.canBegin then s.beginCommand else awaitInput s

/-- `s` with an opcode-table word about to be issued: the host writes it to `CMD` next (assumption 7). -/
def State.withFetchWord (s : State) (nbits w : Nat) : State := s.offerCommand (tableWord nbits w)

end Sys2Proof.Machine
end

