-- ==== Sys2Proof/Safety.lean ====
section
/-! DEFINITION. The terms in which claims about runs are made: a line that answers correctly (rule R71), what a block exchange leaves, when nothing from outside lands, and the invariants of the machine. -/

namespace Sys2Proof.Machine

/-! ## Premises -/

/-- Nothing from outside lands during the next `n` events (assumption 4). -/
def State.undisturbed (s : State) (n : Nat) : Prop := ∀ p ∈ s.inputs.head?, n ≤ p.1

/-- The bytes a correct line answers while a block's bytes cross it (R95): each byte but the last is followed by its
complement. Sending, these are the line echo and the module's complement; receiving, the byte and the echo of the reply. -/
def exchange : List Byte → List Byte
  | [] => []
  | [b] => [b]
  | b :: b' :: bs => b :: compl b :: exchange (b' :: bs)

/-- The bytes a correct line answers while a block with length byte `c` is received: the length byte is always answered (R154). -/
def heardAnswers (c : Byte) (body : List Byte) : List Byte := c :: compl c :: exchange body

/-- The events of sending the bytes of a block, the last one being its terminator (R150). -/
def sentEvents (c : Config) : List Byte → List Event
  | [] => []
  | [b] => [.delay c.interbyteMs, .send b, .recv b]
  | b :: b' :: bs => [.delay c.interbyteMs, .send b, .recv b, .recv (compl b)] ++ sentEvents c (b' :: bs)

/-- The events of receiving the bytes after a length byte (R154). -/
def bodyEvents (c : Config) : List Byte → List Event
  | [] => []
  | [b] => [.recv b]
  | b :: b' :: bs => [.recv b, .delay c.interbyteMs, .send (compl b), .recv (compl b)] ++ bodyEvents c (b' :: bs)

/-- The events of receiving a block (R154). -/
def heardEvents (c : Config) (l : Byte) (body : List Byte) : List Event :=
  [.recv l, .delay c.interbyteMs, .send (compl l), .recv (compl l)] ++ bodyEvents c body

/-! ## What a correct exchange leaves -/

/-- `s` with events added to its history, oldest first, the line then having `rx` left to answer. -/
def State.past (s : State) (es : List Event) (rx : List Byte) : State :=
  { s with
    history := es.reverse ++ s.history
    inputs := elapse es.length s.inputs
    line := { s.line with rx := rx } }

/-- The bytes `send_block()` puts on the wire: the block in `TXBUF`, its counter and terminator filled in (R150). -/
def State.outgoing (s : State) : List Byte :=
  (List.range ((s.txByte 0).toNat + 1)).map (s.openBlock (s.txByte 0)).txByte

/-- The state after `send_block()` on a correct line that then has `rest` to answer (R150). -/
def State.sent (s : State) (rest : List Byte) : State :=
  (s.openBlock (s.txByte 0)).past (sentEvents s.cfg s.outgoing) rest

/-- The counter byte of a received block is one that `check_counter` accepts (R156). -/
def Session.accepts (t : Session) : List Byte → Prop
  | [] => True
  | b :: _ => t.firstSeen = false ∨ b = t.counter + 1

/-- The session after a received block's counter byte was accepted (R156). -/
def Session.heard (t : Session) : List Byte → Session
  | [] => t
  | b :: _ => { t with counter := b, firstSeen := true }

/-- The state after `recv_block()` of a block that a correct line delivers and that passes its checks (R154). -/
def State.heard (s : State) (c : Byte) (body rest : List Byte) : State :=
  { s with
    mem := Memory.writeFrom (Memory.forget s.mem rxBase (rxBase + windowBytes)) rxBase (c :: body)
    rxMark := s.nextMark
    nextMark := s.nextMark + 1
    rxcount := BitVec.ofNat 32 (body.length + 1)
    rxRemaining := 0
    session := s.session.heard body
    history := (heardEvents s.cfg c body).reverse ++ s.history
    inputs := elapse (heardEvents s.cfg c body).length s.inputs
    line := { s.line with rx := rest } }

/-- A block that the module can deliver here: its length byte counts its bytes, it fits, and its counter is accepted. -/
structure State.Hears (s : State) (c : Byte) (body : List Byte) : Prop where
  counted : body.length = c.toNat
  fits : c.toNat + 1 ≤ s.cfg.maxBlock
  counter : s.session.accepts body

/-! ## Blocks and answers, written out -/

/-- A block that the module sends: its length byte and the bytes after it, terminator included (R93). -/
abbrev Block := Byte × List Byte

/-- The block with the given counter, title and payload, and the terminator (R93). -/
def block (counter title : Byte) (payload : List Byte) : Block :=
  (BitVec.ofNat 8 (payload.length + 3), counter :: title :: payload ++ [terminator])

/-- All the bytes of a block, its length byte first. -/
def Block.bytes (b : Block) : List Byte := b.1 :: b.2

/-- What a correct line answers while the engine sends a block (R95). -/
def Block.answersSent (b : Block) : List Byte := exchange b.bytes

/-- What a correct line answers while the engine receives a block (R95). -/
def Block.answersHeard (b : Block) : List Byte := heardAnswers b.1 b.2

/-- The events of sending a block (R150). -/
def Block.eventsSent (b : Block) (c : Config) : List Event := sentEvents c b.bytes

/-- The events of receiving a block (R154). -/
def Block.eventsHeard (b : Block) (c : Config) : List Event := heardEvents c b.1 b.2

/-- An ACK block with the given counter (R97). -/
def ackBlock (c : Config) (counter : Byte) : Block := block counter c.titleAck []

/-- The session after a block was sent: the shared counter is one more (R150, R151). -/
def Session.sent (t : Session) : Session := { t with counter := t.counter + 1 }

/-! ## What a request and its response leave (R221, R222, R230, R232) -/

/-- `t` is `s` after the block `request` was sent from `TXBUF` and the block `b` was received into `RXBUF`; `ending` is what
the history then has besides. -/
structure State.ExchangedTo (s t : State) (request b : Block) (ending : List Event) : Prop where
  cfg : t.cfg = s.cfg
  history : t.history = ending ++ (request.eventsSent s.cfg ++ b.eventsHeard s.cfg).reverse ++ s.history
  session : t.session = s.session.sent.heard b.2
  sent : ∀ i < request.bytes.length, t.txByte i = request.bytes.getD i 0
  received : ∀ i < b.bytes.length, t.rxByte i = b.bytes.getD i 0
  rxcount : t.rxcount = BitVec.ofNat 32 b.bytes.length
  elsewhere : ∀ a, (a < txBase ∨ txBase + request.bytes.length ≤ a) → (a < rxBase ∨ rxBase + windowBytes ≤ a) →
    t.windowByte a = s.windowByte a
  idle : t.pc = .idle
  registers : t.arg0 = s.arg0 ∧ t.cmd = s.cmd ∧ t.memlen = s.memlen ∧ t.hostReads = s.hostReads
  hidden : t.lineMode = s.lineMode ∧ t.attempt = s.attempt ∧ t.chunkAddr = s.chunkAddr ∧ t.chunkLeft = s.chunkLeft ∧
    t.idIndex = s.idIndex ∧ t.kwPos = s.kwPos ∧ t.kwElapsed = s.kwElapsed

/-- The module's block is one that the engine accepts right after it has sent a block. -/
structure State.AcceptsAfterSend (s : State) (b : Block) : Prop where
  counted : b.2.length = b.1.toNat
  fits : b.1.toNat + 1 ≤ s.cfg.maxBlock
  counter : s.session.sent.accepts b.2

/-! ## Connecting (R181 to R191) -/

/-- The events of the wakeup frame (R121). -/
def frameEvents (c : Config) (a : Byte) : List Event :=
  .lineAcquire :: (wakeupBits c a).map (fun v => .lineHold v c.bitMs) ++ [.lineRelease]

/-- The answers of a keyword wait: `none` is an empty poll, `some b` a byte that is there. -/
abbrev KeywordAnswers := List (Option Byte)

/-- The keyword matcher's position after some answers (R183). -/
def keywordAfter (answers : KeywordAnswers) : Fin 4 :=
  answers.foldl (fun pos answer => match answer with
    | none => pos
    | some b => keywordStep pos b) 0

/-- The bytes among the answers. -/
def keywordBytes (answers : KeywordAnswers) : List Byte := answers.filterMap id

/-- What `Poll()` answers (R184). -/
def keywordPolls (answers : KeywordAnswers) : List Bool := answers.map Option.isSome

/-- The events of Generation A's keyword wait (R184). -/
def keywordEvents (answers : KeywordAnswers) : List Event :=
  answers.flatMap (fun answer => match answer with
    | none => [.poll false, .delay 1]
    | some b => [.poll true, .recv b])

/-- The keyword is matched at the last answer and not before, with fewer than `bound` empty polls (R184). -/
structure KeywordFound (bound : Nat) (answers : KeywordAnswers) : Prop where
  found : keywordAfter answers = 3
  first : ∀ n < answers.length, keywordAfter (answers.take n) ≠ 3
  inTime : answers.count none < bound

/-- The keyword is never matched, and the last answer is the empty poll number `bound` (R184). -/
structure KeywordMissed (bound : Nat) (answers : KeywordAnswers) : Prop where
  missed : ∀ n ≤ answers.length, keywordAfter (answers.take n) ≠ 3
  bounded : answers.count none = bound
  lastEmpty : answers.getLast? = some none

/-- The keyword is not matched yet, after fewer than `bound` empty polls (R184, R185). -/
structure KeywordPending (bound : Nat) (answers : KeywordAnswers) : Prop where
  pending : ∀ n ≤ answers.length, keywordAfter (answers.take n) ≠ 3
  inTime : answers.count none < bound

/-- No answer before the last one ended the keyword wait: the keyword was not matched, and fewer than `bound` polls were
empty (R184, R185). -/
structure KeywordOpen (bound : Nat) (answers : KeywordAnswers) : Prop where
  pending : ∀ n < answers.length, keywordAfter (answers.take n) ≠ 3
  inTime : answers.dropLast.count none < bound

/-- The events of a generation's keyword wait (R184, R185). -/
def waitEvents : Gen → KeywordAnswers → List Event
  | .A, answers => keywordEvents answers
  | .B, answers => (keywordBytes answers).map .recv

/-- The answers to `Poll()` that a generation's keyword wait uses up; Generation B does not poll (R185). -/
def waitPolls : Gen → KeywordAnswers → List Bool
  | .A, answers => keywordPolls answers
  | .B, _ => []

/-- Fewer empty polls than this find the keyword: Generation B has none (R184, R185). -/
def waitBound (c : Config) : Gen → Nat
  | .A => c.kwTimeoutMs
  | .B => 1

/-- The line answers a generation's keyword wait so that the keyword is found, and then has `polls` and `rest`. -/
structure State.KeywordComes (s : State) (gen : Gen) (answers : KeywordAnswers) (polls : List Bool) (rest : List Byte) :
    Prop where
  found : KeywordFound (waitBound s.cfg gen) answers
  polls : s.line.polls = waitPolls gen answers ++ polls
  bytes : s.line.rx = keywordBytes answers ++ rest

/-- The events of a silent attempt, its timeout the last (R184, R195). -/
def silentEvents (c : Config) (a : Byte) (baud : Half) : List Event :=
  .configure baud :: frameEvents c a ++ keywordEvents (List.replicate c.kwTimeoutMs none) ++ [.timeout]

/-- The baud of attempt `j` of AUTOCONNECT: 10400, 9600, 10400, 9600 (R195). -/
def autoBaud (j : Nat) : Half := if j % 2 = 0 then 10400 else 9600

/-- The events of AUTOCONNECT's first `m` attempts, all silent, each followed by the delay before the next (R195). -/
def retriedEvents (c : Config) (a : Byte) (m : Nat) : List Event :=
  (List.range m).flatMap (fun j => silentEvents c a (autoBaud j) ++ [.delay c.retryDelayMs])

/-- One run of the connect sequence (R191): by CONNECT_A or CONNECT_B, or by the attempt of AUTOCONNECT that follows `m`
attempts on a silent line. -/
inductive Attempt where
  | connect (gen : Gen) (baud : Half)
  | autoconnect (m : Nat)
  deriving DecidableEq, Repr

/-- The command whose attempt it is, for a module address. -/
def Attempt.command (a : Byte) : Attempt → Instr
  | .connect .A baud => .connectA a baud
  | .connect .B baud => .connectB a baud
  | .autoconnect _ => .autoconnect a

/-- The generation of the attempt (R192, R193, R195). -/
def Attempt.gen : Attempt → Gen
  | .connect gen _ => gen
  | .autoconnect _ => .A

/-- The baud of the attempt (R192, R193, R195). -/
def Attempt.baud : Attempt → Half
  | .connect _ baud => baud
  | .autoconnect m => autoBaud m

/-- The attempts there are: a baud that is not 0 (R192), and at most three attempts before (R195). -/
def Attempt.allowed : Attempt → Prop
  | .connect _ baud => baud ≠ 0
  | .autoconnect m => m < 4

/-- The events of the command before the attempt. -/
def Attempt.earlier (c : Config) (a : Byte) : Attempt → List Event
  | .connect _ _ => []
  | .autoconnect m => retriedEvents c a m

/-- The answers to `Poll()` that the attempts before use up. -/
def Attempt.earlierPolls (c : Config) : Attempt → List Bool
  | .connect _ _ => []
  | .autoconnect m => List.replicate (m * c.kwTimeoutMs) false

/-- The events up to the attempt's keyword wait (R181, R182). -/
def Attempt.toWait (x : Attempt) (c : Config) (a : Byte) : List Event :=
  x.earlier c a ++ .configure x.baud :: frameEvents c a

/-- The events up to the attempt's confirmation, the keyword wait having these answers (R184, R185). -/
def Attempt.toConfirm (x : Attempt) (c : Config) (a : Byte) (answers : KeywordAnswers) : List Event :=
  x.toWait c a ++ waitEvents x.gen answers

/-- The events of the confirmation (R186). -/
def confirmEvents (c : Config) : List Event :=
  [.delay c.settleMs, .delay c.interbyteMs, .send confirmByte, .recv confirmByte]

/-- The events up to the attempt's identity exchange (R186). -/
def Attempt.toIdentity (x : Attempt) (c : Config) (a : Byte) (answers : KeywordAnswers) : List Event :=
  x.toConfirm c a answers ++ confirmEvents c

/-- What a correct line answers while identification blocks with these payloads are received and acknowledged, the
module's first counter being `k` (R190). -/
def acknowledgedAnswers (c : Config) (k : Byte) : List (List Byte) → List Byte
  | [] => []
  | p :: ps =>
    (block k c.titleAscii p).answersHeard ++ (ackBlock c (k + 1)).answersSent ++ acknowledgedAnswers c (k + 2) ps

/-- The events of that (R190). -/
def acknowledgedEvents (c : Config) (k : Byte) : List (List Byte) → List Event
  | [] => []
  | p :: ps =>
    (block k c.titleAscii p).eventsHeard c ++ (ackBlock c (k + 1)).eventsSent c ++ acknowledgedEvents c (k + 2) ps

/-- What a correct line answers during the identity exchange (R190), for the payloads of the identification blocks; the
module's first counter is `k`, and each block and ACK carries the next one. -/
def identityAnswers (c : Config) (k : Byte) : List (List Byte) → List Byte
  | [] => (ackBlock c k).answersHeard
  | p :: ps => (block k c.titleAscii p).answersHeard ++ (ackBlock c (k + 1)).answersSent ++ identityAnswers c (k + 2) ps

/-- The events of that identity exchange (R190). -/
def identityEvents (c : Config) (k : Byte) : List (List Byte) → List Event
  | [] => (ackBlock c k).eventsHeard c
  | p :: ps => (block k c.titleAscii p).eventsHeard c ++ (ackBlock c (k + 1)).eventsSent c ++ identityEvents c (k + 2) ps

/-- The events of a connect sequence whose keyword wait has the given events (R191). -/
def connectEvents (c : Config) (a : Byte) (baud : Half) (wait identity : List Event) : List Event :=
  .configure baud :: frameEvents c a ++ wait ++ confirmEvents c ++ identity

/-- Every register and window that a connect sequence leaves alone: all but `TXBUF[0..3]`, `RXBUF` and `ID` (R192). -/
structure State.KeptByConnect (s t : State) : Prop where
  cfg : t.cfg = s.cfg
  registers : t.arg0 = s.arg0 ∧ t.cmd = s.cmd ∧ t.result = s.result ∧ t.memlen = s.memlen ∧ t.hostReads = s.hostReads
  chunks : t.chunkAddr = s.chunkAddr ∧ t.chunkLeft = s.chunkLeft
  windows : ∀ a, (a < txBase ∨ txBase + 4 ≤ a) → (a < rxBase ∨ rxBase + windowBytes ≤ a) →
    (a < idBase ∨ idBase + idBytes ≤ a) → t.windowByte a = s.windowByte a

/-- `t` is `s` after a connect sequence that reached Ready through the identity exchange (R190, R191): the identification
blocks had these payloads, and the module's first counter was `k`. -/
structure State.ConnectedTo (s t : State) (gen : Gen) (baud : Half) (k : Byte) (payloads : List (List Byte)) : Prop where
  kept : s.KeptByConnect t
  status : t.status = { s.status with busy := false, outcome := .ok, errCode := .none, state := .ready }
  errinfo : t.errinfo = ⟨0, 0⟩
  session : t.session = ⟨k + 8, true, gen, baud⟩
  idle : t.pc = .idle
  lineMode : t.lineMode = .transport
  ids : ∀ j < 3, ∀ i < 12, i ≤ (payloads.getD j []).length →
    t.idByte (12 * j + i) = (payloads.getD j [] ++ [terminator]).getD i 0
  sent : ∀ i < 4, t.txByte i = (ackBlock s.cfg (k + 7)).bytes.getD i 0
  received : ∀ i < 4, t.rxByte i = (ackBlock s.cfg (k + 8)).bytes.getD i 0
  rxcount : t.rxcount = 4

/-- `t` is `s` after a connect sequence that ended FATAL with this error (R192, R264). -/
structure State.FailedTo (s t : State) (code : ErrCode) (expected actual : Byte) : Prop where
  kept : s.KeptByConnect t
  status : t.status = { s.status with busy := false, outcome := .fatal, errCode := code, state := .disconnected }
  errinfo : t.errinfo = ⟨expected, actual⟩
  idle : t.pc = .idle
  lineMode : t.lineMode = .transport

/-- `t` is `s` with a command running that has made these events, and STATE is `v`. -/
structure State.RunningAt (s t : State) (es : List Event) (v : SessionState) : Prop where
  busy : t.status.busy = true
  state : t.status.state = v
  history : t.history = es.reverse ++ s.history

/-- `t` is `s` after an attempt whose keyword wait timed out (R184, R266). -/
structure State.TimedOutTo (s t : State) (baud : Half) : Prop where
  kept : s.KeptByConnect t
  status : t.status = { s.status with busy := false, outcome := .timeout, errCode := .none, state := .disconnected }
  errinfo : t.errinfo = ⟨0, 0⟩
  session : t.session = ⟨0, false, .A, baud⟩
  idle : t.pc = .idle
  lineMode : t.lineMode = .transport
  ids : ∀ i < idBytes, t.idByte i = 0
  buffers : t.txByte = s.txByte ∧ t.rxByte = s.rxByte ∧ t.rxcount = s.rxcount

/-! ## Memory reads (R226, R227) -/

/-- The number of chunks of a read (R227). -/
def chunkCount (size : Word) : Nat := (size.toNat + 31) / 32

/-- The number of bytes that chunk `j` of a read asks for (R227). -/
def chunkBytes (size : Word) (j : Nat) : Nat := if 32 * (j + 1) ≤ size.toNat then 32 else size.toNat % 32

/-- The address that chunk `j` of a read asks for, modulo 2^16 (R227). -/
def chunkAddress (start : Half) (j : Nat) : Half := start + BitVec.ofNat 16 (32 * j)

/-- The request of chunk `j`, the session's counter having been `k` before the read (R97, R226). -/
def chunkRequest (c : Config) (kind : MemKind) (start : Half) (size : Word) (k : Byte) (j : Nat) : Block :=
  block (k + BitVec.ofNat 8 (4 * j + 1)) (requestTitle c kind)
    [BitVec.ofNat 8 (chunkBytes size j), hiByte (chunkAddress start j), loByte (chunkAddress start j)]

/-- The module's response to chunk `j`, with a payload of any length (R98, R228). -/
def chunkResponse (c : Config) (kind : MemKind) (k : Byte) (j : Nat) (payload : List Byte) : Block :=
  block (k + BitVec.ofNat 8 (4 * j + 2)) (responseTitle c kind) payload

/-- What a correct line answers during chunk `j` of a memory read, the module's payload being `payload` (R226). -/
def answersOfChunk (c : Config) (kind : MemKind) (start : Half) (size : Word) (k : Byte) (j : Nat) (payload : List Byte) :
    List Byte :=
  (chunkRequest c kind start size k j).answersSent ++ (chunkResponse c kind k j payload).answersHeard
    ++ (ackBlock c (k + BitVec.ofNat 8 (4 * j + 3))).answersSent
    ++ (ackBlock c (k + BitVec.ofNat 8 (4 * j + 4))).answersHeard

/-- The events of that chunk (R226). -/
def eventsOfChunk (c : Config) (kind : MemKind) (start : Half) (size : Word) (k : Byte) (j : Nat) (payload : List Byte) :
    List Event :=
  (chunkRequest c kind start size k j).eventsSent c ++ (chunkResponse c kind k j payload).eventsHeard c
    ++ (ackBlock c (k + BitVec.ofNat 8 (4 * j + 3))).eventsSent c
    ++ (ackBlock c (k + BitVec.ofNat 8 (4 * j + 4))).eventsHeard c

/-- What a correct line answers during the first `n` chunks of a memory read with these payloads (R226). -/
def answersOfChunks (c : Config) (kind : MemKind) (start : Half) (size : Word) (k : Byte) (payloads : List (List Byte))
    (n : Nat) : List Byte :=
  (List.range n).flatMap (fun j => answersOfChunk c kind start size k j (payloads.getD j []))

/-- The events of those chunks (R226). -/
def eventsOfChunks (c : Config) (kind : MemKind) (start : Half) (size : Word) (k : Byte) (payloads : List (List Byte))
    (n : Nat) : List Event :=
  (List.range n).flatMap (fun j => eventsOfChunk c kind start size k j (payloads.getD j []))

/-- What a correct line answers during a memory read whose chunks are answered with these payloads (R226). -/
def memAnswers (c : Config) (kind : MemKind) (start : Half) (size : Word) (k : Byte) (payloads : List (List Byte)) :
    List Byte :=
  answersOfChunks c kind start size k payloads (chunkCount size)

/-- The events of that memory read (R226). -/
def memEvents (c : Config) (kind : MemKind) (start : Half) (size : Word) (k : Byte) (payloads : List (List Byte)) :
    List Event :=
  eventsOfChunks c kind start size k payloads (chunkCount size)

/-- `t` is `s` after a memory read that succeeded; `data` is the concatenation of the payloads (R226, R228). -/
structure State.MemReadTo (s t : State) (size : Word) (data : List Byte) : Prop where
  cfg : t.cfg = s.cfg
  memlen : t.memlen.toNat = min data.length s.cfg.membufBytes
  contents : ∀ i < t.memlen.toNat, t.membufByte i = data.getD i 0
  status : t.status =
    { s.status with busy := false, outcome := .ok, memTrunc := decide (s.cfg.membufBytes < data.length) }
  counter : t.session.counter = s.session.counter + BitVec.ofNat 8 (4 * chunkCount size)
  session : t.session.gen = s.session.gen ∧ t.session.baud = s.session.baud
  errinfo : t.errinfo = s.errinfo
  idle : t.pc = .idle
  registers : t.arg0 = s.arg0 ∧ t.cmd = s.cmd ∧ t.hostReads = s.hostReads
  hidden : t.lineMode = s.lineMode ∧ t.attempt = s.attempt ∧ t.idIndex = s.idIndex ∧ t.kwPos = s.kwPos ∧
    t.kwElapsed = s.kwElapsed
  windows : ∀ a, (a < txBase ∨ txBase + 7 ≤ a) → (a < rxBase ∨ rxBase + windowBytes ≤ a) →
    (a < memBase ∨ memBase + s.cfg.membufBytes ≤ a) → t.windowByte a = s.windowByte a

/-! ## Going on -/

/-- The state after `n` more steps of the machine, none of them made once no command runs: how a command that was blocked or
interrupted by an input goes on. `none` if a step stopped. -/
def State.goesOn : Nat → State → Option State
  | 0, s => some s
  | n + 1, s =>
    if s.pc = .idle then some s
    else match step s with
      | .next t => State.goesOn n t
      | .fault _ => none
      | .refused _ => none

/-- The host does not reset the block: no reset is among the inputs to come. -/
def State.noReset (s : State) : Prop := ∀ p ∈ s.inputs, p.2 ≠ .reset

/-! ## Invariants -/

/-- `STATUS.BUSY` is 1 exactly while a command runs (R21, R22); a running command has no outcome yet (R21); and after a
FATAL or TIMEOUT outcome the session is Disconnected (R269). -/
structure State.OutcomeInv (s : State) : Prop where
  busy_iff : s.status.busy = true ↔ s.pc ≠ .idle
  running_none : s.status.busy = true → s.status.outcome = .none ∧ s.status.reject = .none
  failed_disconnected :
    s.status.outcome = .fatal ∨ s.status.outcome = .timeout → s.status.state = .disconnected
  no_error_no_info : s.status.errCode = .none → s.errinfo = ⟨0, 0⟩

/-- The line mode after an event, where the event may happen in that mode (R39, R122, R264); the host's accesses may happen
in both. -/
def lineAfter : LineMode → Event → Option LineMode
  | m, .memRead _ _ _ => some m
  | m, .memWrite _ _ _ => some m
  | .transport, .lineAcquire => some .direct
  | .transport, .lineHold _ _ => none
  | .transport, .lineRelease => none
  | .transport, _ => some .transport
  | .direct, .lineHold _ _ => some .direct
  | .direct, .lineRelease => some .transport
  | .direct, _ => none

/-- The line mode that a history, newest event first, leaves; `none` if an event happened in the wrong mode (R122). -/
def lineModeOf : List Event → Option LineMode
  | [] => some .transport
  | e :: older => (lineModeOf older).bind (fun m => lineAfter m e)

/-- The pseudocode left keeps to the line mode and ends in TRANSPORT (R39, R122). -/
def keepsLine : LineMode → List Op → Bool
  | .transport, [] => true
  | .direct, [] => false
  | .transport, .lineAcquire :: rest => keepsLine .direct rest
  | .transport, .lineHold _ _ :: _ => false
  | .transport, .lineRelease :: _ => false
  | .transport, _ :: rest => keepsLine .transport rest
  | .direct, .lineHold _ _ :: rest => keepsLine .direct rest
  | .direct, .lineRelease :: rest => keepsLine .transport rest
  | .direct, _ :: _ => false

/-- `line_mode` is DIRECT exactly between a `LineAcquire` and its `LineRelease`, and only `LineHold` events happen in
between (R39, R122, R297). -/
def State.LineInv (s : State) : Prop :=
  lineModeOf s.history = some s.lineMode ∧ keepsLine s.lineMode s.pc.todo = true

/-- The host's accesses, which may land between any two events of `ENGINE` (R65). -/
def Event.byHost : Event → Bool
  | .memRead _ _ _ | .memWrite _ _ _ => true
  | .configure _ | .send _ | .recv _ | .poll _ | .delay _ | .lineAcquire | .lineHold _ _ | .lineRelease | .fatal _ _ _
  | .timeout => false

/-- The events of `ENGINE` in a history. -/
def engineEvents (history : List Event) : List Event := history.filter (fun e => !e.byHost)

/-- Every `Send` of a history, newest event first, directly follows a `Delay(INTERBYTE_MS)` (R135). -/
def sendsSpaced (c : Config) : List Event → Bool
  | [] => true
  | [.send _] => false
  | .send _ :: e :: older => decide (e = .delay c.interbyteMs) && sendsSpaced c (e :: older)
  | _ :: older => sendsSpaced c older

/-- Every `Send` of the pseudocode left directly follows a `Delay(INTERBYTE_MS)`; `ready` says that the last event was one. -/
def opsSpaced (c : Config) : Bool → List Op → Bool
  | _, [] => true
  | ready, .send _ :: rest => ready && opsSpaced c false rest
  | _, .delay ms :: rest => opsSpaced c (decide (ms = c.interbyteMs)) rest
  | _, _ :: rest => opsSpaced c false rest

/-- Inter-byte spacing is kept (R135, R296): among the events of `ENGINE`, and in the pseudocode left. -/
def State.SpacingInv (s : State) : Prop :=
  sendsSpaced s.cfg (engineEvents s.history) = true ∧
  opsSpaced s.cfg (decide ((engineEvents s.history).head? = some (.delay s.cfg.interbyteMs))) s.pc.todo = true

/-- A line of pseudocode that is no part of a reception under way. -/
def Op.outsideReception : Op → Bool
  | .recv .length | .recv (.reply _) | .recv (.last _) | .storeLength _ | .storeByte _ _ | .recvFrom _ => false
  | _ => true

/-- At most one reception is under way, at the front of the pseudocode left; at index `i` with `remaining` bytes to come
it stays within `limit` bytes (R38, R154). -/
def receptionFits (limit remaining : Nat) : List Op → Prop
  | [] => True
  | .delay _ :: rest => receptionFits limit remaining rest
  | .send _ :: rest => receptionFits limit remaining rest
  | .recv (.echo _) :: rest => receptionFits limit remaining rest
  | .recv (.reply i) :: rest => 1 ≤ remaining ∧ i + remaining ≤ limit ∧ ∀ op ∈ rest, op.outsideReception = true
  | .recv (.last i) :: rest => 1 ≤ remaining ∧ i + remaining ≤ limit ∧ ∀ op ∈ rest, op.outsideReception = true
  | .storeByte i _ :: rest => 1 ≤ remaining ∧ i + remaining ≤ limit ∧ ∀ op ∈ rest, op.outsideReception = true
  | .recvFrom i :: rest => i + remaining ≤ limit ∧ ∀ op ∈ rest, op.outsideReception = true
  | _ :: rest => ∀ op ∈ rest, op.outsideReception = true

/-- `RXCOUNT` never exceeds `MAX_BLOCK` (R30), and a reception under way keeps it so. -/
structure State.ReceptionInv (s : State) : Prop where
  valid : s.cfg.Valid
  count : s.rxcount.toNat ≤ s.cfg.maxBlock
  fits : receptionFits s.cfg.maxBlock s.rxRemaining.toNat s.pc.todo

/-- The buffers keep their canonical form, and `MEMLEN` never exceeds `MEMBUF_BYTES` (R29). -/
structure State.BufferInv (s : State) : Prop where
  valid : s.cfg.Valid
  canonical : Memory.wf s.mem
  length : s.memlen.toNat ≤ s.cfg.membufBytes

end Sys2Proof.Machine
end

