-- ==== Sys2Proof/Certificates/Slice0/Obligations.lean ====
section
/-! DEFINITION. The statements about the model, for the provers. -/

open Sys2Proof Sys2Proof.Machine

/-! ## Encoding -/

/-- Decoding the bytes of an encoded command gives the command back, whatever follows them (R80, R82, R83). -/
def Obligations.DecodeInvertsEncode : Prop :=
  ∀ (i : Instr) (rest : List Byte), i.wellFormed = true → decodeBytes (encodeBytes i ++ rest) = some (i, rest)

/-- R84: the rows of the opcode map are disjoint, decoding finds the one row that matches, and a word that no row matches
changes nothing but `STATUS` when it is executed: BADCMD. -/
def Obligations.DecodeFollowsOpcodeMap : Prop :=
  (opcodeMap.Pairwise (fun r r' => ∀ w : Word, ¬(w &&& r.mask = r.pattern ∧ w &&& r'.mask = r'.pattern))) ∧
  (∀ w : Word, (decode w).map mnemonic
    = (opcodeMap.find? (fun r => decide (w &&& r.mask = r.pattern))).map Row.mnemonic) ∧
  (∀ (w : Word) (s : State), (∀ r ∈ opcodeMap, w &&& r.mask ≠ r.pattern) →
    execute w s = .next { s with
      status := { s.status with reject := .badCmd, outcome := .rejected, busy := false }
      pc := .idle })

/-- R81, R82: a decoded command holds exactly the bits of the word that its row uses; the other bits are ignored. -/
def Obligations.DecodeIgnoresUnusedBits : Prop :=
  (∀ (w : Word) (i : Instr), decode w = some i → encode i = w &&& usedBits i) ∧
  (∀ (w w' : Word) (i : Instr), decode w = some i → w' &&& usedBits i = w &&& usedBits i → decode w' = some i)

/-- Words written out from the encoding of R80 and R83, one or more for each family. -/
def Obligations.SampleWordsDecode : Prop :=
  decode 0x00005601 = some (.wakeup 0x56) ∧
  decode 0x00007510 = some (.sendEcho 0x75) ∧
  decode 0x00000013 = some .recvCompl ∧
  decode 0x00000922 = some (.recvBlockExpect 0x09) ∧
  decode 0x28A05631 = some (.connectB 0x56 10400) ∧
  decode 0xABCD1740 = some (.login 0xABCD 0x17) ∧
  decode 0x80000142 = some (.readMemRom 0x8000) ∧
  decode 0x00000342 = none

/-! ## Reset, steps and the host's accesses -/

/-- R45: what reset leaves, for any parameters. An unspecified buffer byte is one that memory does not hold. -/
def Obligations.ResetValues : Prop :=
  ∀ c : Config,
    let s := State.resetWith c
    (s.status = ⟨false, .none, .none, .none, false, false, .disconnected⟩ ∧ s.status.word = 0) ∧
    (s.cmd = 0 ∧ s.arg0 = 0 ∧ s.result = 0) ∧
    (s.session = ⟨0, false, .A, 0⟩ ∧ s.session.word = 0) ∧
    (s.errinfo.word = 0 ∧ s.memlen = 0 ∧ s.rxcount = 0) ∧
    (∀ k < idBytes, s.idByte k = 0) ∧
    (∀ i, i < windowBytes → Memory.read s.mem (txBase + i) = none ∧ Memory.read s.mem (rxBase + i) = none) ∧
    (∀ i, Memory.read s.mem (memBase + i) = none) ∧
    (s.pc = .idle ∧ s.lineMode = .transport ∧ s.kwPos = 0 ∧ s.kwElapsed = 0 ∧ s.rxRemaining = 0 ∧ s.attempt = 0 ∧
      s.chunkAddr = 0 ∧ s.chunkLeft = 0 ∧ s.idIndex = 0)

/-- For all parameters that meet rule R6, the source's values among them, the state right after reset meets every invariant
stated below; the reference parameters meet rule R6. That a block starts with an empty history, no input and a silent line
is the model's choice (assumption 18), and so are the parameters of `State.reset` itself (assumption 1). -/
def Obligations.ResetMeetsInvariants : Prop :=
  Config.reference.Valid ∧
  ∀ c : Config, c.Valid →
    (c.bitMs = 200 ∧ c.wakeupAddrBits = 7 ∧ c.interbyteMs = 1 ∧ c.retryDelayMs = 2000 ∧ c.autoBauds = [10400, 9600] ∧
      c.autoPasses = 2 ∧ c.chunkMax = 32 ∧ c.idLen = 12 ∧ c.idFields = 3 ∧ c.idBlocks = 4 ∧ c.titleAck = 0x09) ∧
    (State.resetWith c).OutcomeInv ∧ (State.resetWith c).LineInv ∧ (State.resetWith c).SpacingInv ∧
    (State.resetWith c).ReceptionInv ∧ (State.resetWith c).BufferInv

/-- R290: a hardware reset at any moment gives the reset values and abandons the running command without a further
event, but for the release of a line under direct control; the transport is not reset. -/
def Obligations.HardResetAbandonsCommand : Prop :=
  ∀ s : State, ∃ t, land .reset s = .next t ∧
    (let r := State.resetWith s.cfg
     t.status = r.status ∧ t.cmd = r.cmd ∧ t.arg0 = r.arg0 ∧ t.result = r.result ∧ t.session = r.session ∧
     t.errinfo = r.errinfo ∧ t.memlen = r.memlen ∧ t.rxcount = r.rxcount ∧ t.mem = r.mem ∧ t.pc = r.pc ∧
     t.kwPos = r.kwPos ∧ t.kwElapsed = r.kwElapsed ∧ t.rxRemaining = r.rxRemaining ∧ t.lineMode = r.lineMode ∧
     t.attempt = r.attempt ∧ t.chunkAddr = r.chunkAddr ∧ t.chunkLeft = r.chunkLeft ∧ t.idIndex = r.idIndex) ∧
    (s.lineMode = .direct → t.history = .lineRelease :: s.history) ∧
    (s.lineMode = .transport → t.history = s.history) ∧
    t.line = s.line

/-- R21, R73, R84: a step of an idle block whose host writes a word to `CMD` next accepts it, with the writes of R21. When no
other input is due at once the same step begins the command: it runs the command that the word decodes to, and ends a
reserved word REJECTED BADCMD with no other change. An input that is due at once finds the block busy and nothing of the
command done (R73: BUSY is 1 at once), and the command begins in the first step that finds no input due. While a command can
move on, a step does that; and a word placed by `withFetchWord` is the next command. The model's choices: that an idle
engine takes the next input whatever its number of events (assumption 5), that a step makes `State.burst` moves at most
(assumption 6), that a program's words are `CMD` writes (assumption 7), and that a command's begin counts as one event for
the inputs to come (assumption 24). A `CMD` at a bus address that is no multiple of 4 cannot be written (R63). -/
def Obligations.StepRunsDecodedCommand : Prop :=
  (∀ (s : State) (n : Nat) (w : Word) (later : List (Nat × Input)),
    s.status.busy = false → s.pc = .idle → s.inputs = (n, .write (s.cfg.hostBase + offCmd) 4 w) :: later →
    s.cfg.hostBase % 4 = 0 →
    let accepted : State := { s with
      status := { s.status with busy := true, outcome := .none, reject := .none, overrun := false }
      result := 0
      cmd := w
      pc := .accepted
      inputs := later
      history := .memWrite (s.cfg.hostBase + offCmd) 4 w :: s.history }
    (accepted.undisturbed 1 → ∀ i, decode w = some i → step s = exec i { accepted with inputs := elapse 1 later }) ∧
    (accepted.undisturbed 1 → decode w = none → step s = .next { accepted with
      status := { s.status with busy := false, outcome := .rejected, reject := .badCmd, overrun := false }
      pc := .idle
      inputs := elapse 1 later }) ∧
    (¬accepted.undisturbed 1 → step s = .next accepted)) ∧
  (∀ s : State, s.pc = .accepted →
    (s.undisturbed 1 → ∀ i, decode s.cmd = some i → step s = exec i { s with inputs := elapse 1 s.inputs }) ∧
    (s.undisturbed 1 → decode s.cmd = none → step s = .next { s with
      status := { s.status with busy := false, outcome := .rejected, reject := .badCmd }
      pc := .idle
      inputs := elapse 1 s.inputs }) ∧
    (∀ later, s.cfg.hostBase % 4 = 0 → s.inputs = (0, .read (s.cfg.hostBase + offStatus) 4) :: later →
      step s = .next { s with
        inputs := later
        hostReads := (s.cfg.hostBase + offStatus, s.status.word) :: s.hostReads
        history := .memRead (s.cfg.hostBase + offStatus) 4 s.status.word :: s.history }) ∧
    (∀ m later, s.inputs = (0, m) :: later → step s = land m { s with inputs := later })) ∧
  (∀ s : State, s.canRun = true → step s = .next (State.run s.burst s)) ∧
  (∀ (s : State) (w : Nat), w < 2 ^ 32 → s.cfg.hostBase % 4 = 0 →
    let accepted : State := { s with
      status := { s.status with busy := true, outcome := .none, reject := .none, overrun := false }
      result := 0
      cmd := BitVec.ofNat 32 w
      pc := .accepted
      history := .memWrite (s.cfg.hostBase + offCmd) 4 (BitVec.ofNat 32 w) :: s.history }
    (∀ i, decode (BitVec.ofNat 32 w) = some i → step (s.withFetchWord 32 w) = exec i accepted) ∧
    (decode (BitVec.ofNat 32 w) = none → step (s.withFetchWord 32 w) = .next { accepted with
      status := { s.status with busy := false, outcome := .rejected, reject := .badCmd, overrun := false }
      pc := .idle }))

/-- R44: while a command runs, a `CMD` write only sets OVERRUN, every other write is ignored, and a read gives the
live value; the history records the access (R12). At an offset that is no multiple of 4 the value read is the model's
choice (assumption 8, DESIGN CHOICE). -/
def Obligations.WritesWhileBusyIgnored : Prop :=
  ∀ (s : State) (offset : Nat) (v : Word), s.status.busy = true → offset < hostSpace →
    (s.cfg.hostBase + offset) % 4 = 0 →
    land (.write (s.cfg.hostBase + offset) 4 v) s =
      .next { s with
        status := { s.status with overrun := s.status.overrun || decide (offset = offCmd) }
        history := .memWrite (s.cfg.hostBase + offset) 4 v :: s.history } ∧
    land (.read (s.cfg.hostBase + offset) 4) s =
      .next { s with
        hostReads := (s.cfg.hostBase + offset, s.readWord offset) :: s.hostReads
        history := .memRead (s.cfg.hostBase + offset) 4 (s.readWord offset) :: s.history }

/-- R64: every admitted host read is answered, while the engine is idle or runs a command, and the value is the word at the
offset. It changes nothing the block holds, only the records of what the host did (R12), so a second read of any offset
gives the same value. At an offset that is no multiple of 4 the value read is the model's choice (assumption 8, DESIGN
CHOICE). -/
def Obligations.HostReadHasNoSideEffect : Prop :=
  (∀ (s : State) (offset : Nat), offset < hostSpace → (s.cfg.hostBase + offset) % 4 = 0 →
    land (.read (s.cfg.hostBase + offset) 4) s = .next { s with
      hostReads := (s.cfg.hostBase + offset, s.readWord offset) :: s.hostReads
      history := .memRead (s.cfg.hostBase + offset) 4 (s.readWord offset) :: s.history }) ∧
  ∀ (s t : State) (address width : Nat), land (.read address width) s = .next t →
    t = { s with hostReads := t.hostReads, history := t.history } ∧ engineEvents t.history = engineEvents s.history ∧
    ∀ offset, t.readWord offset = s.readWord offset

/-- R23, R61, R64: while the engine is idle `ARG0` takes the word written; a write to a read-only register, a
read-only window or an unlisted offset is ignored. An offset that is no multiple of 4 is the model's choice
(assumption 8, DESIGN CHOICE). -/
def Obligations.IdleWritesReachOnlyWritable : Prop :=
  ∀ (s : State) (offset : Nat) (v : Word), s.status.busy = false → offset < hostSpace →
    (s.cfg.hostBase + offset) % 4 = 0 → offset ≠ offCmd → (offset + 4 ≤ txBase ∨ txBase + windowBytes ≤ offset) →
    land (.write (s.cfg.hostBase + offset) 4 v) s =
      .next { s with
        arg0 := if offset = offArg0 then v else s.arg0
        history := .memWrite (s.cfg.hostBase + offset) 4 v :: s.history }

/-- R63: an access whose bus address is not a multiple of 4, or that is not 4 bytes wide, is refused, and an access outside
the block's space is not the block's (the fault is the model's choice, assumption 8). -/
def Obligations.UnadmittedAccessStops : Prop :=
  ∀ (s : State) (address width : Nat) (v : Word),
    (s.cfg.hostBase ≤ address → address < s.cfg.hostBase + hostSpace → width ≠ 4 ∨ address % 4 ≠ 0 →
      land (.read address width) s = .refused .hostBadAccess ∧
      land (.write address width v) s = .refused .hostBadAccess) ∧
    (address < s.cfg.hostBase ∨ s.cfg.hostBase + hostSpace ≤ address →
      land (.read address width) s = .fault .hostAddressOutsideSpace ∧
      land (.write address width v) s = .fault .hostAddressOutsideSpace)

/-- R61, R62: the bytes of the windows stand at the offsets of the map, an index of `MAX_BLOCK` or above and an offset of no
window read 0, and the byte at offset `i` sits in the word at `i - i % 4`, in bits `8 * (i % 4) + 7` to `8 * (i % 4)`. -/
def Obligations.WindowWordIsLittleEndian : Prop :=
  (∀ (s : State) (offset : Nat), 0x20 ≤ offset →
    (s.readWord (offset - offset % 4)).extractLsb' (8 * (offset % 4)) 8 = s.windowByte offset) ∧
  (∀ s : State, s.cfg.Valid →
    s.readWord 0x0100 = s.txByte 3 ++ s.txByte 2 ++ s.txByte 1 ++ s.txByte 0) ∧
  (∀ (s : State) (i : Nat), i < 256 →
    s.windowByte (0x0100 + i) = (if i < s.cfg.maxBlock then s.txByte i else 0) ∧
    s.windowByte (0x0200 + i) = (if i < s.cfg.maxBlock then s.rxByte i else 0)) ∧
  (∀ (s : State) (j k : Nat), j < 3 → k < 12 → s.windowByte (0x0300 + 12 * j + k) = s.idByte (12 * j + k)) ∧
  (∀ (s : State) (i : Nat), i < s.cfg.membufBytes → s.windowByte (0x1000 + i) = s.membufByte i) ∧
  (∀ (s : State) (offset : Nat),
    offset < 0x0100 ∨ (0x0324 ≤ offset ∧ offset < 0x1000) ∨ 0x1000 + s.cfg.membufBytes ≤ offset →
    s.windowByte offset = 0) ∧
  (∀ (s : State) (offset : Nat),
    (0x20 ≤ offset ∧ offset + 4 ≤ 0x0100) ∨ (0x0324 ≤ offset ∧ offset + 4 ≤ 0x1000) ∨
      0x1000 + s.cfg.membufBytes ≤ offset →
    s.readWord offset = 0)

/-- R31, R61, R62: a word written to the `TXBUF` window while idle lands in its four bytes, but for indexes of
`MAX_BLOCK` and above, which go on reading 0; every other byte of every window keeps its value, and so does every
register. An index that is no multiple of 4, which a HOST_BASE that is none admits, is the model's choice (assumption
8, DESIGN CHOICE). -/
def Obligations.TxWriteChangesItsBytes : Prop :=
  ∀ (s : State) (i : Nat) (v : Word), s.status.busy = false → (s.cfg.hostBase + txBase + i) % 4 = 0 → i < windowBytes →
    ∃ t, land (.write (s.cfg.hostBase + txBase + i) 4 v) s = .next t ∧
      (∀ j < 4, i + j < windowBytes →
        t.windowByte (txBase + i + j) = if i + j < s.cfg.maxBlock then v.extractLsb' (8 * j) 8 else 0) ∧
      (∀ a, a < txBase + i ∨ txBase + i + 4 ≤ a ∨ txBase + windowBytes ≤ a → t.windowByte a = s.windowByte a) ∧
      t = { s with mem := t.mem, history := .memWrite (s.cfg.hostBase + txBase + i) 4 v :: s.history }

/-- R25, R27, R28, R61: the registers at the offsets of the map, the fields of `STATUS`, `SESSION` and `ERRINFO` as the host
reads them, and the number of every value of OUTCOME, ERR_CODE, REJECT and STATE. -/
def Obligations.RegisterFieldLayout : Prop :=
  (∀ s : State,
    s.readWord 0x0000 = s.status.word ∧ s.readWord 0x0004 = s.cmd ∧ s.readWord 0x0008 = s.arg0 ∧
    s.readWord 0x000C = s.result ∧ s.readWord 0x0010 = s.session.word ∧ s.readWord 0x0014 = s.errinfo.word ∧
    s.readWord 0x0018 = s.memlen ∧ s.readWord 0x001C = s.rxcount) ∧
  (∀ t : Status,
    t.word.extractLsb' 0 1 = bit t.busy ∧ t.word.extractLsb' 1 3 = t.outcome.code ∧
    t.word.extractLsb' 4 4 = t.errCode.code ∧ t.word.extractLsb' 8 3 = t.reject.code ∧
    t.word.extractLsb' 11 1 = bit t.overrun ∧ t.word.extractLsb' 12 1 = bit t.memTrunc ∧
    t.word.extractLsb' 13 3 = 0 ∧ t.word.extractLsb' 16 3 = t.state.code ∧ t.word.extractLsb' 19 13 = 0) ∧
  (bit false = 0 ∧ bit true = 1) ∧
  (CmdOutcome.none.code = 0 ∧ CmdOutcome.ok.code = 1 ∧ CmdOutcome.timeout.code = 2 ∧ CmdOutcome.fatal.code = 3 ∧
    CmdOutcome.rejected.code = 4) ∧
  (ErrCode.none.code = 0 ∧ ErrCode.echo.code = 1 ∧ ErrCode.complement.code = 2 ∧ ErrCode.counter.code = 3 ∧
    ErrCode.title.code = 4 ∧ ErrCode.overflow.code = 5) ∧
  (Reject.none.code = 0 ∧ Reject.badCmd.code = 1 ∧ Reject.notReady.code = 2 ∧ Reject.badArg.code = 3) ∧
  (SessionState.disconnected.code = 0 ∧ SessionState.addressing.code = 1 ∧ SessionState.awaitingKeyword.code = 2 ∧
    SessionState.confirming.code = 3 ∧ SessionState.exchangingIdentity.code = 4 ∧ SessionState.ready.code = 5) ∧
  (∀ t : Session,
    t.word.extractLsb' 0 8 = t.counter ∧ t.word.extractLsb' 8 1 = bit t.firstSeen ∧
    t.word.extractLsb' 9 1 = bit (decide (t.gen = .B)) ∧ t.word.extractLsb' 10 6 = 0 ∧
    t.word.extractLsb' 16 16 = t.baud) ∧
  (∀ t : ErrInfo,
    t.word.extractLsb' 0 8 = t.expected ∧ t.word.extractLsb' 8 8 = t.actual ∧ t.word.extractLsb' 16 16 = 0)

/-! ## The Wakeup Signaler -/

/-- R120: the ten bits of the frame; its address bits and parity hold an odd number of ones, and bit 7 is not sent. -/
def Obligations.WakeupBitsFollowParityRule : Prop :=
  ∀ (c : Config) (a : Byte), c.Valid →
    wakeupBits c a =
      [false, a.getLsbD 0, a.getLsbD 1, a.getLsbD 2, a.getLsbD 3, a.getLsbD 4, a.getLsbD 5, a.getLsbD 6,
        true ^^ a.getLsbD 0 ^^ a.getLsbD 1 ^^ a.getLsbD 2 ^^ a.getLsbD 3 ^^ a.getLsbD 4 ^^ a.getLsbD 5 ^^ a.getLsbD 6,
        true] ∧
    (((wakeupBits c a).drop 1).take 8).count true % 2 = 1 ∧
    wakeupBits c (a ^^^ 0x80) = wakeupBits c a

/-- R121: WAKEUP (`OP = 0x01`, `X` the address) takes the line, holds the ten bits for 200 ms each, releases the line and
ends OK; nothing else changes. -/
def Obligations.WakeupSendsFrame : Prop :=
  (∀ (a : Byte) (y : Half), decode (cmdWord 0x01 a y) = some (.wakeup a)) ∧
  ∀ (a : Byte) (s : State), s.cfg.Valid → s.undisturbed 12 →
    exec (.wakeup a) s =
      .next { s with
        status := { s.status with outcome := .ok, busy := false }
        pc := .idle
        lineMode := .transport
        history :=
          (Event.lineAcquire :: (wakeupBits s.cfg a).map (fun v => Event.lineHold v 200) ++ [Event.lineRelease]).reverse
            ++ s.history
        inputs := elapse 12 s.inputs }

/-! ## The codec -/

/-- R130, R264: SEND_ECHO (`OP = 0x10`, `X` the byte) waits `INTERBYTE_MS`, sends, and compares the echo; a wrong one is a
FATAL entry, written out here. The entry is one
more event of the history (R12), and counts as one for the inputs to come (assumption 23). -/
def Obligations.SendEchoChecksEcho : Prop :=
  (∀ (b : Byte) (y : Half), decode (cmdWord 0x10 b y) = some (.sendEcho b)) ∧
  ∀ (b e : Byte) (r : List Byte) (s : State), s.undisturbed 3 → s.line.rx = e :: r →
    exec (.sendEcho b) s =
      .next (let t := s.past [.delay s.cfg.interbyteMs, .send b, .recv e] r
             if e = b then { t with status := { s.status with outcome := .ok, busy := false }, pc := .idle }
             else { t with
               status := { s.status with errCode := .echo, state := .disconnected, outcome := .fatal, busy := false }
               errinfo := ⟨b, e⟩
               pc := .idle
               history := .fatal .echo b e :: t.history
               inputs := elapse 1 t.inputs })

/-- R131: SEND_COMPL (`OP = 0x11`, `X` the byte) checks the echo first, and then, if it was right, the complement. A
FATAL entry is one more event of the history (R12), and counts as one for the inputs to come (assumption 23). -/
def Obligations.SendComplChecksComplement : Prop :=
  (∀ (b : Byte) (y : Half), decode (cmdWord 0x11 b y) = some (.sendCompl b)) ∧
  ∀ (b : Byte) (s : State), s.undisturbed 4 →
    (∀ (e : Byte) (r : List Byte), s.line.rx = e :: r → e ≠ b →
      exec (.sendCompl b) s = .next ((s.past [.delay s.cfg.interbyteMs, .send b, .recv e] r).raiseFatal .echo b e)) ∧
    (∀ (k : Byte) (r : List Byte), s.line.rx = b :: k :: r →
      exec (.sendCompl b) s =
        .next (let t := s.past [.delay s.cfg.interbyteMs, .send b, .recv b, .recv k] r
               if k = b ^^^ 0xFF then t.complete .ok else t.raiseFatal .complement (b ^^^ 0xFF) k))

/-- R132: RECV_PLAIN (`OP = 0x12`) returns the byte received and sends nothing. -/
def Obligations.RecvPlainReturnsByte : Prop :=
  (∀ (x : Byte) (y : Half), decode (cmdWord 0x12 x y) = some .recvPlain) ∧
  ∀ (b : Byte) (r : List Byte) (s : State), s.undisturbed 1 → s.line.rx = b :: r →
    exec .recvPlain s = .next (({ s.past [.recv b] r with result := b.setWidth 32 } : State).complete .ok)

/-- R133: RECV_COMPL (`OP = 0x13`) answers the byte with its complement and checks the echo; `RESULT` keeps the byte
even when the echo is wrong. A FATAL entry is one more event of the history (R12), and counts as one for the inputs to
come (assumption 23). -/
def Obligations.RecvComplKeepsResult : Prop :=
  (∀ (x : Byte) (y : Half), decode (cmdWord 0x13 x y) = some .recvCompl) ∧
  ∀ (b e : Byte) (r : List Byte) (s : State), s.undisturbed 4 → s.line.rx = b :: e :: r →
    exec .recvCompl s =
      .next (let t : State :=
               { s.past [.recv b, .delay s.cfg.interbyteMs, .send (b ^^^ 0xFF), .recv e] r with result := b.setWidth 32 }
             if e = b ^^^ 0xFF then t.complete .ok else t.raiseFatal .echo (b ^^^ 0xFF) e)

/-- R300: a command blocked in a `Recv()` stays where it is. Nothing that the host does but a reset ends it, and with
nothing arriving it never moves. A host access leaves the engine's events of the history as they were; the access itself is
recorded (R12, assumption 23). -/
def Obligations.BlockedReceiveCannotBeCancelled : Prop :=
  (∀ (s t : State) (m : Input), s.status.busy = true → s.blocked = true → m ≠ .reset → (∀ b, m ≠ .arrive b) →
    land m s = .next t →
      t.pc = s.pc ∧ t.blocked = true ∧ t.line = s.line ∧ engineEvents t.history = engineEvents s.history ∧
      t.status = { s.status with overrun := t.status.overrun } ∧ step { t with inputs := [] } = .next { t with inputs := [] }) ∧
  (∀ s : State, s.blocked = true → s.inputs = [] → step s = .next s)

/-- R22, R39, R71, R122: a byte that arrives while `line_mode` is DIRECT is lost, and one that arrives in TRANSPORT is
answered to a later `Recv()`, after the bytes already there. A RECV_PLAIN that finds no byte keeps the block busy, and the
byte that then arrives completes it. That a blocked engine takes the next input whatever its number of events is the model's
choice (assumption 5, DESIGN CHOICE). -/
def Obligations.ArrivalCompletesReceive : Prop :=
  (∀ (s : State) (b : Byte), s.lineMode = .direct → land (.arrive b) s = .next s) ∧
  (∀ (s : State) (b : Byte), s.lineMode = .transport →
    land (.arrive b) s = .next { s with line := { s.line with rx := s.line.rx ++ [b] } }) ∧
  ∀ (s : State) (n : Nat) (b : Byte), s.line.rx = [] → s.lineMode = .transport → s.inputs = [(n, .arrive b)] →
    ∃ t u v, exec .recvPlain s = .next t ∧ t.status.busy = true ∧ t.history = s.history ∧
      step t = .next u ∧ u.status.busy = true ∧ u.line.rx = [b] ∧
      step u = .next v ∧ v.status = { s.status with outcome := .ok, busy := false } ∧ v.pc = .idle ∧
      v.result = b.setWidth 32 ∧ v.history = .recv b :: s.history ∧ v.line.rx = []

/-! ## The framer -/

/-- R150: on a correct line SEND_BLOCK sends the block in `TXBUF`, with the next counter and the terminator in their
places, and ends OK. -/
def Obligations.SendBlockCompletes : Prop :=
  ∀ (s : State) (r : List Byte), 3 ≤ (s.txByte 0).toNat → (s.txByte 0).toNat + 1 ≤ s.cfg.maxBlock →
    s.undisturbed (sentEvents s.cfg s.outgoing).length → s.line.rx = exchange s.outgoing ++ r →
    exec .sendBlock s = .next ((s.sent r).complete .ok)

/-- R150, R151, R152: what SEND_BLOCK changes on a correct line: the counter, `TXBUF[1]` and `TXBUF[L]`; every other byte
of every window and every other register keeps its value, FIRST_SEEN among them. -/
def Obligations.SendBlockFillsPlaceholders : Prop :=
  ∀ (s : State) (r : List Byte), s.cfg.Valid →
    3 ≤ (s.txByte 0).toNat → (s.txByte 0).toNat + 1 ≤ s.cfg.maxBlock →
    s.undisturbed (sentEvents s.cfg s.outgoing).length → s.line.rx = exchange s.outgoing ++ r →
    ∃ t, exec .sendBlock s = .next t ∧
      t.windowByte (txBase + 1) = s.session.counter + 1 ∧
      t.windowByte (txBase + (s.txByte 0).toNat) = 0x03 ∧
      (∀ a, a ≠ txBase + 1 → a ≠ txBase + (s.txByte 0).toNat → t.windowByte a = s.windowByte a) ∧
      t.session = { s.session with counter := s.session.counter + 1 } ∧
      t.status = { s.status with outcome := .ok, busy := false } ∧
      t.line.rx = r ∧
      t = { s with
        mem := t.mem
        session := t.session
        status := t.status
        pc := .idle
        history := (sentEvents s.cfg s.outgoing).reverse ++ s.history
        inputs := t.inputs
        line := t.line }

/-- R150, R264: SEND_BLOCK ends FATAL at the first byte whose echo or complement is wrong: no later byte is sent, and
the counter and the placeholders stay written. A FATAL entry is one more event of the history (R12), and counts as one
for the inputs to come (assumption 23). -/
def Obligations.SendBlockStopsAtWrongAnswer : Prop :=
  ∀ (s : State) (i : Nat) (r : List Byte), 3 ≤ (s.txByte 0).toNat → (s.txByte 0).toNat + 1 ≤ s.cfg.maxBlock →
    s.undisturbed (4 * (i + 1)) →
    let b := s.outgoing.getD i 0
    let earlier := (s.outgoing.take i).flatMap (fun b => [.delay s.cfg.interbyteMs, .send b, .recv b, .recv (b ^^^ 0xFF)])
    let answers := (s.outgoing.take i).flatMap (fun b => [b, b ^^^ 0xFF])
    (∀ e, i ≤ (s.txByte 0).toNat → e ≠ b → s.line.rx = answers ++ e :: r →
      exec .sendBlock s = .next
        (((s.openBlock (s.txByte 0)).past (earlier ++ [.delay s.cfg.interbyteMs, .send b, .recv e]) r).raiseFatal .echo b e)) ∧
    (∀ k, i < (s.txByte 0).toNat → k ≠ b ^^^ 0xFF → s.line.rx = answers ++ b :: k :: r →
      exec .sendBlock s = .next
        (((s.openBlock (s.txByte 0)).past (earlier ++ [.delay s.cfg.interbyteMs, .send b, .recv b, .recv k]) r).raiseFatal
          .complement (b ^^^ 0xFF) k))

/-- R154, R157: RECV_BLOCK of a block that a correct line delivers, that fits and whose counter is accepted, ends OK. Any
length byte counts as it says, and the last byte may have any value. -/
def Obligations.RecvBlockCompletes : Prop :=
  ∀ (s : State) (b : Block) (r : List Byte), s.Hears b.1 b.2 → s.undisturbed (b.eventsHeard s.cfg).length →
    s.line.rx = b.answersHeard ++ r → exec .recvBlock s = .next ((s.heard b.1 b.2 r).complete .ok)

/-- R154, R30, R32: what RECV_BLOCK leaves on a correct line: the bytes in `RXBUF`, their number in `RXCOUNT`, the session
by the counter byte; `RXBUF` beyond them is unspecified; every other window and register keeps its value. That an
unspecified byte is `Config.freeByte` is the model's form (assumption 2). -/
def Obligations.RecvBlockStoresBytes : Prop :=
  ∀ (s : State) (b : Block) (r : List Byte), s.cfg.Valid → s.Hears b.1 b.2 → s.undisturbed (b.eventsHeard s.cfg).length →
    s.line.rx = b.answersHeard ++ r →
    ∃ t, exec .recvBlock s = .next t ∧
      (∀ i < b.bytes.length, t.rxByte i = b.bytes.getD i 0) ∧
      (∀ i, b.bytes.length ≤ i → t.rxByte i = Config.freeByte .rx t.rxMark i) ∧
      t.rxcount = BitVec.ofNat 32 b.bytes.length ∧
      t.session = s.session.heard b.2 ∧
      (∀ a, a < rxBase ∨ rxBase + windowBytes ≤ a → t.windowByte a = s.windowByte a) ∧
      t.status = { s.status with outcome := .ok, busy := false } ∧
      t.line.rx = r ∧
      t = { s with
        mem := t.mem
        rxcount := t.rxcount
        session := t.session
        status := t.status
        pc := .idle
        rxRemaining := 0
        history := (b.eventsHeard s.cfg).reverse ++ s.history
        inputs := t.inputs
        line := t.line
        rxMark := t.rxMark
        nextMark := t.nextMark }

/-- R155: a length byte that claims more than `MAX_BLOCK` bytes ends the reception OVERFLOW, after its reply. A FATAL
entry is one more event of the history (R12), and counts as one for the inputs to come (assumption 23). -/
def Obligations.OversizedBlockOverflows : Prop :=
  ∀ (s : State) (c : Byte) (r : List Byte), s.cfg.maxBlock < c.toNat + 1 → s.undisturbed 4 →
    s.line.rx = c :: (c ^^^ 0xFF) :: r →
    exec .recvBlock s = .next
      (((s.startReception.storeRx 0 c).past [.recv c, .delay s.cfg.interbyteMs, .send (c ^^^ 0xFF), .recv (c ^^^ 0xFF)] r).raiseFatal
        .overflow (BitVec.ofNat 8 (s.cfg.maxBlock - 1)) c)

/-- R156: the first received counter is the baseline, a later one must be the next; any other ends the reception
COUNTER after the counter byte's reply, before a later byte is read, and leaves COUNTER and FIRST_SEEN as they were. A
FATAL entry is one more event of the history (R12), and counts as one for the inputs to come (assumption 23). -/
def Obligations.CounterContinuity : Prop :=
  (∀ (t : Session) (b : Byte), t.firstSeen = false → checkCounter t b = .ok { t with counter := b, firstSeen := true }) ∧
  (∀ (t : Session) (b : Byte), t.firstSeen = true → b = t.counter + 1 → checkCounter t b = .ok { t with counter := b }) ∧
  (∀ (s : State) (l b : Byte) (r : List Byte), l.toNat + 1 ≤ s.cfg.maxBlock → s.session.firstSeen = true →
    b ≠ s.session.counter + 1 → s.undisturbed 8 →
    let first : List Event := [.recv l, .delay s.cfg.interbyteMs, .send (l ^^^ 0xFF), .recv (l ^^^ 0xFF), .recv b]
    let stored := (s.startReception.storedLength l).storeRx 1 b
    (2 ≤ l.toNat → s.line.rx = l :: (l ^^^ 0xFF) :: b :: (b ^^^ 0xFF) :: r →
      exec .recvBlock s = .next
        ((stored.past (first ++ [.delay s.cfg.interbyteMs, .send (b ^^^ 0xFF), .recv (b ^^^ 0xFF)]) r).raiseFatal
          .counter (s.session.counter + 1) b)) ∧
    (l = 1 → s.line.rx = l :: (l ^^^ 0xFF) :: b :: r →
      exec .recvBlock s = .next ((stored.past first r).raiseFatal .counter (s.session.counter + 1) b)))

/-- R158: RECV_BLOCK_EXPECT receives the whole block and then compares its title; of a block too short to have one the
title is unspecified (R157), and the comparison is made with that byte. A FATAL entry is one more event of the history
(R12), and counts as one for the inputs to come (assumption 23). -/
def Obligations.RecvBlockExpectChecksTitle : Prop :=
  ∀ (s : State) (title : Byte) (b : Block) (r : List Byte), s.Hears b.1 b.2 → s.undisturbed (b.eventsHeard s.cfg).length →
    s.line.rx = b.answersHeard ++ r →
    exec (.recvBlockExpect title) s =
      .next (let t := s.heard b.1 b.2 r
             if t.rxByte 2 = title then t.complete .ok else t.raiseFatal .title title (t.rxByte 2))

/-- R268: within a reception the echo of a reply is checked before the size or the counter, so a wrong echo is
reported ECHO whatever the byte was. A FATAL entry is one more event of the history (R12), and counts as one for the
inputs to come (assumption 23). -/
def Obligations.ReplyEchoCheckedFirst : Prop :=
  ∀ (s : State) (l e : Byte) (r : List Byte), s.undisturbed 8 →
    (e ≠ l ^^^ 0xFF → s.line.rx = l :: e :: r →
      exec .recvBlock s = .next
        ((s.startReception.past [.recv l, .delay s.cfg.interbyteMs, .send (l ^^^ 0xFF), .recv e] r).raiseFatal .echo (l ^^^ 0xFF) e)) ∧
    (∀ b : Byte, 2 ≤ l.toNat → l.toNat + 1 ≤ s.cfg.maxBlock → e ≠ b ^^^ 0xFF →
      s.line.rx = l :: (l ^^^ 0xFF) :: b :: e :: r →
      exec .recvBlock s = .next
        (((s.startReception.storedLength l).past
          [.recv l, .delay s.cfg.interbyteMs, .send (l ^^^ 0xFF), .recv (l ^^^ 0xFF), .recv b, .delay s.cfg.interbyteMs, .send (b ^^^ 0xFF), .recv e]
          r).raiseFatal .echo (b ^^^ 0xFF) e))

/-- R160: a block sent and then returned by the peer with counter `k` is received with the length, title and payload that
were sent, when FIRST_SEEN is 0 or `k` is the sent counter plus one. -/
def Obligations.LoopBackReproducesBlock : Prop :=
  ∀ (s : State) (k : Byte) (r : List Byte), s.cfg.Valid →
    3 ≤ (s.txByte 0).toNat → (s.txByte 0).toNat + 1 ≤ s.cfg.maxBlock → s.inputs = [] →
    (s.session.firstSeen = false ∨ k = s.session.counter + 2) →
    s.line.rx = exchange s.outgoing ++ heardAnswers (s.txByte 0) ((s.outgoing.drop 1).set 0 k) ++ r →
    ∃ t u, exec .sendBlock s = .next t ∧ t.status.outcome = .ok ∧ t.session.counter = s.session.counter + 1 ∧
      exec .recvBlock t = .next u ∧ u.status.outcome = .ok ∧ u.session.counter = k ∧ u.session.firstSeen = true ∧
      u.rxByte 0 = s.txByte 0 ∧ u.rxByte 2 = s.txByte 2 ∧
      (∀ i, 3 ≤ i → i < (s.txByte 0).toNat → u.rxByte i = s.txByte i) ∧
      u.rxcount = BitVec.ofNat 32 ((s.txByte 0).toNat + 1) ∧ u.line.rx = r

/-! ## The session controller -/

/-- R183: a byte that matches moves the position on and any other sets it to 0; a match means that the last three bytes
were 55 01 8A, and a mismatched 0x55 is not tested again. -/
def Obligations.KeywordMatcher : Prop :=
  (∀ b, keywordStep 0 b = if b = 0x55 then 1 else 0) ∧
  (∀ b, keywordStep 1 b = if b = 0x01 then 2 else 0) ∧
  (∀ b, keywordStep 2 b = if b = 0x8A then 3 else 0) ∧
  (∀ bytes : List Byte, bytes.foldl keywordStep 0 = 3 → ∃ earlier, bytes = earlier ++ [0x55, 0x01, 0x8A]) ∧
  ([0x55, 0x55, 0x01, 0x8A] : List Byte).foldl keywordStep 0 ≠ 3 ∧
  ([0x55, 0x55, 0x01, 0x8A, 0x55, 0x01, 0x8A] : List Byte).foldl keywordStep 0 = 3

/-- R192: CONNECT_A reaches Ready when the keyword comes in time, the confirmation is echoed and the module goes through
the identity exchange. -/
def Obligations.ConnectACompletes : Prop :=
  ∀ (s : State) (a : Byte) (baud : Half) (answers : KeywordAnswers) (polls : List Bool) (k : Byte)
    (payloads : List (List Byte)) (r : List Byte),
    s.cfg.Valid → baud ≠ 0 → payloads.length = 4 → (∀ p ∈ payloads, p.length + 4 ≤ s.cfg.maxBlock) →
    s.KeywordComes .A answers polls (confirmByte :: identityAnswers s.cfg k payloads ++ r) →
    let events := connectEvents s.cfg a baud (waitEvents .A answers) (identityEvents s.cfg k payloads)
    s.undisturbed events.length →
    ∃ t, exec (.connectA a baud) s = .next t ∧ s.ConnectedTo t .A baud k payloads ∧
      t.history = events.reverse ++ s.history ∧ t.line = ⟨r, polls, baud.toNat⟩ ∧ t.attempt = s.attempt

/-- R193: CONNECT_B does the same with Generation B's keyword wait. -/
def Obligations.ConnectBCompletes : Prop :=
  ∀ (s : State) (a : Byte) (baud : Half) (answers : KeywordAnswers) (polls : List Bool) (k : Byte)
    (payloads : List (List Byte)) (r : List Byte),
    s.cfg.Valid → baud ≠ 0 → payloads.length = 4 → (∀ p ∈ payloads, p.length + 4 ≤ s.cfg.maxBlock) →
    s.KeywordComes .B answers polls (confirmByte :: identityAnswers s.cfg k payloads ++ r) →
    let events := connectEvents s.cfg a baud (waitEvents .B answers) (identityEvents s.cfg k payloads)
    s.undisturbed events.length →
    ∃ t, exec (.connectB a baud) s = .next t ∧ s.ConnectedTo t .B baud k payloads ∧
      t.history = events.reverse ++ s.history ∧ t.line = ⟨r, polls, baud.toNat⟩ ∧ t.attempt = s.attempt

/-- R189, R191, R195: when the first identification block of a run of the connect sequence, by CONNECT_A, CONNECT_B or any
attempt of AUTOCONNECT, is an ACK, the generation `EARLY_ACK_GEN` is Ready at once, with no ACK sent and `ID` all zero; the
other generation ends FATAL TITLE, and no further attempt is made. A FATAL entry is one more event of the history (R12), and
counts as one for the inputs to come (assumption 23). -/
def Obligations.EarlyAckOnlyInItsGeneration : Prop :=
  ∀ (s : State) (a : Byte) (x : Attempt) (answers : KeywordAnswers) (polls : List Bool) (k : Byte) (r : List Byte),
    s.cfg.Valid → x.allowed → KeywordFound (waitBound s.cfg x.gen) answers →
    s.line.polls = x.earlierPolls s.cfg ++ waitPolls x.gen answers ++ polls →
    s.line.rx = keywordBytes answers ++ confirmByte :: (ackBlock s.cfg k).answersHeard ++ r →
    let events := x.toIdentity s.cfg a answers ++ (ackBlock s.cfg k).eventsHeard s.cfg
    s.undisturbed events.length →
    ∃ t, exec (x.command a) s = .next t ∧
      s.KeptByConnect t ∧ t.line = ⟨r, polls, x.baud.toNat⟩ ∧
      t.session = ⟨k, true, x.gen, x.baud⟩ ∧ t.pc = .idle ∧ (∀ i < idBytes, t.idByte i = 0) ∧ t.txByte = s.txByte ∧
      (x.gen = s.cfg.earlyAckGen →
        t.status = { s.status with busy := false, outcome := .ok, errCode := .none, state := .ready } ∧
        t.errinfo = ⟨0, 0⟩ ∧ t.history = events.reverse ++ s.history) ∧
      (x.gen ≠ s.cfg.earlyAckGen →
        t.status = { s.status with busy := false, outcome := .fatal, errCode := .title, state := .disconnected } ∧
        t.errinfo = ⟨s.cfg.titleAscii, s.cfg.titleAck⟩ ∧
        t.history = .fatal .title s.cfg.titleAscii s.cfg.titleAck :: (events.reverse ++ s.history))

/-- R180, R186, R190, R195, R264, R265: a run of the connect sequence, by CONNECT_A, CONNECT_B or any attempt of
AUTOCONNECT, ends FATAL ECHO when the confirmation's echo is wrong, and FATAL TITLE when an identification block or
the final ACK has another title; the earlier identification fields stay, and no further attempt is made. A FATAL entry
is one more event of the history (R12), and counts as one for the inputs to come (assumption 23). -/
def Obligations.ConnectEndsFatal : Prop :=
  ∀ (s : State) (a : Byte) (x : Attempt) (answers : KeywordAnswers) (polls : List Bool),
    s.cfg.Valid → x.allowed → KeywordFound (waitBound s.cfg x.gen) answers →
    s.line.polls = x.earlierPolls s.cfg ++ waitPolls x.gen answers ++ polls →
    (∀ (e : Byte) (r : List Byte), e ≠ confirmByte → s.line.rx = keywordBytes answers ++ e :: r →
      let events := x.toConfirm s.cfg a answers ++
        [.delay s.cfg.settleMs, .delay s.cfg.interbyteMs, .send confirmByte, .recv e, .fatal .echo confirmByte e]
      s.undisturbed events.length →
      ∃ t, exec (x.command a) s = .next t ∧ s.FailedTo t .echo confirmByte e ∧
        t.session = ⟨0, false, x.gen, x.baud⟩ ∧ (∀ i < idBytes, t.idByte i = 0) ∧
        t.history = events.reverse ++ s.history ∧ t.line = ⟨r, polls, x.baud.toNat⟩) ∧
    (∀ (k title : Byte) (ps : List (List Byte)) (payload r : List Byte),
      ps.length ≤ 4 → (∀ p ∈ payload :: ps, p.length + 4 ≤ s.cfg.maxBlock) →
      let expected := if ps.length < 4 then s.cfg.titleAscii else s.cfg.titleAck
      title ≠ expected → ¬(ps = [] ∧ title = s.cfg.titleAck ∧ x.gen = s.cfg.earlyAckGen) →
      let counter := k + BitVec.ofNat 8 (2 * ps.length)
      let b := block counter title payload
      s.line.rx = keywordBytes answers ++ confirmByte :: acknowledgedAnswers s.cfg k ps ++ b.answersHeard ++ r →
      let events := x.toIdentity s.cfg a answers ++ acknowledgedEvents s.cfg k ps ++ b.eventsHeard s.cfg ++
        [.fatal .title expected title]
      s.undisturbed events.length →
      ∃ t, exec (x.command a) s = .next t ∧ s.FailedTo t .title expected title ∧
        t.session = ⟨counter, true, x.gen, x.baud⟩ ∧
        (∀ j < 3, j < ps.length → ∀ i < 12, i ≤ (ps.getD j []).length →
          t.idByte (12 * j + i) = (ps.getD j [] ++ [terminator]).getD i 0) ∧
        (∀ j < 3, ps.length ≤ j → ∀ i < 12, t.idByte (12 * j + i) = 0) ∧
        t.history = events.reverse ++ s.history ∧ t.line = ⟨r, polls, x.baud.toNat⟩)

/-- R180: while a run of the connect sequence goes on, by CONNECT_A, CONNECT_B or any attempt of AUTOCONNECT, STATE
names its step: Addressing up to the last event of the frame, AwaitingKeyword in the keyword wait, between any two of its
events, Confirming from the settle delay to the confirmation's echo, ExchangingIdentity from the first identification block
until the final ACK has been received, inside its blocks and acknowledgements as well. An input that is due after so many
events finds it so, and so does a line that answers no more. The model's choices: where an input lands among the events
(assumption 4, DEDUCED), and that STATE is Addressing before the first event, as soon as the command has begun (assumption
24, DESIGN CHOICE). -/
def Obligations.ConnectStateNamesStep : Prop :=
  ∀ (s : State) (a : Byte) (x : Attempt) (answers : KeywordAnswers) (polls : List Bool) (rest : List Byte),
    s.cfg.Valid → x.allowed → s.line.polls = x.earlierPolls s.cfg ++ waitPolls x.gen answers ++ polls →
    (∀ (n : Nat) (m : Input) (later : List (Nat × Input)), n < 13 →
      s.inputs = ((x.earlier s.cfg a).length + n, m) :: later →
      ∃ t, exec (x.command a) s = .next t ∧
        s.RunningAt t ((x.toWait s.cfg a).take ((x.earlier s.cfg a).length + n)) .addressing) ∧
    (KeywordOpen (waitBound s.cfg x.gen) answers → s.line.rx = keywordBytes answers ++ rest →
      ∀ (n : Nat) (m : Input) (later : List (Nat × Input)), n < (waitEvents x.gen answers).length →
      s.inputs = ((x.toWait s.cfg a).length + n, m) :: later →
      ∃ t, exec (x.command a) s = .next t ∧
        s.RunningAt t (x.toWait s.cfg a ++ (waitEvents x.gen answers).take n) .awaitingKeyword) ∧
    (KeywordPending (waitBound s.cfg x.gen) answers → s.line.rx = keywordBytes answers ++ rest →
      ((∃ m later, s.inputs = ((x.toConfirm s.cfg a answers).length, m) :: later) ∨
        (x.gen = .B ∧ rest = [] ∧ s.undisturbed (x.toConfirm s.cfg a answers).length)) →
      ∃ t, exec (x.command a) s = .next t ∧ s.RunningAt t (x.toConfirm s.cfg a answers) .awaitingKeyword) ∧
    (KeywordFound (waitBound s.cfg x.gen) answers →
      (∀ (n : Nat) (m : Input) (later : List (Nat × Input)), n < 4 → s.line.rx = keywordBytes answers ++ rest →
        s.inputs = ((x.toConfirm s.cfg a answers).length + n, m) :: later →
        ∃ t, exec (x.command a) s = .next t ∧
          s.RunningAt t (x.toConfirm s.cfg a answers ++ (confirmEvents s.cfg).take n) .confirming) ∧
      (s.line.rx = keywordBytes answers → s.undisturbed ((x.toConfirm s.cfg a answers).length + 3) →
        ∃ t, exec (x.command a) s = .next t ∧
          s.RunningAt t (x.toConfirm s.cfg a answers ++ (confirmEvents s.cfg).take 3) .confirming) ∧
      (∀ (k : Byte) (ps : List (List Byte)), ps.length ≤ 4 → (∀ p ∈ ps, p.length + 4 ≤ s.cfg.maxBlock) →
        s.line.rx = keywordBytes answers ++ confirmByte :: acknowledgedAnswers s.cfg k ps ++ rest →
        (∀ (n : Nat) (m : Input) (later : List (Nat × Input)), n ≤ (acknowledgedEvents s.cfg k ps).length →
          s.inputs = ((x.toIdentity s.cfg a answers).length + n, m) :: later →
          ∃ t, exec (x.command a) s = .next t ∧
            s.RunningAt t (x.toIdentity s.cfg a answers ++ (acknowledgedEvents s.cfg k ps).take n) .exchangingIdentity) ∧
        (rest = [] → s.undisturbed (x.toIdentity s.cfg a answers ++ acknowledgedEvents s.cfg k ps).length →
          ∃ t, exec (x.command a) s = .next t ∧
            s.RunningAt t (x.toIdentity s.cfg a answers ++ acknowledgedEvents s.cfg k ps) .exchangingIdentity)) ∧
      (∀ (k : Byte) (payloads : List (List Byte)), payloads.length = 4 →
        (∀ p ∈ payloads, p.length + 4 ≤ s.cfg.maxBlock) →
        s.line.rx = keywordBytes answers ++ confirmByte :: identityAnswers s.cfg k payloads ++ rest →
        ∀ (n : Nat) (m : Input) (later : List (Nat × Input)), n < (identityEvents s.cfg k payloads).length →
          s.inputs = ((x.toIdentity s.cfg a answers).length + n, m) :: later →
          ∃ t, exec (x.command a) s = .next t ∧
            s.RunningAt t (x.toIdentity s.cfg a answers ++ (identityEvents s.cfg k payloads).take n) .exchangingIdentity))

/-- R184, R266: CONNECT_A ends TIMEOUT at empty poll number `KW_TIMEOUT_MS`, in Disconnected, with no error code. That the
timeout is an event of the history of its own is R12, and that it counts as one for the inputs to come is assumption 23. -/
def Obligations.ConnectATimesOut : Prop :=
  ∀ (s : State) (a : Byte) (baud : Half) (answers : KeywordAnswers) (polls : List Bool) (r : List Byte),
    s.cfg.Valid → baud ≠ 0 → KeywordMissed s.cfg.kwTimeoutMs answers →
    s.line.polls = keywordPolls answers ++ polls → s.line.rx = keywordBytes answers ++ r →
    let events := .configure baud :: frameEvents s.cfg a ++ keywordEvents answers ++ [.timeout]
    s.undisturbed events.length →
    ∃ t, exec (.connectA a baud) s = .next t ∧ s.TimedOutTo t baud ∧
      t.history = events.reverse ++ s.history ∧ t.line = ⟨r, polls, baud.toNat⟩

/-- R195: AUTOCONNECT reaches Ready at the first attempt that connects: `m` attempts were silent before it. That the
hidden variable `attempt` keeps the index of that attempt afterwards is the model's choice (assumption 15, DESIGN
CHOICE). A timeout that is caught is one event of the history too (assumption 23). -/
def Obligations.AutoconnectCompletes : Prop :=
  ∀ (s : State) (a : Byte) (m : Nat) (answers : KeywordAnswers) (polls : List Bool) (k : Byte)
    (payloads : List (List Byte)) (r : List Byte),
    s.cfg.Valid → m < 4 → payloads.length = 4 → (∀ p ∈ payloads, p.length + 4 ≤ s.cfg.maxBlock) →
    KeywordFound s.cfg.kwTimeoutMs answers →
    s.line.polls = List.replicate (m * s.cfg.kwTimeoutMs) false ++ keywordPolls answers ++ polls →
    s.line.rx = keywordBytes answers ++ confirmByte :: identityAnswers s.cfg k payloads ++ r →
    let events := retriedEvents s.cfg a m
      ++ connectEvents s.cfg a (autoBaud m) (keywordEvents answers) (identityEvents s.cfg k payloads)
    s.undisturbed events.length →
    ∃ t, exec (.autoconnect a) s = .next t ∧ s.ConnectedTo t .A (autoBaud m) k payloads ∧
      t.history = events.reverse ++ s.history ∧ t.line = ⟨r, polls, (autoBaud m).toNat⟩ ∧ t.attempt.val = m

/-- R195: after four silent attempts, at 10400, 9600, 10400 and 9600, with a 2000 ms delay between each two,
AUTOCONNECT ends TIMEOUT. That the hidden variable `attempt` keeps the last index, 3, is the model's choice
(assumption 15, DESIGN CHOICE). A timeout that is caught is one event of the history too (assumption 23). -/
def Obligations.AutoconnectTimesOut : Prop :=
  ∀ (s : State) (a : Byte), s.cfg.Valid → s.line.rx = [] →
    let events := silentEvents s.cfg a 10400 ++ [.delay 2000] ++ silentEvents s.cfg a 9600 ++ [.delay 2000]
      ++ silentEvents s.cfg a 10400 ++ [.delay 2000] ++ silentEvents s.cfg a 9600
    s.undisturbed events.length →
    ∃ t, exec (.autoconnect a) s = .next t ∧ s.TimedOutTo t 9600 ∧ t.history = events.reverse ++ s.history ∧
      t.line = ⟨[], s.line.polls.drop (4 * s.cfg.kwTimeoutMs), 9600⟩ ∧ t.attempt = 3

/-- R196: DISCONNECT (`OP = 0x33`) makes no event and leaves everything but STATE and OUTCOME alone. -/
def Obligations.DisconnectEndsSession : Prop :=
  (∀ (x : Byte) (y : Half), decode (cmdWord 0x33 x y) = some .disconnect) ∧
  ∀ s : State, exec .disconnect s =
    .next { s with status := { s.status with state := .disconnected, outcome := .ok, busy := false }, pc := .idle }

/-- R267: an argument out of range ends the command REJECTED BADARG with no event and no change but `STATUS`. -/
def Obligations.BadArgumentRejected : Prop :=
  ∀ s : State,
    let rejected : State :=
      { s with status := { s.status with reject := .badArg, outcome := .rejected, busy := false }, pc := .idle }
    ((s.txByte 0).toNat < 3 ∨ s.cfg.maxBlock < (s.txByte 0).toNat + 1 → exec .sendBlock s = .next rejected) ∧
    (∀ a, exec (.connectA a 0) s = .next rejected ∧ exec (.connectB a 0) s = .next rejected) ∧
    (∀ start, s.status.state = .ready → s.cfg.membufBytes < s.arg0.toNat →
      exec (.readMemRam start) s = .next rejected ∧ exec (.readMemRom start) s = .next rejected ∧
      exec (.readMemEe start) s = .next rejected)

/-! ## The Ready-state operations -/

/-- R220: outside Ready every Ready-state operation is rejected NOTREADY, before its arguments are looked at. -/
def Obligations.ReadyOperationsNeedReady : Prop :=
  ∀ (s : State) (i : Instr), s.status.state ≠ .ready →
    (i ∈ [Instr.safeCodeCustom, .safeCodeEeprom, .calcChecksum] ∨ (∃ c f, i = .login c f) ∨ (∃ g, i = .groupReading g) ∨
      (∃ a, i = .readMemRam a ∨ i = .readMemRom a ∨ i = .readMemEe a)) →
    exec i s = .next
      { s with status := { s.status with reject := .notReady, outcome := .rejected, busy := false }, pc := .idle }

/-- R221, R222: LOGIN and GROUP_READING send their request, high bytes first, and receive any response; its title is not
checked. -/
def Obligations.LoginAndGroupReadingExchangeBlocks : Prop :=
  ∀ (s : State) (i : Instr) (title : Byte) (payload : List Byte) (b : Block) (r : List Byte),
    s.cfg.Valid → s.status.state = .ready → s.AcceptsAfterSend b →
    ((∃ safeCode fern, i = .login safeCode fern ∧ title = s.cfg.titleLogin ∧
        payload = [safeCode.extractLsb' 8 8, safeCode.extractLsb' 0 8, fern, s.arg0.extractLsb' 8 8, s.arg0.extractLsb' 0 8]) ∨
      (∃ group, i = .groupReading group ∧ title = s.cfg.titleGroup ∧ payload = [group])) →
    let request := block (s.session.counter + 1) title payload
    s.undisturbed (request.eventsSent s.cfg ++ b.eventsHeard s.cfg).length →
    s.line.rx = request.answersSent ++ b.answersHeard ++ r →
    ∃ t, exec i s = .next t ∧ s.ExchangedTo t request b [] ∧
      t.status = { s.status with outcome := .ok, busy := false } ∧ t.result = s.result ∧ t.errinfo = s.errinfo ∧
      t.line = { s.line with rx := r }

/-- R230, R232: SAFE_CODE_CUSTOM and CALC_CHECKSUM send their request, check the response's title, and return the two
payload bytes at `SAFE_OFFSET` or `CKS_OFFSET`, high byte first; bytes beyond a short response are unspecified. A
FATAL entry is one more event of the history (R12), and counts as one for the inputs to come (assumption 23). -/
def Obligations.SafeCodeCustomAndChecksumReturnBytes : Prop :=
  ∀ (s : State) (i : Instr) (payload : List Byte) (title : Byte) (offset : Nat) (b : Block) (r : List Byte),
    s.cfg.Valid → s.status.state = .ready → s.AcceptsAfterSend b →
    ((i = .safeCodeCustom ∧ payload = [s.cfg.safeReq] ∧ title = s.cfg.safeRespTitle ∧ offset = s.cfg.safeOffset) ∨
      (i = .calcChecksum ∧ payload = [s.cfg.cksK1, s.cfg.cksK2] ∧ title = s.cfg.cksRespTitle ∧
        offset = s.cfg.cksOffset)) →
    let request := block (s.session.counter + 1) s.cfg.titleCustom payload
    s.undisturbed (request.eventsSent s.cfg ++ b.eventsHeard s.cfg).length →
    s.line.rx = request.answersSent ++ b.answersHeard ++ r →
    ∃ t, exec i s = .next t ∧ t.line = { s.line with rx := r } ∧
      (t.rxByte 2 = title →
        s.ExchangedTo t request b [] ∧
        t.status = { s.status with outcome := .ok, busy := false } ∧ t.errinfo = s.errinfo ∧
        t.result = (t.rxByte (3 + offset) ++ t.rxByte (4 + offset)).setWidth 32) ∧
      (t.rxByte 2 ≠ title →
        s.ExchangedTo t request b [.fatal .title title (t.rxByte 2)] ∧
        t.status = { s.status with errCode := .title, state := .disconnected, outcome := .fatal, busy := false } ∧
        t.errinfo = ⟨title, t.rxByte 2⟩ ∧ t.result = s.result)

/-- R223 to R228: the three READ_MEM commands read `ARG0` bytes in chunks of at most 32, each acknowledged, and return the
number of bytes stored; chunk `j` asks for address `start + 32 * j`, and a payload is kept whatever its length. -/
def Obligations.ReadMemoryCompletes : Prop :=
  ∀ (s : State) (kind : MemKind) (start : Half) (payloads : List (List Byte)) (r : List Byte),
    s.cfg.Valid → s.status.state = .ready → s.arg0.toNat ≤ s.cfg.membufBytes →
    payloads.length = chunkCount s.arg0 → (∀ p ∈ payloads, p.length + 4 ≤ s.cfg.maxBlock) →
    let events := memEvents s.cfg kind start s.arg0 s.session.counter payloads
    s.undisturbed events.length →
    s.line.rx = memAnswers s.cfg kind start s.arg0 s.session.counter payloads ++ r →
    ∃ t, exec (match kind with | .ram => .readMemRam start | .rom => .readMemRom start | .ee => .readMemEe start) s = .next t ∧
      s.MemReadTo t s.arg0 payloads.flatten ∧ t.result = t.memlen ∧ t.history = events.reverse ++ s.history ∧
      t.line = { s.line with rx := r }

/-- R231: SAFE_CODE_EEPROM reads the EEPROM region and returns its two bytes at `SAFE_EE_OFFSET`, high byte first; bytes
beyond a short read are unspecified. -/
def Obligations.SafeCodeEepromReturnsBytes : Prop :=
  ∀ (s : State) (payloads : List (List Byte)) (r : List Byte),
    s.cfg.Valid → s.status.state = .ready →
    payloads.length = chunkCount s.cfg.safeEeSize → (∀ p ∈ payloads, p.length + 4 ≤ s.cfg.maxBlock) →
    let events := memEvents s.cfg .ee s.cfg.safeEeAddr s.cfg.safeEeSize s.session.counter payloads
    s.undisturbed events.length →
    s.line.rx = memAnswers s.cfg .ee s.cfg.safeEeAddr s.cfg.safeEeSize s.session.counter payloads ++ r →
    ∃ t, exec .safeCodeEeprom s = .next t ∧ s.MemReadTo t s.cfg.safeEeSize payloads.flatten ∧
      t.result = (t.membufByte s.cfg.safeEeOffset ++ t.membufByte (s.cfg.safeEeOffset + 1)).setWidth 32 ∧
      t.history = events.reverse ++ s.history ∧ t.line = { s.line with rx := r }

/-- R226, R231, R265: a wrong title in the response to any chunk ends a memory read FATAL TITLE, by a READ_MEM command or by
SAFE_CODE_EEPROM: nothing of it is appended, no ACK is sent for it, and MEMBUF[0..MEMLEN-1] holds the payloads of the
chunks before. `payloads` are those, one for each chunk acknowledged. A FATAL entry is one more event of the history (R12),
and counts as one for the inputs to come (assumption 23). -/
def Obligations.WrongTitleEndsMemoryRead : Prop :=
  ∀ (s : State) (i : Instr) (kind : MemKind) (start : Half) (size : Word) (payloads : List (List Byte)) (title : Byte)
    (payload r : List Byte),
    s.cfg.Valid → s.status.state = .ready →
    ((i = (match kind with | .ram => .readMemRam start | .rom => .readMemRom start | .ee => .readMemEe start) ∧
        size = s.arg0 ∧ size.toNat ≤ s.cfg.membufBytes) ∨
      (i = .safeCodeEeprom ∧ kind = .ee ∧ start = s.cfg.safeEeAddr ∧ size = s.cfg.safeEeSize)) →
    payloads.length < chunkCount size → (∀ p ∈ payload :: payloads, p.length + 4 ≤ s.cfg.maxBlock) →
    title ≠ responseTitle s.cfg kind →
    let j := payloads.length
    let request := chunkRequest s.cfg kind start size s.session.counter j
    let response := block (s.session.counter + BitVec.ofNat 8 (4 * j + 2)) title payload
    let events := eventsOfChunks s.cfg kind start size s.session.counter payloads j ++ request.eventsSent s.cfg ++
      response.eventsHeard s.cfg
    s.undisturbed events.length →
    s.line.rx = answersOfChunks s.cfg kind start size s.session.counter payloads j ++ request.answersSent ++
      response.answersHeard ++ r →
    ∃ t, exec i s = .next t ∧
      t.status = { s.status with
        errCode := .title
        state := .disconnected
        outcome := .fatal
        busy := false
        memTrunc := decide (s.cfg.membufBytes < payloads.flatten.length) } ∧
      t.errinfo = ⟨responseTitle s.cfg kind, title⟩ ∧ t.result = s.result ∧
      t.memlen.toNat = min payloads.flatten.length s.cfg.membufBytes ∧
      (∀ n < t.memlen.toNat, t.membufByte n = payloads.flatten.getD n 0) ∧
      t.session.counter = s.session.counter + BitVec.ofNat 8 (4 * j + 2) ∧ t.pc = .idle ∧
      (∀ a, (a < txBase ∨ txBase + 7 ≤ a) → (a < rxBase ∨ rxBase + windowBytes ≤ a) →
        (a < memBase ∨ memBase + s.cfg.membufBytes ≤ a) → t.windowByte a = s.windowByte a) ∧
      t.history = .fatal .title (responseTitle s.cfg kind) title :: (events.reverse ++ s.history) ∧
      t.line = { s.line with rx := r }

/-- R228: appending a payload stores its bytes up to the capacity, counts them, and sets MEM_TRUNC when bytes are
dropped; the bytes already stored, the other windows and the other registers keep their values. -/
def Obligations.AppendKeepsEarlierBytes : Prop :=
  ∀ (s : State) (payload : List Byte), s.cfg.Valid → s.memlen.toNat ≤ s.cfg.membufBytes →
    let t := s.appendBytes payload
    t.memlen.toNat = min (s.memlen.toNat + payload.length) s.cfg.membufBytes ∧
    (∀ i, i < s.memlen.toNat → t.membufByte i = s.membufByte i) ∧
    (∀ i, s.memlen.toNat ≤ i → i < t.memlen.toNat → t.membufByte i = payload.getD (i - s.memlen.toNat) 0) ∧
    t.status.memTrunc = (s.status.memTrunc || decide (s.cfg.membufBytes < s.memlen.toNat + payload.length)) ∧
    (∀ a, a < memBase ∨ memBase + s.cfg.membufBytes ≤ a → t.windowByte a = s.windowByte a) ∧
    t = { s with mem := t.mem, memlen := t.memlen, status := { s.status with memTrunc := t.status.memTrunc } }

/-! ## The whole machine -/

/-- R23, R44: no command writes `ARG0`, the latched command word, OVERRUN or the parameters, or makes a host access: only the
host does. The same holds of every later step in which a command that was blocked or interrupted moves on. -/
def Obligations.CommandsKeepHostRegisters : Prop :=
  (∀ (i : Instr) (s t : State), exec i s = .next t →
    t.arg0 = s.arg0 ∧ t.cmd = s.cmd ∧ t.status.overrun = s.status.overrun ∧ t.cfg = s.cfg ∧ t.hostReads = s.hostReads ∧
    t.history.filter Event.byHost = s.history.filter Event.byHost) ∧
  (∀ s t : State, s.canRun = true → step s = .next t →
    t.arg0 = s.arg0 ∧ t.cmd = s.cmd ∧ t.status.overrun = s.status.overrun ∧ t.cfg = s.cfg ∧ t.hostReads = s.hostReads ∧
    t.history.filter Event.byHost = s.history.filter Event.byHost)

/-- R180, R26: only the three connect commands make a session Ready, however often the command is blocked or interrupted and
goes on in later steps. -/
def Obligations.OnlyConnectReachesReady : Prop :=
  ∀ (i : Instr) (s t u : State) (n : Nat), exec i s = .next t → t.goesOn n = some u → u.status.state = .ready →
    s.status.state = .ready ∨ (∃ a baud, i = .connectA a baud ∨ i = .connectB a baud) ∨ ∃ a, i = .autoconnect a

/-- R46: every command but the connect commands leaves ERR_CODE and `ERRINFO` as they were, unless it ends FATAL itself, also
when it goes on in later steps, and with no reset meanwhile. -/
def Obligations.ErrorRegistersKept : Prop :=
  ∀ (i : Instr) (s t u : State) (n : Nat), exec i s = .next t → t.noReset → t.goesOn n = some u →
    u.status.outcome ≠ .fatal → (∀ a baud, i ≠ .connectA a baud ∧ i ≠ .connectB a baud) → (∀ a, i ≠ .autoconnect a) →
    u.status.errCode = s.status.errCode ∧ u.errinfo = s.errinfo

/-- R24: only the receive, memory-read, safe-code and checksum commands write `RESULT`, and one that ends FATAL, TIMEOUT or
REJECTED leaves it as it was, but for RECV_COMPL; also when the command goes on in later steps, and with no reset
meanwhile. -/
def Obligations.ResultWrittenOnlyOnReturn : Prop :=
  ∀ (i : Instr) (s t u : State) (n : Nat), s.status.outcome = .none → exec i s = .next t → t.noReset →
    t.goesOn n = some u →
    (u.result = s.result ∨ i ∈ [Instr.recvPlain, .recvCompl, .safeCodeCustom, .safeCodeEeprom, .calcChecksum] ∨
      ∃ a, i = .readMemRam a ∨ i = .readMemRom a ∨ i = .readMemEe a) ∧
    (u.status.outcome ≠ .none → u.status.outcome ≠ .ok → i ≠ .recvCompl → u.result = s.result)

/-- R21, R22, R46, R269: every step keeps BUSY in step with `pc`, keeps a running command without an outcome, leaves the
session Disconnected after a FATAL or TIMEOUT, and keeps `ERRINFO` clear while there is no error code. -/
def Obligations.StepKeepsOutcomeInvariant : Prop :=
  ∀ s t : State, s.OutcomeInv → step s = .next t → t.OutcomeInv

/-- R39, R122, R297: every step keeps `line_mode` DIRECT exactly between a `LineAcquire` and its `LineRelease`, with
nothing but `LineHold` events in between. -/
def Obligations.StepKeepsLineDiscipline : Prop :=
  ∀ s t : State, s.OutcomeInv → s.LineInv → step s = .next t → t.LineInv

/-- R135, R296: every step keeps every `Send` directly preceded by a `Delay` of `INTERBYTE_MS`, among the events of
`ENGINE`. -/
def Obligations.StepKeepsSendsSpaced : Prop :=
  ∀ s t : State, s.SpacingInv → step s = .next t → t.SpacingInv

/-- R30, R38: every step keeps `RXCOUNT` at most `MAX_BLOCK`, through a reception that a step leaves half done as well. -/
def Obligations.StepKeepsReceptionBounded : Prop :=
  ∀ s t : State, s.ReceptionInv → step s = .next t → t.ReceptionInv

/-- R29: every step keeps `MEMLEN` at most `MEMBUF_BYTES`; and it keeps the buffers in their canonical form, which is how
the model writes them down (assumption 17, DEDUCED), not a rule of the spec. -/
def Obligations.StepKeepsBuffersCanonical : Prop :=
  ∀ s t : State, s.BufferInv → step s = .next t → t.BufferInv
end

