-- ==== Sys2Proof/Laws/State.lean ====
section
/-! SUPPORT. One lemma per field of the state and named update, so that no proof unfolds a record update. -/

namespace Sys2Proof.Machine

variable (s : State)

/-! ### `State.record` -/

@[simp] theorem State.record_cfg (e : Event) : (s.record e).cfg = s.cfg := rfl
@[simp] theorem State.record_status (e : Event) : (s.record e).status = s.status := rfl
@[simp] theorem State.record_cmd (e : Event) : (s.record e).cmd = s.cmd := rfl
@[simp] theorem State.record_arg0 (e : Event) : (s.record e).arg0 = s.arg0 := rfl
@[simp] theorem State.record_result (e : Event) : (s.record e).result = s.result := rfl
@[simp] theorem State.record_session (e : Event) : (s.record e).session = s.session := rfl
@[simp] theorem State.record_errinfo (e : Event) : (s.record e).errinfo = s.errinfo := rfl
@[simp] theorem State.record_memlen (e : Event) : (s.record e).memlen = s.memlen := rfl
@[simp] theorem State.record_rxcount (e : Event) : (s.record e).rxcount = s.rxcount := rfl
@[simp] theorem State.record_mem (e : Event) : (s.record e).mem = s.mem := rfl
@[simp] theorem State.record_pc (e : Event) : (s.record e).pc = s.pc := rfl
@[simp] theorem State.record_kwPos (e : Event) : (s.record e).kwPos = s.kwPos := rfl
@[simp] theorem State.record_kwElapsed (e : Event) : (s.record e).kwElapsed = s.kwElapsed := rfl
@[simp] theorem State.record_rxRemaining (e : Event) : (s.record e).rxRemaining = s.rxRemaining := rfl
@[simp] theorem State.record_lineMode (e : Event) : (s.record e).lineMode = s.lineMode := rfl
@[simp] theorem State.record_attempt (e : Event) : (s.record e).attempt = s.attempt := rfl
@[simp] theorem State.record_chunkAddr (e : Event) : (s.record e).chunkAddr = s.chunkAddr := rfl
@[simp] theorem State.record_chunkLeft (e : Event) : (s.record e).chunkLeft = s.chunkLeft := rfl
@[simp] theorem State.record_idIndex (e : Event) : (s.record e).idIndex = s.idIndex := rfl
@[simp] theorem State.record_line (e : Event) : (s.record e).line = s.line := rfl
@[simp] theorem State.record_inputs (e : Event) : (s.record e).inputs = s.inputs := rfl
@[simp] theorem State.record_history (e : Event) : (s.record e).history = e :: s.history := rfl
@[simp] theorem State.record_hostReads (e : Event) : (s.record e).hostReads = s.hostReads := rfl
@[simp] theorem State.record_txMark (e : Event) : (s.record e).txMark = s.txMark := rfl
@[simp] theorem State.record_rxMark (e : Event) : (s.record e).rxMark = s.rxMark := rfl
@[simp] theorem State.record_memMark (e : Event) : (s.record e).memMark = s.memMark := rfl
@[simp] theorem State.record_nextMark (e : Event) : (s.record e).nextMark = s.nextMark := rfl

/-! ### `State.event` -/

@[simp] theorem State.event_cfg (e : Event) : (s.event e).cfg = s.cfg := rfl
@[simp] theorem State.event_status (e : Event) : (s.event e).status = s.status := rfl
@[simp] theorem State.event_cmd (e : Event) : (s.event e).cmd = s.cmd := rfl
@[simp] theorem State.event_arg0 (e : Event) : (s.event e).arg0 = s.arg0 := rfl
@[simp] theorem State.event_result (e : Event) : (s.event e).result = s.result := rfl
@[simp] theorem State.event_session (e : Event) : (s.event e).session = s.session := rfl
@[simp] theorem State.event_errinfo (e : Event) : (s.event e).errinfo = s.errinfo := rfl
@[simp] theorem State.event_memlen (e : Event) : (s.event e).memlen = s.memlen := rfl
@[simp] theorem State.event_rxcount (e : Event) : (s.event e).rxcount = s.rxcount := rfl
@[simp] theorem State.event_mem (e : Event) : (s.event e).mem = s.mem := rfl
@[simp] theorem State.event_pc (e : Event) : (s.event e).pc = s.pc := rfl
@[simp] theorem State.event_kwPos (e : Event) : (s.event e).kwPos = s.kwPos := rfl
@[simp] theorem State.event_kwElapsed (e : Event) : (s.event e).kwElapsed = s.kwElapsed := rfl
@[simp] theorem State.event_rxRemaining (e : Event) : (s.event e).rxRemaining = s.rxRemaining := rfl
@[simp] theorem State.event_lineMode (e : Event) : (s.event e).lineMode = s.lineMode := rfl
@[simp] theorem State.event_attempt (e : Event) : (s.event e).attempt = s.attempt := rfl
@[simp] theorem State.event_chunkAddr (e : Event) : (s.event e).chunkAddr = s.chunkAddr := rfl
@[simp] theorem State.event_chunkLeft (e : Event) : (s.event e).chunkLeft = s.chunkLeft := rfl
@[simp] theorem State.event_idIndex (e : Event) : (s.event e).idIndex = s.idIndex := rfl
@[simp] theorem State.event_line (e : Event) : (s.event e).line = s.line := rfl
@[simp] theorem State.event_inputs (e : Event) : (s.event e).inputs = elapse 1 s.inputs := rfl
@[simp] theorem State.event_history (e : Event) : (s.event e).history = e :: s.history := rfl
@[simp] theorem State.event_hostReads (e : Event) : (s.event e).hostReads = s.hostReads := rfl
@[simp] theorem State.event_txMark (e : Event) : (s.event e).txMark = s.txMark := rfl
@[simp] theorem State.event_rxMark (e : Event) : (s.event e).rxMark = s.rxMark := rfl
@[simp] theorem State.event_memMark (e : Event) : (s.event e).memMark = s.memMark := rfl
@[simp] theorem State.event_nextMark (e : Event) : (s.event e).nextMark = s.nextMark := rfl

/-! ### `State.push` -/

@[simp] theorem State.push_cfg (ops : List Op) : (s.push ops).cfg = s.cfg := rfl
@[simp] theorem State.push_status (ops : List Op) : (s.push ops).status = s.status := rfl
@[simp] theorem State.push_cmd (ops : List Op) : (s.push ops).cmd = s.cmd := rfl
@[simp] theorem State.push_arg0 (ops : List Op) : (s.push ops).arg0 = s.arg0 := rfl
@[simp] theorem State.push_result (ops : List Op) : (s.push ops).result = s.result := rfl
@[simp] theorem State.push_session (ops : List Op) : (s.push ops).session = s.session := rfl
@[simp] theorem State.push_errinfo (ops : List Op) : (s.push ops).errinfo = s.errinfo := rfl
@[simp] theorem State.push_memlen (ops : List Op) : (s.push ops).memlen = s.memlen := rfl
@[simp] theorem State.push_rxcount (ops : List Op) : (s.push ops).rxcount = s.rxcount := rfl
@[simp] theorem State.push_mem (ops : List Op) : (s.push ops).mem = s.mem := rfl
@[simp] theorem State.push_pc (ops : List Op) : (s.push ops).pc = s.pc.push ops := rfl
@[simp] theorem State.push_kwPos (ops : List Op) : (s.push ops).kwPos = s.kwPos := rfl
@[simp] theorem State.push_kwElapsed (ops : List Op) : (s.push ops).kwElapsed = s.kwElapsed := rfl
@[simp] theorem State.push_rxRemaining (ops : List Op) : (s.push ops).rxRemaining = s.rxRemaining := rfl
@[simp] theorem State.push_lineMode (ops : List Op) : (s.push ops).lineMode = s.lineMode := rfl
@[simp] theorem State.push_attempt (ops : List Op) : (s.push ops).attempt = s.attempt := rfl
@[simp] theorem State.push_chunkAddr (ops : List Op) : (s.push ops).chunkAddr = s.chunkAddr := rfl
@[simp] theorem State.push_chunkLeft (ops : List Op) : (s.push ops).chunkLeft = s.chunkLeft := rfl
@[simp] theorem State.push_idIndex (ops : List Op) : (s.push ops).idIndex = s.idIndex := rfl
@[simp] theorem State.push_line (ops : List Op) : (s.push ops).line = s.line := rfl
@[simp] theorem State.push_inputs (ops : List Op) : (s.push ops).inputs = s.inputs := rfl
@[simp] theorem State.push_history (ops : List Op) : (s.push ops).history = s.history := rfl
@[simp] theorem State.push_hostReads (ops : List Op) : (s.push ops).hostReads = s.hostReads := rfl
@[simp] theorem State.push_txMark (ops : List Op) : (s.push ops).txMark = s.txMark := rfl
@[simp] theorem State.push_rxMark (ops : List Op) : (s.push ops).rxMark = s.rxMark := rfl
@[simp] theorem State.push_memMark (ops : List Op) : (s.push ops).memMark = s.memMark := rfl
@[simp] theorem State.push_nextMark (ops : List Op) : (s.push ops).nextMark = s.nextMark := rfl

/-! ### `State.setSession` -/

@[simp] theorem State.setSession_cfg (v : SessionState) : (s.setSession v).cfg = s.cfg := rfl
@[simp] theorem State.setSession_status (v : SessionState) : (s.setSession v).status = { s.status with state := v } := rfl
@[simp] theorem State.setSession_cmd (v : SessionState) : (s.setSession v).cmd = s.cmd := rfl
@[simp] theorem State.setSession_arg0 (v : SessionState) : (s.setSession v).arg0 = s.arg0 := rfl
@[simp] theorem State.setSession_result (v : SessionState) : (s.setSession v).result = s.result := rfl
@[simp] theorem State.setSession_session (v : SessionState) : (s.setSession v).session = s.session := rfl
@[simp] theorem State.setSession_errinfo (v : SessionState) : (s.setSession v).errinfo = s.errinfo := rfl
@[simp] theorem State.setSession_memlen (v : SessionState) : (s.setSession v).memlen = s.memlen := rfl
@[simp] theorem State.setSession_rxcount (v : SessionState) : (s.setSession v).rxcount = s.rxcount := rfl
@[simp] theorem State.setSession_mem (v : SessionState) : (s.setSession v).mem = s.mem := rfl
@[simp] theorem State.setSession_pc (v : SessionState) : (s.setSession v).pc = s.pc := rfl
@[simp] theorem State.setSession_kwPos (v : SessionState) : (s.setSession v).kwPos = s.kwPos := rfl
@[simp] theorem State.setSession_kwElapsed (v : SessionState) : (s.setSession v).kwElapsed = s.kwElapsed := rfl
@[simp] theorem State.setSession_rxRemaining (v : SessionState) : (s.setSession v).rxRemaining = s.rxRemaining := rfl
@[simp] theorem State.setSession_lineMode (v : SessionState) : (s.setSession v).lineMode = s.lineMode := rfl
@[simp] theorem State.setSession_attempt (v : SessionState) : (s.setSession v).attempt = s.attempt := rfl
@[simp] theorem State.setSession_chunkAddr (v : SessionState) : (s.setSession v).chunkAddr = s.chunkAddr := rfl
@[simp] theorem State.setSession_chunkLeft (v : SessionState) : (s.setSession v).chunkLeft = s.chunkLeft := rfl
@[simp] theorem State.setSession_idIndex (v : SessionState) : (s.setSession v).idIndex = s.idIndex := rfl
@[simp] theorem State.setSession_line (v : SessionState) : (s.setSession v).line = s.line := rfl
@[simp] theorem State.setSession_inputs (v : SessionState) : (s.setSession v).inputs = s.inputs := rfl
@[simp] theorem State.setSession_history (v : SessionState) : (s.setSession v).history = s.history := rfl
@[simp] theorem State.setSession_hostReads (v : SessionState) : (s.setSession v).hostReads = s.hostReads := rfl
@[simp] theorem State.setSession_txMark (v : SessionState) : (s.setSession v).txMark = s.txMark := rfl
@[simp] theorem State.setSession_rxMark (v : SessionState) : (s.setSession v).rxMark = s.rxMark := rfl
@[simp] theorem State.setSession_memMark (v : SessionState) : (s.setSession v).memMark = s.memMark := rfl
@[simp] theorem State.setSession_nextMark (v : SessionState) : (s.setSession v).nextMark = s.nextMark := rfl

/-! ### `State.complete` -/

@[simp] theorem State.complete_cfg (o : CmdOutcome) : (s.complete o).cfg = s.cfg := rfl
@[simp] theorem State.complete_status (o : CmdOutcome) : (s.complete o).status = { s.status with outcome := o, busy := false } := rfl
@[simp] theorem State.complete_cmd (o : CmdOutcome) : (s.complete o).cmd = s.cmd := rfl
@[simp] theorem State.complete_arg0 (o : CmdOutcome) : (s.complete o).arg0 = s.arg0 := rfl
@[simp] theorem State.complete_result (o : CmdOutcome) : (s.complete o).result = s.result := rfl
@[simp] theorem State.complete_session (o : CmdOutcome) : (s.complete o).session = s.session := rfl
@[simp] theorem State.complete_errinfo (o : CmdOutcome) : (s.complete o).errinfo = s.errinfo := rfl
@[simp] theorem State.complete_memlen (o : CmdOutcome) : (s.complete o).memlen = s.memlen := rfl
@[simp] theorem State.complete_rxcount (o : CmdOutcome) : (s.complete o).rxcount = s.rxcount := rfl
@[simp] theorem State.complete_mem (o : CmdOutcome) : (s.complete o).mem = s.mem := rfl
@[simp] theorem State.complete_pc (o : CmdOutcome) : (s.complete o).pc = .idle := rfl
@[simp] theorem State.complete_kwPos (o : CmdOutcome) : (s.complete o).kwPos = s.kwPos := rfl
@[simp] theorem State.complete_kwElapsed (o : CmdOutcome) : (s.complete o).kwElapsed = s.kwElapsed := rfl
@[simp] theorem State.complete_rxRemaining (o : CmdOutcome) : (s.complete o).rxRemaining = s.rxRemaining := rfl
@[simp] theorem State.complete_lineMode (o : CmdOutcome) : (s.complete o).lineMode = s.lineMode := rfl
@[simp] theorem State.complete_attempt (o : CmdOutcome) : (s.complete o).attempt = s.attempt := rfl
@[simp] theorem State.complete_chunkAddr (o : CmdOutcome) : (s.complete o).chunkAddr = s.chunkAddr := rfl
@[simp] theorem State.complete_chunkLeft (o : CmdOutcome) : (s.complete o).chunkLeft = s.chunkLeft := rfl
@[simp] theorem State.complete_idIndex (o : CmdOutcome) : (s.complete o).idIndex = s.idIndex := rfl
@[simp] theorem State.complete_line (o : CmdOutcome) : (s.complete o).line = s.line := rfl
@[simp] theorem State.complete_inputs (o : CmdOutcome) : (s.complete o).inputs = s.inputs := rfl
@[simp] theorem State.complete_history (o : CmdOutcome) : (s.complete o).history = s.history := rfl
@[simp] theorem State.complete_hostReads (o : CmdOutcome) : (s.complete o).hostReads = s.hostReads := rfl
@[simp] theorem State.complete_txMark (o : CmdOutcome) : (s.complete o).txMark = s.txMark := rfl
@[simp] theorem State.complete_rxMark (o : CmdOutcome) : (s.complete o).rxMark = s.rxMark := rfl
@[simp] theorem State.complete_memMark (o : CmdOutcome) : (s.complete o).memMark = s.memMark := rfl
@[simp] theorem State.complete_nextMark (o : CmdOutcome) : (s.complete o).nextMark = s.nextMark := rfl

/-! ### `State.raiseFatal` -/

@[simp] theorem State.raiseFatal_cfg (c : ErrCode) (x a : Byte) : (s.raiseFatal c x a).cfg = s.cfg := rfl
@[simp] theorem State.raiseFatal_status (c : ErrCode) (x a : Byte) : (s.raiseFatal c x a).status = { s.status with errCode := c, state := .disconnected, outcome := .fatal, busy := false } := rfl
@[simp] theorem State.raiseFatal_cmd (c : ErrCode) (x a : Byte) : (s.raiseFatal c x a).cmd = s.cmd := rfl
@[simp] theorem State.raiseFatal_arg0 (c : ErrCode) (x a : Byte) : (s.raiseFatal c x a).arg0 = s.arg0 := rfl
@[simp] theorem State.raiseFatal_result (c : ErrCode) (x a : Byte) : (s.raiseFatal c x a).result = s.result := rfl
@[simp] theorem State.raiseFatal_session (c : ErrCode) (x a : Byte) : (s.raiseFatal c x a).session = s.session := rfl
@[simp] theorem State.raiseFatal_errinfo (c : ErrCode) (x a : Byte) : (s.raiseFatal c x a).errinfo = ⟨x, a⟩ := rfl
@[simp] theorem State.raiseFatal_memlen (c : ErrCode) (x a : Byte) : (s.raiseFatal c x a).memlen = s.memlen := rfl
@[simp] theorem State.raiseFatal_rxcount (c : ErrCode) (x a : Byte) : (s.raiseFatal c x a).rxcount = s.rxcount := rfl
@[simp] theorem State.raiseFatal_mem (c : ErrCode) (x a : Byte) : (s.raiseFatal c x a).mem = s.mem := rfl
@[simp] theorem State.raiseFatal_pc (c : ErrCode) (x a : Byte) : (s.raiseFatal c x a).pc = .idle := rfl
@[simp] theorem State.raiseFatal_kwPos (c : ErrCode) (x a : Byte) : (s.raiseFatal c x a).kwPos = s.kwPos := rfl
@[simp] theorem State.raiseFatal_kwElapsed (c : ErrCode) (x a : Byte) : (s.raiseFatal c x a).kwElapsed = s.kwElapsed := rfl
@[simp] theorem State.raiseFatal_rxRemaining (c : ErrCode) (x a : Byte) : (s.raiseFatal c x a).rxRemaining = s.rxRemaining := rfl
@[simp] theorem State.raiseFatal_lineMode (c : ErrCode) (x a : Byte) : (s.raiseFatal c x a).lineMode = s.lineMode := rfl
@[simp] theorem State.raiseFatal_attempt (c : ErrCode) (x a : Byte) : (s.raiseFatal c x a).attempt = s.attempt := rfl
@[simp] theorem State.raiseFatal_chunkAddr (c : ErrCode) (x a : Byte) : (s.raiseFatal c x a).chunkAddr = s.chunkAddr := rfl
@[simp] theorem State.raiseFatal_chunkLeft (c : ErrCode) (x a : Byte) : (s.raiseFatal c x a).chunkLeft = s.chunkLeft := rfl
@[simp] theorem State.raiseFatal_idIndex (c : ErrCode) (x a : Byte) : (s.raiseFatal c x a).idIndex = s.idIndex := rfl
@[simp] theorem State.raiseFatal_line (c : ErrCode) (x a : Byte) : (s.raiseFatal c x a).line = s.line := rfl
@[simp] theorem State.raiseFatal_inputs (c : ErrCode) (x a : Byte) : (s.raiseFatal c x a).inputs = elapse 1 s.inputs := rfl
@[simp] theorem State.raiseFatal_history (c : ErrCode) (x a : Byte) : (s.raiseFatal c x a).history = .fatal c x a :: s.history := rfl
@[simp] theorem State.raiseFatal_hostReads (c : ErrCode) (x a : Byte) : (s.raiseFatal c x a).hostReads = s.hostReads := rfl
@[simp] theorem State.raiseFatal_txMark (c : ErrCode) (x a : Byte) : (s.raiseFatal c x a).txMark = s.txMark := rfl
@[simp] theorem State.raiseFatal_rxMark (c : ErrCode) (x a : Byte) : (s.raiseFatal c x a).rxMark = s.rxMark := rfl
@[simp] theorem State.raiseFatal_memMark (c : ErrCode) (x a : Byte) : (s.raiseFatal c x a).memMark = s.memMark := rfl
@[simp] theorem State.raiseFatal_nextMark (c : ErrCode) (x a : Byte) : (s.raiseFatal c x a).nextMark = s.nextMark := rfl

/-! ### `State.timedOut` -/

@[simp] theorem State.timedOut_cfg : (s.timedOut).cfg = s.cfg := rfl
@[simp] theorem State.timedOut_status : (s.timedOut).status = { s.status with state := .disconnected } := rfl
@[simp] theorem State.timedOut_cmd : (s.timedOut).cmd = s.cmd := rfl
@[simp] theorem State.timedOut_arg0 : (s.timedOut).arg0 = s.arg0 := rfl
@[simp] theorem State.timedOut_result : (s.timedOut).result = s.result := rfl
@[simp] theorem State.timedOut_session : (s.timedOut).session = s.session := rfl
@[simp] theorem State.timedOut_errinfo : (s.timedOut).errinfo = s.errinfo := rfl
@[simp] theorem State.timedOut_memlen : (s.timedOut).memlen = s.memlen := rfl
@[simp] theorem State.timedOut_rxcount : (s.timedOut).rxcount = s.rxcount := rfl
@[simp] theorem State.timedOut_mem : (s.timedOut).mem = s.mem := rfl
@[simp] theorem State.timedOut_pc : (s.timedOut).pc = s.pc := rfl
@[simp] theorem State.timedOut_kwPos : (s.timedOut).kwPos = s.kwPos := rfl
@[simp] theorem State.timedOut_kwElapsed : (s.timedOut).kwElapsed = s.kwElapsed := rfl
@[simp] theorem State.timedOut_rxRemaining : (s.timedOut).rxRemaining = s.rxRemaining := rfl
@[simp] theorem State.timedOut_lineMode : (s.timedOut).lineMode = s.lineMode := rfl
@[simp] theorem State.timedOut_attempt : (s.timedOut).attempt = s.attempt := rfl
@[simp] theorem State.timedOut_chunkAddr : (s.timedOut).chunkAddr = s.chunkAddr := rfl
@[simp] theorem State.timedOut_chunkLeft : (s.timedOut).chunkLeft = s.chunkLeft := rfl
@[simp] theorem State.timedOut_idIndex : (s.timedOut).idIndex = s.idIndex := rfl
@[simp] theorem State.timedOut_line : (s.timedOut).line = s.line := rfl
@[simp] theorem State.timedOut_inputs : (s.timedOut).inputs = elapse 1 s.inputs := rfl
@[simp] theorem State.timedOut_history : (s.timedOut).history = .timeout :: s.history := rfl
@[simp] theorem State.timedOut_hostReads : (s.timedOut).hostReads = s.hostReads := rfl
@[simp] theorem State.timedOut_txMark : (s.timedOut).txMark = s.txMark := rfl
@[simp] theorem State.timedOut_rxMark : (s.timedOut).rxMark = s.rxMark := rfl
@[simp] theorem State.timedOut_memMark : (s.timedOut).memMark = s.memMark := rfl
@[simp] theorem State.timedOut_nextMark : (s.timedOut).nextMark = s.nextMark := rfl

/-! ### `State.reject` -/

@[simp] theorem State.reject_cfg (r : Reject) : (s.reject r).cfg = s.cfg := rfl
@[simp] theorem State.reject_status (r : Reject) : (s.reject r).status = { s.status with reject := r, outcome := .rejected, busy := false } := rfl
@[simp] theorem State.reject_cmd (r : Reject) : (s.reject r).cmd = s.cmd := rfl
@[simp] theorem State.reject_arg0 (r : Reject) : (s.reject r).arg0 = s.arg0 := rfl
@[simp] theorem State.reject_result (r : Reject) : (s.reject r).result = s.result := rfl
@[simp] theorem State.reject_session (r : Reject) : (s.reject r).session = s.session := rfl
@[simp] theorem State.reject_errinfo (r : Reject) : (s.reject r).errinfo = s.errinfo := rfl
@[simp] theorem State.reject_memlen (r : Reject) : (s.reject r).memlen = s.memlen := rfl
@[simp] theorem State.reject_rxcount (r : Reject) : (s.reject r).rxcount = s.rxcount := rfl
@[simp] theorem State.reject_mem (r : Reject) : (s.reject r).mem = s.mem := rfl
@[simp] theorem State.reject_pc (r : Reject) : (s.reject r).pc = .idle := rfl
@[simp] theorem State.reject_kwPos (r : Reject) : (s.reject r).kwPos = s.kwPos := rfl
@[simp] theorem State.reject_kwElapsed (r : Reject) : (s.reject r).kwElapsed = s.kwElapsed := rfl
@[simp] theorem State.reject_rxRemaining (r : Reject) : (s.reject r).rxRemaining = s.rxRemaining := rfl
@[simp] theorem State.reject_lineMode (r : Reject) : (s.reject r).lineMode = s.lineMode := rfl
@[simp] theorem State.reject_attempt (r : Reject) : (s.reject r).attempt = s.attempt := rfl
@[simp] theorem State.reject_chunkAddr (r : Reject) : (s.reject r).chunkAddr = s.chunkAddr := rfl
@[simp] theorem State.reject_chunkLeft (r : Reject) : (s.reject r).chunkLeft = s.chunkLeft := rfl
@[simp] theorem State.reject_idIndex (r : Reject) : (s.reject r).idIndex = s.idIndex := rfl
@[simp] theorem State.reject_line (r : Reject) : (s.reject r).line = s.line := rfl
@[simp] theorem State.reject_inputs (r : Reject) : (s.reject r).inputs = s.inputs := rfl
@[simp] theorem State.reject_history (r : Reject) : (s.reject r).history = s.history := rfl
@[simp] theorem State.reject_hostReads (r : Reject) : (s.reject r).hostReads = s.hostReads := rfl
@[simp] theorem State.reject_txMark (r : Reject) : (s.reject r).txMark = s.txMark := rfl
@[simp] theorem State.reject_rxMark (r : Reject) : (s.reject r).rxMark = s.rxMark := rfl
@[simp] theorem State.reject_memMark (r : Reject) : (s.reject r).memMark = s.memMark := rfl
@[simp] theorem State.reject_nextMark (r : Reject) : (s.reject r).nextMark = s.nextMark := rfl

/-! ### `State.accept` -/

@[simp] theorem State.accept_cfg (w : Word) : (s.accept w).cfg = s.cfg := rfl
@[simp] theorem State.accept_status (w : Word) : (s.accept w).status = { s.status with busy := true, outcome := .none, reject := .none, overrun := false } := rfl
@[simp] theorem State.accept_cmd (w : Word) : (s.accept w).cmd = w := rfl
@[simp] theorem State.accept_arg0 (w : Word) : (s.accept w).arg0 = s.arg0 := rfl
@[simp] theorem State.accept_result (w : Word) : (s.accept w).result = 0 := rfl
@[simp] theorem State.accept_session (w : Word) : (s.accept w).session = s.session := rfl
@[simp] theorem State.accept_errinfo (w : Word) : (s.accept w).errinfo = s.errinfo := rfl
@[simp] theorem State.accept_memlen (w : Word) : (s.accept w).memlen = s.memlen := rfl
@[simp] theorem State.accept_rxcount (w : Word) : (s.accept w).rxcount = s.rxcount := rfl
@[simp] theorem State.accept_mem (w : Word) : (s.accept w).mem = s.mem := rfl
@[simp] theorem State.accept_pc (w : Word) : (s.accept w).pc = .accepted := rfl
@[simp] theorem State.accept_kwPos (w : Word) : (s.accept w).kwPos = s.kwPos := rfl
@[simp] theorem State.accept_kwElapsed (w : Word) : (s.accept w).kwElapsed = s.kwElapsed := rfl
@[simp] theorem State.accept_rxRemaining (w : Word) : (s.accept w).rxRemaining = s.rxRemaining := rfl
@[simp] theorem State.accept_lineMode (w : Word) : (s.accept w).lineMode = s.lineMode := rfl
@[simp] theorem State.accept_attempt (w : Word) : (s.accept w).attempt = s.attempt := rfl
@[simp] theorem State.accept_chunkAddr (w : Word) : (s.accept w).chunkAddr = s.chunkAddr := rfl
@[simp] theorem State.accept_chunkLeft (w : Word) : (s.accept w).chunkLeft = s.chunkLeft := rfl
@[simp] theorem State.accept_idIndex (w : Word) : (s.accept w).idIndex = s.idIndex := rfl
@[simp] theorem State.accept_line (w : Word) : (s.accept w).line = s.line := rfl
@[simp] theorem State.accept_inputs (w : Word) : (s.accept w).inputs = s.inputs := rfl
@[simp] theorem State.accept_history (w : Word) : (s.accept w).history = s.history := rfl
@[simp] theorem State.accept_hostReads (w : Word) : (s.accept w).hostReads = s.hostReads := rfl
@[simp] theorem State.accept_txMark (w : Word) : (s.accept w).txMark = s.txMark := rfl
@[simp] theorem State.accept_rxMark (w : Word) : (s.accept w).rxMark = s.rxMark := rfl
@[simp] theorem State.accept_memMark (w : Word) : (s.accept w).memMark = s.memMark := rfl
@[simp] theorem State.accept_nextMark (w : Word) : (s.accept w).nextMark = s.nextMark := rfl

/-! ### `State.setTx` -/

@[simp] theorem State.setTx_cfg (i : Nat) (b : Byte) : (s.setTx i b).cfg = s.cfg := rfl
@[simp] theorem State.setTx_status (i : Nat) (b : Byte) : (s.setTx i b).status = s.status := rfl
@[simp] theorem State.setTx_cmd (i : Nat) (b : Byte) : (s.setTx i b).cmd = s.cmd := rfl
@[simp] theorem State.setTx_arg0 (i : Nat) (b : Byte) : (s.setTx i b).arg0 = s.arg0 := rfl
@[simp] theorem State.setTx_result (i : Nat) (b : Byte) : (s.setTx i b).result = s.result := rfl
@[simp] theorem State.setTx_session (i : Nat) (b : Byte) : (s.setTx i b).session = s.session := rfl
@[simp] theorem State.setTx_errinfo (i : Nat) (b : Byte) : (s.setTx i b).errinfo = s.errinfo := rfl
@[simp] theorem State.setTx_memlen (i : Nat) (b : Byte) : (s.setTx i b).memlen = s.memlen := rfl
@[simp] theorem State.setTx_rxcount (i : Nat) (b : Byte) : (s.setTx i b).rxcount = s.rxcount := rfl
@[simp] theorem State.setTx_mem (i : Nat) (b : Byte) : (s.setTx i b).mem = Memory.write s.mem (txBase + i) b := rfl
@[simp] theorem State.setTx_pc (i : Nat) (b : Byte) : (s.setTx i b).pc = s.pc := rfl
@[simp] theorem State.setTx_kwPos (i : Nat) (b : Byte) : (s.setTx i b).kwPos = s.kwPos := rfl
@[simp] theorem State.setTx_kwElapsed (i : Nat) (b : Byte) : (s.setTx i b).kwElapsed = s.kwElapsed := rfl
@[simp] theorem State.setTx_rxRemaining (i : Nat) (b : Byte) : (s.setTx i b).rxRemaining = s.rxRemaining := rfl
@[simp] theorem State.setTx_lineMode (i : Nat) (b : Byte) : (s.setTx i b).lineMode = s.lineMode := rfl
@[simp] theorem State.setTx_attempt (i : Nat) (b : Byte) : (s.setTx i b).attempt = s.attempt := rfl
@[simp] theorem State.setTx_chunkAddr (i : Nat) (b : Byte) : (s.setTx i b).chunkAddr = s.chunkAddr := rfl
@[simp] theorem State.setTx_chunkLeft (i : Nat) (b : Byte) : (s.setTx i b).chunkLeft = s.chunkLeft := rfl
@[simp] theorem State.setTx_idIndex (i : Nat) (b : Byte) : (s.setTx i b).idIndex = s.idIndex := rfl
@[simp] theorem State.setTx_line (i : Nat) (b : Byte) : (s.setTx i b).line = s.line := rfl
@[simp] theorem State.setTx_inputs (i : Nat) (b : Byte) : (s.setTx i b).inputs = s.inputs := rfl
@[simp] theorem State.setTx_history (i : Nat) (b : Byte) : (s.setTx i b).history = s.history := rfl
@[simp] theorem State.setTx_hostReads (i : Nat) (b : Byte) : (s.setTx i b).hostReads = s.hostReads := rfl
@[simp] theorem State.setTx_txMark (i : Nat) (b : Byte) : (s.setTx i b).txMark = s.txMark := rfl
@[simp] theorem State.setTx_rxMark (i : Nat) (b : Byte) : (s.setTx i b).rxMark = s.rxMark := rfl
@[simp] theorem State.setTx_memMark (i : Nat) (b : Byte) : (s.setTx i b).memMark = s.memMark := rfl
@[simp] theorem State.setTx_nextMark (i : Nat) (b : Byte) : (s.setTx i b).nextMark = s.nextMark := rfl

/-! ### `State.storeRx` -/

@[simp] theorem State.storeRx_cfg (i : Nat) (b : Byte) : (s.storeRx i b).cfg = s.cfg := rfl
@[simp] theorem State.storeRx_status (i : Nat) (b : Byte) : (s.storeRx i b).status = s.status := rfl
@[simp] theorem State.storeRx_cmd (i : Nat) (b : Byte) : (s.storeRx i b).cmd = s.cmd := rfl
@[simp] theorem State.storeRx_arg0 (i : Nat) (b : Byte) : (s.storeRx i b).arg0 = s.arg0 := rfl
@[simp] theorem State.storeRx_result (i : Nat) (b : Byte) : (s.storeRx i b).result = s.result := rfl
@[simp] theorem State.storeRx_session (i : Nat) (b : Byte) : (s.storeRx i b).session = s.session := rfl
@[simp] theorem State.storeRx_errinfo (i : Nat) (b : Byte) : (s.storeRx i b).errinfo = s.errinfo := rfl
@[simp] theorem State.storeRx_memlen (i : Nat) (b : Byte) : (s.storeRx i b).memlen = s.memlen := rfl
@[simp] theorem State.storeRx_rxcount (i : Nat) (b : Byte) : (s.storeRx i b).rxcount = BitVec.ofNat 32 (i + 1) := rfl
@[simp] theorem State.storeRx_mem (i : Nat) (b : Byte) : (s.storeRx i b).mem = Memory.write s.mem (rxBase + i) b := rfl
@[simp] theorem State.storeRx_pc (i : Nat) (b : Byte) : (s.storeRx i b).pc = s.pc := rfl
@[simp] theorem State.storeRx_kwPos (i : Nat) (b : Byte) : (s.storeRx i b).kwPos = s.kwPos := rfl
@[simp] theorem State.storeRx_kwElapsed (i : Nat) (b : Byte) : (s.storeRx i b).kwElapsed = s.kwElapsed := rfl
@[simp] theorem State.storeRx_rxRemaining (i : Nat) (b : Byte) : (s.storeRx i b).rxRemaining = s.rxRemaining := rfl
@[simp] theorem State.storeRx_lineMode (i : Nat) (b : Byte) : (s.storeRx i b).lineMode = s.lineMode := rfl
@[simp] theorem State.storeRx_attempt (i : Nat) (b : Byte) : (s.storeRx i b).attempt = s.attempt := rfl
@[simp] theorem State.storeRx_chunkAddr (i : Nat) (b : Byte) : (s.storeRx i b).chunkAddr = s.chunkAddr := rfl
@[simp] theorem State.storeRx_chunkLeft (i : Nat) (b : Byte) : (s.storeRx i b).chunkLeft = s.chunkLeft := rfl
@[simp] theorem State.storeRx_idIndex (i : Nat) (b : Byte) : (s.storeRx i b).idIndex = s.idIndex := rfl
@[simp] theorem State.storeRx_line (i : Nat) (b : Byte) : (s.storeRx i b).line = s.line := rfl
@[simp] theorem State.storeRx_inputs (i : Nat) (b : Byte) : (s.storeRx i b).inputs = s.inputs := rfl
@[simp] theorem State.storeRx_history (i : Nat) (b : Byte) : (s.storeRx i b).history = s.history := rfl
@[simp] theorem State.storeRx_hostReads (i : Nat) (b : Byte) : (s.storeRx i b).hostReads = s.hostReads := rfl
@[simp] theorem State.storeRx_txMark (i : Nat) (b : Byte) : (s.storeRx i b).txMark = s.txMark := rfl
@[simp] theorem State.storeRx_rxMark (i : Nat) (b : Byte) : (s.storeRx i b).rxMark = s.rxMark := rfl
@[simp] theorem State.storeRx_memMark (i : Nat) (b : Byte) : (s.storeRx i b).memMark = s.memMark := rfl
@[simp] theorem State.storeRx_nextMark (i : Nat) (b : Byte) : (s.storeRx i b).nextMark = s.nextMark := rfl

/-! ### `State.startReception` -/

@[simp] theorem State.startReception_cfg : (s.startReception).cfg = s.cfg := rfl
@[simp] theorem State.startReception_status : (s.startReception).status = s.status := rfl
@[simp] theorem State.startReception_cmd : (s.startReception).cmd = s.cmd := rfl
@[simp] theorem State.startReception_arg0 : (s.startReception).arg0 = s.arg0 := rfl
@[simp] theorem State.startReception_result : (s.startReception).result = s.result := rfl
@[simp] theorem State.startReception_session : (s.startReception).session = s.session := rfl
@[simp] theorem State.startReception_errinfo : (s.startReception).errinfo = s.errinfo := rfl
@[simp] theorem State.startReception_memlen : (s.startReception).memlen = s.memlen := rfl
@[simp] theorem State.startReception_rxcount : (s.startReception).rxcount = 0 := rfl
@[simp] theorem State.startReception_mem : (s.startReception).mem = Memory.forget s.mem rxBase (rxBase + windowBytes) := rfl
@[simp] theorem State.startReception_pc : (s.startReception).pc = s.pc := rfl
@[simp] theorem State.startReception_kwPos : (s.startReception).kwPos = s.kwPos := rfl
@[simp] theorem State.startReception_kwElapsed : (s.startReception).kwElapsed = s.kwElapsed := rfl
@[simp] theorem State.startReception_rxRemaining : (s.startReception).rxRemaining = s.rxRemaining := rfl
@[simp] theorem State.startReception_lineMode : (s.startReception).lineMode = s.lineMode := rfl
@[simp] theorem State.startReception_attempt : (s.startReception).attempt = s.attempt := rfl
@[simp] theorem State.startReception_chunkAddr : (s.startReception).chunkAddr = s.chunkAddr := rfl
@[simp] theorem State.startReception_chunkLeft : (s.startReception).chunkLeft = s.chunkLeft := rfl
@[simp] theorem State.startReception_idIndex : (s.startReception).idIndex = s.idIndex := rfl
@[simp] theorem State.startReception_line : (s.startReception).line = s.line := rfl
@[simp] theorem State.startReception_inputs : (s.startReception).inputs = s.inputs := rfl
@[simp] theorem State.startReception_history : (s.startReception).history = s.history := rfl
@[simp] theorem State.startReception_hostReads : (s.startReception).hostReads = s.hostReads := rfl
@[simp] theorem State.startReception_txMark : (s.startReception).txMark = s.txMark := rfl
@[simp] theorem State.startReception_rxMark : (s.startReception).rxMark = s.nextMark := rfl
@[simp] theorem State.startReception_memMark : (s.startReception).memMark = s.memMark := rfl
@[simp] theorem State.startReception_nextMark : (s.startReception).nextMark = s.nextMark + 1 := rfl

/-! ### `State.storedLength` -/

@[simp] theorem State.storedLength_cfg (c : Byte) : (s.storedLength c).cfg = s.cfg := rfl
@[simp] theorem State.storedLength_status (c : Byte) : (s.storedLength c).status = s.status := rfl
@[simp] theorem State.storedLength_cmd (c : Byte) : (s.storedLength c).cmd = s.cmd := rfl
@[simp] theorem State.storedLength_arg0 (c : Byte) : (s.storedLength c).arg0 = s.arg0 := rfl
@[simp] theorem State.storedLength_result (c : Byte) : (s.storedLength c).result = s.result := rfl
@[simp] theorem State.storedLength_session (c : Byte) : (s.storedLength c).session = s.session := rfl
@[simp] theorem State.storedLength_errinfo (c : Byte) : (s.storedLength c).errinfo = s.errinfo := rfl
@[simp] theorem State.storedLength_memlen (c : Byte) : (s.storedLength c).memlen = s.memlen := rfl
@[simp] theorem State.storedLength_rxcount (c : Byte) : (s.storedLength c).rxcount = 1 := rfl
@[simp] theorem State.storedLength_mem (c : Byte) : (s.storedLength c).mem = Memory.write s.mem rxBase c := rfl
@[simp] theorem State.storedLength_pc (c : Byte) : (s.storedLength c).pc = s.pc := rfl
@[simp] theorem State.storedLength_kwPos (c : Byte) : (s.storedLength c).kwPos = s.kwPos := rfl
@[simp] theorem State.storedLength_kwElapsed (c : Byte) : (s.storedLength c).kwElapsed = s.kwElapsed := rfl
@[simp] theorem State.storedLength_rxRemaining (c : Byte) : (s.storedLength c).rxRemaining = c := rfl
@[simp] theorem State.storedLength_lineMode (c : Byte) : (s.storedLength c).lineMode = s.lineMode := rfl
@[simp] theorem State.storedLength_attempt (c : Byte) : (s.storedLength c).attempt = s.attempt := rfl
@[simp] theorem State.storedLength_chunkAddr (c : Byte) : (s.storedLength c).chunkAddr = s.chunkAddr := rfl
@[simp] theorem State.storedLength_chunkLeft (c : Byte) : (s.storedLength c).chunkLeft = s.chunkLeft := rfl
@[simp] theorem State.storedLength_idIndex (c : Byte) : (s.storedLength c).idIndex = s.idIndex := rfl
@[simp] theorem State.storedLength_line (c : Byte) : (s.storedLength c).line = s.line := rfl
@[simp] theorem State.storedLength_inputs (c : Byte) : (s.storedLength c).inputs = s.inputs := rfl
@[simp] theorem State.storedLength_history (c : Byte) : (s.storedLength c).history = s.history := rfl
@[simp] theorem State.storedLength_hostReads (c : Byte) : (s.storedLength c).hostReads = s.hostReads := rfl
@[simp] theorem State.storedLength_txMark (c : Byte) : (s.storedLength c).txMark = s.txMark := rfl
@[simp] theorem State.storedLength_rxMark (c : Byte) : (s.storedLength c).rxMark = s.rxMark := rfl
@[simp] theorem State.storedLength_memMark (c : Byte) : (s.storedLength c).memMark = s.memMark := rfl
@[simp] theorem State.storedLength_nextMark (c : Byte) : (s.storedLength c).nextMark = s.nextMark := rfl

/-! ### `State.storedByte` -/

@[simp] theorem State.storedByte_cfg (i : Nat) (b : Byte) (t : Session) : (s.storedByte i b t).cfg = s.cfg := rfl
@[simp] theorem State.storedByte_status (i : Nat) (b : Byte) (t : Session) : (s.storedByte i b t).status = s.status := rfl
@[simp] theorem State.storedByte_cmd (i : Nat) (b : Byte) (t : Session) : (s.storedByte i b t).cmd = s.cmd := rfl
@[simp] theorem State.storedByte_arg0 (i : Nat) (b : Byte) (t : Session) : (s.storedByte i b t).arg0 = s.arg0 := rfl
@[simp] theorem State.storedByte_result (i : Nat) (b : Byte) (t : Session) : (s.storedByte i b t).result = s.result := rfl
@[simp] theorem State.storedByte_session (i : Nat) (b : Byte) (t : Session) : (s.storedByte i b t).session = t := rfl
@[simp] theorem State.storedByte_errinfo (i : Nat) (b : Byte) (t : Session) : (s.storedByte i b t).errinfo = s.errinfo := rfl
@[simp] theorem State.storedByte_memlen (i : Nat) (b : Byte) (t : Session) : (s.storedByte i b t).memlen = s.memlen := rfl
@[simp] theorem State.storedByte_rxcount (i : Nat) (b : Byte) (t : Session) : (s.storedByte i b t).rxcount = BitVec.ofNat 32 (i + 1) := rfl
@[simp] theorem State.storedByte_mem (i : Nat) (b : Byte) (t : Session) : (s.storedByte i b t).mem = Memory.write s.mem (rxBase + i) b := rfl
@[simp] theorem State.storedByte_pc (i : Nat) (b : Byte) (t : Session) : (s.storedByte i b t).pc = s.pc := rfl
@[simp] theorem State.storedByte_kwPos (i : Nat) (b : Byte) (t : Session) : (s.storedByte i b t).kwPos = s.kwPos := rfl
@[simp] theorem State.storedByte_kwElapsed (i : Nat) (b : Byte) (t : Session) : (s.storedByte i b t).kwElapsed = s.kwElapsed := rfl
@[simp] theorem State.storedByte_rxRemaining (i : Nat) (b : Byte) (t : Session) : (s.storedByte i b t).rxRemaining = s.rxRemaining - 1 := rfl
@[simp] theorem State.storedByte_lineMode (i : Nat) (b : Byte) (t : Session) : (s.storedByte i b t).lineMode = s.lineMode := rfl
@[simp] theorem State.storedByte_attempt (i : Nat) (b : Byte) (t : Session) : (s.storedByte i b t).attempt = s.attempt := rfl
@[simp] theorem State.storedByte_chunkAddr (i : Nat) (b : Byte) (t : Session) : (s.storedByte i b t).chunkAddr = s.chunkAddr := rfl
@[simp] theorem State.storedByte_chunkLeft (i : Nat) (b : Byte) (t : Session) : (s.storedByte i b t).chunkLeft = s.chunkLeft := rfl
@[simp] theorem State.storedByte_idIndex (i : Nat) (b : Byte) (t : Session) : (s.storedByte i b t).idIndex = s.idIndex := rfl
@[simp] theorem State.storedByte_line (i : Nat) (b : Byte) (t : Session) : (s.storedByte i b t).line = s.line := rfl
@[simp] theorem State.storedByte_inputs (i : Nat) (b : Byte) (t : Session) : (s.storedByte i b t).inputs = s.inputs := rfl
@[simp] theorem State.storedByte_history (i : Nat) (b : Byte) (t : Session) : (s.storedByte i b t).history = s.history := rfl
@[simp] theorem State.storedByte_hostReads (i : Nat) (b : Byte) (t : Session) : (s.storedByte i b t).hostReads = s.hostReads := rfl
@[simp] theorem State.storedByte_txMark (i : Nat) (b : Byte) (t : Session) : (s.storedByte i b t).txMark = s.txMark := rfl
@[simp] theorem State.storedByte_rxMark (i : Nat) (b : Byte) (t : Session) : (s.storedByte i b t).rxMark = s.rxMark := rfl
@[simp] theorem State.storedByte_memMark (i : Nat) (b : Byte) (t : Session) : (s.storedByte i b t).memMark = s.memMark := rfl
@[simp] theorem State.storedByte_nextMark (i : Nat) (b : Byte) (t : Session) : (s.storedByte i b t).nextMark = s.nextMark := rfl

/-! ### `State.attemptStart` -/

@[simp] theorem State.attemptStart_cfg (g : Gen) : (s.attemptStart g).cfg = s.cfg := rfl
@[simp] theorem State.attemptStart_status (g : Gen) : (s.attemptStart g).status = { s.status with errCode := .none, state := .addressing } := rfl
@[simp] theorem State.attemptStart_cmd (g : Gen) : (s.attemptStart g).cmd = s.cmd := rfl
@[simp] theorem State.attemptStart_arg0 (g : Gen) : (s.attemptStart g).arg0 = s.arg0 := rfl
@[simp] theorem State.attemptStart_result (g : Gen) : (s.attemptStart g).result = s.result := rfl
@[simp] theorem State.attemptStart_session (g : Gen) : (s.attemptStart g).session = ⟨0, false, g, s.session.baud⟩ := rfl
@[simp] theorem State.attemptStart_errinfo (g : Gen) : (s.attemptStart g).errinfo = ⟨0, 0⟩ := rfl
@[simp] theorem State.attemptStart_memlen (g : Gen) : (s.attemptStart g).memlen = s.memlen := rfl
@[simp] theorem State.attemptStart_rxcount (g : Gen) : (s.attemptStart g).rxcount = s.rxcount := rfl
@[simp] theorem State.attemptStart_mem (g : Gen) : (s.attemptStart g).mem = Memory.forget s.mem idBase (idBase + idBytes) := rfl
@[simp] theorem State.attemptStart_pc (g : Gen) : (s.attemptStart g).pc = s.pc := rfl
@[simp] theorem State.attemptStart_kwPos (g : Gen) : (s.attemptStart g).kwPos = s.kwPos := rfl
@[simp] theorem State.attemptStart_kwElapsed (g : Gen) : (s.attemptStart g).kwElapsed = s.kwElapsed := rfl
@[simp] theorem State.attemptStart_rxRemaining (g : Gen) : (s.attemptStart g).rxRemaining = s.rxRemaining := rfl
@[simp] theorem State.attemptStart_lineMode (g : Gen) : (s.attemptStart g).lineMode = s.lineMode := rfl
@[simp] theorem State.attemptStart_attempt (g : Gen) : (s.attemptStart g).attempt = s.attempt := rfl
@[simp] theorem State.attemptStart_chunkAddr (g : Gen) : (s.attemptStart g).chunkAddr = s.chunkAddr := rfl
@[simp] theorem State.attemptStart_chunkLeft (g : Gen) : (s.attemptStart g).chunkLeft = s.chunkLeft := rfl
@[simp] theorem State.attemptStart_idIndex (g : Gen) : (s.attemptStart g).idIndex = s.idIndex := rfl
@[simp] theorem State.attemptStart_line (g : Gen) : (s.attemptStart g).line = s.line := rfl
@[simp] theorem State.attemptStart_inputs (g : Gen) : (s.attemptStart g).inputs = s.inputs := rfl
@[simp] theorem State.attemptStart_history (g : Gen) : (s.attemptStart g).history = s.history := rfl
@[simp] theorem State.attemptStart_hostReads (g : Gen) : (s.attemptStart g).hostReads = s.hostReads := rfl
@[simp] theorem State.attemptStart_txMark (g : Gen) : (s.attemptStart g).txMark = s.txMark := rfl
@[simp] theorem State.attemptStart_rxMark (g : Gen) : (s.attemptStart g).rxMark = s.rxMark := rfl
@[simp] theorem State.attemptStart_memMark (g : Gen) : (s.attemptStart g).memMark = s.memMark := rfl
@[simp] theorem State.attemptStart_nextMark (g : Gen) : (s.attemptStart g).nextMark = s.nextMark := rfl

/-! ### `State.startMemRead` -/

@[simp] theorem State.startMemRead_cfg (a : Half) (n : Word) : (s.startMemRead a n).cfg = s.cfg := rfl
@[simp] theorem State.startMemRead_status (a : Half) (n : Word) : (s.startMemRead a n).status = { s.status with memTrunc := false } := rfl
@[simp] theorem State.startMemRead_cmd (a : Half) (n : Word) : (s.startMemRead a n).cmd = s.cmd := rfl
@[simp] theorem State.startMemRead_arg0 (a : Half) (n : Word) : (s.startMemRead a n).arg0 = s.arg0 := rfl
@[simp] theorem State.startMemRead_result (a : Half) (n : Word) : (s.startMemRead a n).result = s.result := rfl
@[simp] theorem State.startMemRead_session (a : Half) (n : Word) : (s.startMemRead a n).session = s.session := rfl
@[simp] theorem State.startMemRead_errinfo (a : Half) (n : Word) : (s.startMemRead a n).errinfo = s.errinfo := rfl
@[simp] theorem State.startMemRead_memlen (a : Half) (n : Word) : (s.startMemRead a n).memlen = 0 := rfl
@[simp] theorem State.startMemRead_rxcount (a : Half) (n : Word) : (s.startMemRead a n).rxcount = s.rxcount := rfl
@[simp] theorem State.startMemRead_mem (a : Half) (n : Word) : (s.startMemRead a n).mem = Memory.forget s.mem memBase (memBase + s.cfg.membufBytes) := rfl
@[simp] theorem State.startMemRead_pc (a : Half) (n : Word) : (s.startMemRead a n).pc = s.pc := rfl
@[simp] theorem State.startMemRead_kwPos (a : Half) (n : Word) : (s.startMemRead a n).kwPos = s.kwPos := rfl
@[simp] theorem State.startMemRead_kwElapsed (a : Half) (n : Word) : (s.startMemRead a n).kwElapsed = s.kwElapsed := rfl
@[simp] theorem State.startMemRead_rxRemaining (a : Half) (n : Word) : (s.startMemRead a n).rxRemaining = s.rxRemaining := rfl
@[simp] theorem State.startMemRead_lineMode (a : Half) (n : Word) : (s.startMemRead a n).lineMode = s.lineMode := rfl
@[simp] theorem State.startMemRead_attempt (a : Half) (n : Word) : (s.startMemRead a n).attempt = s.attempt := rfl
@[simp] theorem State.startMemRead_chunkAddr (a : Half) (n : Word) : (s.startMemRead a n).chunkAddr = a := rfl
@[simp] theorem State.startMemRead_chunkLeft (a : Half) (n : Word) : (s.startMemRead a n).chunkLeft = n := rfl
@[simp] theorem State.startMemRead_idIndex (a : Half) (n : Word) : (s.startMemRead a n).idIndex = s.idIndex := rfl
@[simp] theorem State.startMemRead_line (a : Half) (n : Word) : (s.startMemRead a n).line = s.line := rfl
@[simp] theorem State.startMemRead_inputs (a : Half) (n : Word) : (s.startMemRead a n).inputs = s.inputs := rfl
@[simp] theorem State.startMemRead_history (a : Half) (n : Word) : (s.startMemRead a n).history = s.history := rfl
@[simp] theorem State.startMemRead_hostReads (a : Half) (n : Word) : (s.startMemRead a n).hostReads = s.hostReads := rfl
@[simp] theorem State.startMemRead_txMark (a : Half) (n : Word) : (s.startMemRead a n).txMark = s.txMark := rfl
@[simp] theorem State.startMemRead_rxMark (a : Half) (n : Word) : (s.startMemRead a n).rxMark = s.rxMark := rfl
@[simp] theorem State.startMemRead_memMark (a : Half) (n : Word) : (s.startMemRead a n).memMark = s.nextMark := rfl
@[simp] theorem State.startMemRead_nextMark (a : Half) (n : Word) : (s.startMemRead a n).nextMark = s.nextMark + 1 := rfl

/-! ### `State.openBlock` -/

@[simp] theorem State.openBlock_cfg (n : Byte) : (s.openBlock n).cfg = s.cfg := rfl
@[simp] theorem State.openBlock_status (n : Byte) : (s.openBlock n).status = s.status := rfl
@[simp] theorem State.openBlock_cmd (n : Byte) : (s.openBlock n).cmd = s.cmd := rfl
@[simp] theorem State.openBlock_arg0 (n : Byte) : (s.openBlock n).arg0 = s.arg0 := rfl
@[simp] theorem State.openBlock_result (n : Byte) : (s.openBlock n).result = s.result := rfl
@[simp] theorem State.openBlock_session (n : Byte) : (s.openBlock n).session = { s.session with counter := s.session.counter + 1 } := rfl
@[simp] theorem State.openBlock_errinfo (n : Byte) : (s.openBlock n).errinfo = s.errinfo := rfl
@[simp] theorem State.openBlock_memlen (n : Byte) : (s.openBlock n).memlen = s.memlen := rfl
@[simp] theorem State.openBlock_rxcount (n : Byte) : (s.openBlock n).rxcount = s.rxcount := rfl
@[simp] theorem State.openBlock_mem (n : Byte) : (s.openBlock n).mem = Memory.write (Memory.write s.mem (txBase + 1) (s.session.counter + 1)) (txBase + n.toNat) terminator := rfl
@[simp] theorem State.openBlock_pc (n : Byte) : (s.openBlock n).pc = s.pc := rfl
@[simp] theorem State.openBlock_kwPos (n : Byte) : (s.openBlock n).kwPos = s.kwPos := rfl
@[simp] theorem State.openBlock_kwElapsed (n : Byte) : (s.openBlock n).kwElapsed = s.kwElapsed := rfl
@[simp] theorem State.openBlock_rxRemaining (n : Byte) : (s.openBlock n).rxRemaining = s.rxRemaining := rfl
@[simp] theorem State.openBlock_lineMode (n : Byte) : (s.openBlock n).lineMode = s.lineMode := rfl
@[simp] theorem State.openBlock_attempt (n : Byte) : (s.openBlock n).attempt = s.attempt := rfl
@[simp] theorem State.openBlock_chunkAddr (n : Byte) : (s.openBlock n).chunkAddr = s.chunkAddr := rfl
@[simp] theorem State.openBlock_chunkLeft (n : Byte) : (s.openBlock n).chunkLeft = s.chunkLeft := rfl
@[simp] theorem State.openBlock_idIndex (n : Byte) : (s.openBlock n).idIndex = s.idIndex := rfl
@[simp] theorem State.openBlock_line (n : Byte) : (s.openBlock n).line = s.line := rfl
@[simp] theorem State.openBlock_inputs (n : Byte) : (s.openBlock n).inputs = s.inputs := rfl
@[simp] theorem State.openBlock_history (n : Byte) : (s.openBlock n).history = s.history := rfl
@[simp] theorem State.openBlock_hostReads (n : Byte) : (s.openBlock n).hostReads = s.hostReads := rfl
@[simp] theorem State.openBlock_txMark (n : Byte) : (s.openBlock n).txMark = s.txMark := rfl
@[simp] theorem State.openBlock_rxMark (n : Byte) : (s.openBlock n).rxMark = s.rxMark := rfl
@[simp] theorem State.openBlock_memMark (n : Byte) : (s.openBlock n).memMark = s.memMark := rfl
@[simp] theorem State.openBlock_nextMark (n : Byte) : (s.openBlock n).nextMark = s.nextMark := rfl

/-! ### `State.noteRead` -/

@[simp] theorem State.noteRead_cfg (a w o : Nat) : (s.noteRead a w o).cfg = s.cfg := rfl
@[simp] theorem State.noteRead_status (a w o : Nat) : (s.noteRead a w o).status = s.status := rfl
@[simp] theorem State.noteRead_cmd (a w o : Nat) : (s.noteRead a w o).cmd = s.cmd := rfl
@[simp] theorem State.noteRead_arg0 (a w o : Nat) : (s.noteRead a w o).arg0 = s.arg0 := rfl
@[simp] theorem State.noteRead_result (a w o : Nat) : (s.noteRead a w o).result = s.result := rfl
@[simp] theorem State.noteRead_session (a w o : Nat) : (s.noteRead a w o).session = s.session := rfl
@[simp] theorem State.noteRead_errinfo (a w o : Nat) : (s.noteRead a w o).errinfo = s.errinfo := rfl
@[simp] theorem State.noteRead_memlen (a w o : Nat) : (s.noteRead a w o).memlen = s.memlen := rfl
@[simp] theorem State.noteRead_rxcount (a w o : Nat) : (s.noteRead a w o).rxcount = s.rxcount := rfl
@[simp] theorem State.noteRead_mem (a w o : Nat) : (s.noteRead a w o).mem = s.mem := rfl
@[simp] theorem State.noteRead_pc (a w o : Nat) : (s.noteRead a w o).pc = s.pc := rfl
@[simp] theorem State.noteRead_kwPos (a w o : Nat) : (s.noteRead a w o).kwPos = s.kwPos := rfl
@[simp] theorem State.noteRead_kwElapsed (a w o : Nat) : (s.noteRead a w o).kwElapsed = s.kwElapsed := rfl
@[simp] theorem State.noteRead_rxRemaining (a w o : Nat) : (s.noteRead a w o).rxRemaining = s.rxRemaining := rfl
@[simp] theorem State.noteRead_lineMode (a w o : Nat) : (s.noteRead a w o).lineMode = s.lineMode := rfl
@[simp] theorem State.noteRead_attempt (a w o : Nat) : (s.noteRead a w o).attempt = s.attempt := rfl
@[simp] theorem State.noteRead_chunkAddr (a w o : Nat) : (s.noteRead a w o).chunkAddr = s.chunkAddr := rfl
@[simp] theorem State.noteRead_chunkLeft (a w o : Nat) : (s.noteRead a w o).chunkLeft = s.chunkLeft := rfl
@[simp] theorem State.noteRead_idIndex (a w o : Nat) : (s.noteRead a w o).idIndex = s.idIndex := rfl
@[simp] theorem State.noteRead_line (a w o : Nat) : (s.noteRead a w o).line = s.line := rfl
@[simp] theorem State.noteRead_inputs (a w o : Nat) : (s.noteRead a w o).inputs = s.inputs := rfl
@[simp] theorem State.noteRead_history (a w o : Nat) : (s.noteRead a w o).history = .memRead a w (s.readWord o) :: s.history := rfl
@[simp] theorem State.noteRead_hostReads (a w o : Nat) : (s.noteRead a w o).hostReads = (a, s.readWord o) :: s.hostReads := rfl
@[simp] theorem State.noteRead_txMark (a w o : Nat) : (s.noteRead a w o).txMark = s.txMark := rfl
@[simp] theorem State.noteRead_rxMark (a w o : Nat) : (s.noteRead a w o).rxMark = s.rxMark := rfl
@[simp] theorem State.noteRead_memMark (a w o : Nat) : (s.noteRead a w o).memMark = s.memMark := rfl
@[simp] theorem State.noteRead_nextMark (a w o : Nat) : (s.noteRead a w o).nextMark = s.nextMark := rfl

/-! ### `State.past` -/

@[simp] theorem State.past_cfg (es : List Event) (l : List Byte) : (s.past es l).cfg = s.cfg := rfl
@[simp] theorem State.past_status (es : List Event) (l : List Byte) : (s.past es l).status = s.status := rfl
@[simp] theorem State.past_cmd (es : List Event) (l : List Byte) : (s.past es l).cmd = s.cmd := rfl
@[simp] theorem State.past_arg0 (es : List Event) (l : List Byte) : (s.past es l).arg0 = s.arg0 := rfl
@[simp] theorem State.past_result (es : List Event) (l : List Byte) : (s.past es l).result = s.result := rfl
@[simp] theorem State.past_session (es : List Event) (l : List Byte) : (s.past es l).session = s.session := rfl
@[simp] theorem State.past_errinfo (es : List Event) (l : List Byte) : (s.past es l).errinfo = s.errinfo := rfl
@[simp] theorem State.past_memlen (es : List Event) (l : List Byte) : (s.past es l).memlen = s.memlen := rfl
@[simp] theorem State.past_rxcount (es : List Event) (l : List Byte) : (s.past es l).rxcount = s.rxcount := rfl
@[simp] theorem State.past_mem (es : List Event) (l : List Byte) : (s.past es l).mem = s.mem := rfl
@[simp] theorem State.past_pc (es : List Event) (l : List Byte) : (s.past es l).pc = s.pc := rfl
@[simp] theorem State.past_kwPos (es : List Event) (l : List Byte) : (s.past es l).kwPos = s.kwPos := rfl
@[simp] theorem State.past_kwElapsed (es : List Event) (l : List Byte) : (s.past es l).kwElapsed = s.kwElapsed := rfl
@[simp] theorem State.past_rxRemaining (es : List Event) (l : List Byte) : (s.past es l).rxRemaining = s.rxRemaining := rfl
@[simp] theorem State.past_lineMode (es : List Event) (l : List Byte) : (s.past es l).lineMode = s.lineMode := rfl
@[simp] theorem State.past_attempt (es : List Event) (l : List Byte) : (s.past es l).attempt = s.attempt := rfl
@[simp] theorem State.past_chunkAddr (es : List Event) (l : List Byte) : (s.past es l).chunkAddr = s.chunkAddr := rfl
@[simp] theorem State.past_chunkLeft (es : List Event) (l : List Byte) : (s.past es l).chunkLeft = s.chunkLeft := rfl
@[simp] theorem State.past_idIndex (es : List Event) (l : List Byte) : (s.past es l).idIndex = s.idIndex := rfl
@[simp] theorem State.past_line (es : List Event) (l : List Byte) : (s.past es l).line = { s.line with rx := l } := rfl
@[simp] theorem State.past_inputs (es : List Event) (l : List Byte) : (s.past es l).inputs = elapse es.length s.inputs := rfl
@[simp] theorem State.past_history (es : List Event) (l : List Byte) : (s.past es l).history = es.reverse ++ s.history := rfl
@[simp] theorem State.past_hostReads (es : List Event) (l : List Byte) : (s.past es l).hostReads = s.hostReads := rfl
@[simp] theorem State.past_txMark (es : List Event) (l : List Byte) : (s.past es l).txMark = s.txMark := rfl
@[simp] theorem State.past_rxMark (es : List Event) (l : List Byte) : (s.past es l).rxMark = s.rxMark := rfl
@[simp] theorem State.past_memMark (es : List Event) (l : List Byte) : (s.past es l).memMark = s.memMark := rfl
@[simp] theorem State.past_nextMark (es : List Event) (l : List Byte) : (s.past es l).nextMark = s.nextMark := rfl

end Sys2Proof.Machine
end

