-- ==== Sys2Proof/Laws/Memory.lean ====
section
/-! SUPPORT. The laws of the buffers: a read after a write, what a write and a forgetting leave alone, and that each keeps the canonical form. -/

namespace Sys2Proof.Machine

theorem Memory.listed_insert_same (m : Memory) (a : Nat) (b : Byte) :
    Memory.listed (Memory.insert m a b) a = some b := by
  induction m with
  | nil => simp [Memory.insert, Memory.listed]
  | cons c m ih =>
    obtain ⟨k, v⟩ := c
    simp only [Memory.insert]
    split
    · simp [Memory.listed]
    · split
      · simp [Memory.listed]
      · have : k ≠ a := by omega
        simp [Memory.listed, this, ih]

theorem Memory.listed_insert_other (m : Memory) (a : Nat) (b : Byte) {x : Nat} (h : x ≠ a) :
    Memory.listed (Memory.insert m a b) x = Memory.listed m x := by
  induction m with
  | nil => simp [Memory.insert, Memory.listed, h.symm]
  | cons c m ih =>
    obtain ⟨k, v⟩ := c
    simp only [Memory.insert]
    split
    · simp [Memory.listed, h.symm]
    · split
      · rename_i hk
        have hx : k ≠ x := by omega
        simp [Memory.listed, h.symm, hx]
      · simp [Memory.listed, ih]

theorem Memory.listed_forget (m : Memory) (lo hi x : Nat) :
    Memory.listed (Memory.forget m lo hi) x = if lo ≤ x ∧ x < hi then none else Memory.listed m x := by
  induction m with
  | nil => simp [Memory.forget, Memory.listed]
  | cons c m ih =>
    obtain ⟨k, v⟩ := c
    simp only [Memory.forget] at ih ⊢
    simp only [List.filter_cons, Memory.listed]
    by_cases hk : k < lo ∨ hi ≤ k
    · have : (decide (k < lo) || decide (hi ≤ k)) = true := by simpa using hk
      simp only [this, if_true, Memory.listed, ih]
      by_cases hx : k = x
      · subst hx
        have : ¬(lo ≤ k ∧ k < hi) := by omega
        simp [this]
      · simp [hx]
    · have : (decide (k < lo) || decide (hi ≤ k)) = false := by simpa using hk
      simp only [this, Bool.false_eq_true, if_false, ih]
      by_cases hx : k = x
      · subst hx
        have : lo ≤ k ∧ k < hi := by omega
        simp [this]
      · simp [hx]

/-- A read after a write to the same offset gives the value written. -/
@[simp] theorem Memory.read_write_same (m : Memory) (a : Nat) (b : Byte) :
    Memory.read (Memory.write m a b) a = some b := by
  unfold Memory.write
  split
  · rename_i h
    simp [Memory.read, Memory.listed_forget, h]
  · simp [Memory.read, Memory.listed_insert_same]

/-- A write leaves every other offset alone. -/
theorem Memory.read_write_other (m : Memory) (a : Nat) (b : Byte) {x : Nat} (h : x ≠ a) :
    Memory.read (Memory.write m a b) x = Memory.read m x := by
  unfold Memory.write
  split
  · have : ¬(a ≤ x ∧ x < a + 1) := by omega
    simp only [Memory.read, Memory.listed_forget, if_neg this]
  · simp [Memory.read, Memory.listed_insert_other m a b h]

/-- A forgotten offset holds what an unlisted one holds; the others are left alone. -/
theorem Memory.read_forget (m : Memory) (lo hi x : Nat) :
    Memory.read (Memory.forget m lo hi) x = if lo ≤ x ∧ x < hi then Memory.unlisted x else Memory.read m x := by
  unfold Memory.read
  rw [Memory.listed_forget]
  by_cases hx : lo ≤ x ∧ x < hi <;> simp [hx]

/-- Writing a run of bytes: inside the run the bytes written, outside it nothing changes. -/
theorem Memory.read_writeFrom (bs : List Byte) : ∀ (m : Memory) (a x : Nat),
    Memory.read (Memory.writeFrom m a bs) x =
      if a ≤ x ∧ x < a + bs.length then bs[x - a]? else Memory.read m x := by
  induction bs with
  | nil =>
    intro m a x
    have : ¬(a ≤ x ∧ x < a) := by omega
    simp [Memory.writeFrom, this]
  | cons b bs ih =>
    intro m a x
    simp only [Memory.writeFrom, ih, List.length_cons]
    by_cases hx : x = a
    · subst hx
      have h1 : ¬(x + 1 ≤ x ∧ x < x + 1 + bs.length) := by omega
      have h2 : x ≤ x ∧ x < x + (bs.length + 1) := by omega
      rw [if_neg h1, if_pos h2]
      simp
    · by_cases hin : a + 1 ≤ x ∧ x < a + 1 + bs.length
      · have h2 : a ≤ x ∧ x < a + (bs.length + 1) := by omega
        have : x - a = (x - (a + 1)) + 1 := by omega
        rw [if_pos hin, if_pos h2, this, List.getElem?_cons_succ]
      · have h2 : ¬(a ≤ x ∧ x < a + (bs.length + 1)) := by omega
        rw [if_neg hin, if_neg h2, Memory.read_write_other m a b hx]

/-! ## The canonical form -/

theorem Memory.mem_insert {m : Memory} {a : Nat} {b : Byte} {c : Host.Cell} (h : c ∈ Memory.insert m a b) :
    c = (a, b) ∨ c ∈ m := by
  induction m with
  | nil => simpa [Memory.insert] using h
  | cons d m ih =>
    obtain ⟨k, v⟩ := d
    simp only [Memory.insert] at h
    split at h
    · simpa using h
    · split at h
      · rcases List.mem_cons.1 h with h | h
        · exact .inl h
        · exact .inr (List.mem_cons_of_mem _ h)
      · rcases List.mem_cons.1 h with h | h
        · exact .inr (h ▸ List.mem_cons_self)
        · exact (ih h).imp_right (List.mem_cons_of_mem _)

theorem Memory.insert_rising {m : Memory} (a : Nat) (b : Byte) (h : m.Pairwise (fun x y => x.1 < y.1)) :
    (Memory.insert m a b).Pairwise (fun x y => x.1 < y.1) := by
  induction m with
  | nil => simp [Memory.insert]
  | cons c m ih =>
    obtain ⟨k, v⟩ := c
    obtain ⟨hk, hm⟩ := List.pairwise_cons.1 h
    simp only [Memory.insert]
    split
    · rename_i hlt
      refine List.pairwise_cons.2 ⟨fun y hy => ?_, h⟩
      rcases List.mem_cons.1 hy with rfl | hy
      · exact hlt
      · exact lt_trans hlt (hk y hy)
    · split
      · rename_i heq
        subst heq
        exact List.pairwise_cons.2 ⟨hk, hm⟩
      · rename_i hge hne
        refine List.pairwise_cons.2 ⟨fun y hy => ?_, ih hm⟩
        rcases Memory.mem_insert hy with rfl | hy
        · show k < a
          omega
        · exact hk y hy

theorem Memory.wf_forget {m : Memory} (lo hi : Nat) (h : Memory.wf m) : Memory.wf (Memory.forget m lo hi) :=
  ⟨h.1.filter _, fun c hc => h.2 c (List.mem_filter.1 hc).1⟩

/-- A write keeps the canonical form. -/
theorem Memory.wf_write {m : Memory} (a : Nat) (b : Byte) (h : Memory.wf m) : Memory.wf (Memory.write m a b) := by
  unfold Memory.write
  split
  · exact Memory.wf_forget a (a + 1) h
  · rename_i hb
    refine ⟨Memory.insert_rising a b h.1, fun c hc => ?_⟩
    rcases Memory.mem_insert hc with rfl | hc
    · exact hb
    · exact h.2 c hc

theorem Memory.wf_writeFrom {bs : List Byte} : ∀ {m : Memory} (a : Nat), Memory.wf m → Memory.wf (Memory.writeFrom m a bs) := by
  induction bs with
  | nil => exact fun _ h => h
  | cons b bs ih => exact fun a h => ih (a + 1) (Memory.wf_write a b h)

theorem Memory.wf_nil : Memory.wf [] := ⟨List.Pairwise.nil, by simp⟩

/-- The memory after reset is canonical. -/
theorem State.resetWith_mem_wf (c : Config) : Memory.wf (State.resetWith c).mem := Memory.wf_nil

end Sys2Proof.Machine
end

