-- ==== Sys2Proof/Laws/Run.lean ====
section
/-! SUPPORT. Running the engine: moves compose (`RunsIn`), one lemma per kind of pseudocode line, and the codec's and the framer's procedures on a correct line, once, for every command that calls them. -/

namespace Sys2Proof.Machine

variable {s t u : State}

/-! ## Recording events -/

theorem elapse_zero (l : List (Nat × Input)) : elapse 0 l = l := by
  cases l with
  | nil => rfl
  | cons p l => rfl

theorem elapse_elapse (m n : Nat) (l : List (Nat × Input)) : elapse m (elapse n l) = elapse (n + m) l := by
  cases l with
  | nil => rfl
  | cons p l => simp [elapse, Nat.sub_sub]

theorem State.past_nil : s.past [] s.line.rx = s := by
  simp [State.past, elapse_zero]

@[simp] theorem State.past_past (es fs : List Event) (r r' : List Byte) :
    (s.past es r).past fs r' = s.past (es ++ fs) r' := by
  simp [State.past, elapse_elapse]

theorem State.event_eq_past (e : Event) : s.event e = s.past [e] s.line.rx := rfl

theorem State.undisturbed.mono {m n : Nat} (h : s.undisturbed n) (hm : m ≤ n) : s.undisturbed m :=
  fun p hp => le_trans hm (h p hp)

theorem State.undisturbed.congr {n : Nat} (h : s.undisturbed n) (hi : t.inputs = s.inputs) : t.undisturbed n := by
  unfold State.undisturbed; rw [hi]; exact h

theorem State.undisturbed.past {n : Nat} {es : List Event} {r : List Byte} (h : s.undisturbed (es.length + n)) :
    (s.past es r).undisturbed n := by
  intro p hp
  unfold State.undisturbed at h
  simp only [State.past_inputs] at hp
  cases hi : s.inputs with
  | nil => simp [hi, elapse] at hp
  | cons q l =>
    simp only [hi, elapse, List.head?_cons, Option.mem_def, Option.some.injEq] at hp
    have := h q (by simp [hi])
    subst hp
    show n ≤ q.1 - es.length
    omega

theorem State.undisturbed.not_due (h : s.undisturbed 1) : s.inputDue = false := by
  unfold State.inputDue
  unfold State.undisturbed at h
  split
  · rename_i m l hi
    have := h (0, m) (by simp [hi])
    simp at this
  · rfl

/-! ## Moves compose -/

theorem State.run_stuck (h : s.canRun = false) : ∀ n, State.run n s = s
  | 0 => rfl
  | n + 1 => by simp [State.run, h]

theorem State.run_add (m n : Nat) : ∀ s : State, State.run (m + n) s = State.run n (State.run m s) := by
  induction m with
  | zero => intro s; simp [State.run]
  | succ m ih =>
    intro s
    have : m + 1 + n = (m + n) + 1 := by omega
    rw [this]
    cases h : s.canRun with
    | false => rw [State.run_stuck h, State.run_stuck h, State.run_stuck h]
    | true => simp [State.run, h, ih]

/-- From `s`, `n` moves of the engine lead to `t`. -/
def RunsIn (n : Nat) (s t : State) : Prop := ∀ k, State.run (n + k) s = State.run k t

theorem RunsIn.refl (s : State) : RunsIn 0 s s := fun k => by rw [Nat.zero_add]

theorem RunsIn.trans {m n : Nat} (h : RunsIn m s t) (h' : RunsIn n t u) : RunsIn (m + n) s u := fun k => by
  rw [Nat.add_assoc, h, h']

theorem RunsIn.move (h : s.canRun = true) : RunsIn 1 s s.tick := fun k => by
  rw [Nat.add_comm]; simp [State.run, h]

/-- A run that can go no further, reached within the moves allowed, is the result. -/
theorem RunsIn.result {n b : Nat} (h : RunsIn n s t) (ht : t.canRun = false) (hb : n ≤ b) : State.run b s = t := by
  obtain ⟨k, rfl⟩ := Nat.exists_eq_add_of_le hb
  rw [h k, State.run_stuck ht]

/-- `s` at a point of a command's pseudocode. -/
def State.goto (s : State) (c : Instr) (ops : List Op) : State := { s with pc := .running c ops }

@[simp] theorem State.goto_pc (c : Instr) (ops : List Op) : (s.goto c ops).pc = .running c ops := rfl
@[simp] theorem State.goto_cfg (c : Instr) (ops : List Op) : (s.goto c ops).cfg = s.cfg := rfl
@[simp] theorem State.goto_line (c : Instr) (ops : List Op) : (s.goto c ops).line = s.line := rfl
@[simp] theorem State.goto_inputs (c : Instr) (ops : List Op) : (s.goto c ops).inputs = s.inputs := rfl
@[simp] theorem State.goto_goto (c d : Instr) (o p : List Op) : (s.goto c o).goto d p = s.goto d p := rfl
@[simp] theorem State.goto_push (c : Instr) (o p : List Op) : (s.goto c o).push p = s.goto c (p ++ o) := rfl
theorem State.goto_undisturbed {c : Instr} {ops : List Op} {n : Nat} :
    (s.goto c ops).undisturbed n ↔ s.undisturbed n := Iff.rfl

/-- A line of pseudocode that makes no event is done at once, whatever the outside does. -/
theorem RunsIn.silent {c : Instr} {op : Op} {rest : List Op} (hop : op.isEvent = false)
    (h : (s.goto c rest).doOp op = t) : RunsIn 1 (s.goto c (op :: rest)) t := by
  have hb : (s.goto c (op :: rest)).blocked = false := by cases op <;> first | rfl | cases hop
  exact h ▸ RunsIn.move (by simp [State.canRun, hb, hop])

/-- A line that makes an event without waiting for the line is done when nothing from outside is due. -/
theorem RunsIn.act {c : Instr} {op : Op} {rest : List Op} (hr : ∀ use, op ≠ .recv use) (hu : s.undisturbed 1)
    (h : (s.goto c rest).doOp op = t) : RunsIn 1 (s.goto c (op :: rest)) t := by
  have hd : (s.goto c (op :: rest)).inputDue = false := (State.goto_undisturbed.2 hu).not_due
  have hb : (s.goto c (op :: rest)).blocked = false := by
    cases op <;> first | rfl | exact absurd rfl (hr _)
  exact h ▸ RunsIn.move (by simp [State.canRun, hb, hd])

/-- A `Recv()` that the line answers. -/
theorem RunsIn.recv {c : Instr} {use : RecvUse} {rest : List Op} {b : Byte} {r : List Byte} (hu : s.undisturbed 1)
    (hrx : s.line.rx = b :: r) (h : ((s.past [.recv b] r).goto c rest).received use b = t) :
    RunsIn 1 (s.goto c (.recv use :: rest)) t := by
  have hd : (s.goto c (.recv use :: rest)).inputDue = false := (State.goto_undisturbed.2 hu).not_due
  have hb : (s.goto c (.recv use :: rest)).blocked = false := by simp [State.blocked, hrx]
  have ht : (s.goto c (.recv use :: rest)).tick = t := by
    rw [← h]
    show State.receive (s.goto c rest) use = _
    unfold State.receive
    rw [State.goto_line, hrx]
    rfl
  rw [← ht]
  exact RunsIn.move (by simp [State.canRun, hb, hd])

/-- Nothing left: the command completes OK (R21). -/
theorem RunsIn.done {c : Instr} : RunsIn 1 (s.goto c []) (s.complete .ok) := RunsIn.move rfl

theorem State.canRun_of_idle (h : s.pc = .idle) : s.canRun = false := by simp [State.canRun, h]

/-- `s` with `STATUS.BUSY` set, as a launched command runs. -/
def State.started (s : State) : State := { s with status := { s.status with busy := true } }

/-- A launched command that runs to its end within the moves allowed. -/
theorem State.launch_eq {c : Instr} {ops : List Op} {n : Nat} (h : RunsIn n (s.started.goto c ops) t)
    (ht : t.canRun = false) (hn : n ≤ s.burst) : s.launch c ops = t := RunsIn.result h ht hn

theorem State.burst_ge : 64 * (s.line.rx.length + 1) ≤ s.burst := Nat.le_add_right _ _

/-! ## The codec on a correct line (R130, R131, R133) -/

theorem RunsIn.sendEcho {c : Instr} {rest : List Op} {b : Byte} {r : List Byte} (hu : s.undisturbed 3)
    (hrx : s.line.rx = b :: r) :
    RunsIn 3 (s.goto c (sendEchoOps s.cfg b ++ rest))
      ((s.past [.delay s.cfg.interbyteMs, .send b, .recv b] r).goto c rest) := by
  have h1 : RunsIn 1 (s.goto c (sendEchoOps s.cfg b ++ rest))
      ((s.past [.delay s.cfg.interbyteMs] (b :: r)).goto c (.send b :: .recv (.echo b) :: rest)) :=
    RunsIn.act (by simp) (hu.mono (by omega)) (by rw [← hrx]; rfl)
  have h2 : RunsIn 1 ((s.past [.delay s.cfg.interbyteMs] (b :: r)).goto c (.send b :: .recv (.echo b) :: rest))
      ((s.past [.delay s.cfg.interbyteMs, .send b] (b :: r)).goto c (.recv (.echo b) :: rest)) :=
    RunsIn.act (by simp) (State.undisturbed.past (hu.mono (by simp)))
      (by
        show State.event _ (.send b) = _
        rw [State.event_eq_past]
        simp [State.past, State.goto, elapse_elapse])
  have h3 : RunsIn 1 ((s.past [.delay s.cfg.interbyteMs, .send b] (b :: r)).goto c (.recv (.echo b) :: rest))
      ((s.past [.delay s.cfg.interbyteMs, .send b, .recv b] r).goto c rest) :=
    RunsIn.recv (State.undisturbed.past hu) rfl (by simp [State.received])
  exact (h1.trans h2).trans h3

theorem RunsIn.sendCompl {c : Instr} {rest : List Op} {b : Byte} {r : List Byte} (hu : s.undisturbed 4)
    (hrx : s.line.rx = b :: compl b :: r) :
    RunsIn 4 (s.goto c (sendComplOps s.cfg b ++ rest))
      ((s.past [.delay s.cfg.interbyteMs, .send b, .recv b, .recv (compl b)] r).goto c rest) := by
  have h1 := RunsIn.sendEcho (c := c) (rest := .recv (.complement b) :: rest) (hu.mono (by omega)) hrx
  have h2 : RunsIn 1 ((s.past [.delay s.cfg.interbyteMs, .send b, .recv b] (compl b :: r)).goto c (.recv (.complement b) :: rest))
      ((s.past [.delay s.cfg.interbyteMs, .send b, .recv b, .recv (compl b)] r).goto c rest) :=
    RunsIn.recv (State.undisturbed.past hu) rfl (by simp [State.received])
  rw [show sendEchoOps s.cfg b ++ .recv (.complement b) :: rest = sendComplOps s.cfg b ++ rest by simp [sendComplOps]] at h1
  exact h1.trans h2

/-! ## The shape of a correct exchange -/

theorem exchange_cons {b : Byte} {bs : List Byte} (h : bs ≠ []) : exchange (b :: bs) = b :: compl b :: exchange bs := by
  cases bs with
  | nil => exact absurd rfl h
  | cons b' bs => rfl

theorem sentEvents_cons {cfg : Config} {b : Byte} {bs : List Byte} (h : bs ≠ []) :
    sentEvents cfg (b :: bs) = [.delay cfg.interbyteMs, .send b, .recv b, .recv (compl b)] ++ sentEvents cfg bs := by
  cases bs with
  | nil => exact absurd rfl h
  | cons b' bs => rfl

theorem bodyEvents_cons {cfg : Config} {b : Byte} {bs : List Byte} (h : bs ≠ []) :
    bodyEvents cfg (b :: bs) = [.recv b, .delay cfg.interbyteMs, .send (compl b), .recv (compl b)] ++ bodyEvents cfg bs := by
  cases bs with
  | nil => exact absurd rfl h
  | cons b' bs => rfl

/-! ## Sending a block on a correct line (R150) -/

theorem State.txByte_congr (hm : t.mem = s.mem) (hk : t.txMark = s.txMark) : t.txByte = s.txByte := by
  funext i; simp only [State.txByte, hm, hk]

@[simp] theorem State.past_txByte (es : List Event) (r : List Byte) : (s.past es r).txByte = s.txByte :=
  State.txByte_congr rfl rfl

theorem RunsIn.sendFrom {c : Instr} {rest : List Op} {r : List Byte} (d : Nat) : ∀ (i : Nat) {s : State},
    s.undisturbed (sentEvents s.cfg ((List.range' i (d + 1)).map s.txByte)).length →
    s.line.rx = exchange ((List.range' i (d + 1)).map s.txByte) ++ r →
    RunsIn (5 * d + 4) (s.goto c (.sendFrom i (i + d) :: rest))
      ((s.past (sentEvents s.cfg ((List.range' i (d + 1)).map s.txByte)) r).goto c rest) := by
  induction d with
  | zero =>
    intro i s hu hrx
    have h1 : RunsIn 1 (s.goto c (.sendFrom i (i + 0) :: rest)) (s.goto c (sendEchoOps s.cfg (s.txByte i) ++ rest)) :=
      RunsIn.silent rfl (by simp [State.doOp]; rfl)
    exact h1.trans (RunsIn.sendEcho (by simpa [sentEvents] using hu) (by simpa [exchange] using hrx))
  | succ d ih =>
    intro i s hu hrx
    have hne : (List.range' (i + 1) (d + 1)).map s.txByte ≠ [] := by simp
    rw [show List.range' i (d + 1 + 1) = i :: List.range' (i + 1) (d + 1) from List.range'_succ .., List.map_cons] at hu hrx ⊢
    rw [sentEvents_cons hne] at hu ⊢
    rw [exchange_cons hne] at hrx
    have h1 : RunsIn 1 (s.goto c (.sendFrom i (i + (d + 1)) :: rest))
        (s.goto c (sendComplOps s.cfg (s.txByte i) ++ .sendFrom (i + 1) (i + (d + 1)) :: rest)) :=
      RunsIn.silent rfl (by
        have : i < i + (d + 1) := by omega
        simp only [State.doOp, if_pos this, State.goto_push, List.append_assoc, List.singleton_append]
        rfl)
    have h2 := RunsIn.sendCompl (c := c) (rest := .sendFrom (i + 1) (i + (d + 1)) :: rest) (s := s) (b := s.txByte i)
      (r := exchange ((List.range' (i + 1) (d + 1)).map s.txByte) ++ r) (hu.mono (by simp)) (by simpa using hrx)
    have h3 := ih (i + 1)
      (s := s.past [.delay s.cfg.interbyteMs, .send (s.txByte i), .recv (s.txByte i), .recv (compl (s.txByte i))]
        (exchange ((List.range' (i + 1) (d + 1)).map s.txByte) ++ r))
      (by rw [State.past_txByte]; exact State.undisturbed.past (hu.mono (by simp; omega))) (by rw [State.past_txByte]; rfl)
    rw [State.past_txByte, State.past_past, show i + 1 + d = i + (d + 1) by omega] at h3
    have := (h1.trans h2).trans h3
    rwa [show 1 + 4 + (5 * d + 4) = 5 * (d + 1) + 4 by omega] at this

/-- `send_block()` on a correct line: `s.sent` is the state it leaves. -/
theorem RunsIn.sendBlock {c : Instr} {rest : List Op} {r : List Byte}
    (hu : s.undisturbed (sentEvents s.cfg s.outgoing).length) (hrx : s.line.rx = exchange s.outgoing ++ r) :
    RunsIn (5 * (s.txByte 0).toNat + 5) (s.goto c (.sendBlock :: rest)) ((s.sent r).goto c rest) := by
  have h1 : RunsIn 1 (s.goto c (.sendBlock :: rest))
      ((s.openBlock (s.txByte 0)).goto c (.sendFrom 0 (0 + (s.txByte 0).toNat) :: rest)) :=
    RunsIn.silent rfl (by rw [Nat.zero_add]; rfl)
  have ho : s.outgoing = (List.range' 0 ((s.txByte 0).toNat + 1)).map (s.openBlock (s.txByte 0)).txByte := by
    rw [State.outgoing, List.range_eq_range']
  rw [ho] at hu hrx
  have h2 := RunsIn.sendFrom (c := c) (rest := rest) (r := r) (s.txByte 0).toNat 0 (s := s.openBlock (s.txByte 0)) hu hrx
  rw [← ho] at h2
  have := h1.trans h2
  rwa [show 1 + (5 * (s.txByte 0).toNat + 4) = 5 * (s.txByte 0).toNat + 5 by omega] at this

/-! ## Receiving a block on a correct line (R154, R156) -/

theorem checkCounter_accepts {t : Session} {b : Byte} {bs : List Byte} (h : t.accepts (b :: bs)) :
    checkCounter t b = .ok (t.heard (b :: bs)) := by
  simp only [Session.accepts] at h
  unfold checkCounter Session.heard
  by_cases hf : t.firstSeen = false
  · simp [hf]
  · have hb := h.resolve_left hf
    have hf' : t.firstSeen = true := by simpa using hf
    simp [hb, hf']

/-- The state after the bytes from index `i` on have been received (R154). -/
def State.heardFrom (s : State) (i : Nat) (body : List Byte) : State :=
  match body with
  | [] => s
  | b :: bs =>
    { s with
      mem := Memory.writeFrom s.mem (rxBase + i) (b :: bs)
      rxcount := BitVec.ofNat 32 (i + bs.length + 1)
      rxRemaining := 0
      session := if i = 1 then s.session.heard (b :: bs) else s.session }

/-- The session after byte `i` of a block was accepted. -/
def Session.afterByte (t : Session) (i : Nat) (b : Byte) : Session := if i = 1 then t.heard [b] else t

/-- The state after an accepted byte, before the loop goes on. -/
def State.tookByte (s : State) (i : Nat) (b : Byte) : State := s.storedByte i b (s.session.afterByte i b)

@[simp] theorem State.tookByte_cfg (i : Nat) (b : Byte) : (s.tookByte i b).cfg = s.cfg := rfl

theorem State.storeByte_accepts {i : Nat} {b : Byte} (h : i = 1 → s.session.accepts [b]) :
    s.storeByte i b = (s.tookByte i b).push [.recvFrom (i + 1)] := by
  unfold State.storeByte State.tookByte Session.afterByte
  by_cases hi : i = 1
  · simp only [if_pos hi, checkCounter_accepts (h hi)]
  · simp only [if_neg hi]

theorem State.heardFrom_cons {i : Nat} {b b' : Byte} {bs : List Byte} (hi : 1 ≤ i) :
    (s.tookByte i b).heardFrom (i + 1) (b' :: bs) = s.heardFrom i (b :: b' :: bs) := by
  have h1 : ¬ i + 1 = 1 := by omega
  simp only [State.heardFrom, State.tookByte, State.storedByte, Session.afterByte, if_neg h1, Session.heard,
    List.length_cons, Memory.writeFrom]
  congr 1
  congr 1
  omega

theorem State.heardFrom_one {i : Nat} {b : Byte} (hr : s.rxRemaining = 1) : s.tookByte i b = s.heardFrom i [b] := by
  simp [State.heardFrom, State.tookByte, State.storedByte, Session.afterByte, Memory.writeFrom, hr]

theorem State.heardFrom_past (i : Nat) (body : List Byte) (es : List Event) (r : List Byte) :
    (s.past es r).heardFrom i body = (s.heardFrom i body).past es r := by
  cases body with
  | nil => rfl
  | cons b bs => rfl

theorem State.past_tookByte (i : Nat) (b : Byte) (es : List Event) (r : List Byte) :
    (s.past es r).tookByte i b = (s.tookByte i b).past es r := rfl

/-- A byte answered with its complement, up to its storing. -/
theorem RunsIn.recvCompl {c : Instr} {use : RecvUse} {ops rest : List Op} {b : Byte} {r : List Byte}
    (huse : ∀ v : State, v.received use b = v.push (sendEchoOps v.cfg (compl b) ++ ops)) (hu : s.undisturbed 4)
    (hrx : s.line.rx = b :: compl b :: r) :
    RunsIn 4 (s.goto c (.recv use :: rest))
      ((s.past [.recv b, .delay s.cfg.interbyteMs, .send (compl b), .recv (compl b)] r).goto c (ops ++ rest)) := by
  have h1 : RunsIn 1 (s.goto c (.recv use :: rest))
      ((s.past [.recv b] (compl b :: r)).goto c (sendEchoOps s.cfg (compl b) ++ (ops ++ rest))) :=
    RunsIn.recv (hu.mono (by omega)) hrx (by rw [huse, State.goto_push, List.append_assoc]; rfl)
  have h2 := RunsIn.sendEcho (c := c) (rest := ops ++ rest) (b := compl b) (r := r) (s := s.past [.recv b] (compl b :: r))
    (State.undisturbed.past hu) rfl
  rw [State.past_past] at h2
  exact h1.trans h2

theorem RunsIn.recvFrom {c : Instr} {rest : List Op} {r : List Byte} (body : List Byte) : ∀ (i : Nat) {s : State},
    1 ≤ i → body.length < 256 → s.rxRemaining = BitVec.ofNat 8 body.length → (i = 1 → s.session.accepts body) →
    s.undisturbed (bodyEvents s.cfg body).length → s.line.rx = exchange body ++ r →
    ∃ n, n ≤ 6 * body.length + 1 ∧ RunsIn n (s.goto c (.recvFrom i :: rest))
      (((s.heardFrom i body).past (bodyEvents s.cfg body) r).goto c rest) := by
  induction body with
  | nil =>
    intro i s _ _ hr _ _ hrx
    refine ⟨1, by simp, RunsIn.silent rfl ?_⟩
    have hr' : s.rxRemaining = 0 := hr
    have hrx' : s.line.rx = r := hrx
    show (if s.rxRemaining = 0 then _ else _) = _
    rw [if_pos hr', ← hrx']
    show s.goto c rest = (State.past s [] s.line.rx).goto c rest
    rw [State.past_nil]
  | cons b bs ih =>
    intro i s hi hlen hr hc hu hrx
    have hacc : i = 1 → s.session.accepts [b] := fun h => hc h
    have hnat : s.rxRemaining.toNat = bs.length + 1 := by
      rw [hr, BitVec.toNat_ofNat, List.length_cons]
      simp only [List.length_cons] at hlen
      omega
    have hne0 : s.rxRemaining ≠ 0 := by
      intro h0
      rw [h0, show (0 : BitVec 8).toNat = 0 from rfl] at hnat
      omega
    cases bs with
    | nil =>
      have hr1 : s.rxRemaining = 1 := hr
      have h1 : RunsIn 1 (s.goto c (.recvFrom i :: rest)) (s.goto c (.recv (.last i) :: rest)) :=
        RunsIn.silent rfl (by
          show (if s.rxRemaining = 0 then _ else if s.rxRemaining = 1 then _ else _) = _
          rw [if_neg hne0, if_pos hr1]; rfl)
      have h2 : RunsIn 1 (s.goto c (.recv (.last i) :: rest))
          (((s.heardFrom i [b]).past (bodyEvents s.cfg [b]) r).goto c (.recvFrom (i + 1) :: rest)) :=
        RunsIn.recv (by simpa [bodyEvents] using hu) (by simpa [exchange] using hrx) (by
          show State.storeByte _ i b = _
          rw [State.storeByte_accepts (s := (s.past [.recv b] r).goto c rest) hacc, ← State.heardFrom_one hr1]
          rfl)
      have h3 : RunsIn 1 (((s.heardFrom i [b]).past (bodyEvents s.cfg [b]) r).goto c (.recvFrom (i + 1) :: rest))
          (((s.heardFrom i [b]).past (bodyEvents s.cfg [b]) r).goto c rest) :=
        RunsIn.silent rfl rfl
      exact ⟨1 + 1 + 1, by simp, (h1.trans h2).trans h3⟩
    | cons b' bs =>
      have hne1 : s.rxRemaining ≠ 1 := by
        intro h0
        rw [h0, show (1 : BitVec 8).toNat = 1 from rfl, List.length_cons] at hnat
        omega
      have hne : b' :: bs ≠ [] := by simp
      rw [bodyEvents_cons hne] at hu ⊢
      rw [exchange_cons hne] at hrx
      have h1 : RunsIn 1 (s.goto c (.recvFrom i :: rest)) (s.goto c (.recv (.reply i) :: rest)) :=
        RunsIn.silent rfl (by
          show (if s.rxRemaining = 0 then _ else if s.rxRemaining = 1 then _ else _) = _
          rw [if_neg hne0, if_neg hne1]; rfl)
      have h2 := RunsIn.recvCompl (c := c) (use := .reply i) (ops := [.storeByte i b]) (rest := rest) (s := s) (b := b)
        (r := exchange (b' :: bs) ++ r) (fun v => rfl) (hu.mono (by simp)) (by simpa using hrx)
      let es : List Event := [.recv b, .delay s.cfg.interbyteMs, .send (compl b), .recv (compl b)]
      have h3 : RunsIn 1 ((s.past es (exchange (b' :: bs) ++ r)).goto c (.storeByte i b :: rest))
          (((s.past es (exchange (b' :: bs) ++ r)).tookByte i b).goto c (.recvFrom (i + 1) :: rest)) :=
        RunsIn.silent rfl (by
          show State.storeByte _ i b = _
          rw [State.storeByte_accepts (s := (s.past es (exchange (b' :: bs) ++ r)).goto c rest) hacc]
          rfl)
      obtain ⟨n, hn, h4⟩ := ih (i + 1) (s := (s.past es (exchange (b' :: bs) ++ r)).tookByte i b) (by omega)
        (by simp only [List.length_cons] at hlen ⊢; omega)
        (by
          show s.rxRemaining - 1 = _
          apply BitVec.eq_of_toNat_eq
          rw [hr]
          simp only [List.length_cons] at hlen ⊢
          simp [BitVec.toNat_sub]
          omega)
        (fun h => absurd h (by omega))
        (by
          rw [State.past_tookByte, State.past_cfg, State.tookByte_cfg]
          exact State.undisturbed.past (s := s.tookByte i b) (es := es) (State.undisturbed.mono (s := s) hu (by simp [es]; omega)))
        rfl
      rw [State.past_tookByte, State.heardFrom_past, State.heardFrom_cons hi, State.past_past, State.past_cfg,
        State.tookByte_cfg] at h4
      rw [State.past_tookByte] at h3
      refine ⟨1 + 4 + 1 + n, ?_, ((h1.trans h2).trans h3).trans h4⟩
      simp only [List.length_cons] at hn ⊢
      omega

theorem State.storeLength_fits {l : Byte} (h : l.toNat + 1 ≤ s.cfg.maxBlock) :
    s.storeLength l = (s.storedLength l).push [.recvFrom 1] := by
  unfold State.storeLength
  rw [if_pos (show sizeFits s.cfg l = true by simpa [sizeFits] using h)]

/-- The first four events of a reception. -/
def lengthEvents (cfg : Config) (l : Byte) : List Event := [.recv l, .delay cfg.interbyteMs, .send (compl l), .recv (compl l)]

theorem State.heard_eq {l : Byte} {body r : List Byte} (h : body.length = l.toNat) :
    s.heard l body r =
      ((s.startReception.storedLength l).heardFrom 1 body).past (lengthEvents s.cfg l ++ bodyEvents s.cfg body) r := by
  cases body with
  | nil =>
    have : l = 0 := BitVec.eq_of_toNat_eq (by simpa using h.symm)
    subst this
    rfl
  | cons b bs =>
    simp only [State.heard, State.heardFrom, State.startReception, State.storedLength, State.past, Memory.writeFrom, Session.heard, heardEvents, lengthEvents, List.length_cons, if_true]
    rw [Nat.add_comm 1 bs.length]

/-- The reception of the length byte, up to the loop. -/
theorem RunsIn.recvLength {c : Instr} {rest : List Op} {l : Byte} {r : List Byte} (hf : l.toNat + 1 ≤ s.cfg.maxBlock)
    (hu : s.undisturbed 4) (hrx : s.line.rx = l :: compl l :: r) :
    RunsIn 6 (s.goto c (.recvBlock :: rest))
      (((s.startReception.storedLength l).past (lengthEvents s.cfg l) r).goto c (.recvFrom 1 :: rest)) := by
  have h1 : RunsIn 1 (s.goto c (.recvBlock :: rest)) (s.startReception.goto c (.recv .length :: rest)) :=
    RunsIn.silent rfl rfl
  have h2 := RunsIn.recvCompl (c := c) (use := .length) (ops := [.storeLength l]) (rest := rest) (s := s.startReception)
    (b := l) (r := r) (fun v => rfl) hu hrx
  have h3 : RunsIn 1 ((s.startReception.past (lengthEvents s.cfg l) r).goto c (.storeLength l :: rest))
      (((s.startReception.storedLength l).past (lengthEvents s.cfg l) r).goto c (.recvFrom 1 :: rest)) :=
    RunsIn.silent rfl (by
      show State.storeLength _ l = _
      rw [State.storeLength_fits (s := (s.startReception.past (lengthEvents s.cfg l) r).goto c rest) hf]
      rfl)
  exact (h1.trans h2).trans h3

/-- `recv_block()` of a block that a correct line delivers and that passes its checks: `s.heard` is the state it leaves. -/
theorem RunsIn.recvBlock {c : Instr} {rest : List Op} {l : Byte} {body r : List Byte} (hh : s.Hears l body)
    (hu : s.undisturbed (heardEvents s.cfg l body).length) (hrx : s.line.rx = heardAnswers l body ++ r) :
    ∃ n, n ≤ 6 * body.length + 8 ∧ RunsIn n (s.goto c (.recvBlock :: rest)) ((s.heard l body r).goto c rest) := by
  have hlen : body.length < 256 := by rw [hh.counted]; exact l.isLt
  have h1 := RunsIn.recvLength (c := c) (rest := rest) (r := exchange body ++ r) hh.fits
    (hu.mono (by simp [heardEvents])) (by simpa [heardAnswers] using hrx)
  have hsum : (lengthEvents s.cfg l).length + (bodyEvents s.cfg body).length = (heardEvents s.cfg l body).length := by
    rw [heardEvents, lengthEvents, List.length_append]
  rw [← hsum] at hu
  have hv : (s.startReception.storedLength l).undisturbed ((lengthEvents s.cfg l).length + (bodyEvents s.cfg body).length) :=
    State.undisturbed.congr hu rfl
  have hu' := State.undisturbed.past (r := exchange body ++ r) hv
  have hl : l = BitVec.ofNat 8 body.length := by
    apply BitVec.eq_of_toNat_eq
    rw [BitVec.toNat_ofNat, hh.counted, Nat.mod_eq_of_lt l.isLt]
  have hr : ((s.startReception.storedLength l).past (lengthEvents s.cfg l) (exchange body ++ r)).rxRemaining
      = BitVec.ofNat 8 body.length := hl
  obtain ⟨n, hn, h2⟩ := RunsIn.recvFrom (c := c) (rest := rest) (r := r) body 1
    (s := (s.startReception.storedLength l).past (lengthEvents s.cfg l) (exchange body ++ r)) (le_refl 1) hlen hr
    (fun _ => hh.counter) hu' rfl
  rw [State.heardFrom_past, State.past_past, State.past_cfg, State.storedLength_cfg, State.startReception_cfg,
    ← State.heard_eq hh.counted] at h2
  exact ⟨6 + n, by omega, h1.trans h2⟩

end Sys2Proof.Machine
end

