-- ==== Sys2Proof/Laws/Buffers.lean ====
section
/-! SUPPORT. What the windows read after a block was sent or received on a correct line, and how long a correct line's answers are. -/

namespace Sys2Proof.Machine

variable {s t : State}

/-! ## Reading a window -/

/-- The byte of a window depends only on the cell of its offset and the marks. -/
theorem State.windowByte_congr (hc : t.cfg = s.cfg) (h1 : t.txMark = s.txMark) (h2 : t.rxMark = s.rxMark)
    (h3 : t.memMark = s.memMark) {a : Nat} (h : Memory.read t.mem a = Memory.read s.mem a) :
    t.windowByte a = s.windowByte a := by
  unfold State.windowByte State.txByte State.rxByte State.idByte State.membufByte
  rw [hc, h1, h2, h3]
  by_cases c1 : txBase ≤ a ∧ a < txBase + windowBytes
  · rw [if_pos c1, if_pos c1, Nat.add_sub_cancel' c1.1, h]
  · rw [if_neg c1, if_neg c1]
    by_cases c2 : rxBase ≤ a ∧ a < rxBase + windowBytes
    · rw [if_pos c2, if_pos c2, Nat.add_sub_cancel' c2.1, h]
    · rw [if_neg c2, if_neg c2]
      by_cases c3 : idBase ≤ a ∧ a < idBase + idBytes
      · rw [if_pos c3, if_pos c3, Nat.add_sub_cancel' c3.1, h]
      · rw [if_neg c3, if_neg c3]
        by_cases c4 : memBase ≤ a ∧ a < memBase + s.cfg.membufBytes
        · rw [if_pos c4, if_pos c4, Nat.add_sub_cancel' c4.1, h]
        · rw [if_neg c4, if_neg c4]

/-- Outside `RXBUF` the mark of `RXBUF` does not matter. -/
theorem State.windowByte_congr_elsewhere (hc : t.cfg = s.cfg) (h1 : t.txMark = s.txMark) (h3 : t.memMark = s.memMark)
    {a : Nat} (ha : a < rxBase ∨ rxBase + windowBytes ≤ a) (h : Memory.read t.mem a = Memory.read s.mem a) :
    t.windowByte a = s.windowByte a := by
  have c2 : ¬(rxBase ≤ a ∧ a < rxBase + windowBytes) := by omega
  unfold State.windowByte State.txByte State.idByte State.membufByte
  rw [hc, h1, h3, if_neg c2, if_neg c2]
  by_cases c1 : txBase ≤ a ∧ a < txBase + windowBytes
  · rw [if_pos c1, if_pos c1, Nat.add_sub_cancel' c1.1, h]
  · rw [if_neg c1, if_neg c1]
    by_cases c3 : idBase ≤ a ∧ a < idBase + idBytes
    · rw [if_pos c3, if_pos c3, Nat.add_sub_cancel' c3.1, h]
    · rw [if_neg c3, if_neg c3]
      by_cases c4 : memBase ≤ a ∧ a < memBase + s.cfg.membufBytes
      · rw [if_pos c4, if_pos c4, Nat.add_sub_cancel' c4.1, h]
      · rw [if_neg c4, if_neg c4]

theorem State.windowByte_tx {i : Nat} (h : i < s.cfg.maxBlock) (hw : i < windowBytes) :
    s.windowByte (txBase + i) = s.txByte i := by
  unfold State.windowByte
  rw [if_pos ⟨by omega, by omega⟩, Nat.add_sub_cancel_left, if_pos h]

theorem State.txByte_of_read {i : Nat} {b : Byte} (hw : i < windowBytes) (h : Memory.read s.mem (txBase + i) = some b) :
    s.txByte i = b := by
  unfold State.txByte
  rw [if_pos hw, h]; rfl

theorem State.rxByte_of_read {i : Nat} {b : Byte} (hw : i < windowBytes) (h : Memory.read s.mem (rxBase + i) = some b) :
    s.rxByte i = b := by
  unfold State.rxByte
  rw [if_pos hw, h]; rfl

theorem State.membufByte_of_read {i : Nat} {b : Byte} (h : Memory.read s.mem (memBase + i) = some b) :
    s.membufByte i = b := by
  unfold State.membufByte
  rw [h]; rfl

/-! ## The windows do not change when a command ends or an event is recorded -/

@[simp] theorem State.complete_windowByte (o : CmdOutcome) (i : Nat) : (s.complete o).windowByte i = s.windowByte i := rfl
@[simp] theorem State.complete_txByte (o : CmdOutcome) (i : Nat) : (s.complete o).txByte i = s.txByte i := rfl
@[simp] theorem State.complete_rxByte (o : CmdOutcome) (i : Nat) : (s.complete o).rxByte i = s.rxByte i := rfl
@[simp] theorem State.complete_idByte (o : CmdOutcome) (i : Nat) : (s.complete o).idByte i = s.idByte i := rfl
@[simp] theorem State.complete_membufByte (o : CmdOutcome) (i : Nat) : (s.complete o).membufByte i = s.membufByte i := rfl
@[simp] theorem State.raiseFatal_windowByte (c : ErrCode) (x y : Byte) (i : Nat) : (s.raiseFatal c x y).windowByte i = s.windowByte i := rfl
@[simp] theorem State.raiseFatal_txByte (c : ErrCode) (x y : Byte) (i : Nat) : (s.raiseFatal c x y).txByte i = s.txByte i := rfl
@[simp] theorem State.raiseFatal_rxByte (c : ErrCode) (x y : Byte) (i : Nat) : (s.raiseFatal c x y).rxByte i = s.rxByte i := rfl
@[simp] theorem State.raiseFatal_idByte (c : ErrCode) (x y : Byte) (i : Nat) : (s.raiseFatal c x y).idByte i = s.idByte i := rfl
@[simp] theorem State.raiseFatal_membufByte (c : ErrCode) (x y : Byte) (i : Nat) : (s.raiseFatal c x y).membufByte i = s.membufByte i := rfl
@[simp] theorem State.past_windowByte (es : List Event) (r : List Byte) (i : Nat) : (s.past es r).windowByte i = s.windowByte i := rfl
@[simp] theorem State.past_rxByte (es : List Event) (r : List Byte) (i : Nat) : (s.past es r).rxByte i = s.rxByte i := rfl
@[simp] theorem State.past_idByte (es : List Event) (r : List Byte) (i : Nat) : (s.past es r).idByte i = s.idByte i := rfl
@[simp] theorem State.past_membufByte (es : List Event) (r : List Byte) (i : Nat) : (s.past es r).membufByte i = s.membufByte i := rfl
@[simp] theorem State.goto_windowByte (c : Instr) (ops : List Op) (i : Nat) : (s.goto c ops).windowByte i = s.windowByte i := rfl
@[simp] theorem State.goto_txByte (c : Instr) (ops : List Op) (i : Nat) : (s.goto c ops).txByte i = s.txByte i := rfl
@[simp] theorem State.goto_rxByte (c : Instr) (ops : List Op) (i : Nat) : (s.goto c ops).rxByte i = s.rxByte i := rfl
@[simp] theorem State.goto_idByte (c : Instr) (ops : List Op) (i : Nat) : (s.goto c ops).idByte i = s.idByte i := rfl
@[simp] theorem State.goto_membufByte (c : Instr) (ops : List Op) (i : Nat) : (s.goto c ops).membufByte i = s.membufByte i := rfl
@[simp] theorem State.started_windowByte (i : Nat) : (s.started).windowByte i = s.windowByte i := rfl
@[simp] theorem State.started_txByte (i : Nat) : (s.started).txByte i = s.txByte i := rfl
@[simp] theorem State.started_rxByte (i : Nat) : (s.started).rxByte i = s.rxByte i := rfl
@[simp] theorem State.started_idByte (i : Nat) : (s.started).idByte i = s.idByte i := rfl
@[simp] theorem State.started_membufByte (i : Nat) : (s.started).membufByte i = s.membufByte i := rfl

/-- A byte written into `TXBUF` changes no other byte of any window. -/
theorem State.setTx_windowByte_other (i : Nat) (b : Byte) {a : Nat} (h : a ≠ txBase + i) :
    (s.setTx i b).windowByte a = s.windowByte a :=
  State.windowByte_congr (State.setTx_cfg ..) (State.setTx_txMark ..) (State.setTx_rxMark ..) (State.setTx_memMark ..)
    (Memory.read_write_other _ _ _ h)

theorem State.setTx_txByte_same (i : Nat) (b : Byte) (hi : i < windowBytes) : (s.setTx i b).txByte i = b :=
  State.txByte_of_read hi (Memory.read_write_same ..)

theorem State.setTx_txByte_other (i : Nat) (b : Byte) {j : Nat} (h : j ≠ i) : (s.setTx i b).txByte j = s.txByte j := by
  unfold State.txByte
  rw [State.setTx_txMark, show Memory.read (s.setTx i b).mem (txBase + j) = Memory.read s.mem (txBase + j) from
    Memory.read_write_other _ _ _ (by omega)]

/-! ## After a block was sent (R150) -/

@[simp] theorem State.sent_cfg (r : List Byte) : (s.sent r).cfg = s.cfg := by
  simp only [State.sent, State.past, State.openBlock]
@[simp] theorem State.sent_status (r : List Byte) : (s.sent r).status = s.status := by
  simp only [State.sent, State.past, State.openBlock]
@[simp] theorem State.sent_cmd (r : List Byte) : (s.sent r).cmd = s.cmd := by
  simp only [State.sent, State.past, State.openBlock]
@[simp] theorem State.sent_arg0 (r : List Byte) : (s.sent r).arg0 = s.arg0 := by
  simp only [State.sent, State.past, State.openBlock]
@[simp] theorem State.sent_result (r : List Byte) : (s.sent r).result = s.result := by
  simp only [State.sent, State.past, State.openBlock]
@[simp] theorem State.sent_errinfo (r : List Byte) : (s.sent r).errinfo = s.errinfo := by
  simp only [State.sent, State.past, State.openBlock]
@[simp] theorem State.sent_memlen (r : List Byte) : (s.sent r).memlen = s.memlen := by
  simp only [State.sent, State.past, State.openBlock]
@[simp] theorem State.sent_rxcount (r : List Byte) : (s.sent r).rxcount = s.rxcount := by
  simp only [State.sent, State.past, State.openBlock]
@[simp] theorem State.sent_pc (r : List Byte) : (s.sent r).pc = s.pc := by
  simp only [State.sent, State.past, State.openBlock]
@[simp] theorem State.sent_kwPos (r : List Byte) : (s.sent r).kwPos = s.kwPos := by
  simp only [State.sent, State.past, State.openBlock]
@[simp] theorem State.sent_kwElapsed (r : List Byte) : (s.sent r).kwElapsed = s.kwElapsed := by
  simp only [State.sent, State.past, State.openBlock]
@[simp] theorem State.sent_rxRemaining (r : List Byte) : (s.sent r).rxRemaining = s.rxRemaining := by
  simp only [State.sent, State.past, State.openBlock]
@[simp] theorem State.sent_lineMode (r : List Byte) : (s.sent r).lineMode = s.lineMode := by
  simp only [State.sent, State.past, State.openBlock]
@[simp] theorem State.sent_attempt (r : List Byte) : (s.sent r).attempt = s.attempt := by
  simp only [State.sent, State.past, State.openBlock]
@[simp] theorem State.sent_chunkAddr (r : List Byte) : (s.sent r).chunkAddr = s.chunkAddr := by
  simp only [State.sent, State.past, State.openBlock]
@[simp] theorem State.sent_chunkLeft (r : List Byte) : (s.sent r).chunkLeft = s.chunkLeft := by
  simp only [State.sent, State.past, State.openBlock]
@[simp] theorem State.sent_idIndex (r : List Byte) : (s.sent r).idIndex = s.idIndex := by
  simp only [State.sent, State.past, State.openBlock]
@[simp] theorem State.sent_hostReads (r : List Byte) : (s.sent r).hostReads = s.hostReads := by
  simp only [State.sent, State.past, State.openBlock]
@[simp] theorem State.sent_txMark (r : List Byte) : (s.sent r).txMark = s.txMark := by
  simp only [State.sent, State.past, State.openBlock]
@[simp] theorem State.sent_rxMark (r : List Byte) : (s.sent r).rxMark = s.rxMark := by
  simp only [State.sent, State.past, State.openBlock]
@[simp] theorem State.sent_memMark (r : List Byte) : (s.sent r).memMark = s.memMark := by
  simp only [State.sent, State.past, State.openBlock]
@[simp] theorem State.sent_nextMark (r : List Byte) : (s.sent r).nextMark = s.nextMark := by
  simp only [State.sent, State.past, State.openBlock]
@[simp] theorem State.sent_session (r : List Byte) : (s.sent r).session = s.session.sent := by
  simp only [State.sent, State.past, State.openBlock, Session.sent]
@[simp] theorem State.sent_line (r : List Byte) : (s.sent r).line = { s.line with rx := r } := by
  simp only [State.sent, State.past, State.openBlock]

theorem State.sent_mem (r : List Byte) : (s.sent r).mem =
    Memory.write (Memory.write s.mem (txBase + 1) (s.session.counter + 1)) (txBase + (s.txByte 0).toNat) terminator := rfl

theorem State.sent_txByte_counter (r : List Byte) (h : (s.txByte 0).toNat ≠ 1) :
    (s.sent r).txByte 1 = s.session.counter + 1 := by
  refine State.txByte_of_read (by decide) ?_
  rw [State.sent_mem, Memory.read_write_other _ _ _ (by omega), Memory.read_write_same]

theorem State.sent_txByte_last (r : List Byte) : (s.sent r).txByte (s.txByte 0).toNat = terminator :=
  State.txByte_of_read (s.txByte 0).isLt (by rw [State.sent_mem, Memory.read_write_same])

theorem State.sent_read_other (r : List Byte) {a : Nat} (h1 : a ≠ txBase + 1) (h2 : a ≠ txBase + (s.txByte 0).toNat) :
    Memory.read (s.sent r).mem a = Memory.read s.mem a := by
  rw [State.sent_mem, Memory.read_write_other _ _ _ h2, Memory.read_write_other _ _ _ h1]

theorem State.sent_txByte_other (r : List Byte) {i : Nat} (h1 : i ≠ 1) (h2 : i ≠ (s.txByte 0).toNat) :
    (s.sent r).txByte i = s.txByte i := by
  unfold State.txByte
  rw [State.sent_read_other r (by omega) (by unfold State.txByte at h2 ⊢; omega)]
  rfl

theorem State.outgoing_length : s.outgoing.length = (s.txByte 0).toNat + 1 := by simp [State.outgoing]

theorem State.started_outgoing : s.started.outgoing = s.outgoing := rfl

theorem State.sent_windowByte_other (r : List Byte) {a : Nat} (h1 : a ≠ txBase + 1)
    (h2 : a ≠ txBase + (s.txByte 0).toNat) : (s.sent r).windowByte a = s.windowByte a :=
  State.windowByte_congr (State.sent_cfg r) (State.sent_txMark r) (State.sent_rxMark r) (State.sent_memMark r)
    (State.sent_read_other r h1 h2)

/-! ## After a block was received (R154) -/

@[simp] theorem State.heard_cfg (l : Byte) (body r : List Byte) : (s.heard l body r).cfg = s.cfg := by
  simp only [State.heard]
@[simp] theorem State.heard_status (l : Byte) (body r : List Byte) : (s.heard l body r).status = s.status := by
  simp only [State.heard]
@[simp] theorem State.heard_cmd (l : Byte) (body r : List Byte) : (s.heard l body r).cmd = s.cmd := by
  simp only [State.heard]
@[simp] theorem State.heard_arg0 (l : Byte) (body r : List Byte) : (s.heard l body r).arg0 = s.arg0 := by
  simp only [State.heard]
@[simp] theorem State.heard_result (l : Byte) (body r : List Byte) : (s.heard l body r).result = s.result := by
  simp only [State.heard]
@[simp] theorem State.heard_errinfo (l : Byte) (body r : List Byte) : (s.heard l body r).errinfo = s.errinfo := by
  simp only [State.heard]
@[simp] theorem State.heard_memlen (l : Byte) (body r : List Byte) : (s.heard l body r).memlen = s.memlen := by
  simp only [State.heard]
@[simp] theorem State.heard_pc (l : Byte) (body r : List Byte) : (s.heard l body r).pc = s.pc := by
  simp only [State.heard]
@[simp] theorem State.heard_kwPos (l : Byte) (body r : List Byte) : (s.heard l body r).kwPos = s.kwPos := by
  simp only [State.heard]
@[simp] theorem State.heard_kwElapsed (l : Byte) (body r : List Byte) : (s.heard l body r).kwElapsed = s.kwElapsed := by
  simp only [State.heard]
@[simp] theorem State.heard_lineMode (l : Byte) (body r : List Byte) : (s.heard l body r).lineMode = s.lineMode := by
  simp only [State.heard]
@[simp] theorem State.heard_attempt (l : Byte) (body r : List Byte) : (s.heard l body r).attempt = s.attempt := by
  simp only [State.heard]
@[simp] theorem State.heard_chunkAddr (l : Byte) (body r : List Byte) : (s.heard l body r).chunkAddr = s.chunkAddr := by
  simp only [State.heard]
@[simp] theorem State.heard_chunkLeft (l : Byte) (body r : List Byte) : (s.heard l body r).chunkLeft = s.chunkLeft := by
  simp only [State.heard]
@[simp] theorem State.heard_idIndex (l : Byte) (body r : List Byte) : (s.heard l body r).idIndex = s.idIndex := by
  simp only [State.heard]
@[simp] theorem State.heard_hostReads (l : Byte) (body r : List Byte) : (s.heard l body r).hostReads = s.hostReads := by
  simp only [State.heard]
@[simp] theorem State.heard_txMark (l : Byte) (body r : List Byte) : (s.heard l body r).txMark = s.txMark := by
  simp only [State.heard]
@[simp] theorem State.heard_memMark (l : Byte) (body r : List Byte) : (s.heard l body r).memMark = s.memMark := by
  simp only [State.heard]
@[simp] theorem State.heard_session (l : Byte) (body r : List Byte) :
    (s.heard l body r).session = s.session.heard body := by
  simp only [State.heard]
@[simp] theorem State.heard_rxcount (l : Byte) (body r : List Byte) :
    (s.heard l body r).rxcount = BitVec.ofNat 32 (body.length + 1) := by
  simp only [State.heard]
@[simp] theorem State.heard_line (l : Byte) (body r : List Byte) :
    (s.heard l body r).line = { s.line with rx := r } := by
  simp only [State.heard]

theorem State.heard_mem (l : Byte) (body r : List Byte) : (s.heard l body r).mem =
    Memory.writeFrom (Memory.forget s.mem rxBase (rxBase + windowBytes)) rxBase (l :: body) := rfl

theorem State.heard_rxByte {l : Byte} {body r : List Byte} (hlen : body.length < 256) {i : Nat}
    (hi : i < body.length + 1) : (s.heard l body r).rxByte i = (l :: body).getD i 0 := by
  refine State.rxByte_of_read (by show i < 256; omega) ?_
  rw [State.heard_mem, Memory.read_writeFrom, if_pos (by rw [List.length_cons]; omega), Nat.add_sub_cancel_left,
    List.getD_eq_getElem?_getD, List.getElem?_eq_getElem (by rw [List.length_cons]; omega)]
  rfl

theorem State.heard_rxByte_beyond {l : Byte} {body r : List Byte} {i : Nat} (hi : body.length + 1 ≤ i) :
    (s.heard l body r).rxByte i = Config.freeByte .rx s.nextMark i := by
  unfold State.rxByte
  split
  · rename_i hw
    have hu : Memory.unlisted (rxBase + i) = none :=
      if_neg (by simp only [rxBase, idBase, idBytes, windowBytes] at *; omega)
    rw [State.heard_mem, Memory.read_writeFrom, if_neg (by rw [List.length_cons]; omega), Memory.read_forget,
      if_pos ⟨by omega, by omega⟩, hu]
    rfl
  · rfl

theorem State.heard_read_elsewhere {l : Byte} {body r : List Byte} (hlen : body.length < 256) {a : Nat}
    (ha : a < rxBase ∨ rxBase + windowBytes ≤ a) : Memory.read (s.heard l body r).mem a = Memory.read s.mem a := by
  rw [State.heard_mem, Memory.read_writeFrom,
    if_neg (by rw [List.length_cons]; simp only [windowBytes] at ha; omega), Memory.read_forget, if_neg (by omega)]

theorem State.heard_windowByte_elsewhere {l : Byte} {body r : List Byte} (hlen : body.length < 256) {a : Nat}
    (ha : a < rxBase ∨ rxBase + windowBytes ≤ a) : (s.heard l body r).windowByte a = s.windowByte a :=
  State.windowByte_congr_elsewhere (State.heard_cfg ..) (State.heard_txMark ..) (State.heard_memMark ..) ha
    (State.heard_read_elsewhere hlen ha)

/-! ## The length of what a correct line answers -/

theorem length_le_exchange : ∀ l : List Byte, l.length ≤ (exchange l).length
  | [] => Nat.le_refl 0
  | [_] => Nat.le_refl 1
  | _ :: b' :: bs => by
    have := length_le_exchange (b' :: bs)
    simp only [exchange, List.length_cons] at *
    omega

theorem length_le_heardAnswers (c : Byte) (l : List Byte) : l.length + 2 ≤ (heardAnswers c l).length := by
  have := length_le_exchange l
  simp only [heardAnswers, List.length_cons]
  omega

end Sys2Proof.Machine
end

