-- ==== Sys2Proof/Laws/Step.lean ====
section
/-! SUPPORT. What a run, a command and a step can do, said once: the induction over the engine's moves, and the inversion lemmas of `exec`, `land` and `step`. -/

namespace Sys2Proof.Machine

/-! ## Runs -/

/-- What every move keeps, a run keeps. -/
theorem State.run_keeps {P : State → Prop} (h : ∀ s, s.canRun = true → P s → P s.tick) :
    ∀ (n : Nat) (s : State), P s → P (State.run n s)
  | 0, _, hs => hs
  | n + 1, s, hs => by
    unfold State.run
    split
    · exact State.run_keeps h n _ (h _ ‹_› hs)
    · exact hs

theorem State.runOn_keeps {P : State → Prop} (h : ∀ s, s.canRun = true → P s → P s.tick) {s : State} (hs : P s) :
    P s.runOn :=
  State.run_keeps h _ _ hs

theorem State.launch_keeps {P : State → Prop} (h : ∀ s, s.canRun = true → P s → P s.tick) {s : State} {c : Instr}
    {ops : List Op} (hs : P (s.started.goto c ops)) : P (s.launch c ops) :=
  State.runOn_keeps h hs

/-- One move: nothing left completes OK, and otherwise the next line is done. -/
theorem State.tick_cases {s : State} (h : s.canRun = true) :
    (∃ c, s.pc = .running c [] ∧ s.tick = s.complete .ok) ∨
    (∃ c op rest, s.pc = .running c (op :: rest) ∧ s.tick = (s.goto c rest).doOp op) := by
  unfold State.canRun at h
  unfold State.tick
  cases hp : s.pc with
  | idle => simp [hp] at h
  | accepted => simp [hp] at h
  | running c todo =>
    cases todo with
    | nil => exact .inl ⟨c, rfl, rfl⟩
    | cons op rest => exact .inr ⟨c, op, rest, rfl, rfl⟩

/-! ## Commands -/

/-- The pseudocode that a command starts with. -/
def startOps (s : State) : Instr → List Op
  | .wakeup a => frameOps s.cfg a
  | .sendEcho b => sendEchoOps s.cfg b
  | .sendCompl b => sendComplOps s.cfg b
  | .recvPlain => [.recv .plainResult]
  | .recvCompl => [.recv .complResult]
  | .sendBlock => [.sendBlock]
  | .recvBlock => [.recvBlock]
  | .recvBlockExpect t => recvBlockExpectOps t
  | .connectA a baud => connectOps s.cfg .A a baud
  | .connectB a baud => connectOps s.cfg .B a baud
  | .autoconnect a => [.attemptRun a, .attemptCatch a]
  | .disconnect => [.setState .disconnected]
  | .login safeCode fern => [.fillTx (loginRequest s.cfg safeCode fern s.workshop), .sendBlock, .recvBlock]
  | .groupReading g => [.fillTx (groupRequest s.cfg g), .sendBlock, .recvBlock]
  | .readMemRam a => [.memRead .ram a s.size, .resultMemlen]
  | .readMemRom a => [.memRead .rom a s.size, .resultMemlen]
  | .readMemEe a => [.memRead .ee a s.size, .resultMemlen]
  | .safeCodeCustom =>
    [.fillTx (safeCodeRequest s.cfg), .sendBlock] ++ recvBlockExpectOps s.cfg.safeRespTitle
      ++ [.resultPayload s.cfg.safeOffset]
  | .safeCodeEeprom => [.memRead .ee s.cfg.safeEeAddr s.cfg.safeEeSize, .resultMembuf s.cfg.safeEeOffset]
  | .calcChecksum =>
    [.fillTx (checksumRequest s.cfg), .sendBlock] ++ recvBlockExpectOps s.cfg.cksRespTitle
      ++ [.resultPayload s.cfg.cksOffset]

/-- The state a command's pseudocode starts from: AUTOCONNECT starts its attempts at 0 (R40). -/
def startState (s : State) : Instr → State
  | .autoconnect _ => { s with attempt := 0 }
  | .wakeup _ | .sendEcho _ | .sendCompl _ | .recvPlain | .recvCompl | .sendBlock | .recvBlock | .recvBlockExpect _
  | .connectA _ _ | .connectB _ _ | .disconnect | .login _ _ | .groupReading _ | .readMemRam _ | .readMemRom _
  | .readMemEe _ | .safeCodeCustom | .safeCodeEeprom | .calcChecksum => s

theorem whenReady_cases {s k t : State} (h : s.whenReady k = t) :
    (∃ r, t = s.reject r) ∨ (t = k ∧ s.status.state = .ready) := by
  unfold State.whenReady at h
  split at h
  · exact .inr ⟨h.symm, ‹_›⟩
  · exact .inl ⟨_, h.symm⟩

/-- A command answers a next state: it rejects its arguments, or it runs its pseudocode. -/
theorem exec_cases {i : Instr} {s t : State} (h : exec i s = .next t) :
    (∃ r, t = s.reject r) ∨ t = (startState s i).launch i (startOps s i) := by
  cases i <;> simp only [exec, execWakeup, execSendEcho, execSendCompl, execRecvPlain, execRecvCompl, execSendBlock,
    execRecvBlock, execRecvBlockExpect, execConnectA, execConnectB, execAutoconnect, execDisconnect, execLogin,
    execGroupReading, execReadMemRam, execReadMemRom, execReadMemEe, execSafeCodeCustom, execSafeCodeEeprom,
    execCalcChecksum, Host.Outcome.next.injEq] at h
  case wakeup => exact .inr h.symm
  case sendEcho => exact .inr h.symm
  case sendCompl => exact .inr h.symm
  case recvPlain => exact .inr h.symm
  case recvCompl => exact .inr h.symm
  case sendBlock => split at h; exacts [.inr h.symm, .inl ⟨_, h.symm⟩]
  case recvBlock => exact .inr h.symm
  case recvBlockExpect => exact .inr h.symm
  case connectA => split at h; exacts [.inl ⟨_, h.symm⟩, .inr h.symm]
  case connectB => split at h; exacts [.inl ⟨_, h.symm⟩, .inr h.symm]
  case autoconnect => exact .inr h.symm
  case disconnect => exact .inr h.symm
  case login => exact (whenReady_cases h).imp_right And.left
  case groupReading => exact (whenReady_cases h).imp_right And.left
  case readMemRam =>
    rcases whenReady_cases h with h | ⟨h, -⟩
    · exact .inl h
    · split at h; exacts [.inl ⟨_, h⟩, .inr h]
  case readMemRom =>
    rcases whenReady_cases h with h | ⟨h, -⟩
    · exact .inl h
    · split at h; exacts [.inl ⟨_, h⟩, .inr h]
  case readMemEe =>
    rcases whenReady_cases h with h | ⟨h, -⟩
    · exact .inl h
    · split at h; exacts [.inl ⟨_, h⟩, .inr h]
  case safeCodeCustom => exact (whenReady_cases h).imp_right And.left
  case safeCodeEeprom => exact (whenReady_cases h).imp_right And.left
  case calcChecksum => exact (whenReady_cases h).imp_right And.left

/-- A command keeps what a rejection keeps and what its start and every move keep. -/
theorem exec_keeps {P : State → Prop} {i : Instr} {s t : State} (h : exec i s = .next t) (hr : ∀ r, P (s.reject r))
    (hl : P ((startState s i).started.goto i (startOps s i))) (hm : ∀ s, s.canRun = true → P s → P s.tick) : P t := by
  rcases exec_cases h with ⟨r, rfl⟩ | rfl
  · exact hr r
  · exact State.launch_keeps hm hl

/-- No command stops. -/
theorem exec_next (i : Instr) (s : State) : ∃ t, exec i s = .next t := by
  cases i <;> exact ⟨_, rfl⟩

/-! ## The outside -/

/-- An accepted command that begins is rejected BADCMD, or is the meaning of its word (R84). -/
theorem beginCommand_cases {s t : State} (h : s.beginCommand = .next t) :
    t = ({ s with inputs := elapse 1 s.inputs } : State).reject .badCmd ∨
    ∃ i, decode s.cmd = some i ∧ exec i { s with inputs := elapse 1 s.inputs } = .next t := by
  unfold State.beginCommand execute at h
  split at h
  · rename_i i hi
    exact .inr ⟨i, hi, h⟩
  · exact .inl (Host.Outcome.next.inj h).symm

theorem State.canBegin_iff {s : State} : s.canBegin = true ↔ s.pc = .accepted ∧ s.inputDue = false := by
  simp [State.canBegin]

/-- No input is due exactly when the next one comes after an event at least. -/
theorem State.inputDue_eq_false {s : State} : s.inputDue = false ↔ s.undisturbed 1 := by
  refine ⟨fun h => ?_, State.undisturbed.not_due⟩
  rintro ⟨n, m⟩ hp
  cases n with
  | zero =>
    obtain ⟨later, hl⟩ := List.head?_eq_some_iff.1 hp
    simp [State.inputDue, hl] at h
  | succ n => exact Nat.succ_pos n

/-- An accepted command begins, when no input is due, with the meaning of its word or BADCMD (R84). -/
theorem State.beginCommand_decoded {s : State} {i : Instr} (h : decode s.cmd = some i) :
    s.beginCommand = exec i { s with inputs := elapse 1 s.inputs } := by
  simp [State.beginCommand, execute, h]

theorem State.beginCommand_reserved {s : State} (h : decode s.cmd = none) :
    s.beginCommand = .next (({ s with inputs := elapse 1 s.inputs } : State).reject .badCmd) := by
  simp [State.beginCommand, execute, h]

/-- A `CMD` write: ignored while busy, else accepted, and then it begins or an input is due first (R21, R44, R73). -/
theorem issue_cases {w : Word} {s t : State} (h : issue w s = .next t) :
    (s.status.busy = true ∧ t = { s with status := { s.status with overrun := true } }) ∨
    (s.status.busy = false ∧ (t = s.accept w ∨ (s.accept w).beginCommand = .next t)) := by
  unfold issue at h
  split at h
  · exact .inl ⟨‹_›, (Host.Outcome.next.inj h).symm⟩
  · have hb : s.status.busy = false := by simpa using ‹¬ s.status.busy = true›
    split at h
    · exact .inr ⟨hb, .inr h⟩
    · exact .inr ⟨hb, .inl (Host.Outcome.next.inj h).symm⟩

/-- An access that the block admits does what it does at its offset (R60, R63). -/
theorem State.access_admitted {s : State} {offset : Nat} (ho : offset < hostSpace) (h4 : (s.cfg.hostBase + offset) % 4 = 0)
    (k : Nat → Host.Outcome State Fault Refusal) : s.access (s.cfg.hostBase + offset) 4 k = k offset := by
  unfold State.access hostOffset
  rw [if_pos ⟨by omega, by omega⟩]
  simp [admitted, h4]

theorem access_cases {s t : State} {address width : Nat} {k : Nat → Host.Outcome State Fault Refusal}
    (h : s.access address width k = .next t) : ∃ offset, (s.cfg.hostBase + offset) % 4 = 0 ∧ offset < hostSpace ∧
      address = s.cfg.hostBase + offset ∧ width = 4 ∧ k offset = .next t := by
  unfold State.access hostOffset at h
  by_cases ha : s.cfg.hostBase ≤ address ∧ address < s.cfg.hostBase + hostSpace
  · simp only [if_pos ha] at h
    split at h
    · rename_i had
      simp only [admitted, Bool.and_eq_true, decide_eq_true_eq] at had
      exact ⟨_, by have := had.2; omega, by omega, by omega, had.1, h⟩
    · cases h
  · simp only [if_neg ha] at h
    cases h

/-- A byte that arrives while the transport is attached is answered to a later `Recv()` (R71). -/
theorem State.arrive_transport {s : State} (h : s.lineMode = .transport) (b : Byte) :
    s.arrive b = { s with line := { s.line with rx := s.line.rx ++ [b] } } := by
  unfold State.arrive
  split
  · rename_i h'; rw [h] at h'; cases h'
  · rfl

/-- What an input of the outside can do; an access is recorded first (R12). -/
theorem land_cases {m : Input} {s t : State} (h : land m s = .next t) :
    (∃ address offset, t = s.noteRead address 4 offset) ∨
    (∃ address w, issue w (s.record (.memWrite address 4 w)) = .next t) ∨
    (∃ address offset w, t = (s.record (.memWrite address 4 w)).writeWord offset w) ∨
    t = s.hardReset ∨
    (∃ b, t = s.arrive b) := by
  cases m with
  | read address width =>
    obtain ⟨offset, -, -, -, rfl, hk⟩ := access_cases h
    exact .inl ⟨_, _, (Host.Outcome.next.inj hk).symm⟩
  | write address width value =>
    obtain ⟨offset, -, -, -, rfl, hk⟩ := access_cases h
    simp only [] at hk
    split at hk
    · exact .inr (.inl ⟨address, value, hk⟩)
    · exact .inr (.inr (.inl ⟨address, offset, value, (Host.Outcome.next.inj hk).symm⟩))
  | reset => exact .inr (.inr (.inr (.inl (Host.Outcome.next.inj h).symm)))
  | arrive b => exact .inr (.inr (.inr (.inr ⟨b, (Host.Outcome.next.inj h).symm⟩)))

/-- What a step can do: move the engine on, begin a command, stay where it is, or let the next input land. -/
theorem step_cases {s t : State} (h : step s = .next t) :
    (s.canRun = true ∧ t = s.runOn) ∨
    (s.canBegin = true ∧ s.beginCommand = .next t) ∨
    (s.canRun = false ∧ s.inputs = [] ∧ t = s) ∨
    (s.canRun = false ∧ ∃ n m later, s.inputs = (n, m) :: later ∧ land m { s with inputs := later } = .next t) := by
  unfold step at h
  split at h
  · exact .inl ⟨‹_›, (Host.Outcome.next.inj h).symm⟩
  · have hc : s.canRun = false := by simpa using ‹¬ s.canRun = true›
    split at h
    · exact .inr (.inl ⟨‹_›, h⟩)
    · unfold awaitInput at h
      split at h
      · exact .inr (.inr (.inl ⟨hc, ‹_›, (Host.Outcome.next.inj h).symm⟩))
      · exact .inr (.inr (.inr ⟨hc, _, _, _, ‹_›, h⟩))

/-- A step of an accepted command that no input disturbs begins it. -/
theorem step_begin {s : State} (hp : s.pc = .accepted) (h : s.undisturbed 1) : step s = s.beginCommand := by
  have hc : s.canRun = false := by simp [State.canRun, hp]
  have hb : s.canBegin = true := State.canBegin_iff.2 ⟨hp, State.inputDue_eq_false.2 h⟩
  simp [step, hc, hb]

/-- A step of a block that can neither run nor begin anything lets its next input land. -/
theorem step_land {s : State} {n : Nat} {m : Input} {later : List (Nat × Input)} (hc : s.canRun = false)
    (hb : s.canBegin = false) (hi : s.inputs = (n, m) :: later) : step s = land m { s with inputs := later } := by
  simp [step, hc, hb, awaitInput, hi]

/-- A step of an idle block whose host writes to `CMD` next (R21). -/
theorem step_cmd {s : State} {n : Nat} {w : Word} {later : List (Nat × Input)} (hp : s.pc = .idle)
    (h4 : s.cfg.hostBase % 4 = 0) (hi : s.inputs = (n, .write (s.cfg.hostBase + offCmd) 4 w) :: later) :
    step s = issue w (({ s with inputs := later } : State).record (.memWrite (s.cfg.hostBase + offCmd) 4 w)) := by
  rw [step_land (by simp [State.canRun, hp]) (by simp [State.canBegin, hp]) hi]
  show State.access { s with inputs := later } (({ s with inputs := later } : State).cfg.hostBase + offCmd) 4 _ = _
  rw [State.access_admitted (by decide) (by show (s.cfg.hostBase + 4) % 4 = 0; omega), if_pos rfl]

/-- What the moves of the engine, acceptance, the start of a command and the inputs of the outside keep, every step keeps.
Acceptance may use that the block was idle, and the start that a command was accepted. -/
theorem step_keeps {P : State → Prop} {s t : State} (h : step s = .next t) (hs : P s)
    (hm : ∀ s, s.canRun = true → P s → P s.tick)
    (hi : ∀ s later, P s → P { s with inputs := later })
    (hr : ∀ s address offset, P s → P (s.noteRead address 4 offset))
    (hn : ∀ s address w, P s → P (s.record (.memWrite address 4 w)))
    (ho : ∀ s, s.status.busy = true → P s → P { s with status := { s.status with overrun := true } })
    (hacc : ∀ s w, s.status.busy = false → P s → P (s.accept w))
    (hb : ∀ s r, s.pc = .accepted → P s → P (s.reject r))
    (hl : ∀ s i, s.pc = .accepted → P s → P ((startState s i).started.goto i (startOps s i)))
    (hw : ∀ s offset w, P s → P (s.writeWord offset w))
    (hx : ∀ s, P s → P s.hardReset)
    (ha : ∀ s b, P s → P (s.arrive b)) : P t := by
  have hbegin : ∀ s : State, s.pc = .accepted → P s → s.beginCommand = .next t → P t := by
    intro s hpc hs h
    have hs' := hi s (elapse 1 s.inputs) hs
    rcases beginCommand_cases h with rfl | ⟨i, -, he⟩
    · exact hb _ _ hpc hs'
    · exact exec_keeps he (fun r => hb _ r hpc hs') (hl _ _ hpc hs') hm
  rcases step_cases h with ⟨-, rfl⟩ | ⟨hc, hbc⟩ | ⟨-, -, rfl⟩ | ⟨-, n, m, later, -, hland⟩
  · exact State.runOn_keeps hm hs
  · exact hbegin s (State.canBegin_iff.1 hc).1 hs hbc
  · exact hs
  · have hs' := hi s later hs
    rcases land_cases hland with ⟨a, o, rfl⟩ | ⟨a, w, hw'⟩ | ⟨a, offset, w, rfl⟩ | rfl | ⟨b, rfl⟩
    · exact hr _ _ _ hs'
    · have hs'' := hn _ a w hs'
      rcases issue_cases hw' with ⟨hbusy, rfl⟩ | ⟨hidle, rfl | he⟩
      · exact ho _ hbusy hs''
      · exact hacc _ _ hidle hs''
      · exact hbegin _ rfl (hacc _ _ hidle hs'') he
    · exact hw _ _ _ (hn _ a w hs')
    · exact hx _ hs'
    · exact ha _ _ hs'

end Sys2Proof.Machine
end

