-- ==== Sys2Proof/Laws/Frame.lean ====
section
/-! SUPPORT. The frame of the engine: what no line of pseudocode changes, whatever it does. -/

namespace Sys2Proof.Machine

/-- Time passes for the inputs to come; which they are stays. -/
@[simp] theorem elapse_snd (n : Nat) (l : List (Nat × Input)) : (elapse n l).map Prod.snd = l.map Prod.snd := by
  cases l <;> rfl

/-- `t` has the registers of `s` that only the host writes, the parameters, the host's accesses of its history, and the
same inputs still to come. -/
structure State.SameHost (s t : State) : Prop where
  arg0 : t.arg0 = s.arg0
  cmd : t.cmd = s.cmd
  overrun : t.status.overrun = s.status.overrun
  cfg : t.cfg = s.cfg
  hostReads : t.hostReads = s.hostReads
  accesses : t.history.filter Event.byHost = s.history.filter Event.byHost
  outside : t.inputs.map Prod.snd = s.inputs.map Prod.snd

theorem State.SameHost.refl (s : State) : s.SameHost s := ⟨rfl, rfl, rfl, rfl, rfl, rfl, by simp⟩

theorem State.SameHost.trans {s t u : State} (h : s.SameHost t) (h' : t.SameHost u) : s.SameHost u :=
  ⟨h'.arg0.trans h.arg0, h'.cmd.trans h.cmd, h'.overrun.trans h.overrun, h'.cfg.trans h.cfg, h'.hostReads.trans h.hostReads,
    h'.accesses.trans h.accesses, h'.outside.trans h.outside⟩

theorem State.setTxAll_sameHost (bytes : List (Nat × Byte)) : ∀ s : State, s.SameHost (s.setTxAll bytes) := by
  induction bytes with
  | nil => exact State.SameHost.refl
  | cons p ps ih =>
    intro s
    refine State.SameHost.trans ?_ (ih (s.setTx p.1 p.2))
    exact ⟨rfl, rfl, rfl, rfl, rfl, rfl, by simp⟩

theorem State.appendBytes_sameHost (bytes : List Byte) : ∀ s : State, s.SameHost (s.appendBytes bytes) := by
  induction bytes with
  | nil => exact State.SameHost.refl
  | cons b bs ih =>
    intro s
    refine State.SameHost.trans ?_ (ih (s.appendByte b))
    unfold State.appendByte
    split <;> exact ⟨rfl, rfl, rfl, rfl, rfl, rfl, by simp⟩

theorem State.raiseTimeout_sameHost (s : State) : s.SameHost s.raiseTimeout := by
  unfold State.raiseTimeout
  split
  · exact ⟨rfl, rfl, rfl, rfl, rfl, rfl, by simp⟩
  · exact ⟨rfl, rfl, rfl, rfl, rfl, rfl, by simp⟩
  · split
    · exact ⟨rfl, rfl, rfl, rfl, rfl, rfl, by simp⟩
    · split <;> exact ⟨rfl, rfl, rfl, rfl, rfl, rfl, by simp⟩

theorem State.storeByte_sameHost (s : State) (i : Nat) (b : Byte) : s.SameHost (s.storeByte i b) := by
  unfold State.storeByte
  split <;> exact ⟨rfl, rfl, rfl, rfl, rfl, rfl, by simp⟩

theorem State.storeLength_sameHost (s : State) (b : Byte) : s.SameHost (s.storeLength b) := by
  unfold State.storeLength
  split <;> exact ⟨rfl, rfl, rfl, rfl, rfl, rfl, by simp⟩

theorem State.received_sameHost (s : State) (use : RecvUse) (b : Byte) : s.SameHost (s.received use b) := by
  cases use <;> simp only [State.received]
  case echo => split <;> exact ⟨rfl, rfl, rfl, rfl, rfl, rfl, by simp⟩
  case complement => split <;> exact ⟨rfl, rfl, rfl, rfl, rfl, rfl, by simp⟩
  case last i => exact s.storeByte_sameHost i b
  case keyword gen =>
    unfold State.keywordReceived
    simp only []
    split <;> exact ⟨rfl, rfl, rfl, rfl, rfl, rfl, by simp⟩
  all_goals exact ⟨rfl, rfl, rfl, rfl, rfl, rfl, by simp⟩

theorem State.doOp_sameHost (s : State) (op : Op) : s.SameHost (s.doOp op) := by
  cases op <;> simp only [State.doOp]
  case recv use =>
    unfold State.receive
    split
    · exact ⟨rfl, rfl, rfl, rfl, rfl, rfl, by simp⟩
    · refine State.SameHost.trans ?_ (State.received_sameHost _ _ _)
      exact ⟨rfl, rfl, rfl, rfl, rfl, rfl, by simp⟩
  case poll =>
    unfold State.pollKeyword
    simp only []
    split <;> exact ⟨rfl, rfl, rfl, rfl, rfl, rfl, by simp⟩
  case keywordStart gen => cases gen <;> exact ⟨rfl, rfl, rfl, rfl, rfl, rfl, by simp [State.startKeyword]⟩
  case keywordTick =>
    unfold State.keywordTick
    simp only []
    split
    · refine State.SameHost.trans ?_ (State.raiseTimeout_sameHost _)
      exact ⟨rfl, rfl, rfl, rfl, rfl, rfl, by simp⟩
    · exact ⟨rfl, rfl, rfl, rfl, rfl, rfl, by simp⟩
  case fillTx bytes => exact State.setTxAll_sameHost bytes s
  case storeLength c => exact State.storeLength_sameHost s c
  case storeByte i b => exact State.storeByte_sameHost s i b
  case sendFrom => split <;> exact ⟨rfl, rfl, rfl, rfl, rfl, rfl, by simp⟩
  case recvFrom => split; exact ⟨rfl, rfl, rfl, rfl, rfl, rfl, by simp⟩; split <;> exact ⟨rfl, rfl, rfl, rfl, rfl, rfl, by simp⟩
  case checkTitle => split <;> exact ⟨rfl, rfl, rfl, rfl, rfl, rfl, by simp⟩
  case identityCheck =>
    unfold State.identityCheck
    simp only []
    split; exact ⟨rfl, rfl, rfl, rfl, rfl, rfl, by simp⟩
    split; exact ⟨rfl, rfl, rfl, rfl, rfl, rfl, by simp⟩
    split <;> exact ⟨rfl, rfl, rfl, rfl, rfl, rfl, by simp [State.copyId]⟩
  case identityNext => unfold State.identityNext; split <;> exact ⟨rfl, rfl, rfl, rfl, rfl, rfl, by simp⟩
  case memLoop => split <;> exact ⟨rfl, rfl, rfl, rfl, rfl, rfl, by simp⟩
  case appendPayload => exact State.appendBytes_sameHost _ s
  all_goals exact ⟨rfl, rfl, rfl, rfl, rfl, rfl, by simp⟩

theorem State.tick_sameHost {s : State} (h : s.canRun = true) : s.SameHost s.tick := by
  rcases State.tick_cases h with ⟨c, -, ht⟩ | ⟨c, op, rest, -, ht⟩
  · rw [ht]; exact ⟨rfl, rfl, rfl, rfl, rfl, rfl, by simp⟩
  · rw [ht]; refine State.SameHost.trans ?_ (State.doOp_sameHost _ _)
    exact ⟨rfl, rfl, rfl, rfl, rfl, rfl, by simp⟩

/-- No move of the engine adds an input, so a host that does not reset the block does not do so later. -/
theorem State.SameHost.noReset {s t : State} (h : s.SameHost t) (hs : s.noReset) : t.noReset := by
  intro p hp
  have : p.2 ∈ s.inputs.map Prod.snd := h.outside ▸ List.mem_map_of_mem hp
  obtain ⟨q, hq, e⟩ := List.mem_map.1 this
  exact e ▸ hs q hq

/-! ## A command that goes on is busy (R21, R22) -/

/-- Either the command has ended, or `BUSY` is as it was. -/
def State.EndedOrBusy (s t : State) : Prop := t.pc = .idle ∨ t.status.busy = s.status.busy

theorem State.EndedOrBusy.trans {s t u : State} (h : t.status.busy = s.status.busy) (h' : t.EndedOrBusy u) :
    s.EndedOrBusy u := h'.imp_right (·.trans h)

theorem State.setTxAll_status (bytes : List (Nat × Byte)) : ∀ s : State, (s.setTxAll bytes).status = s.status := by
  induction bytes with
  | nil => exact fun _ => rfl
  | cons p ps ih => exact fun s => ih (s.setTx p.1 p.2)

theorem State.appendBytes_busy (bytes : List Byte) : ∀ s : State, (s.appendBytes bytes).status.busy = s.status.busy := by
  induction bytes with
  | nil => exact fun _ => rfl
  | cons b bs ih => exact fun s => (ih (s.appendByte b)).trans (by unfold State.appendByte; split <;> rfl)

theorem State.raiseTimeout_busy (s : State) : s.EndedOrBusy s.raiseTimeout := by
  unfold State.raiseTimeout
  split
  · exact .inl rfl
  · exact .inl rfl
  · split
    · exact .inl rfl
    · split
      exacts [.inr rfl, .inl rfl]

theorem State.storeByte_busy (s : State) (i : Nat) (b : Byte) : s.EndedOrBusy (s.storeByte i b) := by
  unfold State.storeByte
  split
  exacts [.inr rfl, .inl rfl]

theorem State.received_busy (s : State) (use : RecvUse) (b : Byte) : s.EndedOrBusy (s.received use b) := by
  cases use <;> simp only [State.received]
  case echo => split; exacts [.inr rfl, .inl rfl]
  case complement => split; exacts [.inr rfl, .inl rfl]
  case last i => exact s.storeByte_busy i b
  case keyword gen =>
    unfold State.keywordReceived
    simp only []
    split <;> exact .inr rfl
  all_goals exact .inr rfl

theorem State.doOp_busy (s : State) (op : Op) : s.EndedOrBusy (s.doOp op) := by
  cases op <;> simp only [State.doOp]
  case recv use =>
    unfold State.receive
    split
    · exact .inr rfl
    · exact State.EndedOrBusy.trans rfl (State.received_busy (({ s with line := _ } : State).event _) use _)
  case poll => unfold State.pollKeyword; simp only []; split <;> exact .inr rfl
  case keywordStart gen => cases gen <;> exact .inr rfl
  case keywordTick =>
    unfold State.keywordTick
    simp only []
    split
    · exact State.EndedOrBusy.trans rfl (State.raiseTimeout_busy { s with kwElapsed := s.kwElapsed + 1 })
    · exact .inr rfl
  case fillTx bytes => exact .inr (by rw [State.setTxAll_status])
  case sendFrom => split <;> exact .inr rfl
  case storeLength c => unfold State.storeLength; split; exacts [.inr rfl, .inl rfl]
  case recvFrom => split; exact .inr rfl; split <;> exact .inr rfl
  case storeByte i b => exact s.storeByte_busy i b
  case checkTitle => split; exacts [.inr rfl, .inl rfl]
  case identityCheck =>
    unfold State.identityCheck
    simp only []
    split
    · exact .inr rfl
    · split
      · exact .inl rfl
      · split <;> exact .inr rfl
  case identityNext => unfold State.identityNext; split <;> exact .inr rfl
  case memLoop => split <;> exact .inr rfl
  case appendPayload => exact .inr (State.appendBytes_busy _ s)
  all_goals exact .inr rfl

/-- A move leaves a running command busy. -/
theorem State.tick_busy {s : State} (h : s.canRun = true) (hb : s.pc ≠ .idle → s.status.busy = true) :
    s.tick.pc ≠ .idle → s.tick.status.busy = true := by
  intro hp
  rcases State.tick_cases h with ⟨c, -, ht⟩ | ⟨c, op, rest, hpc, ht⟩
  · exact absurd (by rw [ht]; rfl) hp
  · rw [ht] at hp ⊢
    exact ((State.doOp_busy (s.goto c rest) op).resolve_left hp).trans (hb (by simp [hpc]))

end Sys2Proof.Machine
end

