-- ==== Sys2Proof/Laws/Pseudocode.lean ====
section
/-! SUPPORT. What a line of pseudocode puts before the rest of the command, said once (`Pushes` and the inversion lemma `State.doOp_pc`), and what a command keeps that goes on in later steps. -/

namespace Sys2Proof.Machine

/-- The lines of pseudocode that a line can put before the rest of its command. -/
inductive Pushes (cfg : Config) : Op → List Op → Prop where
  | nothing (op : Op) : Pushes cfg op []
  | blocked (use : RecvUse) : Pushes cfg (.recv use) [.recv use]
  | complReply (b : Byte) : Pushes cfg (.recv .complResult) (sendEchoOps cfg b)
  | lengthReply (b : Byte) : Pushes cfg (.recv .length) (sendEchoOps cfg (compl b) ++ [.storeLength b])
  | byteReply (i : Nat) (b : Byte) : Pushes cfg (.recv (.reply i)) (sendEchoOps cfg (compl b) ++ [.storeByte i b])
  | lastByte (i : Nat) : Pushes cfg (.recv (.last i)) [.recvFrom (i + 1)]
  | keywordByte (gen : Gen) : Pushes cfg (.recv (.keyword gen)) (keywordWaitOps gen)
  | polledByte : Pushes cfg .poll [.recv (.keyword .A)]
  | polledNone : Pushes cfg .poll [.delay 1, .keywordTick]
  | keywordStart (gen : Gen) : Pushes cfg (.keywordStart gen) (keywordWaitOps gen)
  | keywordTick : Pushes cfg .keywordTick [.poll]
  | sendBlock (L : Nat) : Pushes cfg .sendBlock [.sendFrom 0 L]
  | sendByte (i L : Nat) (b : Byte) : Pushes cfg (.sendFrom i L) (sendComplOps cfg b ++ [.sendFrom (i + 1) L])
  | sendTerminator (i L : Nat) (b : Byte) : Pushes cfg (.sendFrom i L) (sendEchoOps cfg b)
  | recvBlock : Pushes cfg .recvBlock [.recv .length]
  | storeLength (b : Byte) : Pushes cfg (.storeLength b) [.recvFrom 1]
  | storeByte (i : Nat) (b : Byte) : Pushes cfg (.storeByte i b) [.recvFrom (i + 1)]
  | recvLast (i : Nat) : Pushes cfg (.recvFrom i) [.recv (.last i)]
  | recvReply (i : Nat) : Pushes cfg (.recvFrom i) [.recv (.reply i)]
  | identityStart : Pushes cfg .identityStart [.recvBlock, .identityCheck]
  | identityAck : Pushes cfg .identityCheck (sendAckOps cfg ++ [.identityNext])
  | identityNext : Pushes cfg .identityNext [.recvBlock, .identityCheck]
  | identityEnd : Pushes cfg .identityNext (recvAckOps cfg ++ [.setState .ready])
  | attemptRun (a : Byte) (baud : Half) : Pushes cfg (.attemptRun a) (connectOps cfg .A a baud)
  | memRead (k : MemKind) (start : Half) (size : Word) : Pushes cfg (.memRead k start size) [.memLoop k]
  | memLoop (k : MemKind) (n : Word) (a : Half) : Pushes cfg (.memLoop k) (chunkOps cfg k n a)

variable {s : State} {c : Instr} {rest : List Op}

/-- What is left after a line: nothing more (the command has ended), the rest with what the line pushes before it, or, at
AUTOCONNECT's timeout, the next attempt. -/
inductive Leaves (cfg : Config) (c : Instr) (op : Op) (rest : List Op) : Pc → Prop where
  | ended : Leaves cfg c op rest .idle
  | pushed {ops : List Op} (h : Pushes cfg op ops) : Leaves cfg c op rest (.running c (ops ++ rest))
  | retried {a : Byte} {later : List Op} (hop : op = .keywordTick) (h : catchPoint rest = some (a, later)) :
      Leaves cfg c op rest (.running c (.delay cfg.retryDelayMs :: .attemptRun a :: .attemptCatch a :: later))

theorem Leaves.same {op : Op} {pc : Pc} (h : pc = .running c rest) : Leaves s.cfg c op rest pc :=
  h ▸ .pushed (.nothing op)

theorem State.setTxAll_pc (bytes : List (Nat × Byte)) : ∀ s : State, (s.setTxAll bytes).pc = s.pc := by
  induction bytes with
  | nil => exact fun _ => rfl
  | cons p ps ih => exact fun s => ih (s.setTx p.1 p.2)

@[simp] theorem State.appendByte_pc (s : State) (b : Byte) : (s.appendByte b).pc = s.pc := by
  unfold State.appendByte; split <;> rfl

theorem State.appendBytes_pc (bytes : List Byte) : ∀ s : State, (s.appendBytes bytes).pc = s.pc := by
  induction bytes with
  | nil => exact fun _ => rfl
  | cons b bs ih => exact fun s => (ih (s.appendByte b)).trans (s.appendByte_pc b)

theorem State.storeByte_leaves (h : s.pc = .running c rest) {op : Op} {i : Nat} (b : Byte)
    (hp : Pushes s.cfg op [.recvFrom (i + 1)]) : Leaves s.cfg c op rest (s.storeByte i b).pc := by
  unfold State.storeByte
  split
  · simp only [State.push_pc, State.storedByte_pc, h]; exact .pushed hp
  · exact .ended

theorem State.received_leaves (h : s.pc = .running c rest) (use : RecvUse) (b : Byte) :
    Leaves s.cfg c (.recv use) rest (s.received use b).pc := by
  cases use <;> simp only [State.received]
  case echo => split; exacts [.same h, .ended]
  case complement => split; exacts [.same h, .ended]
  case plainResult => exact .same h
  case complResult => simp only [State.push_pc, h]; exact .pushed (.complReply _)
  case length => simp only [State.push_pc, h]; exact .pushed (.lengthReply b)
  case reply i => simp only [State.push_pc, h]; exact .pushed (.byteReply i b)
  case last i => exact State.storeByte_leaves h b (.lastByte i)
  case keyword gen =>
    unfold State.keywordReceived
    simp only []
    split
    · exact .same h
    · simp only [State.push_pc, h]; exact .pushed (.keywordByte gen)

theorem State.raiseTimeout_leaves (h : s.pc = .running c rest) : Leaves s.cfg c .keywordTick rest s.raiseTimeout.pc := by
  unfold State.raiseTimeout
  rw [h]
  simp only []
  split
  · exact .ended
  · split
    · exact .retried rfl ‹_›
    · exact .ended

/-- The inversion lemma for `pc`: what one line of pseudocode leaves to do. -/
theorem State.doOp_pc (h : s.pc = .running c rest) (op : Op) : Leaves s.cfg c op rest (s.doOp op).pc := by
  cases op <;> simp only [State.doOp]
  case recv use =>
    unfold State.receive
    split
    · simp only [State.push_pc, h]; exact .pushed (.blocked use)
    · exact State.received_leaves (s := ({ s with line := _ } : State).event _) h use _
  case poll =>
    unfold State.pollKeyword
    simp only []
    split <;> simp only [State.push_pc, State.event_pc, h]
    · exact .pushed .polledByte
    · exact .pushed .polledNone
  case keywordStart gen => cases gen <;> simp only [State.push_pc, State.startKeyword, h] <;> exact .pushed (.keywordStart _)
  case keywordTick =>
    unfold State.keywordTick
    simp only []
    split
    · exact State.raiseTimeout_leaves (s := { s with kwElapsed := s.kwElapsed + 1 }) h
    · simp only [State.push_pc, h]; exact .pushed .keywordTick
  case fillTx bytes => exact .same ((State.setTxAll_pc bytes s).trans h)
  case sendBlock => simp only [State.push_pc, State.openBlock_pc, h]; exact .pushed (.sendBlock _)
  case sendFrom i L =>
    split <;> simp only [State.push_pc, h]
    · exact .pushed (.sendByte i L _)
    · exact .pushed (.sendTerminator i L _)
  case recvBlock => simp only [State.push_pc, State.startReception_pc, h]; exact .pushed .recvBlock
  case storeLength b =>
    unfold State.storeLength
    split
    · simp only [State.push_pc, State.storedLength_pc, h]; exact .pushed (.storeLength b)
    · exact .ended
  case recvFrom i =>
    split
    · exact .same h
    · split <;> simp only [State.push_pc, h]
      · exact .pushed (.recvLast i)
      · exact .pushed (.recvReply i)
  case storeByte i b => exact State.storeByte_leaves h b (.storeByte i b)
  case checkTitle => split; exacts [.same h, .ended]
  case identityStart => simp only [State.push_pc, h]; exact .pushed .identityStart
  case identityCheck =>
    unfold State.identityCheck
    simp only []
    split
    · exact .same h
    · split
      · exact .ended
      · split <;> simp only [State.push_pc, State.copyId, h] <;> exact .pushed .identityAck
  case identityNext =>
    unfold State.identityNext
    split <;> simp only [State.push_pc, h]
    · exact .pushed .identityNext
    · exact .pushed .identityEnd
  case attemptRun a => simp only [State.push_pc, h]; exact .pushed (.attemptRun a _)
  case memRead k start size => simp only [State.push_pc, State.startMemRead_pc, h]; exact .pushed (.memRead k start size)
  case memLoop k =>
    split
    · exact .same h
    · simp only [State.push_pc, h]; exact .pushed (.memLoop k _ _)
  case appendPayload => exact .same ((State.appendBytes_pc _ s).trans h)
  all_goals exact .same h

/-! ## Going on -/

/-- No move of the engine accepts a command. -/
theorem State.tick_begun {s : State} (hc : s.canRun = true) : s.tick.pc ≠ .accepted := by
  rcases State.tick_cases hc with ⟨c, -, ht⟩ | ⟨c, op, rest, -, ht⟩
  · rw [ht]; exact Pc.noConfusion
  · have h := State.doOp_pc (s := s.goto c rest) (c := c) (rest := rest) rfl op
    rw [ht]
    intro he
    rw [he] at h
    cases h

/-- A command has begun, or is over, when it stops, blocks or is interrupted. -/
theorem exec_begun {i : Instr} {s t : State} (h : exec i s = .next t) : t.pc ≠ .accepted :=
  exec_keeps (P := fun t => t.pc ≠ .accepted) h (fun _ => by simp [State.reject]) (by simp) (fun _ hc _ => State.tick_begun hc)

/-- What the moves of the engine and the inputs of the outside keep while a command runs, a command that was blocked or
interrupted keeps as it goes on. A `CMD` write then only sets OVERRUN, and no other write does anything (R44). -/
theorem State.goesOn_keeps {P : State → Prop} (hb : ∀ s, P s → s.pc ≠ .idle → s.status.busy = true)
    (hm : ∀ s, s.canRun = true → P s → P s.tick)
    (hi : ∀ s p later, s.inputs = p :: later → P s → P { s with inputs := later })
    (hr : ∀ s address offset, P s → P (s.noteRead address 4 offset))
    (hn : ∀ s address w, P s → P (s.record (.memWrite address 4 w)))
    (ho : ∀ s, s.pc ≠ .idle → P s → P { s with status := { s.status with overrun := true } })
    (hx : ∀ s n later, s.inputs = (n, .reset) :: later → P s → P ({ s with inputs := later } : State).hardReset)
    (ha : ∀ s b, s.pc ≠ .idle → P s → P (s.arrive b)) :
    ∀ (n : Nat) {s u : State}, P s → s.pc ≠ .accepted → s.goesOn n = some u → P u := by
  intro n
  induction n with
  | zero => intro s u hs _ hu; cases hu; exact hs
  | succ n ih =>
    intro s u hs hbegun hu
    unfold State.goesOn at hu
    split at hu
    · cases hu; exact hs
    · rename_i hpc
      split at hu
      · rename_i t hstep
        suffices h : P t ∧ t.pc ≠ .accepted from ih h.1 h.2 hu
        rcases step_cases hstep with ⟨-, rfl⟩ | ⟨hcb, -⟩ | ⟨-, -, rfl⟩ | ⟨-, k, m, later, hin, hland⟩
        · exact State.runOn_keeps (P := fun s => P s ∧ s.pc ≠ .accepted) (fun s hc h => ⟨hm s hc h.1, State.tick_begun hc⟩)
            ⟨hs, hbegun⟩
        · exact absurd (State.canBegin_iff.1 hcb).1 hbegun
        · exact ⟨hs, hbegun⟩
        · have hs' := hi s _ later hin hs
          have hbusy := hb s hs hpc
          cases m with
          | read address width =>
            obtain ⟨offset, -, -, -, rfl, hk⟩ := access_cases hland
            exact Host.Outcome.next.inj hk ▸ ⟨hr _ _ _ hs', hbegun⟩
          | write address width value =>
            obtain ⟨offset, -, -, -, rfl, hk⟩ := access_cases hland
            have hs'' := hn _ address value hs'
            simp only [] at hk
            split at hk
            · rcases issue_cases hk with ⟨-, rfl⟩ | ⟨hidle, -⟩
              · exact ⟨ho _ hpc hs'', hbegun⟩
              · exact absurd (hbusy.symm.trans hidle) (by simp)
            · rw [State.writeWord, if_pos (by exact hbusy)] at hk
              exact Host.Outcome.next.inj hk ▸ ⟨hs'', hbegun⟩
          | reset => exact Host.Outcome.next.inj hland ▸ ⟨hx s k later hin hs, by simp [State.hardReset, State.resetWith]⟩
          | arrive b =>
            refine Host.Outcome.next.inj hland ▸ ⟨ha _ b (by exact hpc) hs', ?_⟩
            unfold State.arrive
            split <;> exact hbegun
      · cases hu
      · cases hu

end Sys2Proof.Machine
end

