-- ==== Sys2Proof/Laws/Exchange.lean ====
section
/-! SUPPORT. The wakeup frame, a byte whose echo may be wrong, and the exchange of a request and a response, as runs of moves; and what such an exchange leaves. -/

namespace Sys2Proof.Machine

variable {s t : State}

/-! ## The wakeup frame (R121) -/

theorem RunsIn.holds {c : Instr} {rest : List Op} (d : Nat) (bs : List Bool) : ∀ {s : State}, s.undisturbed bs.length →
    RunsIn bs.length (s.goto c (bs.map (fun v => Op.lineHold v d) ++ rest))
      ((s.past (bs.map (fun v => Event.lineHold v d)) s.line.rx).goto c rest) := by
  induction bs with
  | nil => intro s _; simpa [State.past_nil] using RunsIn.refl _
  | cons b bs ih =>
    intro s hu
    have h1 : RunsIn 1 (s.goto c (.lineHold b d :: (bs.map (fun v => Op.lineHold v d) ++ rest)))
        ((s.past [.lineHold b d] s.line.rx).goto c (bs.map (fun v => Op.lineHold v d) ++ rest)) :=
      RunsIn.act (by simp) (hu.mono (by simp)) rfl
    have h2 := ih (s := s.past [.lineHold b d] s.line.rx) (State.undisturbed.past (hu.mono (by simp; omega)))
    have h3 := h1.trans h2
    rw [State.past_past] at h3
    rw [Nat.add_comm] at h3
    exact h3

theorem wakeupBits_length (cfg : Config) (a : Byte) : (wakeupBits cfg a).length = cfg.wakeupAddrBits + 3 := by
  simp [wakeupBits]

/-- The wakeup frame of an address. -/
theorem RunsIn.frame {c : Instr} {rest : List Op} (a : Byte) (hv : s.cfg.Valid) (hu : s.undisturbed 12) :
    RunsIn 12 (s.goto c (frameOps s.cfg a ++ rest))
      (State.goto { s.past (frameEvents s.cfg a) s.line.rx with lineMode := .transport } c rest) := by
  have h1 : RunsIn 1 (s.goto c (frameOps s.cfg a ++ rest))
      (State.goto { s.past [.lineAcquire] s.line.rx with lineMode := .direct } c
        ((wakeupBits s.cfg a).map (fun v => .lineHold v s.cfg.bitMs) ++ ([.lineRelease] ++ rest))) :=
    RunsIn.act (by simp) (hu.mono (by omega)) (by simp; rfl)
  have hu1 : (s.past [Event.lineAcquire] s.line.rx).undisturbed 11 := State.undisturbed.past hu
  have hl : (wakeupBits s.cfg a).length = 10 := by rw [wakeupBits_length, hv.sourced.wakeupAddrBits]
  have h2 := RunsIn.holds (c := c) (rest := [.lineRelease] ++ rest) s.cfg.bitMs (wakeupBits s.cfg a)
    (s := { s.past [.lineAcquire] s.line.rx with lineMode := .direct })
    (State.undisturbed.congr (s := s.past [.lineAcquire] s.line.rx) (hu1.mono (by omega)) rfl)
  rw [hl] at h2
  have h3 : RunsIn 1 ((State.past { s.past [.lineAcquire] s.line.rx with lineMode := .direct }
        ((wakeupBits s.cfg a).map (fun v => Event.lineHold v s.cfg.bitMs)) s.line.rx).goto c ([.lineRelease] ++ rest))
      (State.goto { s.past (frameEvents s.cfg a) s.line.rx with lineMode := .transport } c rest) := by
    refine RunsIn.act (by simp) (State.undisturbed.past (State.undisturbed.congr (hu1.mono ?_) rfl)) ?_
    · rw [List.length_map, hl]
    show State.event _ _ = _
    simp [State.event, State.past, State.goto, frameEvents, elapse_elapse]
    rw [Nat.add_comm 1]
  exact (h1.trans h2).trans h3

/-! ## A byte whose echo may be wrong (R130) -/

theorem RunsIn.sendEchoTo {c : Instr} {rest : List Op} {b e : Byte} {r : List Byte} (hu : s.undisturbed 3)
    (hrx : s.line.rx = e :: r)
    (h : ((s.past [.delay s.cfg.interbyteMs, .send b, .recv e] r).goto c rest).received (.echo b) e = t) :
    RunsIn 3 (s.goto c (sendEchoOps s.cfg b ++ rest)) t := by
  have h1 : RunsIn 1 (s.goto c (sendEchoOps s.cfg b ++ rest))
      ((s.past [.delay s.cfg.interbyteMs] (e :: r)).goto c (.send b :: .recv (.echo b) :: rest)) :=
    RunsIn.act (by simp) (hu.mono (by omega)) (by rw [← hrx]; rfl)
  have h2 : RunsIn 1 ((s.past [.delay s.cfg.interbyteMs] (e :: r)).goto c (.send b :: .recv (.echo b) :: rest))
     ((s.past [.delay s.cfg.interbyteMs, .send b] (e :: r)).goto c (.recv (.echo b) :: rest)) :=
    RunsIn.act (by simp) (State.undisturbed.past (hu.mono (by simp)))
      (by
        show State.event _ (.send b) = _
        rw [State.event_eq_past]
        simp [State.past, State.goto, elapse_elapse])
  have h3 : RunsIn 1 ((s.past [.delay s.cfg.interbyteMs, .send b] (e :: r)).goto c (.recv (.echo b) :: rest)) t :=
    RunsIn.recv (State.undisturbed.past (hu.mono (by simp))) rfl (by rw [State.past_past]; exact h)
  exact (h1.trans h2).trans h3

/-! ## A request in `TXBUF` (R97) -/

theorem State.setTxAll_eq (l : List (Nat × Byte)) : ∀ s : State, s.setTxAll l = { s with mem := (s.setTxAll l).mem } := by
  induction l with
  | nil => exact fun _ => rfl
  | cons p ps ih =>
    intro s
    show (s.setTx p.1 p.2).setTxAll ps = { s with mem := ((s.setTx p.1 p.2).setTxAll ps).mem }
    conv_lhs => rw [ih]
    rfl

theorem State.setTxAll_goto (l : List (Nat × Byte)) (c : Instr) (ops : List Op) : ∀ s : State,
    (s.goto c ops).setTxAll l = (s.setTxAll l).goto c ops := by
  induction l with
  | nil => exact fun _ => rfl
  | cons p ps ih => exact fun s => ih (s.setTx p.1 p.2)

theorem State.setTxAll_started (l : List (Nat × Byte)) : ∀ s : State, s.started.setTxAll l = (s.setTxAll l).started := by
  induction l with
  | nil => exact fun _ => rfl
  | cons p ps ih => exact fun s => ih (s.setTx p.1 p.2)

theorem State.setTxAll_payloadAt (ps : List Byte) : ∀ (s : State) (i : Nat),
    (s.setTxAll (payloadAt i ps)).mem = Memory.writeFrom s.mem (txBase + i) ps := by
  induction ps with
  | nil => exact fun _ _ => rfl
  | cons b bs ih => exact fun s i => ih (s.setTx i b) (i + 1)

/-- The state with a request in `TXBUF`, its placeholders not yet filled. -/
def State.filled (s : State) (title : Byte) (payload : List Byte) : State := s.setTxAll (requestBlock title payload)

theorem State.filled_mem (title : Byte) (payload : List Byte) : (s.filled title payload).mem =
    Memory.writeFrom (Memory.write (Memory.write s.mem txBase (BitVec.ofNat 8 (payload.length + 3))) (txBase + 2) title)
      (txBase + 3) payload :=
  State.setTxAll_payloadAt payload ((s.setTx 0 _).setTx 2 title) 3

theorem State.filled_eq (title : Byte) (payload : List Byte) :
    s.filled title payload = { s with mem := (s.filled title payload).mem } := State.setTxAll_eq _ s

@[simp] theorem State.filled_cfg (title : Byte) (payload : List Byte) :
    (s.filled title payload).cfg = s.cfg := by rw [State.filled_eq]
@[simp] theorem State.filled_session (title : Byte) (payload : List Byte) :
    (s.filled title payload).session = s.session := by rw [State.filled_eq]
@[simp] theorem State.filled_inputs (title : Byte) (payload : List Byte) :
    (s.filled title payload).inputs = s.inputs := by rw [State.filled_eq]
@[simp] theorem State.filled_line (title : Byte) (payload : List Byte) :
    (s.filled title payload).line = s.line := by rw [State.filled_eq]
@[simp] theorem State.filled_history (title : Byte) (payload : List Byte) :
    (s.filled title payload).history = s.history := by rw [State.filled_eq]

theorem State.filled_length {title : Byte} {payload : List Byte} (hp : payload.length + 4 ≤ 256) :
    ((s.filled title payload).txByte 0).toNat = payload.length + 3 := by
  rw [State.txByte_of_read (b := BitVec.ofNat 8 (payload.length + 3)) (by decide)]
  · rw [BitVec.toNat_ofNat]; omega
  · rw [State.filled_mem, Memory.read_writeFrom, if_neg (by omega), Memory.read_write_other _ _ _ (by omega)]
    exact Memory.read_write_same ..

/-- The state after a request was sent on a correct line (R97, R150). -/
def State.requested (s : State) (title : Byte) (payload rest : List Byte) : State := (s.filled title payload).sent rest

theorem getElem?_block_bytes (counter title : Byte) (payload : List Byte) (i : Nat) :
    (block counter title payload).bytes[i]? =
      if i = 0 then some (BitVec.ofNat 8 (payload.length + 3))
      else if i = 1 then some counter
      else if i = 2 then some title
      else if i < payload.length + 3 then payload[i - 3]?
      else if i = payload.length + 3 then some terminator
      else none := by
  match i with
  | 0 => rfl
  | 1 => rfl
  | 2 => rfl
  | i + 3 =>
    show (payload ++ [terminator])[i]? = _
    rw [if_neg (by omega), if_neg (by omega), if_neg (by omega), Nat.add_sub_cancel]
    by_cases h : i < payload.length
    · rw [if_pos (by omega), List.getElem?_append_left h]
    · rw [if_neg (by omega), List.getElem?_append_right (by omega)]
      by_cases h' : i = payload.length
      · subst h'; simp
      · rw [if_neg (by omega)]
        exact List.getElem?_eq_none (by simp; omega)

theorem length_block_bytes (counter title : Byte) (payload : List Byte) :
    (block counter title payload).bytes.length = payload.length + 4 := by simp [Block.bytes, block]

/-- The buffers after a request was sent. -/
theorem State.requested_read {title : Byte} {payload r : List Byte} (hp : payload.length + 4 ≤ 256) (a : Nat) :
    Memory.read (s.requested title payload r).mem a =
      if txBase ≤ a ∧ a < txBase + (payload.length + 4) then
        (block (s.session.counter + 1) title payload).bytes[a - txBase]?
      else Memory.read s.mem a := by
  unfold State.requested
  rw [State.sent_mem, State.filled_length hp, State.filled_session, State.filled_mem, getElem?_block_bytes]
  by_cases h3 : a = txBase + (payload.length + 3)
  · subst h3
    rw [Memory.read_write_same, if_pos (by omega), Nat.add_sub_cancel_left, if_neg (by omega), if_neg (by omega),
      if_neg (by omega), if_neg (by omega), if_pos rfl]
  rw [Memory.read_write_other _ _ _ h3]
  by_cases h1 : a = txBase + 1
  · subst h1
    rw [Memory.read_write_same, if_pos (by omega), Nat.add_sub_cancel_left, if_neg (by omega), if_pos rfl]
  rw [Memory.read_write_other _ _ _ h1, Memory.read_writeFrom]
  by_cases h2 : txBase + 3 ≤ a ∧ a < txBase + 3 + payload.length
  · rw [if_pos h2, if_pos (by omega), if_neg (by omega), if_neg (by omega), if_neg (by omega), if_pos (by omega),
      Nat.sub_add_eq]
  rw [if_neg h2]
  by_cases h4 : a = txBase + 2
  · subst h4
    rw [Memory.read_write_same, if_pos (by omega), Nat.add_sub_cancel_left, if_neg (by omega), if_neg (by omega),
      if_pos rfl]
  rw [Memory.read_write_other _ _ _ h4]
  by_cases h0 : a = txBase
  · subst h0
    rw [Memory.read_write_same, if_pos (by omega), Nat.sub_self, if_pos rfl]
  rw [Memory.read_write_other _ _ _ h0, if_neg (by omega)]

theorem State.requested_txByte {title : Byte} {payload r : List Byte} (hp : payload.length + 4 ≤ 256) {i : Nat}
    (hi : i < payload.length + 4) : (s.requested title payload r).txByte i =
      (block (s.session.counter + 1) title payload).bytes.getD i 0 := by
  refine State.txByte_of_read (by simp only [windowBytes]; omega) ?_
  rw [State.requested_read hp, if_pos (by omega), Nat.add_sub_cancel_left, List.getD_eq_getElem?_getD,
    List.getElem?_eq_getElem (by rw [length_block_bytes]; omega)]
  rfl

theorem State.openBlock_mem_txByte (L : Byte) (i : Nat) (r : List Byte) (h : L = s.txByte 0) :
    (s.openBlock L).txByte i = (s.sent r).txByte i := by subst h; rfl

/-- The bytes that the request puts on the wire. -/
theorem State.filled_outgoing {title : Byte} {payload : List Byte} (hp : payload.length + 4 ≤ 256) :
    (s.filled title payload).outgoing = (block (s.session.counter + 1) title payload).bytes := by
  have hl := State.filled_length (s := s) (title := title) hp
  apply List.ext_getElem
  · rw [State.outgoing_length, hl, length_block_bytes]
  · intro i h1 h2
    rw [State.outgoing_length, hl] at h1
    simp only [State.outgoing, List.getElem_map, List.getElem_range]
    rw [State.openBlock_mem_txByte _ i [] rfl]
    show (s.requested title payload []).txByte i = _
    rw [State.requested_txByte hp (by omega), List.getD_eq_getElem _ _ h2]

/-- A request is built and sent on a correct line. -/
theorem RunsIn.request {c : Instr} {rest : List Op} {title : Byte} {payload r : List Byte}
    (hp : payload.length + 4 ≤ 256)
    (hu : s.undisturbed ((block (s.session.counter + 1) title payload).eventsSent s.cfg).length)
    (hrx : s.line.rx = (block (s.session.counter + 1) title payload).answersSent ++ r) :
    RunsIn (5 * payload.length + 21) (s.goto c (.fillTx (requestBlock title payload) :: .sendBlock :: rest))
      ((s.requested title payload r).goto c rest) := by
  have h1 : RunsIn 1 (s.goto c (.fillTx (requestBlock title payload) :: .sendBlock :: rest))
      ((s.filled title payload).goto c (.sendBlock :: rest)) :=
    RunsIn.silent rfl (State.setTxAll_goto _ _ _ s)
  have ho := State.filled_outgoing (s := s) (title := title) hp
  have h2 := RunsIn.sendBlock (s := s.filled title payload) (c := c) (rest := rest) (r := r)
    (by rw [ho, State.filled_cfg]; exact State.undisturbed.congr hu (State.filled_inputs ..))
    (by rw [ho, State.filled_line]; exact hrx)
  have := h1.trans h2
  rw [State.filled_length hp] at this
  rwa [show 1 + (5 * (payload.length + 3) + 5) = 5 * payload.length + 21 by omega] at this

@[simp] theorem State.requested_session (title : Byte) (payload r : List Byte) :
    (s.requested title payload r).session = s.session.sent := by
  unfold State.requested; rw [State.sent_session, State.filled_session]
@[simp] theorem State.requested_line (title : Byte) (payload r : List Byte) :
    (s.requested title payload r).line = { s.line with rx := r } := by
  unfold State.requested; rw [State.sent_line, State.filled_line]

/-- Sending a request changes only `TXBUF`, the counter and what the line and the record of the run say. -/
theorem State.requested_eq {title : Byte} {payload r : List Byte} (hp : payload.length + 4 ≤ 256) :
    s.requested title payload r = { s with
      mem := (s.requested title payload r).mem
      session := s.session.sent
      history := ((block (s.session.counter + 1) title payload).eventsSent s.cfg).reverse ++ s.history
      inputs := elapse ((block (s.session.counter + 1) title payload).eventsSent s.cfg).length s.inputs
      line := { s.line with rx := r } } := by
  have h : s.requested title payload r =
      ((s.filled title payload).openBlock ((s.filled title payload).txByte 0)).past
        ((block (s.session.counter + 1) title payload).eventsSent s.cfg) r := by
    unfold State.requested State.sent
    rw [State.filled_outgoing hp, State.filled_cfg]
    rfl
  have hm : (s.requested title payload r).mem = ((s.filled title payload).openBlock ((s.filled title payload).txByte 0)).mem :=
    rfl
  rw [hm, h]
  simp only [State.past, State.openBlock, State.filled_session, State.filled_inputs, State.filled_line,
    State.filled_history]
  rw [State.filled_eq]
  rfl

/-! ## A request and its response (R221) -/

/-- The state after a request was sent and a response was received on a correct line. -/
def State.exchanged (s : State) (title : Byte) (payload : List Byte) (b : Block) (rest : List Byte) : State :=
  (s.requested title payload (b.answersHeard ++ rest)).heard b.1 b.2 rest

/-- A request is built and sent, and a response received, on a correct line. -/
theorem RunsIn.exchange {c : Instr} {rest : List Op} {title : Byte} {payload r : List Byte} {b : Block}
    (hp : payload.length + 4 ≤ 256) (hb : s.AcceptsAfterSend b)
    (hu : s.undisturbed ((block (s.session.counter + 1) title payload).eventsSent s.cfg ++ b.eventsHeard s.cfg).length)
    (hrx : s.line.rx = (block (s.session.counter + 1) title payload).answersSent ++ b.answersHeard ++ r) :
    ∃ n, n ≤ 5 * payload.length + 6 * b.2.length + 29 ∧
      RunsIn n (s.goto c (.fillTx (requestBlock title payload) :: .sendBlock :: .recvBlock :: rest))
        ((s.exchanged title payload b r).goto c rest) := by
  rw [List.length_append] at hu
  have h1 := RunsIn.request (c := c) (rest := .recvBlock :: rest) (title := title) (r := b.answersHeard ++ r) hp (hu.mono (by omega))
    (by rw [hrx, List.append_assoc])
  have he := State.requested_eq (s := s) (title := title) (r := b.answersHeard ++ r) hp
  have hu' : (s.requested title payload (b.answersHeard ++ r)).undisturbed (b.eventsHeard s.cfg).length :=
    State.undisturbed.congr (State.undisturbed.past (r := s.line.rx) hu) (by rw [he]; rfl)
  obtain ⟨n, hn, h2⟩ := RunsIn.recvBlock (c := c) (rest := rest) (l := b.1) (body := b.2) (r := r)
    (s := s.requested title payload (b.answersHeard ++ r))
    ⟨hb.counted, by rw [he]; exact hb.fits, by rw [State.requested_session]; exact hb.counter⟩
    (by rw [he]; exact State.undisturbed.congr hu' (by rw [he]))
    (by rw [State.requested_line]; rfl)
  exact ⟨5 * payload.length + 21 + n, by omega, h1.trans h2⟩

theorem State.exchanged_eq {title : Byte} {payload r : List Byte} {b : Block} (hp : payload.length + 4 ≤ 256) :
    s.exchanged title payload b r = { s with
      mem := (s.exchanged title payload b r).mem
      session := s.session.sent.heard b.2
      rxMark := s.nextMark
      nextMark := s.nextMark + 1
      rxcount := BitVec.ofNat 32 (b.2.length + 1)
      rxRemaining := 0
      history := ((block (s.session.counter + 1) title payload).eventsSent s.cfg ++ b.eventsHeard s.cfg).reverse ++ s.history
      inputs := elapse ((block (s.session.counter + 1) title payload).eventsSent s.cfg ++ b.eventsHeard s.cfg).length s.inputs
      line := { s.line with rx := r } } := by
  have hm : (s.exchanged title payload b r).mem = ((s.requested title payload (b.answersHeard ++ r)).heard b.1 b.2 r).mem :=
    rfl
  rw [hm]
  unfold State.exchanged
  rw [State.requested_eq hp]
  simp only [State.heard, elapse_elapse, List.length_append, List.reverse_append, List.append_assoc, Block.eventsHeard]

theorem State.exchanged_started (title : Byte) (payload r : List Byte) (b : Block) :
    s.started.exchanged title payload b r = (s.exchanged title payload b r).started := by
  unfold State.exchanged State.requested State.filled
  rw [State.setTxAll_started]
  rfl

theorem State.exchanged_rxByte {title : Byte} {payload r : List Byte} {b : Block} (hb : b.2.length < 256) {i : Nat}
    (hi : i < b.bytes.length) : (s.exchanged title payload b r).rxByte i = b.bytes.getD i 0 :=
  State.heard_rxByte hb hi

theorem State.exchanged_txByte {title : Byte} {payload r : List Byte} {b : Block} (hp : payload.length + 4 ≤ 256)
    (hb : b.2.length < 256) {i : Nat} (hi : i < payload.length + 4) :
    (s.exchanged title payload b r).txByte i = (block (s.session.counter + 1) title payload).bytes.getD i 0 := by
  rw [← State.requested_txByte (r := b.answersHeard ++ r) hp hi]
  have ht : txBase + i < rxBase := by simp only [txBase, rxBase]; omega
  unfold State.txByte State.exchanged
  rw [State.heard_read_elsewhere hb (.inl ht), State.heard_txMark]

theorem State.exchanged_windowByte {title : Byte} {payload r : List Byte} {b : Block} (hp : payload.length + 4 ≤ 256)
    (hb : b.2.length < 256) {a : Nat} (h1 : a < txBase ∨ txBase + (payload.length + 4) ≤ a)
    (h2 : a < rxBase ∨ rxBase + windowBytes ≤ a) :
    (s.exchanged title payload b r).windowByte a = s.windowByte a := by
  unfold State.exchanged
  rw [State.heard_windowByte_elsewhere hb h2]
  have he := State.requested_eq (s := s) (title := title) (r := b.answersHeard ++ r) hp
  exact State.windowByte_congr (by rw [he]) (by rw [he]) (by rw [he]) (by rw [he])
    (by rw [State.requested_read hp, if_neg (by omega)])

/-- What the exchange leaves, however the command then ends. -/
theorem State.exchanged_to {title : Byte} {payload r : List Byte} {b : Block} (hp : payload.length + 4 ≤ 256)
    (hb : b.2.length < 256) {t : State} (x : Word) (st : Status) (e : ErrInfo) (ending : List Event)
    (inputs : List (Nat × Input))
    (ht : t = { s.exchanged title payload b r with
      pc := .idle
      result := x
      status := st
      errinfo := e
      history := ending ++ (s.exchanged title payload b r).history
      inputs := inputs }) :
    s.ExchangedTo t (block (s.session.counter + 1) title payload) b ending := by
  have he := State.exchanged_eq (s := s) (title := title) (b := b) (r := r) hp
  subst ht
  constructor
  · show (s.exchanged title payload b r).cfg = _; rw [he]
  · show ending ++ (s.exchanged title payload b r).history = _; rw [he, List.append_assoc]
  · show (s.exchanged title payload b r).session = _; rw [he]
  · intro i hi
    rw [length_block_bytes] at hi
    exact State.exchanged_txByte hp hb hi
  · intro i hi
    exact State.exchanged_rxByte hb hi
  · show (s.exchanged title payload b r).rxcount = _; rw [he]; rfl
  · intro a h1 h2
    rw [length_block_bytes] at h1
    exact State.exchanged_windowByte hp hb h1 h2
  · rfl
  · show (s.exchanged title payload b r).arg0 = _ ∧ (s.exchanged title payload b r).cmd = _ ∧
      (s.exchanged title payload b r).memlen = _ ∧ (s.exchanged title payload b r).hostReads = _
    rw [he]; exact ⟨rfl, rfl, rfl, rfl⟩
  · show (s.exchanged title payload b r).lineMode = _ ∧ (s.exchanged title payload b r).attempt = _ ∧
      (s.exchanged title payload b r).chunkAddr = _ ∧ (s.exchanged title payload b r).chunkLeft = _ ∧
      (s.exchanged title payload b r).idIndex = _ ∧ (s.exchanged title payload b r).kwPos = _ ∧
      (s.exchanged title payload b r).kwElapsed = _
    rw [he]; exact ⟨rfl, rfl, rfl, rfl, rfl, rfl, rfl⟩

end Sys2Proof.Machine
end

