-- ==== Sys2Proof/Laws/MemRead.lean ====
section
/-! SUPPORT. The memory read (rules R226 to R228): appending a payload, one chunk as a run of moves, and what a chunk leaves. -/

namespace Sys2Proof.Machine

variable {s t : State}

/-! ## Appending a payload (R228) -/

theorem toNat_add_one {w : Word} (h : w.toNat < 0xFFFFFFFF) : (w + 1).toNat = w.toNat + 1 := by
  rw [BitVec.toNat_add]
  show (w.toNat + 1) % 4294967296 = _
  omega

theorem State.appendByte_room {b : Byte} (h : s.memlen.toNat < s.cfg.membufBytes) : s.appendByte b =
    { s with mem := Memory.write s.mem (memBase + s.memlen.toNat) b, memlen := s.memlen + 1 } := if_pos h

theorem State.appendByte_full {b : Byte} (h : ¬ s.memlen.toNat < s.cfg.membufBytes) : s.appendByte b =
    { s with status := { s.status with memTrunc := true } } := if_neg h

/-- Appending in one go: the bytes that fit are stored, counted, and MEM_TRUNC says whether some did not fit. -/
theorem State.appendBytes_eq (bytes : List Byte) : ∀ s : State, s.cfg.membufBytes ≤ 0xF000 →
    s.memlen.toNat ≤ s.cfg.membufBytes → s.appendBytes bytes = { s with
      mem := Memory.writeFrom s.mem (memBase + s.memlen.toNat) (bytes.take (s.cfg.membufBytes - s.memlen.toNat))
      memlen := BitVec.ofNat 32 (min (s.memlen.toNat + bytes.length) s.cfg.membufBytes)
      status := { s.status with
        memTrunc := s.status.memTrunc || decide (s.cfg.membufBytes < s.memlen.toNat + bytes.length) } } := by
  induction bytes with
  | nil =>
    intro s _ hl
    have h1 : decide (s.cfg.membufBytes < s.memlen.toNat + ([] : List Byte).length) = false := by
      simpa using hl
    have h2 : BitVec.ofNat 32 (min (s.memlen.toNat + ([] : List Byte).length) s.cfg.membufBytes) = s.memlen := by
      rw [List.length_nil, Nat.add_zero, Nat.min_eq_left hl]
      exact BitVec.ofNat_toNat _ _
    rw [h1, h2, Bool.or_false, List.take_nil]
    rfl
  | cons b bs ih =>
    intro s hc hl
    show (s.appendByte b).appendBytes bs = _
    by_cases h : s.memlen.toNat < s.cfg.membufBytes
    · have hn : (s.memlen + 1).toNat = s.memlen.toNat + 1 := toNat_add_one (by omega)
      have ha := State.appendByte_room (b := b) h
      rw [ih (s.appendByte b) (by rw [ha]; exact hc)
        (by rw [ha]; show (s.memlen + 1).toNat ≤ s.cfg.membufBytes; omega), ha]
      have hk : s.cfg.membufBytes - s.memlen.toNat = (s.cfg.membufBytes - (s.memlen.toNat + 1)) + 1 := by omega
      simp only [hn, hk, List.take_succ_cons, Memory.writeFrom, List.length_cons,
        show s.memlen.toNat + 1 + bs.length = s.memlen.toNat + (bs.length + 1) by omega, Nat.add_assoc]
    · have ha := State.appendByte_full (b := b) h
      have hk : s.cfg.membufBytes - s.memlen.toNat = 0 := by omega
      have h1 : decide (s.cfg.membufBytes < s.memlen.toNat + (b :: bs).length) = true :=
        decide_eq_true (by rw [List.length_cons]; omega)
      have h2 : min (s.memlen.toNat + (b :: bs).length) s.cfg.membufBytes =
          min (s.memlen.toNat + bs.length) s.cfg.membufBytes := by rw [List.length_cons]; omega
      rw [ih (s.appendByte b) (by rw [ha]; exact hc) (by rw [ha]; exact hl), ha, h1, h2, hk, Bool.or_true]
      simp only [List.take_zero, Bool.true_or]

theorem State.appendBytes_goto (bytes : List Byte) (c : Instr) (ops : List Op) : ∀ s : State,
    (s.goto c ops).appendBytes bytes = (s.appendBytes bytes).goto c ops := by
  induction bytes with
  | nil => exact fun _ => rfl
  | cons b bs ih =>
    intro s
    show ((s.goto c ops).appendByte b).appendBytes bs = ((s.appendByte b).appendBytes bs).goto c ops
    have h : (s.goto c ops).appendByte b = (s.appendByte b).goto c ops := by
      by_cases h : s.memlen.toNat < s.cfg.membufBytes
      · rw [State.appendByte_room h, State.appendByte_room (s := s.goto c ops) h]; rfl
      · rw [State.appendByte_full h, State.appendByte_full (s := s.goto c ops) h]; rfl
    rw [h, ih]

theorem min_memlen_toNat (a : Nat) {c : Nat} (hc : c ≤ 0xF000) : (BitVec.ofNat 32 (min a c)).toNat = min a c := by
  rw [BitVec.toNat_ofNat]; omega

/-! ## What a part of a memory read does (R226) -/

/-- From `s` to `t`, with these events, `data` was appended to `MEMBUF` and `n` blocks counted; `r` is what the line still
has to answer. -/
structure State.ReadsOn (s t : State) (data : List Byte) (n : Nat) (es : List Event) (r : List Byte) : Prop where
  same : t.cfg = s.cfg ∧ t.cmd = s.cmd ∧ t.arg0 = s.arg0 ∧ t.result = s.result ∧ t.errinfo = s.errinfo ∧
    t.hostReads = s.hostReads ∧ t.txMark = s.txMark ∧ t.memMark = s.memMark
  hidden : t.kwPos = s.kwPos ∧ t.kwElapsed = s.kwElapsed ∧ t.lineMode = s.lineMode ∧ t.attempt = s.attempt ∧
    t.idIndex = s.idIndex
  counter : t.session.counter = s.session.counter + BitVec.ofNat 8 n
  session : t.session.gen = s.session.gen ∧ t.session.baud = s.session.baud
  memlen : t.memlen.toNat = min (s.memlen.toNat + data.length) s.cfg.membufBytes
  older : ∀ i < s.memlen.toNat, t.membufByte i = s.membufByte i
  newer : ∀ i, s.memlen.toNat ≤ i → i < t.memlen.toNat → t.membufByte i = data.getD (i - s.memlen.toNat) 0
  status : t.status = { s.status with
    memTrunc := s.status.memTrunc || decide (s.cfg.membufBytes < s.memlen.toNat + data.length) }
  windows : ∀ a, (a < txBase ∨ txBase + 7 ≤ a) → (a < rxBase ∨ rxBase + windowBytes ≤ a) →
    (a < memBase ∨ memBase + s.cfg.membufBytes ≤ a) → t.windowByte a = s.windowByte a
  history : t.history = es.reverse ++ s.history
  inputs : t.inputs = elapse es.length s.inputs
  line : t.line = { s.line with rx := r }

theorem State.ReadsOn.refl (h : s.memlen.toNat ≤ s.cfg.membufBytes) : s.ReadsOn s [] 0 [] s.line.rx where
  same := ⟨rfl, rfl, rfl, rfl, rfl, rfl, rfl, rfl⟩
  hidden := ⟨rfl, rfl, rfl, rfl, rfl⟩
  counter := (BitVec.add_zero _).symm
  session := ⟨rfl, rfl⟩
  memlen := by rw [List.length_nil, Nat.add_zero, Nat.min_eq_left h]
  older := fun _ _ => rfl
  newer := fun i h1 h2 => absurd h2 (by omega)
  status := by
    rw [decide_eq_false (by rw [List.length_nil]; omega), Bool.or_false]
  windows := fun _ _ _ _ => rfl
  history := rfl
  inputs := (elapse_zero _).symm
  line := rfl

theorem State.ReadsOn.trans {u : State} {d d' : List Byte} {n n' : Nat} {es es' : List Event} {r r' : List Byte}
    (hl : s.memlen.toNat ≤ s.cfg.membufBytes) (h : s.ReadsOn t d n es r) (h' : t.ReadsOn u d' n' es' r') :
    s.ReadsOn u (d ++ d') (n + n') (es ++ es') r' := by
  obtain ⟨c1, c2, c3, c4, c5, c6, c7, c8⟩ := h.same
  obtain ⟨e1, e2, e3, e4, e5, e6, e7, e8⟩ := h'.same
  obtain ⟨f1, f2, f3, f4, f5⟩ := h.hidden
  obtain ⟨g1, g2, g3, g4, g5⟩ := h'.hidden
  have hm := h.memlen
  have hm' := h'.memlen
  rw [c1] at hm'
  have hmm : u.memlen.toNat = min (s.memlen.toNat + (d ++ d').length) s.cfg.membufBytes := by
    rw [List.length_append]; omega
  constructor
  · exact ⟨e1.trans c1, e2.trans c2, e3.trans c3, e4.trans c4, e5.trans c5, e6.trans c6, e7.trans c7, e8.trans c8⟩
  · exact ⟨g1.trans f1, g2.trans f2, g3.trans f3, g4.trans f4, g5.trans f5⟩
  · rw [h'.counter, h.counter, BitVec.add_assoc]
    congr 1
    apply BitVec.eq_of_toNat_eq
    simp
  · exact ⟨h'.session.1.trans h.session.1, h'.session.2.trans h.session.2⟩
  · exact hmm
  · intro i hi
    by_cases ht : i < t.memlen.toNat
    · rw [h'.older i ht, h.older i hi]
    · omega
  · intro i h1 h2
    by_cases ht : i < t.memlen.toNat
    · rw [h'.older i ht, h.newer i h1 ht]
      rw [List.getD_append _ _ _ _ (by omega)]
    · rw [h'.newer i (by omega) h2]
      have hd : t.memlen.toNat = s.memlen.toNat + d.length := by omega
      rw [List.getD_append_right _ _ _ _ (by omega), hd, Nat.sub_add_eq]
  · have hb : (s.status.memTrunc || decide (s.cfg.membufBytes < s.memlen.toNat + d.length) ||
        decide (s.cfg.membufBytes < t.memlen.toNat + d'.length)) =
        (s.status.memTrunc || decide (s.cfg.membufBytes < s.memlen.toNat + (d ++ d').length)) := by
      rw [Bool.or_assoc, ← Bool.decide_or]
      congr 1
      apply decide_eq_decide.2
      rw [List.length_append]
      omega
    rw [h'.status, h.status, c1]
    simp only [hb]
  · intro a h1 h2 h3
    rw [h'.windows a h1 h2 (by rw [c1]; exact h3), h.windows a h1 h2 h3]
  · rw [h'.history, h.history, List.reverse_append, List.append_assoc]
  · rw [h'.inputs, h.inputs, elapse_elapse, List.length_append]
  · rw [h'.line, h.line]

/-- An exchange whose request has at most 7 bytes is such a part; it appends nothing. -/
theorem State.exchanged_readsOn {title : Byte} {payload r : List Byte} {b : Block} (hp : payload.length ≤ 3)
    (hb : b.2.length < 256) (hl : s.memlen.toNat ≤ s.cfg.membufBytes) (hc : b.2.head? = some (s.session.counter + 2)) :
    s.ReadsOn (s.exchanged title payload b r) [] 2
      ((block (s.session.counter + 1) title payload).eventsSent s.cfg ++ b.eventsHeard s.cfg) r := by
  have he := State.exchanged_eq (s := s) (title := title) (b := b) (r := r) (payload := payload) (by omega)
  have hw := fun a => State.exchanged_windowByte (s := s) (title := title) (payload := payload) (b := b) (r := r)
    (by omega) hb (a := a)
  have hread : ∀ i, Memory.read (s.exchanged title payload b r).mem (memBase + i) = Memory.read s.mem (memBase + i) := by
    intro i
    show Memory.read ((s.requested title payload (b.answersHeard ++ r)).heard b.1 b.2 r).mem _ = _
    rw [State.heard_read_elsewhere hb (.inr (by simp only [rxBase, memBase, windowBytes]; omega)),
      State.requested_read (by omega), if_neg (by simp only [txBase, memBase]; omega)]
  generalize s.exchanged title payload b r = u at he hw hread ⊢
  generalize u.mem = m at he hread
  subst he
  constructor
  · exact ⟨rfl, rfl, rfl, rfl, rfl, rfl, rfl, rfl⟩
  · exact ⟨rfl, rfl, rfl, rfl, rfl⟩
  · show (s.session.sent.heard b.2).counter = _
    cases hbody : b.2 with
    | nil => rw [hbody] at hc; cases hc
    | cons x xs => rw [hbody] at hc; exact Option.some.inj hc
  · show (s.session.sent.heard b.2).gen = _ ∧ (s.session.sent.heard b.2).baud = _
    cases b.2 <;> exact ⟨rfl, rfl⟩
  · show s.memlen.toNat = _
    rw [List.length_nil, Nat.add_zero, Nat.min_eq_left hl]
  · intro i hi
    unfold State.membufByte
    rw [hread]
  · exact fun i h1 h2 => absurd h2 (by show ¬ i < s.memlen.toNat; omega)
  · show s.status = _
    rw [decide_eq_false (by rw [List.length_nil]; omega), Bool.or_false]
  · intro a h1 h2 _
    exact hw a (by omega) h2
  · rfl
  · rfl
  · rfl

/-- Appending a payload is such a part. -/
theorem State.appendBytes_readsOn {payload : List Byte} (hc : s.cfg.membufBytes ≤ 0xF000)
    (hl : s.memlen.toNat ≤ s.cfg.membufBytes) : s.ReadsOn (s.appendBytes payload) payload 0 [] s.line.rx := by
  have he := State.appendBytes_eq payload s hc hl
  have hread : ∀ a, Memory.read (s.appendBytes payload).mem a =
      if memBase + s.memlen.toNat ≤ a ∧ a < memBase + s.memlen.toNat +
        min (s.cfg.membufBytes - s.memlen.toNat) payload.length then payload[a - (memBase + s.memlen.toNat)]?
      else Memory.read s.mem a := by
    intro a
    rw [he]
    show Memory.read (Memory.writeFrom _ _ _) a = _
    rw [Memory.read_writeFrom, List.length_take]
    by_cases h : memBase + s.memlen.toNat ≤ a ∧ a < memBase + s.memlen.toNat +
        min (s.cfg.membufBytes - s.memlen.toNat) payload.length
    · rw [if_pos h, if_pos h, List.getElem?_take, if_pos (by omega)]
    · rw [if_neg h, if_neg h]
  have hm : (s.appendBytes payload).memlen.toNat = min (s.memlen.toNat + payload.length) s.cfg.membufBytes := by
    rw [he]; exact min_memlen_toNat _ hc
  generalize s.appendBytes payload = u at he hread hm ⊢
  have hmk : u.memMark = s.memMark := by rw [he]
  constructor
  · rw [he]; exact ⟨rfl, rfl, rfl, rfl, rfl, rfl, rfl, rfl⟩
  · rw [he]; exact ⟨rfl, rfl, rfl, rfl, rfl⟩
  · rw [he]; exact (BitVec.add_zero _).symm
  · rw [he]; exact ⟨rfl, rfl⟩
  · exact hm
  · intro i hi
    unfold State.membufByte
    rw [hmk, hread, if_neg (by omega)]
  · intro i h1 h2
    apply State.membufByte_of_read
    rw [hread, if_pos (by omega), show memBase + i - (memBase + s.memlen.toNat) = i - s.memlen.toNat by omega,
      List.getD_eq_getElem?_getD, List.getElem?_eq_getElem (by omega)]
    rfl
  · rw [he]
  · intro a _ _ h3
    exact State.windowByte_congr (by rw [he]) (by rw [he]) (by rw [he]) hmk (by rw [hread, if_neg (by omega)])
  · rw [he]; rfl
  · rw [he]; exact (elapse_zero _).symm
  · rw [he]

/-! ## One chunk (R226) -/

theorem State.ReadsOn.chunks {d : List Byte} {n : Nat} {es : List Event} {r : List Byte} (h : s.ReadsOn t d n es r)
    (a : Half) (w : Word) : s.ReadsOn { t with chunkAddr := a, chunkLeft := w } d n es r :=
  ⟨h.same, h.hidden, h.counter, h.session, h.memlen, h.older, h.newer, h.status, h.windows, h.history, h.inputs, h.line⟩

theorem block_length_toNat {counter title : Byte} {payload : List Byte} (hp : payload.length + 4 ≤ 256) :
    (block counter title payload).1.toNat = payload.length + 3 := by
  show (BitVec.ofNat 8 (payload.length + 3)).toNat = _
  rw [BitVec.toNat_ofNat]; omega

theorem block_body_length {counter title : Byte} {payload : List Byte} :
    (block counter title payload).2.length = payload.length + 3 := by simp [block]

/-- A block of the module with the next counter is accepted after a request. -/
theorem State.acceptsAfterSend_block {title : Byte} {payload : List Byte} (hp : payload.length + 4 ≤ 256)
    (hf : payload.length + 4 ≤ s.cfg.maxBlock) : s.AcceptsAfterSend (block (s.session.counter + 2) title payload) := by
  refine ⟨?_, ?_, .inr ?_⟩
  · rw [block_length_toNat hp, block_body_length]
  · rw [block_length_toNat hp]; omega
  · show s.session.counter + 2 = s.session.counter + 1 + 1
    rw [BitVec.add_assoc]; rfl

theorem getD_block_title (counter title : Byte) (payload : List Byte) :
    (block counter title payload).bytes.getD 2 0 = title := rfl

/-- The payload of a block that was received (R98). -/
theorem State.exchanged_payload {title title' : Byte} {request payload r : List Byte} {k : Byte}
    (hp : payload.length + 4 ≤ 256) : (s.exchanged title request (block k title' payload) r).payload = payload := by
  have hb : (block k title' payload).2.length < 256 := by rw [block_body_length]; omega
  have h0 : (s.exchanged title request (block k title' payload) r).rxByte 0 = (block k title' payload).1 :=
    State.exchanged_rxByte hb (by simp [Block.bytes])
  unfold State.payload
  rw [h0, block_length_toNat hp, Nat.add_sub_cancel]
  apply List.ext_getElem (by simp)
  intro i h1 h2
  simp only [List.getElem_map, List.getElem_range]
  rw [State.exchanged_rxByte hb (by rw [length_block_bytes]; omega), List.getD_eq_getElem?_getD, getElem?_block_bytes,
    if_neg (by omega), if_neg (by omega), if_neg (by omega), if_pos (by omega), Nat.add_sub_cancel_left,
    List.getElem?_eq_getElem h2]
  rfl

theorem RunsIn.checkTitle {c : Instr} {rest : List Op} {title : Byte} (h : s.rxByte 2 = title) :
    RunsIn 1 (s.goto c (.checkTitle title :: rest)) (s.goto c rest) := RunsIn.silent rfl (if_pos h)

/-- A request of at most 7 bytes, and a response with the title expected, on a correct line. -/
theorem RunsIn.exchangeExpect {c : Instr} {rest : List Op} {title title' : Byte} {req payload r : List Byte}
    (hq : req.length ≤ 3) (hm : s.cfg.maxBlock ≤ 256) (hf : payload.length + 4 ≤ s.cfg.maxBlock)
    (hl : s.memlen.toNat ≤ s.cfg.membufBytes)
    (hu : s.undisturbed ((block (s.session.counter + 1) title req).eventsSent s.cfg ++
      (block (s.session.counter + 2) title' payload).eventsHeard s.cfg).length)
    (hrx : s.line.rx = (block (s.session.counter + 1) title req).answersSent ++
      (block (s.session.counter + 2) title' payload).answersHeard ++ r) :
    ∃ n t, n ≤ 6 * payload.length + 63 ∧
      RunsIn n (s.goto c (.fillTx (requestBlock title req) :: .sendBlock :: .recvBlock :: .checkTitle title' :: rest))
        (t.goto c rest) ∧
      s.ReadsOn t [] 2 ((block (s.session.counter + 1) title req).eventsSent s.cfg ++
        (block (s.session.counter + 2) title' payload).eventsHeard s.cfg) r ∧
      t.payload = payload ∧ t.chunkAddr = s.chunkAddr ∧ t.chunkLeft = s.chunkLeft := by
  have hp : payload.length + 4 ≤ 256 := by omega
  have hb : (block (s.session.counter + 2) title' payload).2.length < 256 := by rw [block_body_length]; omega
  obtain ⟨n, hn, h1⟩ := RunsIn.exchange (c := c) (title := title) (payload := req) (r := r)
    (rest := .checkTitle title' :: rest) (by omega) (State.acceptsAfterSend_block hp hf) hu hrx
  rw [block_body_length] at hn
  have h2 := RunsIn.checkTitle (c := c) (title := title') (rest := rest)
    (s := s.exchanged title req (block (s.session.counter + 2) title' payload) r)
    (State.exchanged_rxByte hb (by rw [length_block_bytes]; omega))
  have he := State.exchanged_eq (s := s) (title := title) (b := block (s.session.counter + 2) title' payload) (r := r)
    (payload := req) (by omega)
  exact ⟨n + 1, _, by omega, h1.trans h2, State.exchanged_readsOn hq hb hl rfl, State.exchanged_payload hp,
    by rw [he], by rw [he]⟩

/-- The request of the next chunk. -/
def State.nextRequest (s : State) (kind : MemKind) : Block :=
  block (s.session.counter + 1) (requestTitle s.cfg kind)
    [(chunkSize s.cfg s.chunkLeft).setWidth 8, hiByte s.chunkAddr, loByte s.chunkAddr]

/-- The events of a chunk whose response carries `payload`. -/
def State.chunkEvents (s : State) (kind : MemKind) (payload : List Byte) : List Event :=
  ((s.nextRequest kind).eventsSent s.cfg ++ (block (s.session.counter + 2) (responseTitle s.cfg kind) payload).eventsHeard s.cfg) ++
    ((ackBlock s.cfg (s.session.counter + 3)).eventsSent s.cfg ++ (ackBlock s.cfg (s.session.counter + 4)).eventsHeard s.cfg)

/-- What a correct line answers during that chunk. -/
def State.chunkAnswers (s : State) (kind : MemKind) (payload : List Byte) : List Byte :=
  (s.nextRequest kind).answersSent ++ (block (s.session.counter + 2) (responseTitle s.cfg kind) payload).answersHeard ++
    ((ackBlock s.cfg (s.session.counter + 3)).answersSent ++ (ackBlock s.cfg (s.session.counter + 4)).answersHeard)

/-- The loop body of `mem_read` on a correct line. -/
theorem RunsIn.chunk {c : Instr} {rest : List Op} {kind : MemKind} {payload r : List Byte}
    (hc : s.cfg.membufBytes ≤ 0xF000) (hm : s.cfg.maxBlock ≤ 256) (hf : payload.length + 4 ≤ s.cfg.maxBlock)
    (hl : s.memlen.toNat ≤ s.cfg.membufBytes) (hne : s.chunkLeft ≠ 0)
    (hu : s.undisturbed (s.chunkEvents kind payload).length) (hrx : s.line.rx = s.chunkAnswers kind payload ++ r) :
    ∃ n t, n ≤ 6 * payload.length + 129 ∧
      RunsIn n (s.goto c (.memLoop kind :: rest)) (t.goto c (.memLoop kind :: rest)) ∧
      s.ReadsOn t payload 4 (s.chunkEvents kind payload) r ∧
      t.chunkAddr = s.chunkAddr + (chunkSize s.cfg s.chunkLeft).setWidth 16 ∧
      t.chunkLeft = s.chunkLeft - chunkSize s.cfg s.chunkLeft := by
  have h0 : RunsIn 1 (s.goto c (.memLoop kind :: rest))
      (s.goto c (.fillTx (requestBlock (requestTitle s.cfg kind)
          [(chunkSize s.cfg s.chunkLeft).setWidth 8, hiByte s.chunkAddr, loByte s.chunkAddr]) :: .sendBlock :: .recvBlock ::
        .checkTitle (responseTitle s.cfg kind) :: .appendPayload :: .fillTx (requestBlock s.cfg.titleAck []) :: .sendBlock ::
        .recvBlock :: .checkTitle s.cfg.titleAck :: .memAdvance (chunkSize s.cfg s.chunkLeft) :: .memLoop kind :: rest)) :=
    RunsIn.silent rfl (if_neg hne)
  unfold State.chunkEvents State.nextRequest at hu ⊢
  rw [List.length_append] at hu
  unfold State.chunkAnswers State.nextRequest at hrx
  rw [List.append_assoc] at hrx
  obtain ⟨n1, u, hn1, h1, R1, hpay, ha, hw⟩ := RunsIn.exchangeExpect (c := c) (by simp) hm hf hl (hu.mono (by omega)) hrx
    (rest := .appendPayload :: .fillTx (requestBlock s.cfg.titleAck []) :: .sendBlock ::
        .recvBlock :: .checkTitle s.cfg.titleAck :: .memAdvance (chunkSize s.cfg s.chunkLeft) :: .memLoop kind :: rest)
  have hul : u.memlen.toNat ≤ u.cfg.membufBytes := by rw [R1.memlen, R1.same.1]; omega
  have huc : u.cfg.membufBytes ≤ 0xF000 := by rw [R1.same.1]; exact hc
  have R2 := State.appendBytes_readsOn (payload := payload) huc hul
  have h3 : RunsIn 1 (u.goto c (.appendPayload :: .fillTx (requestBlock s.cfg.titleAck []) :: .sendBlock ::
        .recvBlock :: .checkTitle s.cfg.titleAck :: .memAdvance (chunkSize s.cfg s.chunkLeft) :: .memLoop kind :: rest))
      ((u.appendBytes payload).goto c (.fillTx (requestBlock s.cfg.titleAck []) :: .sendBlock ::
        .recvBlock :: .checkTitle s.cfg.titleAck :: .memAdvance (chunkSize s.cfg s.chunkLeft) :: .memLoop kind :: rest)) :=
    RunsIn.silent rfl (by
      show (u.goto c _).appendBytes u.payload = _
      rw [State.appendBytes_goto, hpay])
  have R12 := R1.trans hl R2
  have he := State.appendBytes_eq payload u huc hul
  have ha2 : (u.appendBytes payload).chunkAddr = s.chunkAddr := by rw [he]; exact ha
  have hw2 : (u.appendBytes payload).chunkLeft = s.chunkLeft := by rw [he]; exact hw
  clear he
  generalize u.appendBytes payload = v at *
  rw [List.append_nil, List.nil_append] at R12
  have hvl : v.memlen.toNat ≤ v.cfg.membufBytes := by rw [R12.memlen, R12.same.1]; omega
  have hk1 : v.session.counter + 1 = s.session.counter + 3 := by
    rw [R12.counter, BitVec.add_assoc]; rfl
  have hk2 : v.session.counter + 2 = s.session.counter + 4 := by
    rw [R12.counter, BitVec.add_assoc]; rfl
  have hvrx : v.line.rx = (ackBlock s.cfg (s.session.counter + 3)).answersSent ++ (ackBlock s.cfg (s.session.counter + 4)).answersHeard ++ r := by
    rw [R12.line, R1.line]
  have huv : v.undisturbed ((ackBlock s.cfg (s.session.counter + 3)).eventsSent s.cfg ++ (ackBlock s.cfg (s.session.counter + 4)).eventsHeard s.cfg).length :=
    State.undisturbed.congr (State.undisturbed.past (r := s.line.rx) hu) R12.inputs
  obtain ⟨n2, w, hn2, h4, R3, -, ha3, hw3⟩ := RunsIn.exchangeExpect (s := v) (c := c) (title := s.cfg.titleAck) (title' := s.cfg.titleAck)
    (req := []) (payload := []) (r := r)
    (rest := .memAdvance (chunkSize s.cfg s.chunkLeft) :: .memLoop kind :: rest) (by simp) (by rw [R12.same.1]; exact hm)
    (by rw [R12.same.1]; simp; omega) hvl (by rw [hk1, hk2, R12.same.1]; exact huv) (by rw [hk1, hk2]; exact hvrx)
  rw [hk1, hk2, R12.same.1] at R3
  have R := (R12.trans hl R3).chunks (s.chunkAddr + (chunkSize s.cfg s.chunkLeft).setWidth 16) (s.chunkLeft - chunkSize s.cfg s.chunkLeft)
  rw [List.append_nil] at R
  have h5 : RunsIn 1 (w.goto c (.memAdvance (chunkSize s.cfg s.chunkLeft) :: .memLoop kind :: rest))
      (State.goto { w with
        chunkAddr := s.chunkAddr + (chunkSize s.cfg s.chunkLeft).setWidth 16
        chunkLeft := s.chunkLeft - chunkSize s.cfg s.chunkLeft } c (.memLoop kind :: rest)) :=
    RunsIn.silent rfl (by rw [← ha2, ← hw2, ← ha3, ← hw3]; rfl)
  exact ⟨1 + n1 + 1 + n2 + 1, _, by simp at hn2; omega, (((h0.trans h1).trans h3).trans h4).trans h5, R, rfl, rfl⟩

/-! ## The loop of `mem_read` (R226, R227) -/

theorem byte_add_ofNat (k : Byte) (m i : Nat) : k + BitVec.ofNat 8 m + BitVec.ofNat 8 i = k + BitVec.ofNat 8 (m + i) := by
  rw [BitVec.add_assoc]
  congr 1
  apply BitVec.eq_of_toNat_eq
  simp

theorem chunkSize_toNat {cfg : Config} (h32 : cfg.chunkMax = 32) (w : Word) : (chunkSize cfg w).toNat = min w.toNat 32 := by
  unfold chunkSize
  rw [h32]
  by_cases h : w ≤ 32
  · rw [if_pos h]
    have : w.toNat ≤ 32 := h
    omega
  · rw [if_neg h]
    have : ¬ w.toNat ≤ 32 := h
    show 32 = _
    omega

/-- The size of chunk `j`. -/
theorem chunkBytes_eq {size : Word} {j : Nat} (h : j < chunkCount size) :
    chunkBytes size j = min (size.toNat - 32 * j) 32 := by
  unfold chunkCount at h
  unfold chunkBytes
  split <;> omega

theorem State.nextRequest_eq {kind : MemKind} {start : Half} {size : Word} {k : Byte} {j : Nat}
    (h32 : s.cfg.chunkMax = 32) (hj : j < chunkCount size) (hleft : s.chunkLeft.toNat = size.toNat - 32 * j)
    (haddr : s.chunkAddr = chunkAddress start j) (hk : s.session.counter = k + BitVec.ofNat 8 (4 * j)) :
    s.nextRequest kind = chunkRequest s.cfg kind start size k j := by
  have hn : (chunkSize s.cfg s.chunkLeft).setWidth 8 = BitVec.ofNat 8 (chunkBytes size j) := by
    apply BitVec.eq_of_toNat_eq
    rw [BitVec.toNat_setWidth, chunkSize_toNat h32, BitVec.toNat_ofNat, chunkBytes_eq hj, hleft]
  unfold State.nextRequest chunkRequest
  rw [hn, haddr, hk, show (1 : Byte) = BitVec.ofNat 8 1 from rfl, byte_add_ofNat]

/-- `d` chunks of `mem_read` from chunk `j` on, on a correct line. -/
theorem RunsIn.memChunks {c : Instr} {rest : List Op} {kind : MemKind} {start : Half} {size : Word} {k : Byte}
    {payloads : List (List Byte)} {r : List Byte} (d : Nat) : ∀ (j : Nat) {s : State},
    s.cfg.chunkMax = 32 → s.cfg.membufBytes ≤ 0xF000 → s.cfg.maxBlock ≤ 256 → (∀ p ∈ payloads, p.length + 4 ≤ s.cfg.maxBlock) → 4 ≤ s.cfg.maxBlock →
    s.memlen.toNat ≤ s.cfg.membufBytes → j + d ≤ chunkCount size → s.chunkLeft.toNat = size.toNat - 32 * j →
    (j < chunkCount size → s.chunkAddr = chunkAddress start j) → s.session.counter = k + BitVec.ofNat 8 (4 * j) →
    let chunk := fun j => eventsOfChunk s.cfg kind start size k j (payloads.getD j [])
    let answers := fun j => answersOfChunk s.cfg kind start size k j (payloads.getD j [])
    let es := (List.range' j d).flatMap chunk
    let rx := (List.range' j d).flatMap answers
    s.undisturbed es.length → s.line.rx = rx ++ r →
    ∃ n t, n ≤ 32 * rx.length ∧ RunsIn n (s.goto c (.memLoop kind :: rest)) (t.goto c (.memLoop kind :: rest)) ∧
      s.ReadsOn t ((List.range' j d).flatMap (fun j => payloads.getD j [])) (4 * d) es r ∧
      t.chunkLeft.toNat = size.toNat - 32 * (j + d) ∧ (j + d < chunkCount size → t.chunkAddr = chunkAddress start (j + d)) := by
  induction d with
  | zero =>
    intro j s h32 hc hm hps h4 hl hj hleft haddr hk chunk answers es rx hu hrx
    have hr : s.line.rx = r := hrx
    exact ⟨0, s, Nat.zero_le _, RunsIn.refl _, hr ▸ State.ReadsOn.refl hl, hleft, haddr⟩
  | succ d ih =>
    intro j s h32 hc hm hps h4 hl hj hleft haddr hk chunk answers es rx hu hrx
    have hjc : j < chunkCount size := by omega
    have hp : (payloads.getD j []).length + 4 ≤ s.cfg.maxBlock := by
      by_cases h : j < payloads.length
      · rw [List.getD_eq_getElem _ _ h]; exact hps _ (List.getElem_mem h)
      · rw [List.getD_eq_default _ _ (by omega)]; simpa using h4
    have hreq := State.nextRequest_eq (s := s) (kind := kind) h32 hjc hleft (haddr hjc) hk
    have e2 : s.session.counter + 2 = k + BitVec.ofNat 8 (4 * j + 2) := by rw [hk]; exact byte_add_ofNat ..
    have e3 : s.session.counter + 3 = k + BitVec.ofNat 8 (4 * j + 3) := by rw [hk]; exact byte_add_ofNat ..
    have e4 : s.session.counter + 4 = k + BitVec.ofNat 8 (4 * j + 4) := by rw [hk]; exact byte_add_ofNat ..
    have hev : s.chunkEvents kind (payloads.getD j []) = chunk j := by
      unfold State.chunkEvents; rw [hreq, e2, e3, e4]; simp only [chunk, eventsOfChunk, chunkResponse, List.append_assoc]
    have han : s.chunkAnswers kind (payloads.getD j []) = answers j := by
      unfold State.chunkAnswers; rw [hreq, e2, e3, e4]; simp only [answers, answersOfChunk, chunkResponse, List.append_assoc]
    have hes : es = chunk j ++ (List.range' (j + 1) d).flatMap chunk := by
      simp only [es, List.range'_succ, List.flatMap_cons]
    have hrxs : rx = answers j ++ (List.range' (j + 1) d).flatMap answers := by
      simp only [rx, List.range'_succ, List.flatMap_cons]
    rw [hes, List.length_append] at hu
    rw [hrxs, List.append_assoc] at hrx
    have hne : s.chunkLeft ≠ 0 := by
      intro h
      rw [h] at hleft
      have h0 : (0 : Word).toNat = 0 := rfl
      unfold chunkCount at hjc
      omega
    obtain ⟨n1, t, hn1, h1, R1, ha, hw⟩ := RunsIn.chunk (c := c) (rest := rest) (kind := kind)
      (payload := payloads.getD j []) hc hm hp hl hne (by rw [hev]; exact hu.mono (by omega)) (by rw [han]; exact hrx)
    have hcfg := R1.same.1
    have hut : t.undisturbed ((List.range' (j + 1) d).flatMap chunk).length :=
      State.undisturbed.congr (State.undisturbed.past (r := s.line.rx) hu) (by rw [R1.inputs, hev]; rfl)
    have hst := chunkSize_toNat h32 s.chunkLeft
    obtain ⟨n2, v, hn2, h2, R2, hvl, hva⟩ := ih (j + 1) (s := t) (by rw [hcfg]; exact h32) (by rw [hcfg]; exact hc) (by rw [hcfg]; exact hm)
      (by rw [hcfg]; exact hps) (by rw [hcfg]; exact h4) (by rw [R1.memlen, hcfg]; omega) (by omega)
      (by rw [hw, BitVec.toNat_sub_of_le (by show _ ≤ s.chunkLeft.toNat; omega), hst, hleft]; omega)
      (by
        intro hd
        have hs32 : chunkSize s.cfg s.chunkLeft = 32 := by
          apply BitVec.eq_of_toNat_eq
          show (chunkSize s.cfg s.chunkLeft).toNat = 32
          unfold chunkCount at hd
          omega
        rw [ha, hs32, haddr hjc]
        unfold chunkAddress
        rw [BitVec.add_assoc]
        congr 1
        apply BitVec.eq_of_toNat_eq
        simp
        omega)
      (by rw [R1.counter, hk, byte_add_ofNat]; rfl)
      (by rw [hcfg]; exact hut) (by rw [hcfg, R1.line])
    rw [hcfg] at hn2 R2
    have R := R1.trans hl R2
    rw [hev] at R
    refine ⟨n1 + n2, v, ?_, h1.trans h2, ?_, by rw [hvl]; omega, fun h => by rw [hva (by omega)]; congr 1; omega⟩
    · rw [hrxs, List.length_append]
      have l1 := length_le_heardAnswers (chunkResponse s.cfg kind k j (payloads.getD j [])).1 (chunkResponse s.cfg kind k j (payloads.getD j [])).2
      have l2 : (chunkResponse s.cfg kind k j (payloads.getD j [])).2.length = (payloads.getD j []).length + 3 := block_body_length
      have l3 : (answers j).length ≥ (heardAnswers (chunkResponse s.cfg kind k j (payloads.getD j [])).1 (chunkResponse s.cfg kind k j (payloads.getD j [])).2).length := by
        simp only [answers, answersOfChunk, Block.answersHeard, List.length_append]; omega
      have hn2' : n2 ≤ 32 * ((List.range' (j + 1) d).flatMap answers).length := hn2
      omega
    · rw [hes, List.range'_succ, List.flatMap_cons, show 4 * (d + 1) = 4 + 4 * d by omega]
      exact R

/-- The first `d` chunks of `mem_read`, on a correct line. -/
theorem RunsIn.memFirst {c : Instr} {rest : List Op} {kind : MemKind} {start : Half} {size : Word}
    {payloads : List (List Byte)} {r : List Byte} {d : Nat} (hv : s.cfg.Valid) (hd : d ≤ chunkCount size)
    (hps : ∀ p ∈ payloads, p.length + 4 ≤ s.cfg.maxBlock)
    (hu : s.undisturbed (eventsOfChunks s.cfg kind start size s.session.counter payloads d).length)
    (hrx : s.line.rx = answersOfChunks s.cfg kind start size s.session.counter payloads d ++ r) :
    ∃ n t, n ≤ 32 * (answersOfChunks s.cfg kind start size s.session.counter payloads d).length + 1 ∧
      RunsIn n (s.goto c (.memRead kind start size :: rest)) (t.goto c (.memLoop kind :: rest)) ∧
      (s.startMemRead start size).ReadsOn t ((List.range d).flatMap (fun j => payloads.getD j [])) (4 * d)
        (eventsOfChunks s.cfg kind start size s.session.counter payloads d) r ∧
      t.chunkLeft.toNat = size.toNat - 32 * d ∧ (d < chunkCount size → t.chunkAddr = chunkAddress start d) := by
  have h0 : RunsIn 1 (s.goto c (.memRead kind start size :: rest))
      ((s.startMemRead start size).goto c (.memLoop kind :: rest)) := RunsIn.silent rfl rfl
  obtain ⟨n, t, hb, h1, R, hl, ha⟩ := RunsIn.memChunks (c := c) (rest := rest) (kind := kind) (start := start) (size := size)
    (k := s.session.counter) (payloads := payloads) (r := r) d 0 (s := s.startMemRead start size)
    hv.sourced.chunkMax hv.membuf_le hv.maxBlock_le hps (le_trans (by decide) hv.maxBlock_ge) (Nat.zero_le _) (by omega) rfl
    (fun _ => (BitVec.add_zero _).symm) (BitVec.add_zero _).symm (by rw [← List.range_eq_range']; exact hu) (by rw [← List.range_eq_range']; exact hrx)
  rw [← List.range_eq_range'] at hb R
  rw [Nat.zero_add] at hl ha
  have hb' : n ≤ 32 * (answersOfChunks s.cfg kind start size s.session.counter payloads d).length := hb
  exact ⟨1 + n, t, by omega, h0.trans h1, R, hl, ha⟩

/-- The payloads of as many chunks as there are. -/
theorem flatMap_payloads (payloads : List (List Byte)) :
    (List.range payloads.length).flatMap (fun j => payloads.getD j []) = payloads.flatten := by
  rw [List.flatMap_def]
  congr 1
  apply List.ext_getElem (by simp)
  intro i h1 h2
  simp only [List.getElem_map, List.getElem_range]
  rw [List.getD_eq_getElem _ _ h2]

/-- `mem_read` as a whole. -/
theorem RunsIn.memRead {c : Instr} {rest : List Op} {kind : MemKind} {start : Half} {size : Word}
    {payloads : List (List Byte)} {r : List Byte} (hv : s.cfg.Valid) (hn : payloads.length = chunkCount size)
    (hps : ∀ p ∈ payloads, p.length + 4 ≤ s.cfg.maxBlock)
    (hu : s.undisturbed (memEvents s.cfg kind start size s.session.counter payloads).length)
    (hrx : s.line.rx = memAnswers s.cfg kind start size s.session.counter payloads ++ r) :
    ∃ n t, n ≤ 32 * s.line.rx.length + 3 ∧ RunsIn n (s.goto c (.memRead kind start size :: rest)) (t.goto c rest) ∧
      (s.startMemRead start size).ReadsOn t payloads.flatten (4 * chunkCount size)
        (memEvents s.cfg kind start size s.session.counter payloads) r := by
  obtain ⟨n, t, hb, h1, R, hl, -⟩ := RunsIn.memFirst (c := c) (rest := rest) (kind := kind) (start := start) (size := size)
    (payloads := payloads) (r := r) (d := chunkCount size) hv le_rfl hps hu hrx
  have hflat := flatMap_payloads payloads
  rw [hn] at hflat
  rw [hflat] at R
  have h0 : t.chunkLeft = 0 := by
    apply BitVec.eq_of_toNat_eq
    show t.chunkLeft.toNat = 0
    unfold chunkCount at hl
    omega
  have h2 : RunsIn 1 (t.goto c (.memLoop kind :: rest)) (t.goto c rest) := RunsIn.silent rfl (if_pos h0)
  have hb' : n ≤ 32 * (memAnswers s.cfg kind start size s.session.counter payloads).length + 1 := hb
  refine ⟨n + 1, t, ?_, h1.trans h2, R⟩
  rw [hrx, List.length_append]
  omega

/-- Outside `MEMBUF`, its contents and mark do not matter. -/
theorem State.windowByte_outside_membuf (hc : t.cfg = s.cfg) (h1 : t.txMark = s.txMark) (h2 : t.rxMark = s.rxMark)
    {a : Nat} (ha : a < memBase ∨ memBase + s.cfg.membufBytes ≤ a) (h : Memory.read t.mem a = Memory.read s.mem a) :
    t.windowByte a = s.windowByte a := by
  have c4 : ¬(memBase ≤ a ∧ a < memBase + s.cfg.membufBytes) := by omega
  unfold State.windowByte State.txByte State.rxByte State.idByte
  rw [hc, h1, h2, if_neg c4, if_neg c4]
  by_cases c1 : txBase ≤ a ∧ a < txBase + windowBytes
  · rw [if_pos c1, if_pos c1, Nat.add_sub_cancel' c1.1, h]
  · rw [if_neg c1, if_neg c1]
    by_cases c2 : rxBase ≤ a ∧ a < rxBase + windowBytes
    · rw [if_pos c2, if_pos c2, Nat.add_sub_cancel' c2.1, h]
    · rw [if_neg c2, if_neg c2]
      by_cases c3 : idBase ≤ a ∧ a < idBase + idBytes
      · rw [if_pos c3, if_pos c3, Nat.add_sub_cancel' c3.1, h]
      · rw [if_neg c3, if_neg c3]

theorem State.startMemRead_windowByte {start : Half} {size : Word} {a : Nat}
    (ha : a < memBase ∨ memBase + s.cfg.membufBytes ≤ a) : (s.startMemRead start size).windowByte a = s.windowByte a :=
  State.windowByte_outside_membuf (State.startMemRead_cfg ..) (State.startMemRead_txMark ..)
    (State.startMemRead_rxMark ..) ha (by
      rw [State.startMemRead_mem, Memory.read_forget, if_neg (by omega)])

end Sys2Proof.Machine
end

