-- ==== Sys2Proof/Laws/Connect.lean ====
section
/-! SUPPORT. The connect sequence (rules R181 to R191): the keyword wait, the confirmation and the identity exchange on a correct line, as runs of moves, and what they leave. -/

namespace Sys2Proof.Machine

variable {s t : State}

/-! ## What a part of a connect sequence leaves alone (R192) -/

/-- From `s` to `t`, with these events, only `TXBUF[0..3]`, `RXBUF`, `ID`, the session, its state and the variables of the
sequence changed; `l` is what the line then is. -/
structure State.ConnectsOn (s t : State) (es : List Event) (l : Line) : Prop where
  kept : s.KeptByConnect t
  status : t.status = { s.status with state := t.status.state }
  errinfo : t.errinfo = s.errinfo
  session : t.session.gen = s.session.gen ∧ t.session.baud = s.session.baud
  marks : t.txMark = s.txMark ∧ t.memMark = s.memMark
  hidden : t.lineMode = s.lineMode ∧ t.attempt = s.attempt
  history : t.history = es.reverse ++ s.history
  inputs : t.inputs = elapse es.length s.inputs
  line : t.line = l

theorem State.KeptByConnect.refl (s : State) : s.KeptByConnect s :=
  ⟨rfl, ⟨rfl, rfl, rfl, rfl, rfl⟩, ⟨rfl, rfl⟩, fun _ _ _ _ => rfl⟩

theorem State.KeptByConnect.trans {u : State} (h : s.KeptByConnect t) (h' : t.KeptByConnect u) : s.KeptByConnect u := by
  obtain ⟨a1, a2, a3, a4, a5⟩ := h.registers
  obtain ⟨b1, b2, b3, b4, b5⟩ := h'.registers
  exact ⟨h'.cfg.trans h.cfg, ⟨b1.trans a1, b2.trans a2, b3.trans a3, b4.trans a4, b5.trans a5⟩,
    ⟨h'.chunks.1.trans h.chunks.1, h'.chunks.2.trans h.chunks.2⟩,
    fun a x y z => (h'.windows a x y z).trans (h.windows a x y z)⟩

theorem State.ConnectsOn.trans {u : State} {es es' : List Event} {l l' : Line} (h : s.ConnectsOn t es l)
    (h' : t.ConnectsOn u es' l') : s.ConnectsOn u (es ++ es') l' where
  kept := h.kept.trans h'.kept
  status := by rw [h'.status, h.status]
  errinfo := h'.errinfo.trans h.errinfo
  session := ⟨h'.session.1.trans h.session.1, h'.session.2.trans h.session.2⟩
  marks := ⟨h'.marks.1.trans h.marks.1, h'.marks.2.trans h.marks.2⟩
  hidden := ⟨h'.hidden.1.trans h.hidden.1, h'.hidden.2.trans h.hidden.2⟩
  history := by rw [h'.history, h.history, List.reverse_append, List.append_assoc]
  inputs := by rw [h'.inputs, h.inputs, elapse_elapse, List.length_append]
  line := h'.line

theorem State.past_connectsOn (es : List Event) (r : List Byte) :
    s.ConnectsOn (s.past es r) es { s.line with rx := r } :=
  ⟨⟨rfl, ⟨rfl, rfl, rfl, rfl, rfl⟩, ⟨rfl, rfl⟩, fun _ _ _ _ => rfl⟩, rfl, rfl, ⟨rfl, rfl⟩, ⟨rfl, rfl⟩, ⟨rfl, rfl⟩, rfl, rfl, rfl⟩

/-- The reception of a block is such a part. -/
theorem State.heard_connectsOn {b : Block} {r : List Byte} (hb : b.2.length < 256) :
    s.ConnectsOn (s.heard b.1 b.2 r) (b.eventsHeard s.cfg) { s.line with rx := r } := by
  constructor
  · exact ⟨State.heard_cfg .., ⟨State.heard_arg0 .., State.heard_cmd .., State.heard_result .., State.heard_memlen ..,
      State.heard_hostReads ..⟩, ⟨State.heard_chunkAddr .., State.heard_chunkLeft ..⟩,
      fun a _ h2 _ => State.heard_windowByte_elsewhere hb h2⟩
  · simp only [State.heard]
  · simp only [State.heard]
  · rw [State.heard_session]; cases b.2 <;> exact ⟨rfl, rfl⟩
  · exact ⟨State.heard_txMark .., State.heard_memMark ..⟩
  · exact ⟨State.heard_lineMode .., State.heard_attempt ..⟩
  · simp only [State.heard, Block.eventsHeard]
  · simp only [State.heard, Block.eventsHeard]
  · simp only [State.heard]

/-- The sending of an ACK is such a part. -/
theorem State.requested_connectsOn {r : List Byte} :
    s.ConnectsOn (s.requested s.cfg.titleAck [] r) ((ackBlock s.cfg (s.session.counter + 1)).eventsSent s.cfg) { s.line with rx := r } := by
  have hr := fun a => State.requested_read (s := s) (title := s.cfg.titleAck) (payload := []) (r := r) (by simp) a
  have he := State.requested_eq (s := s) (title := s.cfg.titleAck) (payload := []) (r := r) (by simp)
  have hw : ∀ a, (a < txBase ∨ txBase + 4 ≤ a) → (s.requested s.cfg.titleAck [] r).windowByte a = s.windowByte a := fun a h =>
    State.windowByte_congr (by rw [he]) (by rw [he]) (by rw [he]) (by rw [he]) (by
      rw [hr a, if_neg (by simp only [List.length_nil]; omega)])
  generalize s.requested s.cfg.titleAck [] r = u at he hw ⊢
  generalize u.mem = m at he
  subst he
  exact ⟨⟨rfl, ⟨rfl, rfl, rfl, rfl, rfl⟩, ⟨rfl, rfl⟩, fun a h1 _ _ => hw a h1⟩, rfl, rfl, ⟨rfl, rfl⟩, ⟨rfl, rfl⟩,
    ⟨rfl, rfl⟩, rfl, rfl, rfl⟩

/-! ## The identity exchange (R190) -/

/-- Outside `ID`, its contents do not matter. -/
theorem State.copyId_windowByte (j : Nat) (hl : s.cfg.idLen = 12) (hj : j < 3) {a : Nat}
    (ha : a < idBase ∨ idBase + idBytes ≤ a) : (s.copyId j).windowByte a = s.windowByte a :=
  State.windowByte_congr (by simp only [State.copyId]) (by simp only [State.copyId]) (by simp only [State.copyId])
    (by simp only [State.copyId]) (by
      simp only [State.copyId]
      rw [Memory.read_writeFrom, if_neg]
      simp only [List.length_map, List.length_range, idBytes, hl] at *
      omega)

theorem State.copyId_idByte (j i : Nat) (hl : s.cfg.idLen = 12) : (s.copyId j).idByte i =
    if 12 * j ≤ i ∧ i < 12 * j + 12 then s.rxByte (3 + (i - 12 * j)) else s.idByte i := by
  unfold State.idByte
  simp only [State.copyId, hl]
  rw [Memory.read_writeFrom, List.length_map, List.length_range]
  by_cases h : 12 * j ≤ i ∧ i < 12 * j + 12
  · rw [if_pos h, if_pos (by omega), List.getElem?_map, List.getElem?_range (by omega)]
    show s.rxByte _ = _
    congr 1
    omega
  · rw [if_neg h, if_neg (by omega)]

theorem State.copyId_connectsOn (j : Nat) (hl : s.cfg.idLen = 12) (hj : j < 3) : s.ConnectsOn (s.copyId j) [] s.line := by
  constructor
  · exact ⟨rfl, ⟨rfl, rfl, rfl, rfl, rfl⟩, ⟨rfl, rfl⟩, fun a _ _ h3 => State.copyId_windowByte j hl hj h3⟩
  all_goals simp [State.copyId, elapse_zero]

/-- An identification block is received, checked, copied and acknowledged. -/
theorem RunsIn.identityBlock {c : Instr} {rest : List Op} {payload r : List Byte} {k : Byte} (hv : s.cfg.Valid)
    (hp : payload.length + 4 ≤ s.cfg.maxBlock) (hk : s.session.firstSeen = false ∨ k = s.session.counter + 1)
    (hu : s.undisturbed ((block k s.cfg.titleAscii payload).eventsHeard s.cfg ++ (ackBlock s.cfg (k + 1)).eventsSent s.cfg).length)
    (hrx : s.line.rx = (block k s.cfg.titleAscii payload).answersHeard ++ ((ackBlock s.cfg (k + 1)).answersSent ++ r)) :
    ∃ n t, n ≤ 6 * payload.length + 50 ∧
      RunsIn n (s.goto c (.recvBlock :: .identityCheck :: rest)) (t.goto c (.identityNext :: rest)) ∧
      s.ConnectsOn t ((block k s.cfg.titleAscii payload).eventsHeard s.cfg ++ (ackBlock s.cfg (k + 1)).eventsSent s.cfg)
        { s.line with rx := r } ∧
      t.idIndex = s.idIndex ∧ t.session.counter = k + 1 ∧ t.session.firstSeen = true ∧ t.status = s.status ∧
      (∀ i, (i < 12 * s.idIndex.val ∨ 12 * (s.idIndex.val + 1) ≤ i) → t.idByte i = s.idByte i) ∧
      (∀ i < 12, i ≤ payload.length → s.idIndex.val < 3 →
        t.idByte (12 * s.idIndex.val + i) = (payload ++ [terminator]).getD i 0) ∧
      (∀ i < 4, t.txByte i = (ackBlock s.cfg (k + 1)).bytes.getD i 0) := by
  have hm := hv.maxBlock_le
  have hp' : payload.length + 4 ≤ 256 := by omega
  have hb : (block k s.cfg.titleAscii payload).2.length < 256 := by rw [block_body_length]; omega
  rw [List.length_append] at hu
  have hh : s.Hears (block k s.cfg.titleAscii payload).1 (block k s.cfg.titleAscii payload).2 :=
    ⟨by rw [block_length_toNat hp', block_body_length], by rw [block_length_toNat hp']; omega, hk⟩
  obtain ⟨n, hn, h1⟩ := RunsIn.recvBlock (c := c) (rest := .identityCheck :: rest) hh (hu.mono (by exact Nat.le_add_right _ _)) hrx
  have R1 := State.heard_connectsOn (s := s) (b := block k s.cfg.titleAscii payload) (r := (ackBlock s.cfg (k + 1)).answersSent ++ r) hb
  have ht : (s.heard (block k s.cfg.titleAscii payload).1 (block k s.cfg.titleAscii payload).2
      ((ackBlock s.cfg (k + 1)).answersSent ++ r)).rxByte 2 = s.cfg.titleAscii :=
    State.heard_rxByte hb (by rw [block_body_length]; omega)
  have hpay : ∀ i ≤ payload.length, (s.heard (block k s.cfg.titleAscii payload).1 (block k s.cfg.titleAscii payload).2
      ((ackBlock s.cfg (k + 1)).answersSent ++ r)).rxByte (3 + i) = (payload ++ [terminator]).getD i 0 := by
    intro i hi
    refine (State.heard_rxByte hb (by rw [block_body_length]; omega)).trans ?_
    rw [Nat.add_comm]
    rfl
  have hid : (s.heard (block k s.cfg.titleAscii payload).1 (block k s.cfg.titleAscii payload).2
      ((ackBlock s.cfg (k + 1)).answersSent ++ r)).idIndex = s.idIndex := State.heard_idIndex ..
  have hids : ∀ i, (s.heard (block k s.cfg.titleAscii payload).1 (block k s.cfg.titleAscii payload).2
      ((ackBlock s.cfg (k + 1)).answersSent ++ r)).idByte i = s.idByte i := by
    intro i
    unfold State.idByte
    rw [State.heard_read_elsewhere hb (.inr (by simp only [rxBase, idBase, windowBytes]; omega))]
  have hst : (s.heard (block k s.cfg.titleAscii payload).1 (block k s.cfg.titleAscii payload).2
      ((ackBlock s.cfg (k + 1)).answersSent ++ r)).status = s.status := State.heard_status ..
  have hse : (s.heard (block k s.cfg.titleAscii payload).1 (block k s.cfg.titleAscii payload).2
      ((ackBlock s.cfg (k + 1)).answersSent ++ r)).session = { s.session with counter := k, firstSeen := true } := State.heard_session ..
  generalize s.heard (block k s.cfg.titleAscii payload).1 (block k s.cfg.titleAscii payload).2
      ((ackBlock s.cfg (k + 1)).answersSent ++ r) = u at *
  -- the check and the copy
  obtain ⟨v, h2, R2, hvid, hvses, hvst, hvold, hvnew⟩ : ∃ v : State,
      RunsIn 1 (u.goto c (.identityCheck :: rest)) (v.goto c (.fillTx (ackRequest s.cfg) :: .sendBlock :: .identityNext :: rest)) ∧
      u.ConnectsOn v [] u.line ∧ v.idIndex = u.idIndex ∧ v.session = u.session ∧ v.status = u.status ∧
      (∀ i, (i < 12 * s.idIndex.val ∨ 12 * (s.idIndex.val + 1) ≤ i) → v.idByte i = s.idByte i) ∧
      (∀ i < 12, s.idIndex.val < 3 → v.idByte (12 * s.idIndex.val + i) = u.rxByte (3 + i)) := by
    have hcf := R1.kept.cfg
    have c1 : ¬(u.idIndex = 0 ∧ u.rxByte 2 = u.cfg.titleAck ∧ u.session.gen = u.cfg.earlyAckGen) :=
      fun h => hv.ascii_ne_ack (ht.symm.trans (h.2.1.trans (by rw [hcf])))
    have c2 : ¬ u.rxByte 2 ≠ u.cfg.titleAscii := by rw [hcf, ht]; simp
    have hlen : u.cfg.idLen = 12 := by rw [hcf]; exact hv.sourced.idLen
    have hfld : u.cfg.idFields = 3 := by rw [hcf]; exact hv.sourced.idFields
    rw [← hcf]
    by_cases hj : u.idIndex.val < 3
    · refine ⟨u.copyId u.idIndex.val, RunsIn.silent rfl ?_, State.copyId_connectsOn _ hlen hj, rfl, rfl, rfl, ?_, ?_⟩
      · show State.identityCheck (u.goto c rest) = _
        exact (if_neg c1).trans ((if_neg c2).trans (if_pos (hfld ▸ hj)))
      · intro i hi
        rw [State.copyId_idByte _ _ hlen, hid, if_neg (by omega), hids]
      · intro i hi _
        rw [State.copyId_idByte _ _ hlen, hid, if_pos (by omega), Nat.add_sub_cancel_left]
    · refine ⟨u, RunsIn.silent rfl ?_, ?_, rfl, rfl, rfl, fun i _ => hids i, fun i _ h => absurd (hid ▸ h) hj⟩
      · show State.identityCheck (u.goto c rest) = _
        exact (if_neg c1).trans ((if_neg c2).trans (if_neg (hfld ▸ hj)))
      · have := State.past_connectsOn (s := u) [] u.line.rx
        rwa [State.past_nil] at this
  have R12 := R1.trans R2
  rw [List.append_nil] at R12
  have hvk : v.session.counter + 1 = k + 1 := by rw [hvses, hse]
  have hvc : v.cfg = s.cfg := R12.kept.cfg
  have h3 := RunsIn.request (s := v) (c := c) (rest := .identityNext :: rest) (title := s.cfg.titleAck) (payload := []) (r := r)
    (by simp) (by
      rw [hvk]
      exact State.undisturbed.congr (State.undisturbed.past (r := s.line.rx) hu) R12.inputs)
    (by rw [hvk, R12.line, R1.line]; rfl)
  have R3 := State.requested_connectsOn (s := v) (r := r)
  have htx := fun i (hi : i < 4) => State.requested_txByte (s := v) (title := s.cfg.titleAck) (payload := []) (r := r) (by simp) (i := i) hi
  have hids3 : ∀ i, (v.requested s.cfg.titleAck [] r).idByte i = v.idByte i := by
    intro i
    unfold State.idByte
    rw [State.requested_read (by simp), if_neg (by simp only [txBase, idBase, List.length_nil]; omega)]
  have hse3 := State.requested_session (s := v) s.cfg.titleAck [] r
  have hst3 : (v.requested s.cfg.titleAck [] r).status = v.status := by rw [State.requested_eq (by simp)]
  have hid3 : (v.requested s.cfg.titleAck [] r).idIndex = v.idIndex := by rw [State.requested_eq (by simp)]
  rw [hvk, hvc] at R3
  rw [hvk] at htx
  generalize v.requested s.cfg.titleAck [] r = w at *
  have R := R12.trans R3
  refine ⟨n + 1 + 21, w, ?_, (h1.trans h2).trans h3, ?_, ?_, ?_, ?_, ?_, ?_, ?_, htx⟩
  · rw [block_body_length] at hn; omega
  · rw [R12.line, R1.line] at R; exact R
  · rw [hid3, hvid, hid]
  · rw [hse3]; exact hvk
  · rw [hse3, hvses, hse]; rfl
  · rw [hst3, hvst, hst]
  · intro i hi; rw [hids3, hvold i hi]
  · intro i h1 h2 h3; rw [hids3, hvnew i h1 h3, hpay i h2]

/-- The final ACK of the identity exchange, and Ready. -/
theorem RunsIn.finalAck {c : Instr} {rest : List Op} {r : List Byte} {k : Byte} (hv : s.cfg.Valid)
    (hk : k = s.session.counter + 1) (hu : s.undisturbed ((ackBlock s.cfg k).eventsHeard s.cfg).length)
    (hrx : s.line.rx = (ackBlock s.cfg k).answersHeard ++ r) :
    ∃ n t, n ≤ 40 ∧ RunsIn n (s.goto c (.recvBlock :: .checkTitle s.cfg.titleAck :: .setState .ready :: rest)) (t.goto c rest) ∧
      s.ConnectsOn t ((ackBlock s.cfg k).eventsHeard s.cfg) { s.line with rx := r } ∧
      t.session.counter = k ∧ t.session.firstSeen = true ∧ t.status.state = .ready ∧ t.idByte = s.idByte ∧
      t.txByte = s.txByte ∧ (∀ i < 4, t.rxByte i = (ackBlock s.cfg k).bytes.getD i 0) ∧ t.rxcount = 4 := by
  have hb : (ackBlock s.cfg k).2.length < 256 := by show 3 < 256; decide
  have hm := hv.maxBlock_ge
  have hh : s.Hears (ackBlock s.cfg k).1 (ackBlock s.cfg k).2 :=
    ⟨rfl, by show 3 + 1 ≤ _; omega, .inr hk⟩
  obtain ⟨n, hn, h1⟩ := RunsIn.recvBlock (c := c) (rest := .checkTitle s.cfg.titleAck :: .setState .ready :: rest) hh hu hrx
  have R := State.heard_connectsOn (s := s) (b := ackBlock s.cfg k) (r := r) hb
  have ht := fun i (hi : i < 4) => State.heard_rxByte (s := s) (l := (ackBlock s.cfg k).1) (body := (ackBlock s.cfg k).2) (r := r) hb (i := i) hi
  have hread : ∀ a, (a < rxBase ∨ rxBase + windowBytes ≤ a) →
      Memory.read (s.heard (ackBlock s.cfg k).1 (ackBlock s.cfg k).2 r).mem a = Memory.read s.mem a :=
    fun a ha => State.heard_read_elsewhere hb ha
  have hse := State.heard_session (s := s) (ackBlock s.cfg k).1 (ackBlock s.cfg k).2 r
  have hct := State.heard_rxcount (s := s) (ackBlock s.cfg k).1 (ackBlock s.cfg k).2 r
  generalize s.heard (ackBlock s.cfg k).1 (ackBlock s.cfg k).2 r = u at *
  have h2 := RunsIn.checkTitle (s := u) (c := c) (title := s.cfg.titleAck) (rest := .setState .ready :: rest) (ht 2 (by omega))
  have h3 : RunsIn 1 (u.goto c (.setState .ready :: rest)) ((u.setSession .ready).goto c rest) := RunsIn.silent rfl rfl
  refine ⟨n + 1 + 1, u.setSession .ready, ?_, (h1.trans h2).trans h3, ?_, ?_, ?_, rfl, ?_, ?_, fun i hi => ht i hi, hct⟩
  · have : (ackBlock s.cfg k).2.length = 3 := rfl
    omega
  · exact ⟨⟨R.kept.cfg, R.kept.registers, R.kept.chunks, R.kept.windows⟩, by rw [State.setSession, R.status], R.errinfo,
      R.session, R.marks, R.hidden, R.history, R.inputs, R.line⟩
  · show u.session.counter = k; rw [hse]; rfl
  · show u.session.firstSeen = true; rw [hse]; rfl
  · funext i
    unfold State.idByte
    rw [show Memory.read (u.setSession .ready).mem (idBase + i) = _ from hread _ (.inr (by simp only [rxBase, idBase, windowBytes]; omega))]
  · funext i
    unfold State.txByte
    split
    · rename_i hi
      rw [show Memory.read (u.setSession .ready).mem (txBase + i) = _ from hread _ (.inl (by simp only [txBase, rxBase, windowBytes] at *; omega)), show (u.setSession .ready).txMark = _ from R.marks.1]
    · rw [show (u.setSession .ready).txMark = _ from R.marks.1]

/-- What is left of a command when its identification blocks up to `j` are done (R190). -/
def identityOps (cfg : Config) (j : Nat) (rest : List Op) : List Op :=
  if j < 4 then .recvBlock :: .identityCheck :: rest else .recvBlock :: .checkTitle cfg.titleAck :: .setState .ready :: rest

/-- After an identification block, the next one, or the final ACK. -/
theorem RunsIn.identityNext {c : Instr} {rest : List Op} {j : Nat} (hv : s.cfg.Valid) (hj : s.idIndex.val = j) :
    ∃ i : Fin 4, RunsIn 1 (s.goto c (.identityNext :: rest))
        (State.goto { s with idIndex := i } c (identityOps s.cfg (j + 1) rest)) ∧ (j + 1 < 4 → i.val = j + 1) := by
  have hb := hv.sourced.idBlocks
  by_cases h : j + 1 < 4
  · refine ⟨s.idIndex + 1, RunsIn.silent rfl ?_, fun _ => ?_⟩
    · rw [identityOps, if_pos h]
      exact if_pos (by show s.idIndex.val + 1 < s.cfg.idBlocks; omega)
    · rw [Fin.val_add, hj]
      show (j + 1) % 4 = _
      omega
  · refine ⟨s.idIndex, RunsIn.silent rfl ?_, fun h' => absurd h' h⟩
    rw [identityOps, if_neg h]
    exact if_neg (by show ¬ s.idIndex.val + 1 < s.cfg.idBlocks; omega)

/-- Identification blocks from number `j` on are received, checked, copied and acknowledged. -/
theorem RunsIn.acknowledged {c : Instr} {rest : List Op} {r : List Byte} (ps : List (List Byte)) :
    ∀ (k : Byte) (j : Nat) {s : State}, s.cfg.Valid → j + ps.length ≤ 4 → (j < 4 → s.idIndex.val = j) →
    (∀ p ∈ ps, p.length + 4 ≤ s.cfg.maxBlock) → (s.session.firstSeen = false ∨ k = s.session.counter + 1) →
    s.undisturbed (acknowledgedEvents s.cfg k ps).length → s.line.rx = acknowledgedAnswers s.cfg k ps ++ r →
    ∃ n t, n ≤ 32 * (acknowledgedAnswers s.cfg k ps).length ∧
      RunsIn n (s.goto c (identityOps s.cfg j rest)) (t.goto c (identityOps s.cfg (j + ps.length) rest)) ∧
      s.ConnectsOn t (acknowledgedEvents s.cfg k ps) { s.line with rx := r } ∧ t.status = s.status ∧
      (j + ps.length < 4 → t.idIndex.val = j + ps.length) ∧
      (t.session.firstSeen = false ∨ k + BitVec.ofNat 8 (2 * ps.length) = t.session.counter + 1) ∧
      (∀ i, (i < 12 * j ∨ 12 * (j + ps.length) ≤ i) → t.idByte i = s.idByte i) ∧
      (∀ m < ps.length, j + m < 3 → ∀ i < 12, i ≤ (ps.getD m []).length →
        t.idByte (12 * (j + m) + i) = (ps.getD m [] ++ [terminator]).getD i 0) ∧
      (ps = [] → t = s) ∧ (ps ≠ [] → t.session.firstSeen = true ∧
        ∀ i < 4, t.txByte i = (ackBlock s.cfg (k + BitVec.ofNat 8 (2 * ps.length - 1))).bytes.getD i 0) := by
  induction ps with
  | nil =>
    intro k j s _ _ hj _ hk _ hrx
    have hrx' : s.line.rx = r := hrx
    subst hrx'
    refine ⟨0, s, Nat.zero_le _, RunsIn.refl _, ?_, rfl, hj, ?_, fun _ _ => rfl, fun _ h => absurd h (Nat.not_lt_zero _), fun _ => rfl,
      fun h => absurd rfl h⟩
    · have := State.past_connectsOn (s := s) [] s.line.rx
      rwa [State.past_nil] at this
    · simpa using hk
  | cons p ps ih =>
    intro k j s hv hlen hj hps hk hu hrx
    simp only [acknowledgedEvents, acknowledgedAnswers, List.append_assoc] at hu hrx
    rw [List.length_cons] at hlen
    have hj4 : j < 4 := by omega
    have hji := hj hj4
    rw [← List.append_assoc, List.length_append] at hu
    obtain ⟨n1, t, hn1, h1, R1, tidx, tctr, tfs, tst, told, tnew, ttx⟩ := RunsIn.identityBlock (c := c) (rest := rest)
      (payload := p) (k := k) hv (hps p (by simp)) hk (hu.mono (by omega)) hrx
    have l1 := length_le_heardAnswers (block k s.cfg.titleAscii p).1 (block k s.cfg.titleAscii p).2
    rw [block_body_length] at l1
    have hcfg : t.cfg = s.cfg := R1.kept.cfg
    have hk2 : k + 2 = t.session.counter + 1 := by rw [tctr, BitVec.add_assoc]; rfl
    obtain ⟨i0, h2, hi0⟩ := RunsIn.identityNext (s := t) (c := c) (rest := rest) (j := j) (hcfg ▸ hv) (by rw [tidx]; exact hji)
    obtain ⟨n2, v, hn2, h3, R2, vst, vidx, vctr, vold, vnew, vsame, vtx⟩ := ih (k + 2) (j + 1) (s := { t with idIndex := i0 })
      (by show t.cfg.Valid; rw [hcfg]; exact hv) (by omega) hi0
      (by show ∀ p ∈ _, _ ≤ t.cfg.maxBlock; rw [hcfg]; exact fun q hq => hps q (List.mem_cons_of_mem _ hq)) (.inr hk2)
      (by
        show State.undisturbed _ (acknowledgedEvents t.cfg _ _).length
        rw [hcfg]
        exact State.undisturbed.congr (State.undisturbed.past (r := s.line.rx) hu) R1.inputs)
      (by show t.line.rx = acknowledgedAnswers t.cfg _ _ ++ r; rw [hcfg, R1.line])
    have hwc : ({ t with idIndex := i0 } : State).cfg = s.cfg := hcfg
    rw [hwc] at hn2 h3 vtx
    rw [hcfg] at h2
    have R2' : t.ConnectsOn v (acknowledgedEvents s.cfg (k + 2) ps) { t.line with rx := r } :=
      hcfg ▸ ⟨⟨R2.kept.cfg, R2.kept.registers, R2.kept.chunks, R2.kept.windows⟩, R2.status, R2.errinfo, R2.session,
        R2.marks, R2.hidden, R2.history, R2.inputs, R2.line⟩
    have R := R1.trans R2'
    have hkk : ∀ m, k + 2 + BitVec.ofNat 8 m = k + BitVec.ofNat 8 (2 + m) := fun m => byte_add_ofNat k 2 m
    have hlc : (p :: ps).length = ps.length + 1 := List.length_cons
    have e1 : j + 1 + ps.length = j + (p :: ps).length := by omega
    have e2 : 2 + 2 * ps.length = 2 * (p :: ps).length := by omega
    rw [e1] at h3 vidx
    rw [hkk, e2] at vctr
    rw [identityOps, if_pos hj4]
    refine ⟨n1 + 1 + n2, v, ?_, (h1.trans h2).trans h3, ?_, vst.trans tst, vidx, vctr, ?_, ?_, fun h => absurd h (by simp), fun _ => ?_⟩
    · have l2 : (block k s.cfg.titleAscii p).answersHeard.length =
        (heardAnswers (block k s.cfg.titleAscii p).1 (block k s.cfg.titleAscii p).2).length := rfl
      have l3 : (ackBlock s.cfg (k + 1)).answersSent.length = 7 := rfl
      simp only [acknowledgedAnswers, List.length_append]
      omega
    · rw [R1.line] at R; exact R
    · intro i hi
      rw [vold i (by omega)]
      exact told i (by omega)
    · intro m hm hm' i hi hi'
      match m with
      | 0 =>
        rw [vold _ (by omega)]
        have := tnew i hi hi' (by omega)
        rwa [hji] at this
      | m + 1 =>
        have := vnew m (by omega) (by omega) i hi hi'
        rwa [show j + 1 + m = j + (m + 1) by omega] at this
    · cases ps with
      | nil =>
        rw [vsame rfl]
        exact ⟨tfs, ttx⟩
      | cons p' ps =>
        obtain ⟨vfs, vtx⟩ := vtx (by simp)
        refine ⟨vfs, fun i hi => ?_⟩
        rw [vtx i hi, hkk]
        simp only [List.length_cons]
        congr 5
        omega

/-- The identity exchange is its acknowledged blocks and the final ACK (R190). -/
theorem identityAnswers_eq (cfg : Config) (ps : List (List Byte)) : ∀ k, identityAnswers cfg k ps =
    acknowledgedAnswers cfg k ps ++ (ackBlock cfg (k + BitVec.ofNat 8 (2 * ps.length))).answersHeard := by
  induction ps with
  | nil => intro k; simp [identityAnswers, acknowledgedAnswers]
  | cons p ps ih =>
    intro k
    have hk : k + 2 + BitVec.ofNat 8 (2 * ps.length) = k + BitVec.ofNat 8 (2 + 2 * ps.length) := byte_add_ofNat k 2 _
    rw [identityAnswers, acknowledgedAnswers, ih, hk, List.append_assoc, List.length_cons,
      show 2 + 2 * ps.length = 2 * (ps.length + 1) by omega, List.append_assoc]
    simp only [List.append_assoc]

theorem identityEvents_eq (cfg : Config) (ps : List (List Byte)) : ∀ k, identityEvents cfg k ps =
    acknowledgedEvents cfg k ps ++ (ackBlock cfg (k + BitVec.ofNat 8 (2 * ps.length))).eventsHeard cfg := by
  induction ps with
  | nil => intro k; simp [identityEvents, acknowledgedEvents]
  | cons p ps ih =>
    intro k
    have hk : k + 2 + BitVec.ofNat 8 (2 * ps.length) = k + BitVec.ofNat 8 (2 + 2 * ps.length) := byte_add_ofNat k 2 _
    rw [identityEvents, acknowledgedEvents, ih, hk, List.length_cons,
      show 2 + 2 * ps.length = 2 * (ps.length + 1) by omega]
    simp only [List.append_assoc]

/-! ## The keyword wait (R183 to R185) -/

/-- The matcher's position after some answers, from position `pos`. -/
def keywordFrom (pos : Fin 4) (answers : KeywordAnswers) : Fin 4 :=
  answers.foldl (fun pos answer => match answer with
    | none => pos
    | some b => keywordStep pos b) pos

/-- The state after a part of the keyword wait. -/
def State.waited (s : State) (es : List Event) (rx : List Byte) (polls : List Bool) (pos : Fin 4) (elapsed : Nat) : State :=
  { s.past es rx with line := ⟨rx, polls, s.line.baud⟩, kwPos := pos, kwElapsed := elapsed }

theorem State.waited_waited (es es' : List Event) (rx rx' : List Byte) (polls polls' : List Bool) (pos pos' : Fin 4)
    (e e' : Nat) : (s.waited es rx polls pos e).waited es' rx' polls' pos' e' = s.waited (es ++ es') rx' polls' pos' e' := by
  simp [State.waited, State.past, elapse_elapse]

theorem State.undisturbed.waited {n : Nat} {es : List Event} {rx : List Byte} {polls : List Bool} {pos : Fin 4} {e : Nat}
    (h : s.undisturbed (es.length + n)) : (s.waited es rx polls pos e).undisturbed n :=
  State.undisturbed.congr (State.undisturbed.past (r := rx) h) rfl

theorem Line.pollAnswer_false {l : Line} {polls : List Bool} (h : l.polls = false :: polls) : l.pollAnswer = false := by
  unfold Line.pollAnswer; rw [h]; rfl

/-- An empty poll that is not the last one allowed (R184). -/
theorem RunsIn.emptyPoll {c : Instr} {rest : List Op} (hu : s.undisturbed 2)
    (hans : s.line.pollAnswer = false) (ht : s.kwElapsed + 1 < s.cfg.kwTimeoutMs) :
    RunsIn 3 (s.goto c (.poll :: rest))
      ((s.waited [.poll false, .delay 1] s.line.rx s.line.polls.tail s.kwPos (s.kwElapsed + 1)).goto c (.poll :: rest)) := by
  have h1 : RunsIn 1 (s.goto c (.poll :: rest))
      ((s.waited [.poll false] s.line.rx s.line.polls.tail s.kwPos s.kwElapsed).goto c (.delay 1 :: .keywordTick :: rest)) :=
    RunsIn.act (by simp) (hu.mono (by omega)) (by
      show State.pollKeyword (s.goto c rest) = _
      unfold State.pollKeyword
      simp only [State.goto_line, hans, Bool.false_eq_true, if_false]
      rfl)
  have h2 : RunsIn 1 ((s.waited [.poll false] s.line.rx s.line.polls.tail s.kwPos s.kwElapsed).goto c (.delay 1 :: .keywordTick :: rest))
      ((s.waited [.poll false, .delay 1] s.line.rx s.line.polls.tail s.kwPos s.kwElapsed).goto c (.keywordTick :: rest)) :=
    RunsIn.act (by simp) (State.undisturbed.waited hu) (by
      show State.event _ (.delay 1) = _
      simp [State.event, State.waited, State.past, State.goto, elapse_elapse])
  have h3 : RunsIn 1 ((s.waited [.poll false, .delay 1] s.line.rx s.line.polls.tail s.kwPos s.kwElapsed).goto c (.keywordTick :: rest))
      ((s.waited [.poll false, .delay 1] s.line.rx s.line.polls.tail s.kwPos (s.kwElapsed + 1)).goto c (.poll :: rest)) :=
    RunsIn.silent rfl (if_neg (by show ¬ s.cfg.kwTimeoutMs ≤ s.kwElapsed + 1; omega))
  exact (h1.trans h2).trans h3

/-- The empty poll at which the keyword wait times out (R184). -/
theorem RunsIn.lastPoll {c : Instr} {rest : List Op} (hu : s.undisturbed 2)
    (hans : s.line.pollAnswer = false) (ht : s.cfg.kwTimeoutMs ≤ s.kwElapsed + 1) :
    RunsIn 3 (s.goto c (.poll :: rest))
      ((s.waited [.poll false, .delay 1] s.line.rx s.line.polls.tail s.kwPos (s.kwElapsed + 1)).goto c rest).raiseTimeout := by
  have h1 : RunsIn 1 (s.goto c (.poll :: rest))
      ((s.waited [.poll false] s.line.rx s.line.polls.tail s.kwPos s.kwElapsed).goto c (.delay 1 :: .keywordTick :: rest)) :=
    RunsIn.act (by simp) (hu.mono (by omega)) (by
      show State.pollKeyword (s.goto c rest) = _
      unfold State.pollKeyword
      simp only [State.goto_line, hans, Bool.false_eq_true, if_false]
      rfl)
  have h2 : RunsIn 1 ((s.waited [.poll false] s.line.rx s.line.polls.tail s.kwPos s.kwElapsed).goto c (.delay 1 :: .keywordTick :: rest))
      ((s.waited [.poll false, .delay 1] s.line.rx s.line.polls.tail s.kwPos s.kwElapsed).goto c (.keywordTick :: rest)) :=
    RunsIn.act (by simp) (State.undisturbed.waited hu) (by
      show State.event _ (.delay 1) = _
      simp [State.event, State.waited, State.past, State.goto, elapse_elapse])
  have h3 : RunsIn 1 ((s.waited [.poll false, .delay 1] s.line.rx s.line.polls.tail s.kwPos s.kwElapsed).goto c (.keywordTick :: rest))
      ((s.waited [.poll false, .delay 1] s.line.rx s.line.polls.tail s.kwPos (s.kwElapsed + 1)).goto c rest).raiseTimeout :=
    RunsIn.silent rfl (if_pos (by show s.cfg.kwTimeoutMs ≤ s.kwElapsed + 1; omega))
  exact (h1.trans h2).trans h3

/-- A byte that is polled and taken (R184). -/
theorem RunsIn.polledByte {c : Instr} {rest : List Op} {polls : List Bool} {b : Byte} {r : List Byte}
    (hu : s.undisturbed 2) (hp : s.line.polls = true :: polls) (hrx : s.line.rx = b :: r) :
    RunsIn 2 (s.goto c (.poll :: rest))
      ((s.waited [.poll true, .recv b] r polls (keywordStep s.kwPos b) s.kwElapsed).goto c
        (if keywordStep s.kwPos b = 3 then rest else .poll :: rest)) := by
  have hans : s.line.pollAnswer = true := by unfold Line.pollAnswer; rw [hp, hrx]; rfl
  have h1 : RunsIn 1 (s.goto c (.poll :: rest))
      ((s.waited [.poll true] (b :: r) polls s.kwPos s.kwElapsed).goto c (.recv (.keyword .A) :: rest)) :=
    RunsIn.act (by simp) (hu.mono (by omega)) (by
      show State.pollKeyword (s.goto c rest) = _
      unfold State.pollKeyword
      simp only [State.goto_line, hans, if_true]
      rw [hp, ← hrx]
      rfl)
  have h2 : RunsIn 1 ((s.waited [.poll true] (b :: r) polls s.kwPos s.kwElapsed).goto c (.recv (.keyword .A) :: rest))
      ((s.waited [.poll true, .recv b] r polls (keywordStep s.kwPos b) s.kwElapsed).goto c
        (if keywordStep s.kwPos b = 3 then rest else .poll :: rest)) :=
    RunsIn.recv (b := b) (r := r) (State.undisturbed.waited hu) rfl (by
      show State.keywordReceived _ .A b = _
      unfold State.keywordReceived
      by_cases h : keywordStep s.kwPos b = 3
      · rw [if_pos h]
        refine (if_pos h).trans ?_
        simp [State.waited, State.past, State.goto, elapse_elapse]
      · rw [if_neg h]
        refine (if_neg h).trans ?_
        simp [State.waited, State.past, State.goto, elapse_elapse, State.push, Pc.push, keywordWaitOps])
  exact h1.trans h2

/-- Generation A's keyword wait finds the keyword at the last answer (R184). -/
theorem RunsIn.keywordA {c : Instr} {rest : List Op} {polls : List Bool} {r : List Byte} (answers : KeywordAnswers) :
    ∀ {s : State}, s.kwPos ≠ 3 → keywordFrom s.kwPos answers = 3 →
    (∀ n < answers.length, keywordFrom s.kwPos (answers.take n) ≠ 3) →
    s.kwElapsed + answers.count none < s.cfg.kwTimeoutMs → s.line.polls = keywordPolls answers ++ polls →
    s.line.rx = keywordBytes answers ++ r → s.undisturbed (keywordEvents answers).length →
    ∃ n, n ≤ 3 * answers.count none + 2 * (keywordBytes answers).length ∧
      RunsIn n (s.goto c (.poll :: rest))
        ((s.waited (keywordEvents answers) r polls 3 (s.kwElapsed + answers.count none)).goto c rest) := by
  induction answers with
  | nil => intro s h1 h2; exact absurd h2 h1
  | cons a as ih =>
    intro s h1 h2 h3 h4 hp hrx hu
    cases a with
    | none =>
      simp only [List.count_cons_self] at h4 ⊢
      have e1 : keywordEvents (none :: as) = [.poll false, .delay 1] ++ keywordEvents as := rfl
      rw [e1, List.length_append] at hu
      have a1 := RunsIn.emptyPoll (c := c) (rest := rest) (s := s) (hu.mono (by simp)) (Line.pollAnswer_false hp) (by omega)
      rw [hp] at a1
      have hrx' : s.line.rx = keywordBytes as ++ r := hrx
      obtain ⟨n, hn, a2⟩ := ih (s := s.waited [.poll false, .delay 1] s.line.rx (keywordPolls as ++ polls) s.kwPos (s.kwElapsed + 1))
        h1 h2 (fun n hn => h3 (n + 1) (by simpa using hn)) (by show s.kwElapsed + 1 + _ < s.cfg.kwTimeoutMs; omega) rfl hrx'
        (State.undisturbed.waited hu)
      rw [State.waited_waited, ← e1] at a2
      refine ⟨3 + n, ?_, ?_⟩
      · show _ ≤ _ + 2 * (keywordBytes as).length; omega
      · have e2 : s.kwElapsed + (as.count none + 1) = s.kwElapsed + 1 + as.count none := by omega
        rw [e2]
        exact a1.trans a2
    | some b =>
      have hc : (some b :: as).count none = as.count none := List.count_cons_of_ne (by simp)
      rw [hc] at h4 ⊢
      have e1 : keywordEvents (some b :: as) = [.poll true, .recv b] ++ keywordEvents as := rfl
      rw [e1, List.length_append] at hu
      have a1 := RunsIn.polledByte (c := c) (rest := rest) (polls := keywordPolls as ++ polls) (s := s) (b := b)
        (r := keywordBytes as ++ r) (hu.mono (by simp)) hp hrx
      have hb : (keywordBytes (some b :: as)).length = (keywordBytes as).length + 1 := rfl
      by_cases hm : keywordStep s.kwPos b = 3
      · cases as with
        | nil =>
          rw [if_pos hm, hm] at a1
          exact ⟨2, by rw [hb]; omega, a1⟩
        | cons a' as' => exact absurd hm (h3 1 (by simp))
      · rw [if_neg hm] at a1
        obtain ⟨n, hn, a2⟩ := ih (s := s.waited [.poll true, .recv b] (keywordBytes as ++ r) (keywordPolls as ++ polls)
            (keywordStep s.kwPos b) s.kwElapsed)
          hm h2 (fun n hn => h3 (n + 1) (by simpa using hn)) h4 rfl rfl (State.undisturbed.waited hu)
        rw [State.waited_waited, ← e1] at a2
        exact ⟨2 + n, by rw [hb]; omega, a1.trans a2⟩

/-- Generation A's keyword wait times out at the last answer (R184). -/
theorem RunsIn.keywordTimeout {c : Instr} {rest : List Op} {polls : List Bool} {r : List Byte} (answers : KeywordAnswers) :
    ∀ {s : State}, (∀ n ≤ answers.length, keywordFrom s.kwPos (answers.take n) ≠ 3) →
    s.kwElapsed + answers.count none = s.cfg.kwTimeoutMs → answers.getLast? = some none →
    s.line.polls = keywordPolls answers ++ polls →
    s.line.rx = keywordBytes answers ++ r → s.undisturbed (keywordEvents answers).length →
    ∃ n, n ≤ 3 * answers.count none + 2 * (keywordBytes answers).length ∧
      RunsIn n (s.goto c (.poll :: rest))
        ((s.waited (keywordEvents answers) r polls (keywordFrom s.kwPos answers)
          (s.kwElapsed + answers.count none)).goto c rest).raiseTimeout := by
  induction answers with
  | nil => intro s _ _ h; cases h
  | cons a as ih =>
    intro s h3 h4 hl hp hrx hu
    cases a with
    | none =>
      simp only [List.count_cons_self] at h4 ⊢
      have e1 : keywordEvents (none :: as) = [.poll false, .delay 1] ++ keywordEvents as := rfl
      rw [e1, List.length_append] at hu
      have hrx' : s.line.rx = keywordBytes as ++ r := hrx
      cases as with
      | nil =>
        have a1 := RunsIn.lastPoll (c := c) (rest := rest) (s := s) hu (Line.pollAnswer_false hp)
          (by simp only [List.count_nil] at h4; omega)
        rw [hp, show s.line.rx = r from hrx'] at a1
        exact ⟨3, by simp, a1⟩
      | cons a' as' =>
        have hpos : 0 < (a' :: as').count none := by
          rw [List.getLast?_cons_cons] at hl
          exact List.count_pos_iff.2 (List.mem_of_getLast? hl)
        have a1 := RunsIn.emptyPoll (c := c) (rest := rest) (s := s) (hu.mono (by simp)) (Line.pollAnswer_false hp) (by omega)
        rw [hp] at a1
        obtain ⟨n, hn, a2⟩ := ih (s := s.waited [.poll false, .delay 1] s.line.rx (keywordPolls (a' :: as') ++ polls) s.kwPos (s.kwElapsed + 1))
          (fun n hn => h3 (n + 1) (by simpa using hn)) (by show s.kwElapsed + 1 + _ = s.cfg.kwTimeoutMs; omega)
          (by rw [List.getLast?_cons_cons] at hl; exact hl) rfl hrx'
          (State.undisturbed.waited hu)
        rw [State.waited_waited, ← e1] at a2
        refine ⟨3 + n, ?_, ?_⟩
        · show _ ≤ _ + 2 * (keywordBytes (a' :: as')).length; omega
        · have e2 : s.kwElapsed + ((a' :: as').count none + 1) = s.kwElapsed + 1 + (a' :: as').count none := by omega
          rw [e2]
          exact a1.trans a2
    | some b =>
      have hc : (some b :: as).count none = as.count none := List.count_cons_of_ne (by simp)
      rw [hc] at h4 ⊢
      have e1 : keywordEvents (some b :: as) = [.poll true, .recv b] ++ keywordEvents as := rfl
      rw [e1, List.length_append] at hu
      have a1 := RunsIn.polledByte (c := c) (rest := rest) (polls := keywordPolls as ++ polls) (s := s) (b := b)
        (r := keywordBytes as ++ r) (hu.mono (by simp)) hp hrx
      have hb : (keywordBytes (some b :: as)).length = (keywordBytes as).length + 1 := rfl
      have hm : ¬ keywordStep s.kwPos b = 3 := h3 1 (by simp)
      rw [if_neg hm] at a1
      obtain ⟨n, hn, a2⟩ := ih (s := s.waited [.poll true, .recv b] (keywordBytes as ++ r) (keywordPolls as ++ polls)
          (keywordStep s.kwPos b) s.kwElapsed)
        (fun n hn => h3 (n + 1) (by simpa using hn)) h4 (by
          cases as with
          | nil => cases hl
          | cons a' as' => rw [List.getLast?_cons_cons] at hl; exact hl) rfl rfl (State.undisturbed.waited hu)
      rw [State.waited_waited, ← e1] at a2
      exact ⟨2 + n, by rw [hb]; omega, a1.trans a2⟩

/-- Generation B's keyword wait (R185). -/
theorem RunsIn.keywordB {c : Instr} {rest : List Op} {r : List Byte} (bytes : List Byte) :
    ∀ {s : State}, s.kwPos ≠ 3 → keywordFrom s.kwPos (bytes.map some) = 3 →
    (∀ n < bytes.length, keywordFrom s.kwPos ((bytes.map some).take n) ≠ 3) →
    s.line.rx = bytes ++ r → s.undisturbed bytes.length →
    RunsIn bytes.length (s.goto c (.recv (.keyword .B) :: rest))
      ((s.waited (bytes.map .recv) r s.line.polls 3 s.kwElapsed).goto c rest) := by
  induction bytes with
  | nil => intro s h1 h2; exact absurd h2 h1
  | cons b bs ih =>
    intro s h1 h2 h3 hrx hu
    have a1 : RunsIn 1 (s.goto c (.recv (.keyword .B) :: rest))
        ((s.waited [.recv b] (bs ++ r) s.line.polls (keywordStep s.kwPos b) s.kwElapsed).goto c
          (if keywordStep s.kwPos b = 3 then rest else .recv (.keyword .B) :: rest)) :=
      RunsIn.recv (b := b) (r := bs ++ r) (hu.mono (by simp)) hrx (by
        show State.keywordReceived _ .B b = _
        unfold State.keywordReceived
        by_cases h : keywordStep s.kwPos b = 3
        · rw [if_pos h]
          exact (if_pos h).trans rfl
        · rw [if_neg h]
          exact (if_neg h).trans rfl)
    by_cases hm : keywordStep s.kwPos b = 3
    · cases bs with
      | nil => rw [if_pos hm, hm] at a1; exact a1
      | cons b' bs' => exact absurd hm (h3 1 (by simp))
    · rw [if_neg hm] at a1
      have a2 := ih (s := s.waited [.recv b] (bs ++ r) s.line.polls (keywordStep s.kwPos b) s.kwElapsed) hm h2
        (fun n hn => h3 (n + 1) (by simpa using hn)) rfl (State.undisturbed.waited (es := [.recv b]) (hu.mono (by simp; omega)))
      rw [State.waited_waited] at a2
      have := a1.trans a2
      rwa [Nat.add_comm] at this

/-! ## From the start of an attempt to its identity exchange (R181, R182, R186, R191) -/

/-- The state of an attempt after these events, `v` being the session state and the rest the keyword wait's variables. -/
def State.attempting (s : State) (gen : Gen) (baud : Half) (v : SessionState) (es : List Event) (rx : List Byte)
    (polls : List Bool) (pos : Fin 4) (elapsed : Nat) : State :=
  { s with
    mem := Memory.forget s.mem idBase (idBase + idBytes)
    session := ⟨0, false, gen, baud⟩
    status := { s.status with errCode := .none, state := v }
    errinfo := ⟨0, 0⟩
    lineMode := .transport
    kwPos := pos
    kwElapsed := elapsed
    history := es.reverse ++ s.history
    inputs := elapse es.length s.inputs
    line := ⟨rx, polls, baud.toNat⟩ }

theorem State.attempting_kept (gen : Gen) (baud : Half) (v : SessionState) (es : List Event) (rx : List Byte)
    (polls : List Bool) (pos : Fin 4) (elapsed : Nat) :
    s.KeptByConnect (s.attempting gen baud v es rx polls pos elapsed) := by
  refine ⟨rfl, ⟨rfl, rfl, rfl, rfl, rfl⟩, ⟨rfl, rfl⟩, fun a _ _ h3 => ?_⟩
  refine State.windowByte_congr (by simp only [State.attempting]) (by simp only [State.attempting])
    (by simp only [State.attempting]) (by simp only [State.attempting]) ?_
  simp only [State.attempting]
  rw [Memory.read_forget, if_neg (by omega)]

theorem State.attempting_idByte (gen : Gen) (baud : Half) (v : SessionState) (es : List Event) (rx : List Byte)
    (polls : List Bool) (pos : Fin 4) (elapsed : Nat) {i : Nat} (hi : i < idBytes) :
    (s.attempting gen baud v es rx polls pos elapsed).idByte i = 0 := by
  unfold State.idByte
  simp only [State.attempting]
  rw [Memory.read_forget, if_pos (by omega), show Memory.unlisted (idBase + i) = some 0 from if_pos (by omega)]
  rfl

theorem State.attempting_txByte (gen : Gen) (baud : Half) (v : SessionState) (es : List Event) (rx : List Byte)
    (polls : List Bool) (pos : Fin 4) (elapsed : Nat) :
    (s.attempting gen baud v es rx polls pos elapsed).txByte = s.txByte := by
  funext i
  unfold State.txByte
  simp only [State.attempting]
  by_cases h : i < windowBytes
  · rw [if_pos h, if_pos h, Memory.read_forget, if_neg (by simp only [txBase, idBase, windowBytes] at *; omega)]
  · rw [if_neg h, if_neg h]

theorem State.attempting_rxByte (gen : Gen) (baud : Half) (v : SessionState) (es : List Event) (rx : List Byte)
    (polls : List Bool) (pos : Fin 4) (elapsed : Nat) :
    (s.attempting gen baud v es rx polls pos elapsed).rxByte = s.rxByte := by
  funext i
  unfold State.rxByte
  simp only [State.attempting]
  by_cases h : i < windowBytes
  · rw [if_pos h, if_pos h, Memory.read_forget, if_neg (by simp only [rxBase, idBase, windowBytes] at *; omega)]
  · rw [if_neg h, if_neg h]

theorem State.attempting_waited (gen : Gen) (baud : Half) (v : SessionState) (es es' : List Event) (rx rx' : List Byte)
    (polls polls' : List Bool) (pos pos' : Fin 4) (e e' : Nat) :
    (s.attempting gen baud v es rx polls pos e).waited es' rx' polls' pos' e' =
      s.attempting gen baud v (es ++ es') rx' polls' pos' e' := by
  simp [State.attempting, State.waited, State.past, elapse_elapse]

/-- The variable `kw_elapsed` at the start of a keyword wait (R184, R185). -/
def State.elapsedAt (s : State) : Gen → Nat
  | .A => 0
  | .B => s.kwElapsed

theorem frameEvents_length {cfg : Config} (hv : cfg.Valid) (a : Byte) (baud : Half) :
    (.configure baud :: frameEvents cfg a : List Event).length = 13 := by
  simp [frameEvents, wakeupBits, hv.sourced.wakeupAddrBits]

/-- An attempt up to its keyword wait. -/
theorem RunsIn.opening {c : Instr} {rest : List Op} (gen : Gen) (a : Byte) (baud : Half) (hv : s.cfg.Valid)
    (hu : s.undisturbed 13) :
    RunsIn 16 (s.goto c (.attemptStart gen :: addressingOps s.cfg a baud ++ (.keywordStart gen :: rest)))
      ((s.attempting gen baud .awaitingKeyword (.configure baud :: frameEvents s.cfg a) s.line.rx s.line.polls 0
        (s.elapsedAt gen)).goto c (keywordWaitOps gen ++ rest)) := by
  have h1 : RunsIn 1 (s.goto c (.attemptStart gen :: addressingOps s.cfg a baud ++ (.keywordStart gen :: rest)))
      ((s.attemptStart gen).goto c (.configure baud :: (frameOps s.cfg a ++ (.setState .awaitingKeyword :: .keywordStart gen :: rest)))) :=
    RunsIn.silent rfl (by simp [State.doOp, addressingOps]; rfl)
  let u : State := { (s.attemptStart gen).past [.configure baud] s.line.rx with
    session := ⟨0, false, gen, baud⟩, line := { s.line with baud := baud.toNat } }
  have h2 : RunsIn 1 ((s.attemptStart gen).goto c (.configure baud :: (frameOps s.cfg a ++ (.setState .awaitingKeyword :: .keywordStart gen :: rest))))
      (u.goto c (frameOps s.cfg a ++ (.setState .awaitingKeyword :: .keywordStart gen :: rest))) :=
    RunsIn.act (by simp) (State.undisturbed.congr (hu.mono (by omega)) rfl) rfl
  have h3 := RunsIn.frame (s := u) (c := c) (rest := .setState .awaitingKeyword :: .keywordStart gen :: rest) a hv
    (State.undisturbed.congr (State.undisturbed.past (es := [.configure baud]) (r := s.line.rx) hu) rfl)
  let v : State := { u.past (frameEvents s.cfg a) u.line.rx with lineMode := .transport }
  have h4 : RunsIn 1 (v.goto c (.setState .awaitingKeyword :: .keywordStart gen :: rest))
      ((v.setSession .awaitingKeyword).goto c (.keywordStart gen :: rest)) := RunsIn.silent rfl rfl
  have h5 : RunsIn 1 ((v.setSession .awaitingKeyword).goto c (.keywordStart gen :: rest))
      (((v.setSession .awaitingKeyword).startKeyword gen).goto c (keywordWaitOps gen ++ rest)) :=
    RunsIn.silent rfl (by cases gen <;> rfl)
  have hfin : (v.setSession .awaitingKeyword).startKeyword gen =
      s.attempting gen baud .awaitingKeyword (.configure baud :: frameEvents s.cfg a) s.line.rx s.line.polls 0 (s.elapsedAt gen) := by
    cases gen <;>
    simp [v, u, State.setSession, State.startKeyword, State.attempting, State.elapsedAt, State.past, State.attemptStart,
      elapse_elapse, frameEvents, Nat.add_comm]
  rw [hfin] at h5
  exact (((h1.trans h2).trans h3).trans h4).trans h5

/-- The confirmation, up to the identity exchange (R186). -/
theorem RunsIn.confirming {c : Instr} {rest : List Op} {gen : Gen} {baud : Half} {es : List Event} {polls : List Bool}
    {r : List Byte} {pos : Fin 4} {e : Nat} (hu : s.undisturbed (es.length + 4)) :
    RunsIn 7 ((s.attempting gen baud .awaitingKeyword es (confirmByte :: r) polls pos e).goto c
        (confirmingOps s.cfg ++ (.identityStart :: rest)))
      (State.goto { s.attempting gen baud .exchangingIdentity (es ++ confirmEvents s.cfg) r polls pos e with idIndex := 0 } c
        (.recvBlock :: .identityCheck :: rest)) := by
  let s0 := s.attempting gen baud .awaitingKeyword es (confirmByte :: r) polls pos e
  have hu0 : s0.undisturbed 4 :=
    State.undisturbed.congr (State.undisturbed.past (r := s.line.rx) hu) rfl
  have h1 : RunsIn 1 (s0.goto c (confirmingOps s.cfg ++ (.identityStart :: rest)))
      ((s0.setSession .confirming).goto c (.delay s.cfg.settleMs :: (sendEchoOps s.cfg confirmByte ++ (.setState .exchangingIdentity :: .identityStart :: rest)))) :=
    RunsIn.silent rfl (by simp [State.doOp]; rfl)
  have h2 : RunsIn 1 ((s0.setSession .confirming).goto c (.delay s.cfg.settleMs :: (sendEchoOps s.cfg confirmByte ++ (.setState .exchangingIdentity :: .identityStart :: rest))))
      (((s0.setSession .confirming).past [.delay s.cfg.settleMs] (confirmByte :: r)).goto c (sendEchoOps s.cfg confirmByte ++ (.setState .exchangingIdentity :: .identityStart :: rest))) :=
    RunsIn.act (by simp) (State.undisturbed.congr (hu0.mono (by omega)) rfl) rfl
  have h3 := RunsIn.sendEcho (s := (s0.setSession .confirming).past [.delay s.cfg.settleMs] (confirmByte :: r)) (c := c)
    (rest := .setState .exchangingIdentity :: .identityStart :: rest) (b := confirmByte) (r := r)
    (State.undisturbed.past (State.undisturbed.congr hu0 rfl)) rfl
  rw [State.past_past] at h3
  let v := ((s0.setSession .confirming).past ([.delay s.cfg.settleMs] ++ [.delay s.cfg.interbyteMs, .send confirmByte, .recv confirmByte]) r)
  have h4 : RunsIn 1 (v.goto c (.setState .exchangingIdentity :: .identityStart :: rest))
      ((v.setSession .exchangingIdentity).goto c (.identityStart :: rest)) := RunsIn.silent rfl rfl
  have h5 : RunsIn 1 ((v.setSession .exchangingIdentity).goto c (.identityStart :: rest))
      (State.goto { v.setSession .exchangingIdentity with idIndex := 0 } c (.recvBlock :: .identityCheck :: rest)) :=
    RunsIn.silent rfl rfl
  have hfin : ({ v.setSession .exchangingIdentity with idIndex := 0 } : State) =
      { s.attempting gen baud .exchangingIdentity (es ++ confirmEvents s.cfg) r polls pos e with idIndex := 0 } := by
    simp [v, s0, State.setSession, State.attempting, State.past, confirmEvents, elapse_elapse]
  rw [hfin] at h5
  exact (((h1.trans h2).trans h3).trans h4).trans h5

/-- A generation's keyword wait finds the keyword (R184, R185). -/
theorem RunsIn.keyword {c : Instr} {rest : List Op} {gen : Gen} {answers : KeywordAnswers} {polls : List Bool}
    {r : List Byte} (hf : KeywordFound (waitBound s.cfg gen) answers) (hp : s.line.polls = waitPolls gen answers ++ polls)
    (hrx : s.line.rx = keywordBytes answers ++ r) (hu : s.undisturbed (waitEvents gen answers).length) (hk : s.kwPos = 0)
    (he : gen = .A → s.kwElapsed = 0) :
    ∃ n e, n ≤ 3 * s.cfg.kwTimeoutMs + 2 * (keywordBytes answers).length ∧
      RunsIn n (s.goto c (keywordWaitOps gen ++ rest)) ((s.waited (waitEvents gen answers) r polls 3 e).goto c rest) := by
  cases gen with
  | A =>
    obtain ⟨n, hn, h⟩ := RunsIn.keywordA (c := c) (rest := rest) (s := s) answers (by rw [hk]; decide)
      (by rw [hk]; exact hf.found) (by rw [hk]; exact hf.first) (by rw [he rfl, Nat.zero_add]; exact hf.inTime) hp hrx hu
    have := hf.inTime
    simp only [waitBound] at this
    exact ⟨n, _, by omega, h⟩
  | B =>
    have h0 : answers.count none = 0 := by have := hf.inTime; simp only [waitBound] at this; omega
    have hall : (keywordBytes answers).map some = answers := by
      have hn : none ∉ answers := fun h => by have := List.count_pos_iff.2 h; omega
      clear hf hp hrx hu h0
      induction answers with
      | nil => rfl
      | cons x xs ih =>
        cases x with
        | none => exact absurd (List.mem_cons_self) hn
        | some b =>
          show some b :: (keywordBytes xs).map some = _
          rw [ih (fun h => hn (List.mem_cons_of_mem _ h))]
    have hlen : (keywordBytes answers).length = answers.length := by
      have := congrArg List.length hall
      rwa [List.length_map] at this
    have h := RunsIn.keywordB (c := c) (rest := rest) (s := s) (r := r) (keywordBytes answers) (by rw [hk]; decide)
      (by rw [hk, hall]; exact hf.found) (by rw [hk, hall, hlen]; exact hf.first) hrx (by
        have : (waitEvents .B answers).length = (keywordBytes answers).length := List.length_map _
        rw [← this]; exact hu)
    have hp' : s.line.polls = polls := hp
    rw [hp'] at h
    exact ⟨_, _, by omega, h⟩

/-- An attempt up to its confirmation, the keyword having come. -/
theorem RunsIn.upToConfirm {c : Instr} {rest : List Op} {gen : Gen} {a : Byte} {baud : Half} {answers : KeywordAnswers}
    {polls : List Bool} {r : List Byte} (hv : s.cfg.Valid) (hk : s.KeywordComes gen answers polls r)
    (hu : s.undisturbed (.configure baud :: frameEvents s.cfg a ++ waitEvents gen answers).length) :
    ∃ n e, n ≤ 3 * s.cfg.kwTimeoutMs + 2 * (keywordBytes answers).length + 16 ∧
      RunsIn n (s.goto c (connectOps s.cfg gen a baud ++ rest))
        ((s.attempting gen baud .awaitingKeyword (.configure baud :: frameEvents s.cfg a ++ waitEvents gen answers) r polls 3 e).goto c
          (confirmingOps s.cfg ++ (.identityStart :: rest))) := by
  have hfl := frameEvents_length hv a baud
  rw [List.length_append, hfl] at hu
  have h1 := RunsIn.opening (s := s) (c := c) (rest := confirmingOps s.cfg ++ (.identityStart :: rest)) gen a baud hv (hu.mono (by omega))
  let s1 := s.attempting gen baud .awaitingKeyword (.configure baud :: frameEvents s.cfg a) s.line.rx s.line.polls 0 (s.elapsedAt gen)
  have hu1 : s1.undisturbed (waitEvents gen answers).length :=
    State.undisturbed.congr (State.undisturbed.past (es := .configure baud :: frameEvents s.cfg a) (r := s.line.rx) (by rw [hfl]; exact hu)) rfl
  obtain ⟨n, e, hn, h2⟩ := RunsIn.keyword (s := s1) (c := c) (rest := confirmingOps s.cfg ++ (.identityStart :: rest)) (gen := gen) (polls := polls) (r := r)
    hk.found hk.polls hk.bytes hu1 rfl (by intro h; subst h; rfl)
  rw [State.attempting_waited] at h2
  have hops : connectOps s.cfg gen a baud ++ rest =
      .attemptStart gen :: addressingOps s.cfg a baud ++ (.keywordStart gen :: (confirmingOps s.cfg ++ (.identityStart :: rest))) := by
    simp [connectOps]
  rw [hops]
  exact ⟨16 + n, e, by have : n ≤ 3 * s.cfg.kwTimeoutMs + _ := hn; omega, h1.trans h2⟩

/-- An attempt up to its identity exchange. -/
theorem RunsIn.upToIdentity {c : Instr} {rest : List Op} {gen : Gen} {a : Byte} {baud : Half} {answers : KeywordAnswers}
    {polls : List Bool} {r : List Byte} (hv : s.cfg.Valid) (hk : s.KeywordComes gen answers polls (confirmByte :: r))
    (hu : s.undisturbed (.configure baud :: frameEvents s.cfg a ++ waitEvents gen answers ++ confirmEvents s.cfg).length) :
    ∃ n e, n ≤ 3 * s.cfg.kwTimeoutMs + 2 * (keywordBytes answers).length + 23 ∧
      RunsIn n (s.goto c (connectOps s.cfg gen a baud ++ rest))
        (State.goto { s.attempting gen baud .exchangingIdentity
          (.configure baud :: frameEvents s.cfg a ++ waitEvents gen answers ++ confirmEvents s.cfg) r polls 3 e with idIndex := 0 } c
          (.recvBlock :: .identityCheck :: rest)) := by
  rw [List.length_append] at hu
  obtain ⟨n, e, hn, h1⟩ := RunsIn.upToConfirm (s := s) (c := c) (rest := rest) (a := a) (baud := baud) hv hk (hu.mono (by omega))
  exact ⟨n + 7, e, by omega, h1.trans (RunsIn.confirming hu)⟩

/-! ## Attempts that time out (R184, R195) -/

/-- An attempt whose keyword wait times out (R184). -/
theorem RunsIn.missedAttempt {c : Instr} {rest : List Op} (a : Byte) (baud : Half) (answers : KeywordAnswers) (polls : List Bool) (r : List Byte)
    (hv : s.cfg.Valid) (hm : KeywordMissed s.cfg.kwTimeoutMs answers)
    (hp : s.line.polls = keywordPolls answers ++ polls) (hrx : s.line.rx = keywordBytes answers ++ r)
    (hu : s.undisturbed (.configure baud :: frameEvents s.cfg a ++ keywordEvents answers).length) :
    ∃ n, n ≤ 3 * s.cfg.kwTimeoutMs + 2 * (keywordBytes answers).length + 16 ∧
      RunsIn n (s.goto c (connectOps s.cfg .A a baud ++ rest))
        ((s.attempting .A baud .awaitingKeyword (.configure baud :: frameEvents s.cfg a ++ keywordEvents answers) r polls (keywordAfter answers) s.cfg.kwTimeoutMs).goto c (confirmingOps s.cfg ++ (.identityStart :: rest))).raiseTimeout := by
  have hfl := frameEvents_length hv a baud
  rw [List.length_append, hfl] at hu
  have h1 := RunsIn.opening (s := s) (c := c) (rest := confirmingOps s.cfg ++ (.identityStart :: rest)) .A a baud hv (hu.mono (by omega))
  let s1 := s.attempting .A baud .awaitingKeyword (.configure baud :: frameEvents s.cfg a) s.line.rx s.line.polls 0 0
  obtain ⟨n, hn, h2⟩ := RunsIn.keywordTimeout (s := s1) (c := c) (rest := confirmingOps s.cfg ++ (.identityStart :: rest)) (polls := polls) (r := r) answers
    hm.missed (by show 0 + _ = s.cfg.kwTimeoutMs; rw [Nat.zero_add]; exact hm.bounded) hm.lastEmpty hp hrx (State.undisturbed.congr (State.undisturbed.past (es := .configure baud :: frameEvents s.cfg a) (r := s.line.rx) (by rw [hfl]; exact hu)) rfl)
  rw [State.attempting_waited, show s1.kwElapsed + answers.count none = s.cfg.kwTimeoutMs by show 0 + _ = _; rw [Nat.zero_add]; exact hm.bounded] at h2
  have hops : connectOps s.cfg .A a baud ++ rest =
      .attemptStart .A :: addressingOps s.cfg a baud ++ (.keywordStart .A :: (confirmingOps s.cfg ++ (.identityStart :: rest))) := by
    simp [connectOps]
  rw [hops]
  exact ⟨16 + n, by have := hm.bounded; omega, h1.trans h2⟩

/-- The line answers the next `n` polls empty. -/
def Line.silentFor (l : Line) (n : Nat) : Prop := ∀ m < n, ({ l with polls := l.polls.drop m } : Line).pollAnswer = false

/-- A keyword wait on a silent line times out (R184). -/
theorem RunsIn.silentWait {c : Instr} {rest : List Op} (n : Nat) : ∀ {s : State},
    s.kwElapsed + (n + 1) = s.cfg.kwTimeoutMs → s.line.silentFor (n + 1) →
    s.undisturbed (keywordEvents (List.replicate (n + 1) none)).length →
    RunsIn (3 * (n + 1)) (s.goto c (.poll :: rest))
      ((s.waited (keywordEvents (List.replicate (n + 1) none)) s.line.rx (s.line.polls.drop (n + 1)) s.kwPos
        s.cfg.kwTimeoutMs).goto c rest).raiseTimeout := by
  induction n with
  | zero =>
    intro s ht hs hu
    have h := RunsIn.lastPoll (c := c) (rest := rest) (s := s) hu (hs 0 (by omega)) (by omega)
    rw [show s.kwElapsed + 1 = s.cfg.kwTimeoutMs by omega, ← List.drop_one] at h
    exact h
  | succ n ih =>
    intro s ht hs hu
    have e1 : keywordEvents (List.replicate (n + 1 + 1) none) =
        [.poll false, .delay 1] ++ keywordEvents (List.replicate (n + 1) none) := rfl
    rw [e1, List.length_append] at hu
    have a1 := RunsIn.emptyPoll (c := c) (rest := rest) (s := s) (hu.mono (by simp)) (hs 0 (by omega)) (by omega)
    have a2 := ih (s := s.waited [.poll false, .delay 1] s.line.rx s.line.polls.tail s.kwPos (s.kwElapsed + 1))
      (by show s.kwElapsed + 1 + (n + 1) = s.cfg.kwTimeoutMs; omega)
      (by
        intro m hm
        have := hs (m + 1) (by omega)
        show ({ s.line with polls := s.line.polls.tail.drop m } : Line).pollAnswer = false
        rwa [List.drop_tail])
      (State.undisturbed.waited hu)
    rw [State.waited_waited, ← e1] at a2
    have := a1.trans a2
    rw [show 3 + 3 * (n + 1) = 3 * (n + 1 + 1) by omega] at this
    rw [show s.line.polls.drop (n + 1 + 1) = s.line.polls.tail.drop (n + 1) by rw [List.drop_tail]]
    exact this

/-- A silent attempt of AUTOCONNECT, up to what its timeout does (R195). -/
theorem RunsIn.silentAttempt {c : Instr} {rest : List Op} (a : Byte) (hv : s.cfg.Valid)
    (hs : s.line.silentFor s.cfg.kwTimeoutMs)
    (hu : s.undisturbed (silentEvents s.cfg a (attemptBaud s.cfg s.attempt)).length) :
    RunsIn (3 * s.cfg.kwTimeoutMs + 17) (s.goto c (.attemptRun a :: rest))
      ((s.attempting .A (attemptBaud s.cfg s.attempt) .awaitingKeyword (.configure (attemptBaud s.cfg s.attempt) ::
        frameEvents s.cfg a ++ keywordEvents (List.replicate s.cfg.kwTimeoutMs none)) s.line.rx
        (s.line.polls.drop s.cfg.kwTimeoutMs) 0 s.cfg.kwTimeoutMs).goto c
          (confirmingOps s.cfg ++ (.identityStart :: rest))).raiseTimeout := by
  have hfl := frameEvents_length hv a (attemptBaud s.cfg s.attempt)
  have hk := hv.kwTimeout_pos
  rw [silentEvents, List.length_append, List.length_append, hfl] at hu
  have h0 : RunsIn 1 (s.goto c (.attemptRun a :: rest)) (s.goto c (connectOps s.cfg .A a (attemptBaud s.cfg s.attempt) ++ rest)) :=
    RunsIn.silent rfl rfl
  have h1 := RunsIn.opening (s := s) (c := c) (rest := confirmingOps s.cfg ++ (.identityStart :: rest)) .A a (attemptBaud s.cfg s.attempt) hv (hu.mono (by omega))
  let s1 := s.attempting .A (attemptBaud s.cfg s.attempt) .awaitingKeyword (.configure (attemptBaud s.cfg s.attempt) :: frameEvents s.cfg a) s.line.rx s.line.polls 0 0
  obtain ⟨n, hn⟩ : ∃ n, s.cfg.kwTimeoutMs = n + 1 := ⟨s.cfg.kwTimeoutMs - 1, by omega⟩
  have h2 := RunsIn.silentWait (c := c) (rest := confirmingOps s.cfg ++ (.identityStart :: rest)) n (s := s1)
    (by show 0 + (n + 1) = s.cfg.kwTimeoutMs; omega) (fun m hm => hs m (by omega))
    (by
      rw [← hn]
      exact State.undisturbed.congr (State.undisturbed.past (es := .configure (attemptBaud s.cfg s.attempt) :: frameEvents s.cfg a) (r := s.line.rx) (by rw [hfl]; exact hu.mono (by omega))) rfl)
  rw [State.attempting_waited, ← hn] at h2
  have hops : connectOps s.cfg .A a (attemptBaud s.cfg s.attempt) ++ rest =
      .attemptStart .A :: addressingOps s.cfg a (attemptBaud s.cfg s.attempt) ++ (.keywordStart .A :: (confirmingOps s.cfg ++ (.identityStart :: rest))) := by
    simp [connectOps]
  rw [hops] at h0
  have := (h0.trans h1).trans h2
  rwa [show 1 + 16 + 3 * s.cfg.kwTimeoutMs = 3 * s.cfg.kwTimeoutMs + 17 by omega] at this

theorem Memory.forget_forget (m : Memory) (lo hi : Nat) : Memory.forget (Memory.forget m lo hi) lo hi = Memory.forget m lo hi := by
  simp [Memory.forget]

theorem State.attempting_attempting (gen gen' : Gen) (baud baud' : Half) (v v' : SessionState) (es es' : List Event)
    (rx rx' : List Byte) (polls polls' : List Bool) (pos pos' : Fin 4) (e e' : Nat) :
    (s.attempting gen baud v es rx polls pos e).attempting gen' baud' v' es' rx' polls' pos' e' =
      s.attempting gen' baud' v' (es ++ es') rx' polls' pos' e' := by
  simp [State.attempting, elapse_elapse, Memory.forget_forget]

end Sys2Proof.Machine
end

