-- ==== Sys2Proof/Laws/Attempts.lean ====
section
/-! SUPPORT. Attempts of the connect sequence inside their command: AUTOCONNECT's earlier silent attempts, the state before any attempt, and where an attempt can end or pause. -/

namespace Sys2Proof.Machine

variable {s t : State}

/-! ## AUTOCONNECT's silent attempts (R195) -/

theorem attemptBaud_eq {cfg : Config} (hv : cfg.Valid) (m : Fin 4) : attemptBaud cfg m = autoBaud m.val := by
  unfold attemptBaud
  rw [hv.sourced.autoBauds]
  revert m
  decide

theorem autoAttempts_eq {cfg : Config} (hv : cfg.Valid) : autoAttempts cfg = 4 := by
  simp [autoAttempts, hv.sourced.autoBauds, hv.sourced.autoPasses]

theorem State.burst_eq (hv : s.cfg.Valid) :
    s.burst = 64 * (s.line.rx.length + 1) + 4 * (3 * s.cfg.kwTimeoutMs + 64) := by
  rw [State.burst, autoAttempts_eq hv]

/-- The state before attempt `m`, the `j + 1` ones before having been silent. -/
def State.retried (s : State) (a : Byte) (m : Fin 4) (j : Nat) : State :=
  { s.attempting .A (autoBaud j) .disconnected (retriedEvents s.cfg a (j + 1)) s.line.rx
      (s.line.polls.drop ((j + 1) * s.cfg.kwTimeoutMs)) 0 s.cfg.kwTimeoutMs with attempt := m }

theorem retriedEvents_succ (cfg : Config) (a : Byte) (j : Nat) : retriedEvents cfg a (j + 1) =
    retriedEvents cfg a j ++ (silentEvents cfg a (autoBaud j) ++ [Event.delay cfg.retryDelayMs]) := by
  simp [retriedEvents, List.range_succ]

/-- One silent attempt that is not the last, and the delay after it. -/
theorem RunsIn.retry {c : Instr} (a : Byte) (hv : s.cfg.Valid) (hs : s.line.silentFor s.cfg.kwTimeoutMs)
    (ha : s.attempt.val + 1 < 4)
    (hu : s.undisturbed (silentEvents s.cfg a (autoBaud s.attempt.val) ++ [Event.delay s.cfg.retryDelayMs]).length) :
    RunsIn (3 * s.cfg.kwTimeoutMs + 18) (s.goto c [.attemptRun a, .attemptCatch a])
      (State.goto { s.attempting .A (autoBaud s.attempt.val) .disconnected
        (silentEvents s.cfg a (autoBaud s.attempt.val) ++ [Event.delay s.cfg.retryDelayMs]) s.line.rx
        (s.line.polls.drop s.cfg.kwTimeoutMs) 0 s.cfg.kwTimeoutMs with attempt := s.attempt + 1 } c
          [.attemptRun a, .attemptCatch a]) := by
  rw [List.length_append] at hu
  have h1 := RunsIn.silentAttempt (c := c) (rest := [.attemptCatch a]) a hv hs
    (hu.mono (by rw [attemptBaud_eq hv]; exact Nat.le_add_right _ _))
  rw [attemptBaud_eq hv] at h1
  let w := s.attempting .A (autoBaud s.attempt.val) .awaitingKeyword (.configure (autoBaud s.attempt.val) ::
    frameEvents s.cfg a ++ keywordEvents (List.replicate s.cfg.kwTimeoutMs none)) s.line.rx
    (s.line.polls.drop s.cfg.kwTimeoutMs) 0 s.cfg.kwTimeoutMs
  have hr : (w.goto c (confirmingOps s.cfg ++ (.identityStart :: [.attemptCatch a]))).raiseTimeout =
      State.goto { w.timedOut with attempt := s.attempt + 1 } c
        (.delay s.cfg.retryDelayMs :: .attemptRun a :: [.attemptCatch a]) :=
    if_pos (show s.attempt.val + 1 < autoAttempts s.cfg by rw [autoAttempts_eq hv]; exact ha)
  have hu2 : ({ w.timedOut with attempt := s.attempt + 1 } : State).undisturbed 1 :=
    State.undisturbed.congr (State.undisturbed.past (es := silentEvents s.cfg a (autoBaud s.attempt.val)) (r := s.line.rx) hu) (by
      simp [w, State.timedOut, State.setSession, State.event, State.record, State.attempting, State.past, silentEvents, elapse_elapse,
        Nat.add_assoc])
  have h2 : RunsIn 1 (State.goto { w.timedOut with attempt := s.attempt + 1 } c
        (.delay s.cfg.retryDelayMs :: .attemptRun a :: [.attemptCatch a]))
      (State.goto { s.attempting .A (autoBaud s.attempt.val) .disconnected
        (silentEvents s.cfg a (autoBaud s.attempt.val) ++ [Event.delay s.cfg.retryDelayMs]) s.line.rx
        (s.line.polls.drop s.cfg.kwTimeoutMs) 0 s.cfg.kwTimeoutMs with attempt := s.attempt + 1 } c
          [.attemptRun a, .attemptCatch a]) :=
    RunsIn.act (by simp) hu2 (by
      show State.event _ _ = _
      simp [w, State.event, State.record, State.attempting, State.setSession, State.timedOut, State.goto, silentEvents,
        elapse_elapse, Nat.add_assoc])
  rw [hr] at h1
  exact h1.trans h2

/-- The silent attempts before attempt `j + 1`. -/
theorem RunsIn.retries {c : Instr} (a : Byte) (hv : s.cfg.Valid) (ha : s.attempt = 0) : ∀ j, j < 3 →
    s.line.silentFor ((j + 1) * s.cfg.kwTimeoutMs) → s.undisturbed (retriedEvents s.cfg a (j + 1)).length →
    RunsIn ((j + 1) * (3 * s.cfg.kwTimeoutMs + 18)) (s.goto c [.attemptRun a, .attemptCatch a])
      ((s.retried a ⟨(j + 1) % 4, by omega⟩ j).goto c [.attemptRun a, .attemptCatch a]) := by
  intro j
  induction j with
  | zero =>
    intro _ hs hu
    have hre : retriedEvents s.cfg a (0 + 1) = silentEvents s.cfg a (autoBaud 0) ++ [Event.delay s.cfg.retryDelayMs] := by
      rw [retriedEvents_succ]; rfl
    rw [hre] at hu
    have h := RunsIn.retry (c := c) a hv (by rwa [Nat.zero_add, Nat.one_mul] at hs) (by rw [ha]; decide)
      (by rw [ha]; exact hu)
    rw [ha] at h
    rw [State.retried, hre, show (0 + 1) * s.cfg.kwTimeoutMs = s.cfg.kwTimeoutMs by omega,
      show (0 + 1) * (3 * s.cfg.kwTimeoutMs + 18) = 3 * s.cfg.kwTimeoutMs + 18 by omega]
    exact h
  | succ j ih =>
    intro hj hs hu
    have hre := retriedEvents_succ s.cfg a (j + 1)
    rw [hre, List.length_append] at hu
    have h1 := ih (by omega) (fun m hm => hs m (lt_of_lt_of_le hm (Nat.mul_le_mul_right _ (by omega))))
      (hu.mono (Nat.le_add_right _ _))
    let w := s.retried a ⟨(j + 1) % 4, by omega⟩ j
    have hatt : w.attempt.val = j + 1 := by show (j + 1) % 4 = j + 1; omega
    have h2 := RunsIn.retry (c := c) (s := w) a hv
      (by
        intro m hm
        have := hs ((j + 1) * s.cfg.kwTimeoutMs + m) (by
          have : m < s.cfg.kwTimeoutMs := hm
          rw [Nat.add_mul (j + 1) 1]; omega)
        show (Line.mk s.line.rx ((s.line.polls.drop ((j + 1) * s.cfg.kwTimeoutMs)).drop m) _).pollAnswer = false
        rw [List.drop_drop]
        exact this)
      (by rw [hatt]; omega)
      (by rw [hatt]; exact State.undisturbed.congr (State.undisturbed.past (r := s.line.rx) hu) rfl)
    have hat : w.attempt + 1 = (⟨(j + 1 + 1) % 4, by omega⟩ : Fin 4) := by
      apply Fin.ext
      rw [Fin.val_add, hatt]
      rfl
    rw [hatt, hat] at h2
    have h3 := h1.trans h2
    have hst : ({ w.attempting .A (autoBaud (j + 1)) .disconnected
        (silentEvents w.cfg a (autoBaud (j + 1)) ++ [Event.delay w.cfg.retryDelayMs]) w.line.rx
        (w.line.polls.drop w.cfg.kwTimeoutMs) 0 w.cfg.kwTimeoutMs with
        attempt := ⟨(j + 1 + 1) % 4, by omega⟩ } : State) = s.retried a ⟨(j + 1 + 1) % 4, by omega⟩ (j + 1) := by
      unfold State.retried
      rw [hre, show (j + 1 + 1) * s.cfg.kwTimeoutMs = (j + 1) * s.cfg.kwTimeoutMs + s.cfg.kwTimeoutMs by
        rw [Nat.add_mul (j + 1) 1, Nat.one_mul], ← List.drop_drop]
      simp [w, State.retried, State.attempting, elapse_elapse, Memory.forget_forget]
    rw [hst] at h3
    have hcf : w.cfg = s.cfg := rfl
    rw [hcf] at h3
    rwa [show (j + 1 + 1) * (3 * s.cfg.kwTimeoutMs + 18) = (j + 1) * (3 * s.cfg.kwTimeoutMs + 18) +
      (3 * s.cfg.kwTimeoutMs + 18) by rw [Nat.add_mul (j + 1) 1, Nat.one_mul]]

/-! ## The state before an attempt -/

/-- What is left of the command after an attempt. -/
def Attempt.tailOps (a : Byte) : Attempt → List Op
  | .connect _ _ => []
  | .autoconnect _ => [.attemptCatch a]

/-- The value that the hidden variable `attempt` then has. -/
def Attempt.number (s : State) : Attempt → Nat
  | .connect _ _ => s.attempt.val
  | .autoconnect m => m

/-- `w` is the state of the command just before the attempt, which is left with `polls` of the line's answers. -/
structure State.BeforeAttempt (s w : State) (x : Attempt) (a : Byte) (polls : List Bool) : Prop where
  kept : s.KeptByConnect w
  status : w.status = { s.status with busy := true, errCode := w.status.errCode, state := w.status.state }
  line : w.line.rx = s.line.rx ∧ w.line.polls = polls
  history : w.history = (x.earlier s.cfg a).reverse ++ s.history
  inputs : w.inputs = elapse (x.earlier s.cfg a).length s.inputs
  buffers : w.txByte = s.txByte ∧ w.rxByte = s.rxByte ∧ w.rxcount = s.rxcount
  attempt : w.attempt.val = x.number s

/-- Every attempt has a state before it, and what its run then leads to is what its command leads to. -/
theorem exec_attempt {a : Byte} {x : Attempt} {polls : List Bool} (hv : s.cfg.Valid) (hx : x.allowed)
    (hp : s.line.polls = x.earlierPolls s.cfg ++ polls) (hu : s.undisturbed (x.earlier s.cfg a).length) :
    ∃ w, s.BeforeAttempt w x a polls ∧ ∀ n t,
      RunsIn n (w.goto (x.command a) (connectOps s.cfg x.gen a x.baud ++ x.tailOps a)) t → t.canRun = false →
      n ≤ 3 * s.cfg.kwTimeoutMs + 64 * s.line.rx.length + 200 → exec (x.command a) s = .next t := by
  have hburst := State.burst_eq hv
  cases x with
  | connect gen baud =>
    refine ⟨s.started, ⟨⟨rfl, ⟨rfl, rfl, rfl, rfl, rfl⟩, ⟨rfl, rfl⟩, fun a _ _ _ => State.windowByte_congr rfl rfl rfl rfl rfl⟩, rfl,
      ⟨rfl, hp⟩, rfl, (elapse_zero _).symm, ⟨rfl, rfl, rfl⟩, rfl⟩, fun n t h ht hn => ?_⟩
    rw [show connectOps s.cfg (Attempt.connect gen baud).gen a (Attempt.connect gen baud).baud ++ (Attempt.connect gen baud).tailOps a =
      connectOps s.cfg gen a baud from List.append_nil _] at h
    cases gen with
    | A =>
      show Host.Outcome.next (if _ then _ else _) = _
      rw [if_neg (show ¬ baud = 0 from hx)]
      exact congrArg Host.Outcome.next (State.launch_eq h ht (by omega))
    | B =>
      show Host.Outcome.next (if _ then _ else _) = _
      rw [if_neg (show ¬ baud = 0 from hx)]
      exact congrArg Host.Outcome.next (State.launch_eq h ht (by omega))
  | autoconnect m =>
    let s0 : State := State.started { s with attempt := 0 }
    have hrun : ∀ w : State, w.attempt.val = m → w.cfg = s.cfg →
        RunsIn 1 (w.goto (.autoconnect a) [.attemptRun a, .attemptCatch a])
          (w.goto (.autoconnect a) (connectOps s.cfg .A a (autoBaud m) ++ [.attemptCatch a])) := fun w hw hc =>
      RunsIn.silent rfl (by
        show State.push _ (connectOps w.cfg .A a (attemptBaud w.cfg w.attempt)) = _
        rw [hc, attemptBaud_eq hv, hw]
        rfl)
    cases m with
    | zero =>
      have hp' : s.line.polls = polls := by simpa [Attempt.earlierPolls] using hp
      refine ⟨s0, ⟨⟨rfl, ⟨rfl, rfl, rfl, rfl, rfl⟩, ⟨rfl, rfl⟩, fun a _ _ _ => State.windowByte_congr rfl rfl rfl rfl rfl⟩, rfl,
        ⟨rfl, hp'⟩, rfl, (elapse_zero _).symm, ⟨rfl, rfl, rfl⟩, rfl⟩, fun n t h ht hn => ?_⟩
      exact congrArg Host.Outcome.next (State.launch_eq (s := { s with attempt := 0 }) ((hrun s0 rfl rfl).trans h) ht
        (by show 1 + n ≤ s.burst; omega))
    | succ j =>
      have hj : j < 3 := by have : j + 1 < 4 := hx; omega
      have hsil : s0.line.silentFor ((j + 1) * s.cfg.kwTimeoutMs) := by
        intro x hx
        have hd : s.line.polls.drop x = List.replicate ((j + 1) * s.cfg.kwTimeoutMs - x) false ++ polls := by
          rw [hp]
          simp only [Attempt.earlierPolls]
          rw [List.drop_append_of_le_length (by simp; omega), List.drop_replicate]
        show (Line.mk s.line.rx (s.line.polls.drop x) _).pollAnswer = false
        rw [hd, show (j + 1) * s.cfg.kwTimeoutMs - x = ((j + 1) * s.cfg.kwTimeoutMs - x - 1) + 1 by omega]
        rfl
      have h1 := RunsIn.retries (s := s0) (c := .autoconnect a) a hv rfl j hj hsil (State.undisturbed.congr hu rfl)
      let w := s0.retried a ⟨(j + 1) % 4, by omega⟩ j
      have hwa : w.attempt.val = j + 1 := by show (j + 1) % 4 = j + 1; omega
      have K := State.attempting_kept (s := s0) .A (autoBaud j) .disconnected (retriedEvents s0.cfg a (j + 1)) s0.line.rx
          (s0.line.polls.drop ((j + 1) * s0.cfg.kwTimeoutMs)) 0 s0.cfg.kwTimeoutMs
      refine ⟨w, ⟨⟨K.cfg, K.registers, K.chunks, K.windows⟩, rfl, ⟨rfl, ?_⟩, rfl, rfl, ⟨?_, ?_, rfl⟩, hwa⟩, fun n t h ht hn => ?_⟩
      · show s.line.polls.drop ((j + 1) * s.cfg.kwTimeoutMs) = _
        rw [hp]
        exact List.drop_left' (List.length_replicate ..)
      · exact State.attempting_txByte (s := s0) .A (autoBaud j) .disconnected (retriedEvents s0.cfg a (j + 1)) s0.line.rx
          (s0.line.polls.drop ((j + 1) * s0.cfg.kwTimeoutMs)) 0 s0.cfg.kwTimeoutMs
      · exact State.attempting_rxByte (s := s0) .A (autoBaud j) .disconnected (retriedEvents s0.cfg a (j + 1)) s0.line.rx
          (s0.line.polls.drop ((j + 1) * s0.cfg.kwTimeoutMs)) 0 s0.cfg.kwTimeoutMs
      · refine congrArg Host.Outcome.next (State.launch_eq (s := { s with attempt := 0 })
          ((h1.trans (hrun w hwa rfl)).trans h) ht ?_)
        show (j + 1) * (3 * s.cfg.kwTimeoutMs + 18) + 1 + n ≤ s.burst
        have : (j + 1) * (3 * s.cfg.kwTimeoutMs + 18) ≤ 3 * (3 * s.cfg.kwTimeoutMs + 18) := Nat.mul_le_mul_right _ (by omega)
        omega

/-! ## Where an attempt ends -/

/-- After the last state of an attempt the command completes OK. -/
theorem RunsIn.attemptDone {x : Attempt} {a : Byte} :
    ∃ n, n ≤ 2 ∧ RunsIn n (s.goto (x.command a) (x.tailOps a)) (s.complete .ok) := by
  cases x with
  | connect gen baud => exact ⟨1, by omega, RunsIn.done⟩
  | autoconnect m =>
    have h : RunsIn 1 (s.goto (.autoconnect a) [.attemptCatch a]) (s.goto (.autoconnect a) []) := RunsIn.silent rfl rfl
    exact ⟨2, by omega, h.trans RunsIn.done⟩

/-- A confirmation whose echo is wrong (R186, R264). -/
theorem RunsIn.wrongConfirmation {c : Instr} {rest : List Op} {gen : Gen} {baud : Half} {es : List Event} {polls : List Bool}
    {r : List Byte} {pos : Fin 4} {e : Nat} {b : Byte} (hb : b ≠ confirmByte) (hu : s.undisturbed (es.length + 4)) :
    RunsIn 5 ((s.attempting gen baud .awaitingKeyword es (b :: r) polls pos e).goto c
        (confirmingOps s.cfg ++ (.identityStart :: rest)))
      ((s.attempting gen baud .confirming (es ++
        [.delay s.cfg.settleMs, .delay s.cfg.interbyteMs, .send confirmByte, .recv b]) r polls pos e).raiseFatal
          .echo confirmByte b) := by
  let s0 := s.attempting gen baud .awaitingKeyword es (b :: r) polls pos e
  have hu0 : s0.undisturbed 4 := State.undisturbed.congr (State.undisturbed.past (r := s.line.rx) hu) rfl
  have h1 : RunsIn 1 (s0.goto c (confirmingOps s.cfg ++ (.identityStart :: rest)))
      ((s0.setSession .confirming).goto c (.delay s.cfg.settleMs :: (sendEchoOps s.cfg confirmByte ++ (.setState .exchangingIdentity :: .identityStart :: rest)))) :=
    RunsIn.silent rfl (by simp [State.doOp]; rfl)
  have h2 : RunsIn 1 ((s0.setSession .confirming).goto c (.delay s.cfg.settleMs :: (sendEchoOps s.cfg confirmByte ++ (.setState .exchangingIdentity :: .identityStart :: rest))))
      (((s0.setSession .confirming).past [.delay s.cfg.settleMs] (b :: r)).goto c (sendEchoOps s.cfg confirmByte ++ (.setState .exchangingIdentity :: .identityStart :: rest))) :=
    RunsIn.act (by simp) (State.undisturbed.congr (hu0.mono (by omega)) rfl) rfl
  have h3 := RunsIn.sendEchoTo (s := (s0.setSession .confirming).past [.delay s.cfg.settleMs] (b :: r)) (c := c)
    (rest := .setState .exchangingIdentity :: .identityStart :: rest) (b := confirmByte) (e := b) (r := r)
    (State.undisturbed.past (State.undisturbed.congr hu0 rfl)) rfl
    (if_neg (show ¬ b = confirmByte from hb))
  rw [State.past_past] at h3
  have hfin : (s0.setSession .confirming).past ([.delay s.cfg.settleMs] ++ [.delay s.cfg.interbyteMs, .send confirmByte, .recv b]) r =
      s.attempting gen baud .confirming (es ++
        [.delay s.cfg.settleMs, .delay s.cfg.interbyteMs, .send confirmByte, .recv b]) r polls pos e := by
    simp [s0, State.setSession, State.attempting, State.past, elapse_elapse]
  have h4 := (h1.trans h2).trans h3
  rw [← hfin]
  exact h4

/-- The titles that R190 asks for: identification blocks, and then the ACK. -/
def identityTitle (cfg : Config) (j : Nat) : Byte := if j < 4 then cfg.titleAscii else cfg.titleAck

/-- A block of the identity exchange with another title, but for the early ACK of R189 (R190, R264). -/
theorem RunsIn.wrongTitle {c : Instr} {rest : List Op} {j : Nat} {k title : Byte} {payload r : List Byte} (hv : s.cfg.Valid)
    (hj : j < 4 → s.idIndex.val = j) (hp : payload.length + 4 ≤ s.cfg.maxBlock)
    (hk : s.session.firstSeen = false ∨ k = s.session.counter + 1) (ht : title ≠ identityTitle s.cfg j)
    (hne : ¬(j = 0 ∧ title = s.cfg.titleAck ∧ s.session.gen = s.cfg.earlyAckGen))
    (hu : s.undisturbed ((block k title payload).eventsHeard s.cfg).length)
    (hrx : s.line.rx = (block k title payload).answersHeard ++ r) :
    ∃ n, n ≤ 6 * payload.length + 30 ∧ RunsIn n (s.goto c (identityOps s.cfg j rest))
      ((s.heard (block k title payload).1 (block k title payload).2 r).raiseFatal .title (identityTitle s.cfg j) title) := by
  have hm := hv.maxBlock_le
  have hp' : payload.length + 4 ≤ 256 := by omega
  have hb : (block k title payload).2.length < 256 := by rw [block_body_length]; omega
  have hh : s.Hears (block k title payload).1 (block k title payload).2 :=
    ⟨by rw [block_length_toNat hp', block_body_length], by rw [block_length_toNat hp']; omega, hk⟩
  have hrt : (s.heard (block k title payload).1 (block k title payload).2 r).rxByte 2 = title :=
    State.heard_rxByte hb (by rw [block_body_length]; omega)
  have hix := State.heard_idIndex (s := s) (block k title payload).1 (block k title payload).2 r
  have hse := State.heard_session (s := s) (block k title payload).1 (block k title payload).2 r
  have hcf := State.heard_cfg (s := s) (block k title payload).1 (block k title payload).2 r
  have key : ∀ ops, RunsIn 1 ((s.heard (block k title payload).1 (block k title payload).2 r).goto c
      (if j < 4 then .identityCheck :: ops else .checkTitle s.cfg.titleAck :: ops))
      ((s.heard (block k title payload).1 (block k title payload).2 r).raiseFatal .title (identityTitle s.cfg j) title) := by
    intro ops
    generalize s.heard (block k title payload).1 (block k title payload).2 r = u at *
    by_cases h4 : j < 4
    · rw [if_pos h4]
      simp only [identityTitle, if_pos h4] at ht ⊢
      refine RunsIn.silent rfl ?_
      show State.identityCheck (u.goto c ops) = _
      have c1 : ¬(u.idIndex = 0 ∧ u.rxByte 2 = u.cfg.titleAck ∧ u.session.gen = u.cfg.earlyAckGen) := by
        rintro ⟨e1, e2, e3⟩
        rw [hrt, hcf] at e2
        rw [hse, hcf] at e3
        refine hne ⟨?_, e2, e3⟩
        rw [← hj h4, ← hix, e1]; rfl
      refine (if_neg c1).trans ((if_pos (show u.rxByte 2 ≠ u.cfg.titleAscii by rw [hrt, hcf]; exact ht)).trans ?_)
      show State.raiseFatal _ _ u.cfg.titleAscii (u.rxByte 2) = _
      rw [hrt, hcf]
      rfl
    · rw [if_neg h4]
      simp only [identityTitle, if_neg h4] at ht ⊢
      refine RunsIn.silent rfl ?_
      refine (if_neg (show ¬ u.rxByte 2 = s.cfg.titleAck by rw [hrt]; exact ht)).trans ?_
      show State.raiseFatal _ _ s.cfg.titleAck (u.rxByte 2) = _
      rw [hrt]
      rfl
  have hops : identityOps s.cfg j rest = .recvBlock :: (if j < 4 then .identityCheck :: (if j < 4 then rest else .setState .ready :: rest)
      else .checkTitle s.cfg.titleAck :: (if j < 4 then rest else .setState .ready :: rest)) := by
    unfold identityOps
    split <;> rfl
  rw [hops]
  obtain ⟨n, hn, h1⟩ := RunsIn.recvBlock (c := c)
    (rest := if j < 4 then .identityCheck :: (if j < 4 then rest else .setState .ready :: rest)
      else .checkTitle s.cfg.titleAck :: (if j < 4 then rest else .setState .ready :: rest)) hh hu hrx
  exact ⟨n + 1, by rw [block_body_length] at hn; omega, h1.trans (key _)⟩

/-! ## Where a command pauses -/

/-- A command whose next line makes an event pauses when an input is due. -/
theorem State.canRun_of_due {c : Instr} {op : Op} {rest : List Op} {m : Input} {later : List (Nat × Input)}
    (hop : op.isEvent = true) (hi : s.inputs = (0, m) :: later) : (s.goto c (op :: rest)).canRun = false := by
  have hd : (s.goto c (op :: rest)).inputDue = true := by simp [State.inputDue, hi]
  simp [State.canRun, hop, hd]

/-- A command whose next line is a `Recv()` pauses when the line has no byte (R22). -/
theorem State.canRun_of_empty {c : Instr} {use : RecvUse} {rest : List Op} (hl : s.line.rx = []) :
    (s.goto c (.recv use :: rest)).canRun = false := by
  have hb : (s.goto c (.recv use :: rest)).blocked = true := by simp [State.blocked, hl]
  simp [State.canRun, hb]

/-- The inputs that are left once `n` events have happened before the first of them. -/
theorem elapse_due {n k : Nat} {m : Input} {later : List (Nat × Input)} (hi : s.inputs = (n + k, m) :: later) :
    elapse n s.inputs = (k, m) :: later := by
  rw [hi]; simp [elapse]

theorem State.undisturbed_of_due {n k : Nat} {m : Input} {later : List (Nat × Input)} (hi : s.inputs = (k, m) :: later)
    (hn : n ≤ k) : s.undisturbed n := by
  intro p hp
  rw [hi] at hp
  cases hp
  exact hn

/-! ## The state inside an attempt -/

/-- `z` is the state of the command `s` started, inside the attempt `x`, after these events of the command: STATE is `v`, and
the line has `r` and `polls` left. -/
structure State.InAttempt (s z : State) (x : Attempt) (v : SessionState) (es : List Event) (r : List Byte) (polls : List Bool) : Prop where
  kept : s.KeptByConnect z
  status : z.status = { s.status with busy := true, errCode := .none, state := v }
  errinfo : z.errinfo = ⟨0, 0⟩
  session : z.session = ⟨0, false, x.gen, x.baud⟩
  lineMode : z.lineMode = .transport
  history : z.history = es.reverse ++ s.history
  inputs : z.inputs = elapse es.length s.inputs
  line : z.line = ⟨r, polls, x.baud.toNat⟩
  ids : ∀ i < idBytes, z.idByte i = 0
  buffers : z.txByte = s.txByte ∧ z.rxByte = s.rxByte ∧ z.rxcount = s.rxcount
  attempt : z.attempt.val = x.number s

theorem State.InAttempt.of_before {w : State} {x : Attempt} {a : Byte} {polls0 polls : List Bool} {r : List Byte} {pos : Fin 4} {e : Nat} (v : SessionState) (es : List Event)
   (h : s.BeforeAttempt w x a polls0) : s.InAttempt (w.attempting x.gen x.baud v es r polls pos e) x v (x.earlier s.cfg a ++ es) r polls where
  kept := h.kept.trans (State.attempting_kept ..)
  status := by
    show { w.status with errCode := .none, state := v } = _
    rw [h.status]
  errinfo := rfl
  session := rfl
  lineMode := rfl
  history := by
    show es.reverse ++ w.history = _
    rw [h.history, List.reverse_append, List.append_assoc]
  inputs := by
    show elapse es.length w.inputs = _
    rw [h.inputs, elapse_elapse, List.length_append]
  line := rfl
  ids := fun i hi => State.attempting_idByte _ _ _ _ _ _ _ _ hi
  buffers := ⟨(State.attempting_txByte ..).trans h.buffers.1, (State.attempting_rxByte ..).trans h.buffers.2.1, h.buffers.2.2⟩
  attempt := h.attempt

theorem State.InAttempt.undisturbed {x : Attempt} {z : State} {v es r polls} {n : Nat} (h : s.InAttempt z x v es r polls) (hu : s.undisturbed (es.length + n)) : z.undisturbed n :=
  State.undisturbed.congr (State.undisturbed.past (r := s.line.rx) hu) h.inputs

/-- Once the keyword has come, what an attempt's run leads to from its confirmation on is what its command leads to. -/
theorem exec_to_confirmation {x : Attempt} {a : Byte} {answers : KeywordAnswers} {polls : List Bool} {r : List Byte}
    (hv : s.cfg.Valid) (hx : x.allowed) (hf : KeywordFound (waitBound s.cfg x.gen) answers)
    (hp : s.line.polls = x.earlierPolls s.cfg ++ waitPolls x.gen answers ++ polls) (hrx : s.line.rx = keywordBytes answers ++ r)
    (hu : s.undisturbed (x.toConfirm s.cfg a answers).length) :
    ∃ w e, s.InAttempt (w.attempting x.gen x.baud .awaitingKeyword (.configure x.baud :: frameEvents s.cfg a ++ waitEvents x.gen answers) r polls 3 e)
        x .awaitingKeyword (x.toConfirm s.cfg a answers) r polls ∧ s.BeforeAttempt w x a (waitPolls x.gen answers ++ polls) ∧
      ∀ n t, RunsIn n ((w.attempting x.gen x.baud .awaitingKeyword (.configure x.baud :: frameEvents s.cfg a ++ waitEvents x.gen answers) r polls 3 e).goto (x.command a)
          (confirmingOps s.cfg ++ (.identityStart :: x.tailOps a))) t → t.canRun = false → n ≤ 64 * r.length + 100 →
        exec (x.command a) s = .next t := by
  have hlen : (x.toConfirm s.cfg a answers).length = (x.earlier s.cfg a).length + (.configure x.baud :: frameEvents s.cfg a ++ waitEvents x.gen answers : List Event).length := by
    simp [Attempt.toConfirm, Attempt.toWait]
  rw [hlen] at hu
  rw [List.append_assoc] at hp
  obtain ⟨w, hw, hrun⟩ := exec_attempt (a := a) hv hx hp (hu.mono (Nat.le_add_right _ _))
  have hcf : w.cfg = s.cfg := hw.kept.cfg
  obtain ⟨n0, e, hn0, h0⟩ := RunsIn.upToConfirm (s := w) (c := x.command a) (rest := x.tailOps a) (gen := x.gen) (a := a) (baud := x.baud) (answers := answers) (polls := polls) (r := r)
    (hcf ▸ hv) ⟨by rw [hcf]; exact hf, hw.line.2, by rw [hw.line.1]; exact hrx⟩
    (by rw [hcf]; exact State.undisturbed.congr (State.undisturbed.past (r := s.line.rx) hu) hw.inputs)
  rw [hcf] at h0 hn0
  refine ⟨w, e, ?_, hw, fun n t h ht hn => hrun (n0 + n) t (h0.trans h) ht ?_⟩
  · have := State.InAttempt.of_before (pos := 3) (e := e) (r := r) (polls := polls) .awaitingKeyword (.configure x.baud :: frameEvents s.cfg a ++ waitEvents x.gen answers) hw
    rwa [show x.earlier s.cfg a ++ (.configure x.baud :: frameEvents s.cfg a ++ waitEvents x.gen answers) = x.toConfirm s.cfg a answers by
      simp [Attempt.toConfirm, Attempt.toWait]] at this
  · rw [hrx, List.length_append]; omega

theorem State.InAttempt.withIdIndex {x : Attempt} {z : State} {v es r polls} (i : Fin 4) (h : s.InAttempt z x v es r polls) : s.InAttempt { z with idIndex := i } x v es r polls :=
  ⟨⟨h.kept.cfg, h.kept.registers, h.kept.chunks, h.kept.windows⟩, h.status, h.errinfo, h.session, h.lineMode, h.history, h.inputs, h.line, h.ids, h.buffers, h.attempt⟩

/-- Once the confirmation was echoed, what an attempt's run leads to from its identity exchange on is what its command
leads to. -/
theorem exec_to_identity {x : Attempt} {a : Byte} {answers : KeywordAnswers} {polls : List Bool} {r : List Byte}
    (hv : s.cfg.Valid) (hx : x.allowed) (hf : KeywordFound (waitBound s.cfg x.gen) answers)
    (hp : s.line.polls = x.earlierPolls s.cfg ++ waitPolls x.gen answers ++ polls) (hrx : s.line.rx = keywordBytes answers ++ confirmByte :: r)
    (hu : s.undisturbed (x.toIdentity s.cfg a answers).length) :
    ∃ z, s.InAttempt z x .exchangingIdentity (x.toIdentity s.cfg a answers) r polls ∧ z.idIndex.val = 0 ∧ 
      ∀ n t, RunsIn n (z.goto (x.command a) (identityOps s.cfg 0 (x.tailOps a))) t → t.canRun = false → n ≤ 64 * r.length + 150 →
        exec (x.command a) s = .next t := by
  have hlen : (x.toIdentity s.cfg a answers).length = (x.toConfirm s.cfg a answers).length + 4 := by
    simp [Attempt.toIdentity, confirmEvents]
  rw [hlen] at hu
  obtain ⟨w, e, hph, hw, hrun⟩ := exec_to_confirmation hv hx hf hp hrx (hu.mono (Nat.le_add_right _ _))
  have hcf : w.cfg = s.cfg := hw.kept.cfg
  have hu' : w.undisturbed ((.configure x.baud :: frameEvents s.cfg a ++ waitEvents x.gen answers : List Event).length + 4) := by
    refine State.undisturbed.congr (State.undisturbed.past (es := x.earlier s.cfg a) (r := s.line.rx) ?_) hw.inputs
    refine hu.mono (Nat.le_of_eq ?_)
    simp [Attempt.toConfirm, Attempt.toWait]
    omega
  have h1 := RunsIn.confirming (s := w) (c := x.command a) (rest := x.tailOps a) (gen := x.gen) (baud := x.baud)
    (es := .configure x.baud :: frameEvents s.cfg a ++ waitEvents x.gen answers) (polls := polls) (r := r) (pos := 3) (e := e) hu'
  rw [hcf] at h1
  refine ⟨_, State.InAttempt.withIdIndex 0 ?_, rfl, fun n t h ht hn => hrun (7 + n) t (h1.trans h) ht ?_⟩
  · have := State.InAttempt.of_before (pos := 3) (e := e) (r := r) (polls := polls) .exchangingIdentity (.configure x.baud :: frameEvents s.cfg a ++ waitEvents x.gen answers ++ confirmEvents s.cfg) hw
    rwa [show x.earlier s.cfg a ++ (.configure x.baud :: frameEvents s.cfg a ++ waitEvents x.gen answers ++ confirmEvents s.cfg) = x.toIdentity s.cfg a answers by
      simp [Attempt.toIdentity, Attempt.toConfirm, Attempt.toWait]] at this
  · rw [List.length_cons]; omega

/-! ## Parts of an attempt -/

/-- A line of pseudocode that makes this event and changes neither `STATUS` nor the line's bytes. -/
structure OnlyEvent (op : Op) (e : Event) : Prop where
  isEvent : op.isEvent = true
  noRecv : ∀ use, op ≠ .recv use
  effect : ∀ u : State, (u.doOp op).status = u.status ∧ (u.doOp op).history = e :: u.history ∧
    (u.doOp op).inputs = elapse 1 u.inputs ∧ (u.doOp op).pc = u.pc ∧ (u.doOp op).line.rx = u.line.rx

/-- The first `n` of some lines that each only make an event. -/
theorem RunsIn.eventsOnly {c : Instr} {rest : List Op} (ops : List (Op × Event)) : ∀ {s : State} (n : Nat), n ≤ ops.length →
    (∀ p ∈ ops, OnlyEvent p.1 p.2) →
    s.undisturbed n →
    ∃ t : State, RunsIn n (s.goto c (ops.map Prod.fst ++ rest)) (t.goto c ((ops.map Prod.fst).drop n ++ rest)) ∧ t.status = s.status ∧
      t.history = ((ops.map Prod.snd).take n).reverse ++ s.history ∧ t.inputs = elapse n s.inputs ∧ t.line.rx = s.line.rx := by
  induction ops with
  | nil =>
    intro s n hn _ hu
    have : n = 0 := by simpa using hn
    subst this
    exact ⟨s, RunsIn.refl _, rfl, rfl, (elapse_zero _).symm, rfl⟩
  | cons p ps ih =>
    intro s n hn hops hu
    cases n with
    | zero => exact ⟨s, RunsIn.refl _, rfl, rfl, (elapse_zero _).symm, rfl⟩
    | succ n =>
      obtain ⟨-, h2, h3⟩ := hops p (by simp)
      obtain ⟨a1, a2, a3, a4, a5⟩ := h3 (s.goto c (ps.map Prod.fst ++ rest))
      let u := (s.goto c (ps.map Prod.fst ++ rest)).doOp p.1
      have r1 : RunsIn 1 (s.goto c (p.1 :: (ps.map Prod.fst ++ rest))) (u.goto c (ps.map Prod.fst ++ rest)) :=
        RunsIn.act h2 (hu.mono (by omega)) (by
          show u = _
          have : u.pc = .running c (ps.map Prod.fst ++ rest) := a4
          unfold State.goto
          rw [← this])
      have hu' : u.undisturbed n := State.undisturbed.congr (State.undisturbed.past (es := [p.2]) (r := s.line.rx) (hu.mono (by simp; omega))) a3
      obtain ⟨t, r2, b1, b2, b3, b4⟩ := ih (s := u) n (by simpa using hn) (fun q hq => hops q (List.mem_cons_of_mem _ hq)) hu'
      refine ⟨t, ?_, b1.trans a1, ?_, ?_, b4.trans a5⟩
      · have := r1.trans r2
        rw [Nat.add_comm] at this
        exact this
      · rw [b2, show u.history = p.2 :: s.history from a2]
        simp
      · rw [b3, show u.inputs = elapse 1 s.inputs from a3, elapse_elapse, Nat.add_comm]

/-- The lines that open an attempt (R182), each with its event. -/
def openingEvents (cfg : Config) (a : Byte) (baud : Half) : List (Op × Event) :=
  (.configure baud, .configure baud) :: (.lineAcquire, .lineAcquire) ::
    ((wakeupBits cfg a).map (fun v => (Op.lineHold v cfg.bitMs, Event.lineHold v cfg.bitMs)) ++ [(.lineRelease, .lineRelease)])

theorem openingEvents_fst (cfg a baud) : (openingEvents cfg a baud).map Prod.fst = .configure baud :: frameOps cfg a := by
  simp [openingEvents, frameOps, Function.comp_def]
theorem openingEvents_snd (cfg a baud) : (openingEvents cfg a baud).map Prod.snd = .configure baud :: frameEvents cfg a := by
  simp [openingEvents, frameEvents, Function.comp_def]

theorem openingEvents_plain (cfg a baud) : ∀ p ∈ openingEvents cfg a baud, OnlyEvent p.1 p.2 := by
  intro p hp
  simp only [openingEvents, List.mem_cons, List.mem_append, List.mem_map, List.not_mem_nil, or_false] at hp
  rcases hp with rfl | rfl | ⟨v, -, rfl⟩ | rfl <;> exact ⟨rfl, by simp, fun u => ⟨rfl, rfl, rfl, rfl, rfl⟩⟩

/-- Generation A's keyword wait, the keyword not matched yet (R184). -/
theorem RunsIn.pendingA {c : Instr} {rest : List Op} {polls : List Bool} {r : List Byte} (answers : KeywordAnswers) :
    ∀ {s : State}, 
    (∀ n ≤ answers.length, keywordFrom s.kwPos (answers.take n) ≠ 3) →
    s.kwElapsed + answers.count none < s.cfg.kwTimeoutMs → s.line.polls = keywordPolls answers ++ polls →
    s.line.rx = keywordBytes answers ++ r → s.undisturbed (keywordEvents answers).length →
    ∃ n, n ≤ 3 * answers.count none + 2 * (keywordBytes answers).length ∧
      RunsIn n (s.goto c (.poll :: rest))
        ((s.waited (keywordEvents answers) r polls (keywordFrom s.kwPos answers) (s.kwElapsed + answers.count none)).goto c (.poll :: rest)) := by
  induction answers with
  | nil =>
    intro s _ _ hp hrx _
    refine ⟨0, by omega, ?_⟩
    have : s.waited (keywordEvents []) r polls (keywordFrom s.kwPos []) (s.kwElapsed + List.count none ([] : KeywordAnswers)) = s := by
      have e1 : s.line.polls = polls := hp
      have e2 : s.line.rx = r := hrx
      subst e1; subst e2
      simp [State.waited, State.past, keywordEvents, keywordFrom, elapse_zero]
    rw [this]
    exact RunsIn.refl _
  | cons a as ih =>
    intro s h3 h4 hp hrx hu
    cases a with
    | none =>
      simp only [List.count_cons_self] at h4 ⊢
      have e1 : keywordEvents (none :: as) = [.poll false, .delay 1] ++ keywordEvents as := rfl
      rw [e1, List.length_append] at hu
      have a1 := RunsIn.emptyPoll (c := c) (rest := rest) (s := s) (hu.mono (by simp)) (Line.pollAnswer_false hp) (by omega)
      rw [hp] at a1
      have hrx' : s.line.rx = keywordBytes as ++ r := hrx
      obtain ⟨n, hn, a2⟩ := ih (s := s.waited [.poll false, .delay 1] s.line.rx (keywordPolls as ++ polls) s.kwPos (s.kwElapsed + 1))
        (fun n hn => h3 (n + 1) (by simpa using hn)) (by show s.kwElapsed + 1 + _ < s.cfg.kwTimeoutMs; omega) rfl hrx'
        (State.undisturbed.waited hu)
      rw [State.waited_waited, ← e1] at a2
      refine ⟨3 + n, ?_, ?_⟩
      · show _ ≤ _ + 2 * (keywordBytes as).length; omega
      · have e2 : s.kwElapsed + (as.count none + 1) = s.kwElapsed + 1 + as.count none := by omega
        rw [e2]
        exact a1.trans a2
    | some b =>
      have hc : (some b :: as).count none = as.count none := List.count_cons_of_ne (by simp)
      rw [hc] at h4 ⊢
      have e1 : keywordEvents (some b :: as) = [.poll true, .recv b] ++ keywordEvents as := rfl
      rw [e1, List.length_append] at hu
      have a1 := RunsIn.polledByte (c := c) (rest := rest) (polls := keywordPolls as ++ polls) (s := s) (b := b)
        (r := keywordBytes as ++ r) (hu.mono (by simp)) hp hrx
      have hb : (keywordBytes (some b :: as)).length = (keywordBytes as).length + 1 := rfl
      have hm : keywordStep s.kwPos b ≠ 3 := h3 1 (by simp)
      rw [if_neg hm] at a1
      obtain ⟨n, hn, a2⟩ := ih (s := s.waited [.poll true, .recv b] (keywordBytes as ++ r) (keywordPolls as ++ polls)
          (keywordStep s.kwPos b) s.kwElapsed)
        (fun n hn => h3 (n + 1) (by simpa using hn)) h4 rfl rfl (State.undisturbed.waited hu)
      rw [State.waited_waited, ← e1] at a2
      exact ⟨2 + n, by rw [hb]; omega, a1.trans a2⟩

/-- Generation B's keyword wait, the keyword not matched yet (R185). -/
theorem RunsIn.pendingB {c : Instr} {rest : List Op} {r : List Byte} (bytes : List Byte) :
    ∀ {s : State}, (∀ n ≤ bytes.length, keywordFrom s.kwPos ((bytes.map some).take n) ≠ 3) →
    s.line.rx = bytes ++ r → s.undisturbed bytes.length →
    RunsIn bytes.length (s.goto c (.recv (.keyword .B) :: rest))
      ((s.waited (bytes.map .recv) r s.line.polls (keywordFrom s.kwPos (bytes.map some)) s.kwElapsed).goto c (.recv (.keyword .B) :: rest)) := by
  induction bytes with
  | nil =>
    intro s _ hrx _
    have : s.waited (([] : List Byte).map .recv) r s.line.polls (keywordFrom s.kwPos (([] : List Byte).map some)) s.kwElapsed = s := by
      have e2 : s.line.rx = r := hrx
      subst e2
      simp [State.waited, State.past, keywordFrom, elapse_zero]
    rw [this]
    exact RunsIn.refl _
  | cons b bs ih =>
    intro s h3 hrx hu
    have hm : keywordStep s.kwPos b ≠ 3 := h3 1 (by simp)
    have a1 : RunsIn 1 (s.goto c (.recv (.keyword .B) :: rest))
        ((s.waited [.recv b] (bs ++ r) s.line.polls (keywordStep s.kwPos b) s.kwElapsed).goto c (.recv (.keyword .B) :: rest)) :=
      RunsIn.recv (b := b) (r := bs ++ r) (hu.mono (by simp)) hrx (by
        show State.keywordReceived _ .B b = _
        unfold State.keywordReceived
        exact (if_neg hm).trans rfl)
    have a2 := ih (s := s.waited [.recv b] (bs ++ r) s.line.polls (keywordStep s.kwPos b) s.kwElapsed)
        (fun n hn => h3 (n + 1) (by simpa using hn)) rfl (State.undisturbed.waited (es := [.recv b]) (hu.mono (by simp; omega)))
    rw [State.waited_waited] at a2
    have := a1.trans a2
    rwa [Nat.add_comm] at this

/-- The first `n` events of the confirmation (R186). -/
theorem RunsIn.confirmingPart {c : Instr} {rest : List Op} {gen : Gen} {baud : Half} {es : List Event} {polls : List Bool}
    {r : List Byte} {pos : Fin 4} {e : Nat} (n : Nat) (hn : n ≤ 3) (hu : s.undisturbed (es.length + n)) :
    ∃ u : State, ∃ op ops, RunsIn (1 + n) ((s.attempting gen baud .awaitingKeyword es r polls pos e).goto c
        (confirmingOps s.cfg ++ (.identityStart :: rest))) (u.goto c (op :: ops)) ∧ op.isEvent = true ∧ (n = 3 → ∃ use, op = .recv use) ∧
      u.line.rx = r ∧ u.status = { s.status with errCode := .none, state := .confirming } ∧
      u.history = (es ++ (confirmEvents s.cfg).take n).reverse ++ s.history ∧ u.inputs = elapse (es.length + n) s.inputs := by
  let s0 := s.attempting gen baud .awaitingKeyword es r polls pos e
  have hu0 : s0.undisturbed n := State.undisturbed.congr (State.undisturbed.past (r := s.line.rx) hu) rfl
  have h1 : RunsIn 1 (s0.goto c (confirmingOps s.cfg ++ (.identityStart :: rest)))
      ((s0.setSession .confirming).goto c (.delay s.cfg.settleMs :: .delay s.cfg.interbyteMs :: .send confirmByte :: .recv (.echo confirmByte) :: (.setState .exchangingIdentity :: .identityStart :: rest))) :=
    RunsIn.silent rfl (by simp [State.doOp]; rfl)
  let ops : List (Op × Event) := [(.delay s.cfg.settleMs, .delay s.cfg.settleMs), (.delay s.cfg.interbyteMs, .delay s.cfg.interbyteMs), (.send confirmByte, .send confirmByte)]
  obtain ⟨t, h2, b1, b2, b3, b4⟩ := RunsIn.eventsOnly (c := c) (rest := .recv (.echo confirmByte) :: (.setState .exchangingIdentity :: .identityStart :: rest)) ops (s := s0.setSession .confirming) n hn
    (by
      intro p hp
      simp only [ops, List.mem_cons, List.not_mem_nil, or_false] at hp
      rcases hp with rfl | rfl | rfl <;> exact ⟨rfl, by simp, fun u => ⟨rfl, rfl, rfl, rfl, rfl⟩⟩) (State.undisturbed.congr hu0 rfl)
  have hst : t.status = { s.status with errCode := .none, state := .confirming } := b1
  have hh : t.history = (es ++ (confirmEvents s.cfg).take n).reverse ++ s.history := by
    rw [b2]
    show _ ++ (es.reverse ++ s.history) = _
    rw [List.reverse_append, List.append_assoc]
    congr 2
    match n, hn with
    | 0, _ => rfl
    | 1, _ => rfl
    | 2, _ => rfl
    | 3, _ => rfl
  have hin : t.inputs = elapse (es.length + n) s.inputs := by
    rw [b3]; show elapse n (elapse es.length s.inputs) = _; rw [elapse_elapse]
  have h3 := h1.trans h2
  match n, hn with
  | 0, _ => exact ⟨t, _, _, h3, rfl, fun h => absurd h (by decide), b4, hst, hh, hin⟩
  | 1, _ => exact ⟨t, _, _, h3, rfl, fun h => absurd h (by decide), b4, hst, hh, hin⟩
  | 2, _ => exact ⟨t, _, _, h3, rfl, fun h => absurd h (by decide), b4, hst, hh, hin⟩
  | 3, _ => exact ⟨t, _, _, h3, rfl, fun _ => ⟨_, rfl⟩, b4, hst, hh, hin⟩

end Sys2Proof.Machine
end

