-- ==== Sys2Proof/Laws/Interrupt.lean ====
section
/-! SUPPORT. An identity exchange that an input interrupts: until the input is due it goes as it goes undisturbed, and STATE names its step (rules R65, R180). -/

namespace Sys2Proof.Machine

variable {s t u : State}

/-- The same block with nothing to come from outside. -/
def State.alone (s : State) : State := { s with inputs := [] }

/-- A line of pseudocode that belongs to the sending or the receiving of a block. -/
def Op.exchanges : Op → Bool
  | .delay _ | .send _ | .fillTx _ | .sendBlock | .sendFrom _ _ | .recvBlock | .storeLength _ | .recvFrom _
  | .storeByte _ _ | .checkTitle _ => true
  | .recv use => match use with
    | .echo _ | .complement _ | .length | .reply _ | .last _ => true
    | .plainResult | .complResult | .keyword _ => false
  | .configure _ | .lineAcquire | .lineHold _ _ | .lineRelease | .poll | .attemptStart _ | .setState _ | .keywordStart _
  | .keywordTick | .identityStart | .identityCheck | .identityNext | .attemptRun _ | .attemptCatch _ | .memRead _ _ _
  | .memLoop _ | .appendPayload | .memAdvance _ | .resultMemlen | .resultPayload _ | .resultMembuf _ => false

/-- Only the end of an autoconnect attempt is left. -/
def onlyCatch (todo : List Op) : Prop := ∀ op ∈ todo, ∃ a, op = .attemptCatch a

/-- The pseudocode left inside an identity exchange: a block under way, then what R190 says to do with it. -/
def exchanging : List Op → Prop
  | [] => False
  | op :: rest => (op.exchanges = true ∧ exchanging rest) ∨
    ((op = .identityCheck ∨ op = .identityNext ∨ op = .setState .ready) ∧ onlyCatch rest)

theorem exchanging_append {ops rest : List Op} (ho : ∀ op ∈ ops, op.exchanges = true) (hr : exchanging rest) :
    exchanging (ops ++ rest) := by
  induction ops with
  | nil => exact hr
  | cons op ops ih => exact .inl ⟨ho op (by simp), ih fun q hq => ho q (List.mem_cons_of_mem _ hq)⟩

theorem State.setTxAll_alone (l : List (Nat × Byte)) : ∀ s : State, s.alone.setTxAll l = (s.setTxAll l).alone := by
  induction l with
  | nil => exact fun _ => rfl
  | cons p ps ih => exact fun s => ih (s.setTx p.1 p.2)

/-- What one line of an identity exchange does: it ends FATAL, or it makes its event, if it is one, and the exchange goes
on with STATE as it was, or is done. What comes from outside plays no part in it. -/
structure State.MovesTo (s t : State) (c : Instr) (op : Op) : Prop where
  going : (t.pc = .idle ∧ t.status.state = .disconnected ∧ s.history <:+ t.history) ∨
    ∃ (es : List Event) (todo : List Op), t.pc = .running c todo ∧ t.history = es.reverse ++ s.history ∧
      t.inputs = elapse es.length s.inputs ∧ es.length = (if op.isEvent then 1 else 0) ∧
      ((t.status = s.status ∧ exchanging todo) ∨ (es = [] ∧ onlyCatch todo))

theorem State.MovesTo.silent {c : Instr} {op : Op} {todo : List Op} (hop : op.isEvent = false) (hpc : t.pc = .running c todo)
    (hh : t.history = s.history) (hi : t.inputs = s.inputs) (h : (t.status = s.status ∧ exchanging todo) ∨ onlyCatch todo) :
    s.MovesTo t c op :=
  ⟨.inr ⟨[], todo, hpc, hh, by rw [hi]; exact (elapse_zero _).symm, by rw [hop]; rfl, h.imp_right fun h => ⟨rfl, h⟩⟩⟩

theorem State.MovesTo.event {c : Instr} {op : Op} {e : Event} {todo : List Op} (hop : op.isEvent = true)
    (hpc : t.pc = .running c todo) (hh : t.history = e :: s.history) (hi : t.inputs = elapse 1 s.inputs)
    (hst : t.status = s.status) (h : exchanging todo) : s.MovesTo t c op :=
  ⟨.inr ⟨[e], todo, hpc, hh, hi, by rw [hop]; rfl, .inl ⟨hst, h⟩⟩⟩

theorem State.MovesTo.fatal {c : Instr} {op : Op} {code : ErrCode} {x y : Byte} (h : s.history <:+ t.history) :
    s.MovesTo (t.raiseFatal code x y) c op :=
  ⟨.inl ⟨rfl, rfl, h.trans (List.suffix_cons ..)⟩⟩

theorem State.storeByte_moves {c : Instr} {op : Op} {i : Nat} {b : Byte} {es : List Event} {rest : List Op}
    (hes : es.length = (if op.isEvent then 1 else 0)) (hpc : t.pc = .running c rest) (hh : t.history = es.reverse ++ s.history)
    (hi : t.inputs = elapse es.length s.inputs) (hst : t.status = s.status) (hr : exchanging rest) :
    s.MovesTo (t.storeByte i b) c op := by
  unfold State.storeByte
  split
  · exact ⟨.inr ⟨es, .recvFrom (i + 1) :: rest, by simp [State.push, Pc.push, hpc, State.storedByte], hh, hi, hes, .inl ⟨hst, .inl ⟨rfl, hr⟩⟩⟩⟩
  · exact .fatal (hh ▸ List.suffix_append ..)

theorem sendEchoOps_exchanges (cfg : Config) (b : Byte) : ∀ op ∈ sendEchoOps cfg b, op.exchanges = true := by
  simp [sendEchoOps, Op.exchanges]

/-- One line of an identity exchange that the line answers. -/
theorem State.doOp_moves {c : Instr} {op : Op} {rest : List Op} (h : exchanging (op :: rest))
    (hl : ∀ use, op = .recv use → s.line.rx ≠ []) : s.MovesTo ((s.goto c rest).doOp op) c op := by
  rcases h with ⟨hop, hr⟩ | ⟨rfl | rfl | rfl, hr⟩
  · cases op with
    | delay ms => exact .event rfl rfl rfl rfl rfl hr
    | send b => exact .event rfl rfl rfl rfl rfl hr
    | recv use =>
      show s.MovesTo (State.receive _ use) c _
      unfold State.receive
      cases hrx : s.line.rx with
      | nil => exact absurd hrx (hl use rfl)
      | cons b r =>
        rw [State.goto_line, hrx]
        cases use with
        | echo x =>
          show s.MovesTo (if _ then _ else _) c _
          split
          · exact .event rfl rfl rfl rfl rfl hr
          · exact .fatal (List.suffix_cons ..)
        | complement x =>
          show s.MovesTo (if _ then _ else _) c _
          split
          · exact .event rfl rfl rfl rfl rfl hr
          · exact .fatal (List.suffix_cons ..)
        | plainResult => cases hop
        | complResult => cases hop
        | length =>
          exact .event (todo := (sendEchoOps s.cfg (compl b) ++ [.storeLength b]) ++ rest) rfl rfl rfl rfl rfl
            (exchanging_append (by simp [sendEchoOps, Op.exchanges]) hr)
        | reply i =>
          exact .event (todo := (sendEchoOps s.cfg (compl b) ++ [.storeByte i b]) ++ rest) rfl rfl rfl rfl rfl
            (exchanging_append (by simp [sendEchoOps, Op.exchanges]) hr)
        | last i => exact State.storeByte_moves (es := [.recv b]) rfl rfl rfl rfl rfl hr
        | keyword gen => cases hop
    | fillTx bytes =>
      show s.MovesTo (State.setTxAll _ bytes) c _
      rw [State.setTxAll_eq]
      exact .silent rfl rfl rfl rfl (.inl ⟨rfl, hr⟩)
    | sendBlock => exact .silent (todo := .sendFrom 0 _ :: rest) rfl rfl rfl rfl (.inl ⟨rfl, .inl ⟨rfl, hr⟩⟩)
    | sendFrom i L =>
      show s.MovesTo (if _ then _ else _) c _
      split
      · exact .silent rfl rfl rfl rfl (.inl ⟨rfl, exchanging_append (by simp [sendComplOps, sendEchoOps, Op.exchanges]) hr⟩)
      · exact .silent rfl rfl rfl rfl (.inl ⟨rfl, exchanging_append (by simp [sendEchoOps, Op.exchanges]) hr⟩)
    | recvBlock => exact .silent (todo := .recv .length :: rest) rfl rfl rfl rfl (.inl ⟨rfl, .inl ⟨rfl, hr⟩⟩)
    | storeLength l =>
      show s.MovesTo (State.storeLength _ l) c _
      unfold State.storeLength
      split
      · exact .silent (todo := .recvFrom 1 :: rest) rfl rfl rfl rfl (.inl ⟨rfl, .inl ⟨rfl, hr⟩⟩)
      · exact .fatal (List.suffix_refl _)
    | recvFrom i =>
      show s.MovesTo (if _ then _ else if _ then _ else _) c _
      split
      · exact .silent rfl rfl rfl rfl (.inl ⟨rfl, hr⟩)
      · split
        · exact .silent (todo := .recv (.last i) :: rest) rfl rfl rfl rfl (.inl ⟨rfl, .inl ⟨rfl, hr⟩⟩)
        · exact .silent (todo := .recv (.reply i) :: rest) rfl rfl rfl rfl (.inl ⟨rfl, .inl ⟨rfl, hr⟩⟩)
    | storeByte i b => exact State.storeByte_moves (es := []) rfl rfl rfl (elapse_zero _).symm rfl hr
    | checkTitle title =>
      show s.MovesTo (if _ then _ else _) c _
      split
      · exact .silent rfl rfl rfl rfl (.inl ⟨rfl, hr⟩)
      · exact .fatal (List.suffix_refl _)
    | _ => cases hop
  · have hack : exchanging ((sendAckOps s.cfg ++ [.identityNext]) ++ rest) :=
      .inl ⟨rfl, .inl ⟨rfl, .inr ⟨.inr (.inl rfl), hr⟩⟩⟩
    show s.MovesTo (State.identityCheck _) c _
    unfold State.identityCheck
    dsimp only
    split
    · exact .silent rfl rfl rfl rfl (.inr hr)
    · split
      · exact .fatal (List.suffix_refl _)
      · split
        · exact .silent rfl rfl rfl rfl (.inl ⟨rfl, hack⟩)
        · exact .silent rfl rfl rfl rfl (.inl ⟨rfl, hack⟩)
  · show s.MovesTo (State.identityNext _) c _
    unfold State.identityNext
    split
    · exact .silent rfl rfl rfl rfl (.inl ⟨rfl, .inl ⟨rfl, .inr ⟨.inl rfl, hr⟩⟩⟩)
    · exact .silent rfl rfl rfl rfl (.inl ⟨rfl, .inl ⟨rfl, .inl ⟨rfl, .inr ⟨.inr (.inr rfl), hr⟩⟩⟩⟩)
  · exact .silent rfl rfl rfl rfl (.inr hr)

theorem State.alone_ite {p : Prop} [Decidable p] {a a' b b' : State} (h1 : a = a'.alone) (h2 : b = b'.alone) :
    (if p then a else b) = State.alone (if p then a' else b') := by
  split <;> assumption

theorem State.storeByte_alone (i : Nat) (b : Byte) : s.alone.storeByte i b = (s.storeByte i b).alone := by
  unfold State.storeByte
  show (match (if i = 1 then checkCounter s.session b else .ok s.session) with | .ok _ => _ | .error _ => _) = _
  generalize (if i = 1 then checkCounter s.session b else .ok s.session) = r
  cases r <;> rfl

/-- What comes from outside plays no part in a line of an identity exchange. -/
theorem State.doOp_alone {op : Op} {rest : List Op} (h : exchanging (op :: rest)) : s.alone.doOp op = (s.doOp op).alone := by
  rcases h with ⟨hop, -⟩ | ⟨rfl | rfl | rfl, -⟩
  · cases op with
    | recv use =>
      show State.receive _ use = State.alone (State.receive _ use)
      unfold State.receive
      show (match s.line.rx with | [] => _ | b :: rest => _) = _
      cases s.line.rx with
      | nil => rfl
      | cons b r =>
        cases use with
        | echo x => exact State.alone_ite (p := b = x) rfl rfl
        | complement x => exact State.alone_ite (p := b = compl x) rfl rfl
        | plainResult => cases hop
        | complResult => cases hop
        | length => rfl
        | reply i => rfl
        | last i => exact State.storeByte_alone (s := ({ s with line := { s.line with rx := r } } : State).event (.recv b)) i b
        | keyword gen => cases hop
    | fillTx bytes => exact State.setTxAll_alone bytes s
    | sendFrom i L => exact State.alone_ite (p := i < L) rfl rfl
    | storeLength l => exact State.alone_ite (p := sizeFits s.cfg l = true) rfl rfl
    | recvFrom i => exact State.alone_ite (p := s.rxRemaining = 0) rfl (State.alone_ite (p := s.rxRemaining = 1) rfl rfl)
    | storeByte i b => exact State.storeByte_alone i b
    | checkTitle title => exact State.alone_ite (p := s.rxByte 2 = title) rfl rfl
    | _ => first | rfl | cases hop
  · exact State.alone_ite (p := s.idIndex = 0 ∧ s.rxByte 2 = s.cfg.titleAck ∧ s.session.gen = s.cfg.earlyAckGen) rfl
      (State.alone_ite (p := s.rxByte 2 ≠ s.cfg.titleAscii) rfl
        (State.alone_ite (p := s.idIndex.val < s.cfg.idFields) rfl rfl))
  · exact State.alone_ite (p := s.idIndex.val + 1 < s.cfg.idBlocks) rfl rfl
  · rfl

/-- When nothing is left but the end of an attempt, no further event is made. -/
theorem State.run_onlyCatch : ∀ (n : Nat) (s : State), s.pc = .idle ∨ (∃ c todo, s.pc = .running c todo ∧ onlyCatch todo) →
    (State.run n s).history = s.history
  | 0, _, _ => rfl
  | n + 1, s, h => by
    unfold State.run
    split
    · rename_i hc
      rcases State.tick_cases hc with ⟨c, -, ht⟩ | ⟨c, op, rest, hpc, ht⟩
      · rw [ht]; exact State.run_onlyCatch n _ (.inl rfl)
      · rcases h with h | ⟨c', todo, h, hq⟩
        · rw [h] at hpc; cases hpc
        · obtain ⟨rfl, rfl⟩ := Pc.running.inj (h.symm.trans hpc)
          obtain ⟨a, rfl⟩ := hq op (by simp)
          rw [ht]
          exact State.run_onlyCatch n _ (.inr ⟨c', rest, rfl, fun q hq' => hq q (List.mem_cons_of_mem _ hq')⟩)
    · rfl

/-- The history of an identity exchange only grows. -/
theorem State.run_grows : ∀ (n : Nat) (s : State),
    s.pc = .idle ∨ (∃ c todo, s.pc = .running c todo ∧ (exchanging todo ∨ onlyCatch todo)) →
    s.history <:+ (State.run n s).history
  | 0, _, _ => List.suffix_refl _
  | n + 1, s, h => by
    rcases h with h | ⟨c, todo, hpc, hx | hq⟩
    · rw [State.run_stuck (State.canRun_of_idle h)]
    · unfold State.run
      split
      · rename_i hc
        rcases State.tick_cases hc with ⟨c', hpc', ht⟩ | ⟨c', op, rest, hpc', ht⟩
        · rw [hpc'] at hpc; cases hpc; exact hx.elim
        · obtain ⟨rfl, rfl⟩ := Pc.running.inj (hpc.symm.trans hpc')
          have hm := State.doOp_moves (s := s) (c := c) hx (by
            rintro use rfl h0
            rw [show s.canRun = false by simp [State.canRun, State.blocked, hpc', h0]] at hc
            cases hc)
          rw [ht]
          rcases hm.going with ⟨h1, -, h2⟩ | ⟨es, todo, h1, h2, -, -, h3⟩
          · exact h2.trans (State.run_grows n _ (.inl h1))
          · exact (h2 ▸ List.suffix_append ..).trans
              (State.run_grows n _ (.inr ⟨c, todo, h1, h3.imp And.right And.right⟩))
      · exact List.suffix_refl _
    · rw [State.run_onlyCatch _ _ (.inr ⟨c, todo, hpc, hq⟩)]

/-- A state is a point of its own pseudocode. -/
theorem State.goto_self {c : Instr} {todo : List Op} (h : s.pc = .running c todo) : s.goto c todo = s := by
  cases s; cases h; rfl

/-- An identity exchange that makes the events `es` when it is left alone stops before the next of them once an input is
due, with STATE as it was. -/
theorem RunsIn.interrupted {c : Instr} {m : Input} {later : List (Nat × Input)} : ∀ (N : Nat) {n : Nat} {s u : State}
    {todo : List Op} {es : List Event}, State.run N (s.alone.goto c todo) = u → exchanging todo → u.status.state ≠ .disconnected →
    u.history = es.reverse ++ s.history → n < es.length → s.inputs = (n, m) :: later →
    ∃ k t, k ≤ N ∧ RunsIn k (s.goto c todo) t ∧ t.canRun = false ∧ t.status = s.status ∧
      t.history = (es.take n).reverse ++ s.history := by
  intro N
  induction N with
  | zero =>
    intro n s u todo es hu _ _ hh hn _
    subst hu
    have : s.history = es.reverse ++ s.history := hh
    have := congrArg List.length this
    rw [List.length_append, List.length_reverse] at this
    omega
  | succ N ih =>
    intro n s u todo es hu hx hd hh hn hi
    cases todo with
    | nil => exact hx.elim
    | cons op rest =>
      have hstuck : (s.alone.goto c (op :: rest)).canRun = true := by
        cases hc : (s.alone.goto c (op :: rest)).canRun with
        | true => rfl
        | false =>
          rw [State.run_stuck hc] at hu
          subst hu
          have := congrArg List.length (show s.history = es.reverse ++ s.history from hh)
          rw [List.length_append, List.length_reverse] at this
          omega
      have hrx : ∀ use, op = .recv use → s.line.rx ≠ [] := by
        rintro use rfl h0
        have := State.canRun_of_empty (s := s.alone) (c := c) (use := use) (rest := rest) h0
        rw [hstuck] at this
        cases this
      have hb : (s.goto c (op :: rest)).blocked = false := by
        cases op with
        | recv use =>
          cases hl : s.line.rx with
          | nil => exact absurd hl (hrx use rfl)
          | cons b r => simp [State.blocked, hl]
        | _ => rfl
      by_cases hstop : op.isEvent = true ∧ n = 0
      · obtain ⟨hop, rfl⟩ := hstop
        exact ⟨0, _, Nat.zero_le _, RunsIn.refl _, State.canRun_of_due hop hi, rfl, rfl⟩
      · have hcan : (s.goto c (op :: rest)).canRun = true := by
          cases hop : op.isEvent with
          | false => simp [State.canRun, hb, hop]
          | true =>
            have hdue : (s.goto c (op :: rest)).inputDue = false := by
              cases n with
              | zero => exact absurd ⟨hop, rfl⟩ hstop
              | succ n => simp [State.inputDue, hi]
            simp [State.canRun, hb, hdue]
        have h1 : RunsIn 1 (s.goto c (op :: rest)) ((s.goto c rest).doOp op) := RunsIn.move hcan
        have hal : (s.alone.goto c rest).doOp op = ((s.goto c rest).doOp op).alone := State.doOp_alone (s := s.goto c rest) hx
        have hu' : State.run N ((s.goto c rest).doOp op).alone = u := by
          rw [← hal, ← hu]
          exact (if_pos hstuck).symm
        have hm := (State.doOp_moves (c := c) hx hrx).going
        generalize (s.goto c rest).doOp op = t at *
        rcases hm with ⟨hpc, hst, -⟩ | ⟨es1, todo, hpc, hth, hti, hlen, hgo⟩
        · have : State.run N t.alone = t.alone := State.run_stuck (State.canRun_of_idle (s := t.alone) hpc) N
          rw [this] at hu'
          subst hu'
          exact absurd hst hd
        · rcases hgo with ⟨hts, htx⟩ | ⟨rfl, hq⟩
          · -- the events left
            have hrun : State.run N (t.alone.goto c todo) = u := by
              rw [State.goto_self (s := t.alone) hpc]; exact hu'
            have hgrow := State.run_grows N t.alone (.inr ⟨c, todo, hpc, .inl htx⟩)
            rw [hu', hh, show t.alone.history = _ from hth] at hgrow
            obtain ⟨es2, he⟩ := hgrow
            rw [← List.append_assoc] at he
            have he := List.append_cancel_right he
            obtain rfl : es = es1 ++ es2.reverse := by
              rw [← List.reverse_reverse es, ← he, List.reverse_append, List.reverse_reverse]
            have hle : es1.length ≤ n := by
              rw [hlen]
              split
              · rename_i hop
                cases n with
                | zero => exact absurd ⟨hop, rfl⟩ hstop
                | succ n => omega
              · omega
            obtain ⟨k, v, hk, h2, hv, hvs, hvh⟩ := ih (n := n - es1.length) (s := t) (es := es2.reverse) hrun htx hd
              (by rw [hh, hth]; simp) (by rw [List.length_append] at hn; omega)
              (by rw [hti, hi]; rfl)
            rw [State.goto_self hpc] at h2
            refine ⟨1 + k, v, by omega, h1.trans h2, hv, hvs.trans hts, ?_⟩
            rw [hvh, hth, List.take_append, List.take_of_length_le hle, List.reverse_append, List.append_assoc]
          · have := State.run_onlyCatch N t.alone (.inr ⟨c, todo, hpc, hq⟩)
            rw [hu'] at this
            have := congrArg List.length ((show s.history = es.reverse ++ s.history from by rw [← hh, this]; exact hth.symm))
            rw [List.length_append, List.length_reverse] at this
            omega

end Sys2Proof.Machine
end

