-- ==== Sys2Proof/Laws/PerInstr.lean ====
section
/-! SUPPORT. The per-instruction family `OpcodeRow`: a command's word is selected by its own row of the opcode map. -/

namespace Sys2Proof.Laws.OpcodeRow

/-- A row of the opcode map (R83) has the command's mnemonic and selects its word (R84). -/
def Statement (i : Instr) : Prop :=
  ∃ r ∈ opcodeMap, r.mnemonic = mnemonic i ∧ encode i &&& r.mask = r.pattern

/-- Bit `k` of a command word (R80). -/
theorem cmdWord_bit (op x : Byte) (y : Half) (k : Nat) : (cmdWord op x y).getLsbD k =
    if k < 8 then op.getLsbD k else if k - 8 < 8 then x.getLsbD (k - 8) else y.getLsbD (k - 8 - 8) := by
  show (y ++ x ++ op).getLsbD k = _
  rw [BitVec.getLsbD_append, BitVec.getLsbD_append]

/-- The opcode byte selects a row that looks at it alone. -/
theorem cmdWord_and_op (op x : Byte) (y : Half) : cmdWord op x y &&& 0x000000FF = op.setWidth 32 := by
  apply BitVec.eq_of_getLsbD_eq
  intro k hk
  rw [BitVec.getLsbD_and, cmdWord_bit, BitVec.getLsbD_setWidth]
  interval_cases k <;> simp

/-- The opcode byte and the kind bits select a row that looks at both. -/
theorem cmdWord_and_kind (op x : Byte) (y : Half) :
    cmdWord op x y &&& 0x000003FF = (x.extractLsb' 0 2 ++ op).setWidth 32 := by
  apply BitVec.eq_of_getLsbD_eq
  intro k hk
  rw [BitVec.getLsbD_and, cmdWord_bit, BitVec.getLsbD_setWidth, BitVec.getLsbD_append]
  interval_cases k <;> simp

theorem wakeup (address : Byte) : Statement (.wakeup address) :=
  ⟨⟨"WAKEUP", 0x00000001, 0x000000FF⟩, List.mem_of_getElem? (i := 0) rfl, rfl,
    (cmdWord_and_op _ _ _).trans (by decide)⟩

theorem sendEcho (byte : Byte) : Statement (.sendEcho byte) :=
  ⟨⟨"SEND_ECHO", 0x00000010, 0x000000FF⟩, List.mem_of_getElem? (i := 1) rfl, rfl,
    (cmdWord_and_op _ _ _).trans (by decide)⟩

theorem sendCompl (byte : Byte) : Statement (.sendCompl byte) :=
  ⟨⟨"SEND_COMPL", 0x00000011, 0x000000FF⟩, List.mem_of_getElem? (i := 2) rfl, rfl,
    (cmdWord_and_op _ _ _).trans (by decide)⟩

theorem recvPlain : Statement .recvPlain :=
  ⟨⟨"RECV_PLAIN", 0x00000012, 0x000000FF⟩, List.mem_of_getElem? (i := 3) rfl, rfl,
    (cmdWord_and_op _ _ _).trans (by decide)⟩

theorem recvCompl : Statement .recvCompl :=
  ⟨⟨"RECV_COMPL", 0x00000013, 0x000000FF⟩, List.mem_of_getElem? (i := 4) rfl, rfl,
    (cmdWord_and_op _ _ _).trans (by decide)⟩

theorem sendBlock : Statement .sendBlock :=
  ⟨⟨"SEND_BLOCK", 0x00000020, 0x000000FF⟩, List.mem_of_getElem? (i := 5) rfl, rfl,
    (cmdWord_and_op _ _ _).trans (by decide)⟩

theorem recvBlock : Statement .recvBlock :=
  ⟨⟨"RECV_BLOCK", 0x00000021, 0x000000FF⟩, List.mem_of_getElem? (i := 6) rfl, rfl,
    (cmdWord_and_op _ _ _).trans (by decide)⟩

theorem recvBlockExpect (title : Byte) : Statement (.recvBlockExpect title) :=
  ⟨⟨"RECV_BLOCK_EXPECT", 0x00000022, 0x000000FF⟩, List.mem_of_getElem? (i := 7) rfl, rfl,
    (cmdWord_and_op _ _ _).trans (by decide)⟩

theorem connectA (address : Byte) (baud : Half) : Statement (.connectA address baud) :=
  ⟨⟨"CONNECT_A", 0x00000030, 0x000000FF⟩, List.mem_of_getElem? (i := 8) rfl, rfl,
    (cmdWord_and_op _ _ _).trans (by decide)⟩

theorem connectB (address : Byte) (baud : Half) : Statement (.connectB address baud) :=
  ⟨⟨"CONNECT_B", 0x00000031, 0x000000FF⟩, List.mem_of_getElem? (i := 9) rfl, rfl,
    (cmdWord_and_op _ _ _).trans (by decide)⟩

theorem autoconnect (address : Byte) : Statement (.autoconnect address) :=
  ⟨⟨"AUTOCONNECT", 0x00000032, 0x000000FF⟩, List.mem_of_getElem? (i := 10) rfl, rfl,
    (cmdWord_and_op _ _ _).trans (by decide)⟩

theorem disconnect : Statement .disconnect :=
  ⟨⟨"DISCONNECT", 0x00000033, 0x000000FF⟩, List.mem_of_getElem? (i := 11) rfl, rfl,
    (cmdWord_and_op _ _ _).trans (by decide)⟩

theorem login (safeCode : Half) (fern : Byte) : Statement (.login safeCode fern) :=
  ⟨⟨"LOGIN", 0x00000040, 0x000000FF⟩, List.mem_of_getElem? (i := 12) rfl, rfl,
    (cmdWord_and_op _ _ _).trans (by decide)⟩

theorem groupReading (group : Byte) : Statement (.groupReading group) :=
  ⟨⟨"GROUP_READING", 0x00000041, 0x000000FF⟩, List.mem_of_getElem? (i := 13) rfl, rfl,
    (cmdWord_and_op _ _ _).trans (by decide)⟩

theorem readMemRam (start : Half) : Statement (.readMemRam start) :=
  ⟨⟨"READ_MEM_RAM", 0x00000042, 0x000003FF⟩, List.mem_of_getElem? (i := 14) rfl, rfl,
    (cmdWord_and_kind _ _ _).trans (by decide)⟩

theorem readMemRom (start : Half) : Statement (.readMemRom start) :=
  ⟨⟨"READ_MEM_ROM", 0x00000142, 0x000003FF⟩, List.mem_of_getElem? (i := 15) rfl, rfl,
    (cmdWord_and_kind _ _ _).trans (by decide)⟩

theorem readMemEe (start : Half) : Statement (.readMemEe start) :=
  ⟨⟨"READ_MEM_EE", 0x00000242, 0x000003FF⟩, List.mem_of_getElem? (i := 16) rfl, rfl,
    (cmdWord_and_kind _ _ _).trans (by decide)⟩

theorem safeCodeCustom : Statement .safeCodeCustom :=
  ⟨⟨"SAFE_CODE_CUSTOM", 0x00000043, 0x000000FF⟩, List.mem_of_getElem? (i := 17) rfl, rfl,
    (cmdWord_and_op _ _ _).trans (by decide)⟩

theorem safeCodeEeprom : Statement .safeCodeEeprom :=
  ⟨⟨"SAFE_CODE_EEPROM", 0x00000044, 0x000000FF⟩, List.mem_of_getElem? (i := 18) rfl, rfl,
    (cmdWord_and_op _ _ _).trans (by decide)⟩

theorem calcChecksum : Statement .calcChecksum :=
  ⟨⟨"CALC_CHECKSUM", 0x00000045, 0x000000FF⟩, List.mem_of_getElem? (i := 19) rfl, rfl,
    (cmdWord_and_op _ _ _).trans (by decide)⟩

end Sys2Proof.Laws.OpcodeRow
end

