-- ==== Sys2Proof/Machine/Assembler.lean ====
section
/-! DEFINITION. The host programs of rules R86 and R87: each line as the host accesses it makes. -/

namespace Sys2Proof.Machine

/-- The command of a mnemonic and its operands, in the operand order of R86. -/
def sourceInstr (mnemonic : String) (operands : List Nat) : Option Instr :=
  match mnemonic, operands with
  | "WAKEUP", [a] => some (.wakeup (BitVec.ofNat 8 a))
  | "SEND_ECHO", [b] => some (.sendEcho (BitVec.ofNat 8 b))
  | "SEND_COMPL", [b] => some (.sendCompl (BitVec.ofNat 8 b))
  | "RECV_PLAIN", [] => some .recvPlain
  | "RECV_COMPL", [] => some .recvCompl
  | "SEND_BLOCK", [] => some .sendBlock
  | "RECV_BLOCK", [] => some .recvBlock
  | "RECV_BLOCK_EXPECT", [t] => some (.recvBlockExpect (BitVec.ofNat 8 t))
  | "CONNECT_A", [a, baud] => some (.connectA (BitVec.ofNat 8 a) (BitVec.ofNat 16 baud))
  | "CONNECT_B", [a, baud] => some (.connectB (BitVec.ofNat 8 a) (BitVec.ofNat 16 baud))
  | "AUTOCONNECT", [a] => some (.autoconnect (BitVec.ofNat 8 a))
  | "DISCONNECT", [] => some .disconnect
  | "LOGIN", safeCode :: fern :: _ => some (.login (BitVec.ofNat 16 safeCode) (BitVec.ofNat 8 fern))
  | "GROUP_READING", [g] => some (.groupReading (BitVec.ofNat 8 g))
  | "READ_MEM_RAM", start :: _ => some (.readMemRam (BitVec.ofNat 16 start))
  | "READ_MEM_ROM", start :: _ => some (.readMemRom (BitVec.ofNat 16 start))
  | "READ_MEM_EE", start :: _ => some (.readMemEe (BitVec.ofNat 16 start))
  | "SAFE_CODE_CUSTOM", [] => some .safeCodeCustom
  | "SAFE_CODE_EEPROM", [] => some .safeCodeEeprom
  | "CALC_CHECKSUM", [] => some .calcChecksum
  | _, _ => none

/-- The operand of a line that is written to `ARG0` before the command word: `workshop` or `size` (R86). -/
def sourceArg0 (mnemonic : String) (operands : List Nat) : Option Nat :=
  match mnemonic, operands with
  | "LOGIN", [_, _, workshop] => some workshop
  | "READ_MEM_RAM", [_, size] => some size
  | "READ_MEM_ROM", [_, size] => some size
  | "READ_MEM_EE", [_, size] => some size
  | _, _ => none

/-- A 32-bit write at a host offset. -/
def writeAt (c : Config) (offset : Nat) (w : Word) : Input := .write (c.hostBase + offset) 4 w

/-- A `TX` line: one write for each group of four bytes, the last group padded with 0x00 (R86). -/
def txWrites (c : Config) (i : Nat) : List Nat → List Input
  | [] => []
  | [b0] => [writeAt c (txBase + i) (wordOfBytes (BitVec.ofNat 8 b0) 0 0 0)]
  | [b0, b1] => [writeAt c (txBase + i) (wordOfBytes (BitVec.ofNat 8 b0) (BitVec.ofNat 8 b1) 0 0)]
  | [b0, b1, b2] =>
    [writeAt c (txBase + i) (wordOfBytes (BitVec.ofNat 8 b0) (BitVec.ofNat 8 b1) (BitVec.ofNat 8 b2) 0)]
  | b0 :: b1 :: b2 :: b3 :: rest =>
    writeAt c (txBase + i)
      (wordOfBytes (BitVec.ofNat 8 b0) (BitVec.ofNat 8 b1) (BitVec.ofNat 8 b2) (BitVec.ofNat 8 b3))
      :: txWrites c (i + 4) rest

/-- The host accesses of a line (R86, R87). `WAIT` is the read of `STATUS` that the host repeats until `BUSY` is 0; the
repetition is the host's own (assumption 14). DESIGN CHOICE (assumption 14): a LOGIN or READ_MEM line with its `ARG0` operand
has no `WAIT` of its own, as R86 and program P4 write it; R87 gives the same line an expansion that ends with one. -/
def assemble (c : Config) : SourceLine → List Input
  | .arg0 value => [writeAt c offArg0 (BitVec.ofNat 32 value)]
  | .tx i bytes => txWrites c i bytes
  | .command mnemonic operands =>
    (sourceArg0 mnemonic operands).toList.map (fun v => writeAt c offArg0 (BitVec.ofNat 32 v))
      ++ (sourceInstr mnemonic operands).toList.map (fun i => writeAt c offCmd (encode i))
  | .wait => [.read (c.hostBase + offStatus) 4]
  | .sendAck =>
    txWrites c 0 [3, 0, c.titleAck.toNat, 0]
      ++ [writeAt c offCmd (encode .sendBlock), .read (c.hostBase + offStatus) 4]
  | .expectAck =>
    [writeAt c offCmd (encode (.recvBlockExpect c.titleAck)), .read (c.hostBase + offStatus) 4]

/-- A program's accesses, in order, each after at least `gap` events of the engine unless it stops before (assumption 4). -/
def schedule (c : Config) (gap : Nat) (lines : List SourceLine) : List (Nat × Input) :=
  (lines.flatMap (assemble c)).map (fun m => (gap, m))

/-- `s` with a host program ahead of whatever else the outside does. -/
def State.loadProgram (s : State) (gap : Nat) (lines : List SourceLine) : State :=
  { s with inputs := schedule s.cfg gap lines ++ s.inputs }

end Sys2Proof.Machine
end

