-- ==== Sys2Proof/Tests/Slice0.lean ====
section
/-! SUPPORT. Tests: words and vectors of the spec, ill-formed terms the checks refuse, and a witness for the premises of every statement. -/

namespace Sys2Proof.Tests

open Sys2Proof Sys2Proof.Machine

/-! ## Decoding: words written out from the encoding (30_encoding.md R80, R83; 95_test_vectors.md section 9.1) -/

theorem test_decode_wakeup : decode 0x00005601 = some (.wakeup 0x56) ∧ decode 0xFFFFFF01 = some (.wakeup 0xFF) := by
  decide

theorem test_decode_codec :
    decode 0x00007510 = some (.sendEcho 0x75) ∧ decode 0x12347511 = some (.sendCompl 0x75) ∧
    decode 0x00000012 = some .recvPlain ∧ decode 0x00000013 = some .recvCompl := by
  decide

theorem test_decode_framer :
    decode 0x00000020 = some .sendBlock ∧ decode 0x00000021 = some .recvBlock ∧
    decode 0x00000922 = some (.recvBlockExpect 0x09) := by
  decide

theorem test_decode_session :
    decode 0x25805630 = some (.connectA 0x56 9600) ∧ decode 0x28A05631 = some (.connectB 0x56 10400) ∧
    decode 0x00005632 = some (.autoconnect 0x56) ∧ decode 0x00000033 = some .disconnect := by
  decide

theorem test_decode_ready_operations :
    decode 0x00000140 = some (.login 0x0000 0x01) ∧ decode 0x00000141 = some (.groupReading 0x01) ∧
    decode 0x00000043 = some .safeCodeCustom ∧ decode 0x00000044 = some .safeCodeEeprom ∧
    decode 0x00000045 = some .calcChecksum := by
  decide

theorem test_decode_read_mem :
    decode 0x01000042 = some (.readMemRam 0x0100) ∧ decode 0x80000142 = some (.readMemRom 0x8000) ∧
    decode 0x00000242 = some (.readMemEe 0x0000) ∧ decode 0x00000442 = some (.readMemRam 0x0000) := by
  decide

/-- Vectors J1 to J3. -/
theorem test_decode_reserved :
    decode 0x00000000 = none ∧ decode 0x00000342 = none ∧ decode 0x000000FF = none ∧ decode 0x00000046 = none ∧
    decode 0x00000002 = none := by
  decide

/-- The bytes of a table word lie as R62 says: `CONNECT_B 0x56, 10400`. -/
theorem test_decode_bytes : decodeBytes [0x31, 0x56, 0xA0, 0x28, 0x77] = some (.connectB 0x56 10400, [0x77]) := by
  decide

/-! ## Ill-formed terms are refused -/

theorem test_arg0_too_wide : (SourceLine.arg0 4294967296).wellFormed = false := by decide
theorem test_tx_misaligned : (SourceLine.tx 2 [3]).wellFormed = false := by decide
theorem test_tx_byte_too_wide : (SourceLine.tx 0 [3, 256]).wellFormed = false := by decide
theorem test_byte_operand_too_wide : (SourceLine.command "WAKEUP" [256]).wellFormed = false := by decide
theorem test_half_operand_too_wide : (SourceLine.command "LOGIN" [65536, 1]).wellFormed = false := by decide
theorem test_workshop_too_wide : (SourceLine.command "LOGIN" [0, 1, 65536]).wellFormed = false := by decide
theorem test_unknown_mnemonic : (SourceLine.command "CONNECT_C" [1, 2]).wellFormed = false := by decide
theorem test_operand_missing : (SourceLine.command "CONNECT_A" [1]).wellFormed = false := by decide
theorem test_well_formed_line : (SourceLine.command "CONNECT_A" [255, 65535]).wellFormed = true := by decide

/-- Each constraint of R6 refuses a configuration. -/
theorem test_invalid_configs :
    Config.valid { Config.reference with kwTimeoutMs := 0 } = false ∧
    Config.valid { Config.reference with settleMs := 0 } = false ∧
    Config.valid { Config.reference with maxBlock := 35 } = false ∧
    Config.valid { Config.reference with maxBlock := 257 } = false ∧
    Config.valid { Config.reference with membufBytes := 0xF001 } = false ∧
    Config.valid { Config.reference with titleAscii := 0x09 } = false ∧
    Config.valid { Config.reference with safeEeOffset := 1 } = false ∧
    Config.valid { Config.reference with membufBytes := 1 } = false ∧
    Config.valid { Config.reference with safeOffset := 2 } = false := by
  decide

/-- A parameter that the source gives has the source's value (R6, 00_scope.md section 1). -/
theorem test_sourced_values :
    Config.valid Config.reference = true ∧
    Config.valid { Config.reference with bitMs := 100 } = false ∧
    Config.valid { Config.reference with wakeupAddrBits := 8 } = false ∧
    Config.valid { Config.reference with interbyteMs := 0 } = false ∧
    Config.valid { Config.reference with retryDelayMs := 1000 } = false ∧
    Config.valid { Config.reference with autoBauds := [9600, 10400] } = false ∧
    Config.valid { Config.reference with autoPasses := 1 } = false ∧
    Config.valid { Config.reference with chunkMax := 16 } = false ∧
    Config.valid { Config.reference with idLen := 8 } = false ∧
    Config.valid { Config.reference with idFields := 4 } = false ∧
    Config.valid { Config.reference with idBlocks := 3 } = false ∧
    Config.valid { Config.reference with titleAck := 0x0A } = false := by
  decide

/-! ## The assembler (R86, R87) -/

/-- R86: `TX[4..] <- 0x55` pads the group with 0x00. -/
theorem test_assemble_tx :
    assemble Config.reference (.tx 4 [0x55]) = [.write 0x0104 4 0x00000055] := by
  decide

/-- R86, vector O1: `LOGIN 0x0000, 0x01, 0x1234` writes `ARG0` first. -/
theorem test_assemble_login :
    assemble Config.reference (.command "LOGIN" [0x0000, 0x01, 0x1234])
      = [.write 8 4 0x1234, .write 4 4 0x00000140] := by
  decide

/-- R87: SEND_ACK; the word written to `TXBUF` is that of section 9.2. -/
theorem test_assemble_send_ack :
    assemble Config.reference .sendAck = [.write 0x0100 4 0x00090003, .write 4 4 0x00000020, .read 0 4] := by
  decide

/-! ## States -/

/-- The reset state with a line that answers these bytes. -/
def onLine (rx : List Byte) : State := { State.reset with line := ⟨rx, [], 0⟩ }

/-- The same with a session's counter and FIRST_SEEN. -/
def counting (counter : Byte) (firstSeen : Bool) (rx : List Byte) : State :=
  { onLine rx with session := ⟨counter, firstSeen, .A, 0⟩ }

/-- Ready as after program P1. -/
def ready (rx : List Byte) : State :=
  { onLine rx with
    session := ⟨9, true, .B, 10400⟩
    status := { State.reset.status with state := .ready } }

/-- `s` with a block in `TXBUF`. -/
def withTx (s : State) (bytes : List Byte) : State := { s with mem := Memory.writeFrom s.mem txBase bytes }

/-- `s` with a keyword timeout of two empty polls. -/
def hasty (s : State) : State := { s with cfg := { s.cfg with kwTimeoutMs := 2 } }

/-- The state a command ends in. -/
def result (o : Host.Outcome State Fault Refusal) : State :=
  match o with
  | .next s => s
  | _ => State.reset

/-- A module's block with length 3 and its answers on a correct line. -/
def ack (counter : Byte) : List Byte := exchange [3, counter, 0x09, 3]

/-! ## One command each: the vectors of 95_test_vectors.md -/

/-- W3. -/
theorem test_wakeup_W3 :
    (result (exec (.wakeup 0x56) State.reset)).history.reverse =
      [.lineAcquire, .lineHold false 200, .lineHold false 200, .lineHold true 200, .lineHold true 200,
        .lineHold false 200, .lineHold true 200, .lineHold false 200, .lineHold true 200, .lineHold true 200,
        .lineHold true 200, .lineRelease] := by
  decide +kernel

/-- K2; `raise Fatal` is an event of its own (R12). -/
theorem test_send_echo_K2 :
    let t := result (exec (.sendEcho 0x75) (onLine [0x74]))
    t.readWord 0 = 0x00000016 ∧ t.readWord 0x14 = 0x00007475 ∧
      t.history = [.fatal .echo 0x75 0x74, .recv 0x74, .send 0x75, .delay 1] := by
  decide +kernel

/-- K5. -/
theorem test_send_compl_K5 :
    let t := result (exec (.sendCompl 0x0F) (onLine [0x0F, 0x0F]))
    t.status.errCode = .complement ∧ t.errinfo = ⟨0xF0, 0x0F⟩ := by
  decide +kernel

/-- K8. -/
theorem test_recv_plain_K8 :
    let t := result (exec .recvPlain (onLine [0x3C]))
    t.result = 0x3C ∧ t.history = [.recv 0x3C] ∧ t.readWord 0 = 2 := by
  decide +kernel

/-- K10. -/
theorem test_recv_compl_K10 :
    let t := result (exec .recvCompl (onLine [0x5A, 0xA4]))
    t.status.errCode = .echo ∧ t.errinfo = ⟨0xA5, 0xA4⟩ ∧ t.result = 0x5A := by
  decide +kernel

/-- F2: the counter wraps. -/
theorem test_send_block_F2 :
    let t := result (exec .sendBlock (withTx (counting 0xFF true [3, 0xFC, 0, 0xFF, 9, 0xF6, 3]) [3, 0, 9, 0]))
    t.status.outcome = .ok ∧ t.session.counter = 0 ∧ t.readWord 0x0100 = 0x03090003 := by
  decide +kernel

/-- F3: the counter stays incremented. Eight events of the transport, and the `raise Fatal`. -/
theorem test_send_block_F3 :
    let t := result (exec .sendBlock (withTx (counting 5 false [3, 0xFC, 6, 6]) [3, 0, 9, 0]))
    t.errinfo = ⟨0xF9, 0x06⟩ ∧ t.session.counter = 6 ∧ (engineEvents t.history).length = 9 := by
  decide +kernel

/-- F9: the reply's echo is checked before the counter. -/
theorem test_recv_block_F9 :
    let t := result (exec .recvBlock (counting 6 true [3, 0xFC, 9, 0xF7]))
    t.status.errCode = .echo ∧ t.errinfo = ⟨0xF6, 0xF7⟩ ∧ t.rxcount = 1 := by
  decide +kernel

/-- F16: a block of one byte after its length. -/
theorem test_recv_block_F16 :
    let t := result (exec .recvBlock (onLine [1, 0xFE, 0x42]))
    t.status.outcome = .ok ∧ t.session.counter = 0x42 ∧ t.session.firstSeen = true ∧ t.rxcount = 2 := by
  decide +kernel

/-- F19. -/
theorem test_recv_block_expect_F19 :
    let t := result (exec (.recvBlockExpect 0x09) (counting 6 true [3, 0xFC, 7, 0xF8, 0xF6, 0x09, 3]))
    t.status.errCode = .title ∧ t.errinfo = ⟨0x09, 0xF6⟩ ∧ t.session.counter = 7 := by
  decide +kernel

/-- S15: the early ACK in Generation A. -/
theorem test_connect_a_S15 :
    let t := result (exec (.connectA 0x56 9600) (onLine ([0x55, 0x01, 0x8A, 0x75] ++ ack 1)))
    t.readWord 0 = 0x00050002 ∧ t.readWord 0x10 = 0x25800101 ∧ t.history.length = 36 := by
  decide +kernel

/-- S12 with a timeout of two: a received byte does not reset the count; the timeout is an event (R12). -/
theorem test_connect_a_S12 :
    let t := result (exec (.connectA 0x56 9600)
      (hasty { onLine [0x55] with line := ⟨[0x55], [true, false, false], 0⟩ }))
    t.readWord 0 = 0x00000004 ∧ t.readWord 0x10 = 0x25800000 ∧ t.history.take 3 = [.timeout, .delay 1, .poll false] := by
  decide +kernel

/-- S16: the same line in Generation B ends FATAL TITLE. -/
theorem test_connect_b_S16 :
    let t := result (exec (.connectB 0x56 9600) (onLine ([0x55, 0x01, 0x8A, 0x75] ++ ack 1)))
    t.status.errCode = .title ∧ t.errinfo = ⟨0xF6, 0x09⟩ ∧ t.session.counter = 1 ∧
      t.status.state = .disconnected := by
  decide +kernel

/-- The line of program P1 after the keyword. -/
def p1Line : List Byte :=
  0x55 :: 0x01 :: 0x8A :: 0x75 :: identityAnswers Config.reference 1
    [[0x31, 0x4A, 0x30, 0x30, 0x33, 0x35, 0x31, 0x38, 0x30, 0x44, 0x20, 0x20],
      [0x20, 0x52, 0x41, 0x44, 0x49, 0x4F, 0x20, 0x33, 0x43, 0x50, 0x20, 0x20],
      [0x20, 0x20, 0x20, 0x20, 0x20, 0x20, 0x20, 0x20, 0x30, 0x30, 0x30, 0x31],
      List.replicate 12 0x20]

/-- P1: `STATUS`, `SESSION`, the first words of two `ID` fields, and the number of events. -/
theorem test_connect_b_P1 :
    let t := result (exec (.connectB 0x56 10400) (onLine p1Line))
    t.readWord 0 = 0x00050002 ∧ t.readWord 0x10 = 0x28A00309 ∧ t.readWord 0x0300 = 0x30304A31 ∧
      t.readWord 0x030C = 0x44415220 ∧ t.readWord 0x0100 = 0x03090803 ∧ t.history.length = 337 := by
  decide +kernel

/-- S25 with a timeout of two empty polls. -/
theorem test_autoconnect_S25 :
    let t := result (exec (.autoconnect 0x56) (hasty State.reset))
    t.readWord 0 = 0x00000004 ∧ t.readWord 0x10 = 0x25800000 ∧ t.history.count (.delay 2000) = 3 ∧
      t.history.count (.poll false) = 8 := by
  decide +kernel

/-- S28. -/
theorem test_disconnect_S28 : (result (exec .disconnect State.reset)).readWord 0 = 2 := by decide +kernel

/-- O1. -/
theorem test_login_O1 :
    let t := result (exec (.login 0x0000 0x01)
      { ready (exchange [8, 0x0A, 0x2B, 0, 0, 1, 0x12, 0x34, 3] ++ ack 0x0B) with arg0 := 0x1234 })
    t.readWord 0 = 0x00050002 ∧ t.session.counter = 0x0B ∧ t.readWord 0x0200 = 0x03090B03 ∧ t.line.rx = [] := by
  decide +kernel

/-- O2. -/
theorem test_group_reading_O2 :
    let t := result (exec (.groupReading 0x01)
      (ready (exchange [4, 0x0A, 0x29, 1, 3] ++ exchange [6, 0x0B, 0xE7, 1, 0x64, 0, 3])))
    t.readWord 0 = 0x00050002 ∧ t.session.counter = 0x0B ∧ t.rxcount = 7 ∧ t.result = 0 ∧ t.line.rx = [] := by
  decide +kernel

/-- O3. -/
theorem test_safe_code_custom_O3 :
    let t := result (exec .safeCodeCustom
      (ready (exchange [4, 0x0A, 0x1B, 0xA1, 3] ++ exchange [6, 0x0B, 0xA2, 0, 0x12, 0x34, 3])))
    t.readWord 0 = 0x00050002 ∧ t.result = 0x00001234 ∧ t.session.counter = 0x0B := by
  decide +kernel

/-- O4. -/
theorem test_calc_checksum_O4 :
    let t := result (exec .calcChecksum
      (ready (exchange [5, 0x0A, 0x1B, 0xB1, 0xB2, 3] ++ exchange [7, 0x0B, 0xB3, 0, 0xAA, 0x5A, 0x0F, 3])))
    t.readWord 0 = 0x00050002 ∧ t.result = 0x00005A0F ∧ t.session.counter = 0x0B := by
  decide +kernel

/-- O5. -/
theorem test_safe_code_eeprom_O5 :
    let t := result (exec .safeCodeEeprom
      (ready (exchange [6, 0x0A, 0x19, 2, 0, 0x10, 3] ++ exchange [5, 0x0B, 0xEF, 0x12, 0x34, 3] ++ ack 0x0C ++ ack 0x0D)))
    t.readWord 0 = 0x00050002 ∧ t.result = 0x00001234 ∧ t.memlen = 2 ∧ t.session.counter = 0x0D := by
  decide +kernel

/-- O6. -/
theorem test_read_mem_rom_O6 :
    let t := result (exec (.readMemRom 0x8000)
      { ready (exchange [6, 0x0A, 3, 4, 0x80, 0, 3] ++ exchange [7, 0x0B, 0xFD, 0xDE, 0xAD, 0xBE, 0xEF, 3] ++ ack 0x0C
          ++ ack 0x0D) with arg0 := 4 })
    t.readWord 0 = 0x00050002 ∧ t.readWord 0x1000 = 0xEFBEADDE ∧ t.result = 4 ∧ t.session.counter = 0x0D := by
  decide +kernel

/-- O7: a short payload is kept as it is. -/
theorem test_read_mem_ram_O7 :
    let t := result (exec (.readMemRam 0x0000)
      { ready (exchange [6, 0x0A, 1, 4, 0, 0, 3] ++ exchange [5, 0x0B, 0xFE, 0x11, 0x22, 3] ++ ack 0x0C ++ ack 0x0D)
          with arg0 := 4 })
    t.readWord 0 = 0x00050002 ∧ t.memlen = 2 ∧ t.session.counter = 0x0D := by
  decide +kernel

/-- O9: the second chunk's address wraps. -/
theorem test_read_mem_ram_O9 :
    let t := result (exec (.readMemRam 0xFFF0)
      { ready (exchange [6, 0x0A, 1, 0x20, 0xFF, 0xF0, 3]
          ++ exchange ([0x23, 0x0B, 0xFE] ++ List.replicate 32 0x11 ++ [3]) ++ ack 0x0C ++ ack 0x0D
          ++ exchange [6, 0x0E, 1, 1, 0, 0x10, 3] ++ exchange [4, 0x0F, 0xFE, 0x22, 3] ++ ack 0x10 ++ ack 0x11)
          with arg0 := 33 })
    t.readWord 0 = 0x00050002 ∧ t.memlen = 33 ∧ t.membufByte 32 = 0x22 ∧ t.session.counter = 0x11 ∧
      t.line.rx = [] := by
  decide +kernel

/-- The EEPROM read has the titles of section 0.1: a RAM response (title 0xFE) is refused. -/
theorem test_read_mem_ee_title :
    let t := result (exec (.readMemEe 0x0010)
      { ready (exchange [6, 0x0A, 0x19, 2, 0, 0x10, 3] ++ exchange [5, 0x0B, 0xFE, 0x12, 0x34, 3]) with arg0 := 2 })
    t.status.errCode = .title ∧ t.errinfo = ⟨0xEF, 0xFE⟩ ∧ t.memlen = 0 := by
  decide +kernel

/-- R73: a DISCONNECT makes no event, and still a `STATUS` read that follows its `CMD` write at once finds BUSY 1 and
nothing of the command done; then it ends. -/
theorem test_busy_at_once :
    let s := { State.reset with
      status := { State.reset.status with state := .ready }
      inputs := [(0, .write 4 4 0x00000033), (0, .read 0 4)] }
    let t := result (step (result (step s)))
    t.hostReads = [(0, 0x00050001)] ∧ t.status.busy = true ∧ (result (step t)).readWord 0 = 2 := by
  decide +kernel

/-- Section 9.2: a byte access is refused, and `STATUS` is read-only; the admitted write is an event (R12). -/
theorem test_host_access :
    land (.read 0x0101 1) State.reset = .refused .hostBadAccess ∧
    land (.write 0 4 0xFFFFFFFF) State.reset
      = .next { State.reset with history := [.memWrite 0 4 0xFFFFFFFF] } :=
  ⟨rfl, rfl⟩

/-- Section 9.2: the bus address decides what is admitted, wherever the block is placed. -/
theorem test_host_access_misplaced :
    let s := State.resetWith { Config.reference with hostBase := 2 }
    land (.read 2 4) s = .refused .hostBadAccess ∧ (result (land (.read 4 4) s)).hostReads = [(4, 0)] :=
  ⟨rfl, by decide +kernel⟩

/-- J5: NOTREADY is checked before BADARG. -/
theorem test_order_of_checks_J5 :
    (result (exec (.readMemRam 0) { State.reset with arg0 := 2000 })).status.reject = .notReady := by
  decide +kernel

/-! ## Witnesses: states and operands that meet every premise of a statement together -/

theorem reference_valid : Config.reference.Valid :=
  ⟨⟨rfl, rfl, rfl, rfl, rfl, rfl, rfl, rfl, rfl, rfl, rfl⟩, by decide, by decide, by decide, by decide, by decide,
    by decide, by decide, by decide, by decide⟩

theorem undisturbed_of_no_input {s : State} {n : Nat} (h : s.inputs = []) : s.undisturbed n := by
  intro p hp
  rw [h] at hp
  cases hp

/-- An input that is due only after all the events of a command leaves it undisturbed. -/
theorem witness_undisturbed_at_bound : State.undisturbed { State.reset with inputs := [(12, .reset)] } 12 := by
  intro p hp
  cases hp
  decide

theorem witness_DecodeInvertsEncode : (Instr.login 0xFFFF 0xFF).wellFormed = true := rfl

/-- The reserved word of J2 matches no row. -/
theorem witness_DecodeFollowsOpcodeMap : ∀ r ∈ opcodeMap, (0x00000342 : Word) &&& r.mask ≠ r.pattern := by decide

theorem witness_DecodeIgnoresUnusedBits :
    decode 0xFFFFFF01 = some (.wakeup 0xFF) ∧
    (0x0000FF01 : Word) &&& usedBits (.wakeup 0xFF) = 0xFFFFFF01 &&& usedBits (.wakeup 0xFF) := by
  decide

/-- The reference parameters, and a block with the smallest buffers and the shortest timeout that R6 admits. -/
theorem witness_ResetMeetsInvariants :
    Config.reference.Valid ∧ Config.Valid { Config.reference with kwTimeoutMs := 1, maxBlock := 36, membufBytes := 2 } :=
  ⟨reference_valid,
    ⟨rfl, rfl, rfl, rfl, rfl, rfl, rfl, rfl, rfl, rfl, rfl⟩, by decide, by decide, by decide, by decide, by decide,
    by decide, by decide, by decide, by decide⟩

/-- Both line modes, the one under direct control within a frame. -/
theorem witness_HardResetAbandonsCommand :
    { State.reset with lineMode := LineMode.direct }.lineMode = .direct ∧ State.reset.lineMode = .transport := by
  decide

/-- A `CMD` write with a decoded and with a reserved word (J2), nothing else due at once; and with an input that is. -/
theorem witness_StepRunsDecodedCommand_write :
    (∀ w ∈ [(0x00005601 : Word), 0x00000342], ∀ later ∈ [[], [(1, Input.reset)], [(0, .reset)]],
      let s : State := { State.reset with inputs := (7, .write 4 4 w) :: later }
      s.status.busy = false ∧ s.pc = .idle ∧ s.inputs = (7, .write (s.cfg.hostBase + offCmd) 4 w) :: later ∧
        s.cfg.hostBase % 4 = 0) ∧
    decode 0x00005601 = some (.wakeup 0x56) ∧ decode 0x00000342 = none ∧
    { State.reset with inputs := [] }.undisturbed 1 ∧ { State.reset with inputs := [(1, .reset)] }.undisturbed 1 ∧
    ¬ { State.reset with inputs := [(0, .reset)] }.undisturbed 1 :=
  ⟨fun _ hw _ hl => by
      simp only [List.mem_cons, List.not_mem_nil, or_false] at hw hl
      rcases hw with rfl | rfl <;> rcases hl with rfl | rfl | rfl <;> exact ⟨rfl, rfl, rfl, rfl⟩,
    by decide, by decide, undisturbed_of_no_input rfl, fun _ hp => by cases hp; decide,
    fun h => absurd (h (0, .reset) rfl) (by decide)⟩

/-- An accepted command: with nothing due, for each kind of word, and with a read of `STATUS` due. -/
theorem witness_StepRunsDecodedCommand_accepted :
    (∀ w : Word, (State.reset.accept w).pc = .accepted ∧ (State.reset.accept w).undisturbed 1 ∧
      (State.reset.accept w).cmd = w) ∧
    (let s : State := { State.reset.accept 0x00000033 with inputs := [(0, .read 0 4)] }
     s.pc = .accepted ∧ s.cfg.hostBase % 4 = 0 ∧ s.inputs = (0, .read (s.cfg.hostBase + offStatus) 4) :: []) :=
  ⟨fun _ => ⟨rfl, undisturbed_of_no_input rfl, rfl⟩, rfl, rfl, rfl⟩

theorem witness_StepRunsDecodedCommand_run :
    { State.reset with pc := .running .disconnect [.setState .disconnected] }.canRun = true := by decide

theorem witness_StepRunsDecodedCommand_fetch :
    0xFFFFFF01 < 2 ^ 32 ∧ State.reset.cfg.hostBase % 4 = 0 ∧ decode (BitVec.ofNat 32 0xFFFFFF01) = some (.wakeup 0xFF) ∧
      decode (BitVec.ofNat 32 0x00000342) = none := by decide

/-- A command blocked in a `Recv()`. -/
def waiting : State :=
  { State.reset with
    status := { State.reset.status with busy := true }
    pc := .running .recvPlain [.recv .plainResult] }

theorem witness_WritesWhileBusyIgnored :
    waiting.status.busy = true ∧ ∀ offset ∈ [offCmd, 0, 0xFFFC],
      offset < hostSpace ∧ (waiting.cfg.hostBase + offset) % 4 = 0 := by decide

/-- A block at an odd address, where other offsets are admitted: the lowest and the highest. -/
theorem witness_WritesWhileBusyIgnored_misplaced :
    let s := { waiting with cfg := { waiting.cfg with hostBase := 3 } }
    ∀ offset ∈ [1, 0xFFFD], offset < hostSpace ∧ (s.cfg.hostBase + offset) % 4 = 0 := by decide

/-- The lowest and the highest offset, and those of a block at an odd address; while idle, and while a command waits. -/
theorem witness_HostReadHasNoSideEffect :
    (∀ s ∈ [State.reset, waiting], ∀ offset ∈ [0, 0xFFFC], offset < hostSpace ∧ (s.cfg.hostBase + offset) % 4 = 0) ∧
    (∀ offset ∈ [1, 0xFFFD], offset < hostSpace ∧ (3 + offset) % 4 = 0) ∧
    ∃ t, land (.read 0x0300 4) State.reset = .next t :=
  ⟨by decide, by decide, _, rfl⟩

/-- The lowest and the highest offset of each clause. -/
theorem witness_IdleWritesReachOnlyWritable :
    State.reset.status.busy = false ∧
    ∀ offset ∈ [offArg0, 0x0000, 0x00FC, 0x0200, 0xFFFC],
      offset < hostSpace ∧ (State.reset.cfg.hostBase + offset) % 4 = 0 ∧ offset ≠ offCmd ∧
        (offset + 4 ≤ txBase ∨ txBase + windowBytes ≤ offset) := by
  decide

/-- A placed block: accesses inside its space that are too narrow or misaligned, and accesses just outside it. -/
theorem witness_UnadmittedAccessStops :
    let s := State.resetWith { Config.reference with hostBase := 0x40000000 }
    (∀ p ∈ [(0x40000000, 2), (0x4000FFFC, 8), (0x40000001, 4), (0x4000FFFF, 4)],
      s.cfg.hostBase ≤ p.1 ∧ p.1 < s.cfg.hostBase + hostSpace ∧ (p.2 ≠ 4 ∨ p.1 % 4 ≠ 0)) ∧
    (∀ a ∈ [0x3FFFFFFC, 0x40010000], a < s.cfg.hostBase ∨ s.cfg.hostBase + hostSpace ≤ a) := by
  decide

/-- The bounds of each clause, and that the clause on the unlisted offsets meets no window. -/
theorem witness_WindowWordIsLittleEndian :
    0x20 ≤ 0x20 ∧ State.reset.cfg.Valid ∧ (0 < 256 ∧ 255 < 256) ∧ (0 < 3 ∧ 2 < 3 ∧ 0 < 12 ∧ 11 < 12) ∧
      (0 < State.reset.cfg.membufBytes ∧ 1023 < State.reset.cfg.membufBytes) ∧
      (∀ offset ∈ [0, 0xFF, 0x0324, 0x0FFF, 0x1400],
        offset < 0x0100 ∨ (0x0324 ≤ offset ∧ offset < 0x1000) ∨ 0x1000 + State.reset.cfg.membufBytes ≤ offset) ∧
      (∀ offset ∈ [0x20, 0xFC, 0x0324, 0x0FFC, 0x1400],
        (0x20 ≤ offset ∧ offset + 4 ≤ 0x0100) ∨ (0x0324 ≤ offset ∧ offset + 4 ≤ 0x1000) ∨
          0x1000 + State.reset.cfg.membufBytes ≤ offset) ∧
      (∀ offset ∈ [0x0100, 0x01FF, 0x0200, 0x02FF, 0x0300, 0x0323, 0x1000, 0x13FF],
        ¬(offset < 0x0100 ∨ (0x0324 ≤ offset ∧ offset < 0x1000) ∨ 0x1000 + State.reset.cfg.membufBytes ≤ offset)) :=
  ⟨by decide, reference_valid, by decide, by decide, by decide, by decide, by decide, by decide⟩

/-- The first and the last word of the window. -/
theorem witness_TxWriteChangesItsBytes :
    State.reset.status.busy = false ∧
      (∀ i ∈ [0, 252], (State.reset.cfg.hostBase + txBase + i) % 4 = 0 ∧ i < windowBytes) ∧
      (∀ a ∈ [0x00FF, 0x0200], a < txBase + 0 ∨ txBase + 0 + 4 ≤ a ∨ txBase + windowBytes ≤ a) := by decide

/-- A block at an odd address: a word that runs past the window's end. -/
theorem witness_TxWriteChangesItsBytes_misplaced :
    let s := State.resetWith { Config.reference with hostBase := 1 }
    s.status.busy = false ∧ (s.cfg.hostBase + txBase + 255) % 4 = 0 ∧ 255 < windowBytes ∧
      (∀ j ∈ [0], 255 + j < windowBytes) ∧ ¬ 255 + 1 < windowBytes := by decide

theorem witness_WakeupBitsFollowParityRule : Config.reference.Valid := reference_valid

theorem witness_WakeupSendsFrame : State.undisturbed { State.reset with inputs := [(12, .reset)] } 12 :=
  witness_undisturbed_at_bound

theorem witness_SendEchoChecksEcho : (onLine [0x74]).undisturbed 3 ∧ (onLine [0x74]).line.rx = 0x74 :: [] :=
  ⟨undisturbed_of_no_input rfl, rfl⟩

theorem witness_SendComplChecksComplement :
    ((onLine [0x0E]).undisturbed 4 ∧ (onLine [0x0E]).line.rx = 0x0E :: [] ∧ (0x0E : Byte) ≠ 0x0F) ∧
    ((onLine [0x0F, 0x0F]).undisturbed 4 ∧ (onLine [0x0F, 0x0F]).line.rx = 0x0F :: 0x0F :: []) :=
  ⟨⟨undisturbed_of_no_input rfl, rfl, by decide⟩, undisturbed_of_no_input rfl, rfl⟩

theorem witness_RecvPlainReturnsByte : (onLine [0x3C]).undisturbed 1 ∧ (onLine [0x3C]).line.rx = 0x3C :: [] :=
  ⟨undisturbed_of_no_input rfl, rfl⟩

theorem witness_RecvComplKeepsResult :
    (onLine [0x5A, 0xA4]).undisturbed 4 ∧ (onLine [0x5A, 0xA4]).line.rx = 0x5A :: 0xA4 :: [] :=
  ⟨undisturbed_of_no_input rfl, rfl⟩

theorem witness_BlockedReceiveCannotBeCancelled :
    waiting.status.busy = true ∧ waiting.blocked = true ∧ waiting.inputs = [] ∧
      ∃ t, land (.write 4 4 0x00000033) waiting = .next t :=
  ⟨rfl, rfl, rfl, _, rfl⟩

theorem witness_ArrivalCompletesReceive :
    { State.reset with lineMode := LineMode.direct }.lineMode = .direct ∧
    let s : State := { State.reset with inputs := [(0, .arrive 0x3C)] }
    s.line.rx = [] ∧ s.lineMode = .transport ∧ s.inputs = [(0, .arrive 0x3C)] :=
  ⟨rfl, rfl, rfl, rfl⟩

/-- The shortest block, on a correct line. -/
def shortest : State := withTx (onLine [3, 0xFC, 1, 0xFE, 9, 0xF6, 3]) [3, 0, 9, 0]

theorem witness_SendBlockCompletes :
    3 ≤ (shortest.txByte 0).toNat ∧ (shortest.txByte 0).toNat + 1 ≤ shortest.cfg.maxBlock ∧
      shortest.undisturbed (sentEvents shortest.cfg shortest.outgoing).length ∧ shortest.line.rx = exchange shortest.outgoing ++ [] :=
  ⟨by decide, by decide, undisturbed_of_no_input rfl, by decide⟩

/-- The longest block (F6c), its payload unspecified, on a correct line. -/
theorem witness_SendBlockCompletes_longest :
    ∃ s : State, (s.txByte 0).toNat = 127 ∧ 3 ≤ (s.txByte 0).toNat ∧ (s.txByte 0).toNat + 1 ≤ s.cfg.maxBlock ∧
      s.undisturbed (sentEvents s.cfg s.outgoing).length ∧ s.line.rx = exchange s.outgoing ++ [] := by
  let s := withTx (onLine []) [127]
  refine ⟨{ s with line := ⟨exchange s.outgoing ++ [], [], 0⟩ }, by decide, by decide, by decide,
    undisturbed_of_no_input rfl, rfl⟩

theorem witness_SendBlockFillsPlaceholders :
    shortest.cfg.Valid ∧ 3 ≤ (shortest.txByte 0).toNat ∧ (shortest.txByte 0).toNat + 1 ≤ shortest.cfg.maxBlock ∧
      shortest.undisturbed (sentEvents shortest.cfg shortest.outgoing).length ∧ shortest.line.rx = exchange shortest.outgoing ++ [] :=
  ⟨reference_valid, witness_SendBlockCompletes⟩

/-- A wrong echo of the terminator (F4), and a wrong complement of the byte before it. -/
theorem witness_SendBlockStopsAtWrongAnswer :
    (let s := withTx (counting 5 false [3, 0xFC, 6, 0xF9, 9, 0xF6, 4]) [3, 0, 9, 0]
     3 ≤ (s.txByte 0).toNat ∧ (s.txByte 0).toNat + 1 ≤ s.cfg.maxBlock ∧ s.undisturbed (4 * (3 + 1)) ∧
       3 ≤ (s.txByte 0).toNat ∧ (4 : Byte) ≠ s.outgoing.getD 3 0 ∧
       s.line.rx = (s.outgoing.take 3).flatMap (fun b => [b, b ^^^ 0xFF]) ++ 4 :: []) ∧
    (let s := withTx (counting 5 false [3, 0xFC, 6, 0xF9, 9, 9]) [3, 0, 9, 0]
     3 ≤ (s.txByte 0).toNat ∧ (s.txByte 0).toNat + 1 ≤ s.cfg.maxBlock ∧ s.undisturbed (4 * (2 + 1)) ∧
       2 < (s.txByte 0).toNat ∧ (9 : Byte) ≠ s.outgoing.getD 2 0 ^^^ 0xFF ∧
       s.line.rx = (s.outgoing.take 2).flatMap (fun b => [b, b ^^^ 0xFF]) ++ s.outgoing.getD 2 0 :: 9 :: []) :=
  ⟨⟨by decide, by decide, undisturbed_of_no_input rfl, by decide, by decide, by decide⟩,
    by decide, by decide, undisturbed_of_no_input rfl, by decide, by decide, by decide⟩

/-- A block of length 0 (F15), and one whose counter must be the next (F12). -/
theorem witness_RecvBlockCompletes :
    ((onLine [0, 0xFF]).Hears 0 [] ∧ (onLine [0, 0xFF]).undisturbed (heardEvents Config.reference 0 []).length ∧
      (onLine [0, 0xFF]).line.rx = heardAnswers 0 [] ++ []) ∧
    (let s := counting 0xFF true [3, 0xFC, 0, 0xFF, 9, 0xF6, 3]
     s.Hears 3 [0, 9, 3] ∧ s.undisturbed (heardEvents s.cfg 3 [0, 9, 3]).length ∧
       s.line.rx = heardAnswers 3 [0, 9, 3] ++ []) :=
  ⟨⟨⟨rfl, by decide, trivial⟩, undisturbed_of_no_input rfl, by decide⟩,
    ⟨rfl, by decide, .inr rfl⟩, undisturbed_of_no_input rfl, by decide⟩

/-- The longest block that fits (F14). -/
theorem witness_RecvBlockCompletes_longest :
    (onLine (heardAnswers 127 (List.replicate 127 7))).Hears 127 (List.replicate 127 7) :=
  ⟨rfl, by decide, .inl rfl⟩

theorem witness_RecvBlockStoresBytes :
    let s := counting 0xFF true [3, 0xFC, 0, 0xFF, 9, 0xF6, 3]
    s.cfg.Valid ∧ s.Hears 3 [0, 9, 3] ∧ s.undisturbed (heardEvents s.cfg 3 [0, 9, 3]).length ∧
      s.line.rx = heardAnswers 3 [0, 9, 3] ++ [] :=
  ⟨reference_valid, witness_RecvBlockCompletes.2⟩

/-- F13, at the smallest length that does not fit. -/
theorem witness_OversizedBlockOverflows :
    (onLine [0x80, 0x7F]).cfg.maxBlock < (0x80 : Byte).toNat + 1 ∧ (onLine [0x80, 0x7F]).undisturbed 4 ∧
      (onLine [0x80, 0x7F]).line.rx = 0x80 :: (0x80 ^^^ 0xFF) :: [] :=
  ⟨by decide, undisturbed_of_no_input rfl, by decide⟩

theorem witness_CounterContinuity :
    (Session.firstSeen ⟨0x10, false, .A, 0⟩ = false) ∧
    (Session.firstSeen ⟨0xFF, true, .A, 0⟩ = true ∧ (0 : Byte) = 0xFF + 1) ∧
    (let s := counting 6 true [3, 0xFC, 9, 0xF6]
     (3 : Byte).toNat + 1 ≤ s.cfg.maxBlock ∧ s.session.firstSeen = true ∧ (9 : Byte) ≠ s.session.counter + 1 ∧
       s.undisturbed 8 ∧ 2 ≤ (3 : Byte).toNat ∧ s.line.rx = 3 :: (3 ^^^ 0xFF) :: 9 :: (9 ^^^ 0xFF) :: []) ∧
    (let s := counting 6 true [1, 0xFE, 9]
     (1 : Byte).toNat + 1 ≤ s.cfg.maxBlock ∧ s.session.firstSeen = true ∧ (9 : Byte) ≠ s.session.counter + 1 ∧
       s.undisturbed 8 ∧ s.line.rx = 1 :: (1 ^^^ 0xFF) :: 9 :: []) :=
  ⟨rfl, ⟨rfl, by decide⟩, ⟨by decide, rfl, by decide, undisturbed_of_no_input rfl, by decide, by decide⟩,
    by decide, rfl, by decide, undisturbed_of_no_input rfl, by decide⟩

theorem witness_RecvBlockExpectChecksTitle :
    let s := counting 6 true [3, 0xFC, 7, 0xF8, 9, 0xF6, 3]
    s.Hears 3 [7, 9, 3] ∧ s.undisturbed (heardEvents s.cfg 3 [7, 9, 3]).length ∧ s.line.rx = heardAnswers 3 [7, 9, 3] ++ [] :=
  ⟨⟨rfl, by decide, .inr rfl⟩, undisturbed_of_no_input rfl, by decide⟩

/-- A wrong echo after the length byte, and after the counter byte (F9). -/
theorem witness_ReplyEchoCheckedFirst :
    ((onLine [0x80, 0x80]).undisturbed 8 ∧ (0x80 : Byte) ≠ 0x80 ^^^ 0xFF ∧ (onLine [0x80, 0x80]).line.rx = 0x80 :: 0x80 :: []) ∧
    (let s := counting 6 true [3, 0xFC, 9, 0xF7]
     s.undisturbed 8 ∧ 2 ≤ (3 : Byte).toNat ∧ (3 : Byte).toNat + 1 ≤ s.cfg.maxBlock ∧ (0xF7 : Byte) ≠ 9 ^^^ 0xFF ∧
       s.line.rx = 3 :: (3 ^^^ 0xFF) :: 9 :: 0xF7 :: []) :=
  ⟨⟨undisturbed_of_no_input rfl, by decide, rfl⟩, undisturbed_of_no_input rfl, by decide, by decide, by decide, by decide⟩

/-- The loop-back of program P5, with each kind of counter. -/
theorem witness_LoopBackReproducesBlock :
    let line := fun k : Byte => exchange [5, 1, 0xF6, 0xAA, 0x55, 3] ++ heardAnswers 5 [k, 0xF6, 0xAA, 0x55, 3]
    ∀ p ∈ [(7, false), ((2 : Byte), true)],
      let s := withTx (counting 0 p.2 (line p.1)) [5, 0, 0xF6, 0xAA, 0x55, 0]
      s.cfg = Config.reference ∧ 3 ≤ (s.txByte 0).toNat ∧ (s.txByte 0).toNat + 1 ≤ s.cfg.maxBlock ∧ s.inputs = [] ∧
      (s.session.firstSeen = false ∨ p.1 = s.session.counter + 2) ∧
      s.line.rx = exchange s.outgoing ++ heardAnswers (s.txByte 0) ((s.outgoing.drop 1).set 0 p.1) ++ [] := by
  decide +kernel

theorem witness_KeywordMatcher :
    ([0x55, 0x55, 0x01, 0x8A, 0x55, 0x01, 0x8A] : List Byte).foldl keywordStep 0 = 3 := by decide

/-- Vectors S3 and S10 as answers to Generation A's wait: a repeated 0x55, and an empty poll before the match. -/
theorem witness_KeywordFound :
    KeywordFound 2 [some 0x55, some 0x55, some 0x01, some 0x8A, none, some 0x55, some 0x01, some 0x8A] :=
  ⟨by decide, by decide, by decide⟩

/-- Vector S11 with a bound of two. -/
theorem witness_KeywordMissed : KeywordMissed 2 [none, some 0x55, none] := ⟨by decide, by decide, by decide⟩

/-- Four payloads: the empty one, one shorter than an `ID` field, one longer, and the longest that fits. -/
def payloads : List (List Byte) :=
  [[], [0x41, 0x42, 0x43], List.replicate 14 0x41, List.replicate 124 0x20]

/-- A line that answers the keyword, the confirmation and the identity exchange. -/
def connecting (k : Byte) : State :=
  onLine ([0x55, 0x01, 0x8A] ++ (confirmByte :: identityAnswers Config.reference k payloads ++ []))

theorem connecting_keyword (gen : Gen) (k : Byte) :
    (connecting k).KeywordComes gen [some 0x55, some 0x01, some 0x8A]
      [] (confirmByte :: identityAnswers Config.reference k payloads ++ []) ∨ gen = .A := by
  cases gen
  · exact .inr rfl
  · exact .inl ⟨⟨by decide, by decide, (by decide : 0 < 1)⟩, rfl, rfl⟩

/-- `connecting` with a script for `Poll()`. -/
def polling (k : Byte) : State :=
  { connecting k with line := { (connecting k).line with polls := [true, true, true] } }

theorem polling_keyword (k : Byte) :
    (polling k).KeywordComes .A [some 0x55, some 0x01, some 0x8A]
      [] (confirmByte :: identityAnswers Config.reference k payloads ++ []) :=
  ⟨⟨by decide, by decide, (by decide : 0 < 3000)⟩, rfl, rfl⟩

theorem payloads_fit : payloads.length = 4 ∧ ∀ p ∈ payloads, p.length + 4 ≤ Config.reference.maxBlock := by
  decide +kernel

theorem witness_ConnectACompletes :
    ∃ s : State, s.cfg.Valid ∧ (9600 : Half) ≠ 0 ∧ payloads.length = 4 ∧
      (∀ p ∈ payloads, p.length + 4 ≤ s.cfg.maxBlock) ∧
      s.KeywordComes .A [some 0x55, some 0x01, some 0x8A] []
        (confirmByte :: identityAnswers s.cfg 0xFF payloads ++ []) ∧
      s.undisturbed (connectEvents s.cfg 0x56 9600 (waitEvents .A [some 0x55, some 0x01, some 0x8A])
        (identityEvents s.cfg 0xFF payloads)).length :=
  ⟨polling 0xFF, reference_valid, by decide, payloads_fit.1, payloads_fit.2, polling_keyword 0xFF,
    undisturbed_of_no_input rfl⟩

theorem witness_ConnectBCompletes :
    ∃ s : State, s.cfg.Valid ∧ (10400 : Half) ≠ 0 ∧ payloads.length = 4 ∧
      (∀ p ∈ payloads, p.length + 4 ≤ s.cfg.maxBlock) ∧
      s.KeywordComes .B [some 0x55, some 0x01, some 0x8A] []
        (confirmByte :: identityAnswers s.cfg 1 payloads ++ []) ∧
      s.undisturbed (connectEvents s.cfg 0x56 10400 (waitEvents .B [some 0x55, some 0x01, some 0x8A])
        (identityEvents s.cfg 1 payloads)).length :=
  ⟨connecting 1, reference_valid, by decide, payloads_fit.1, payloads_fit.2,
    (connecting_keyword .B 1).resolve_right (by decide), undisturbed_of_no_input rfl⟩

/-- S15 and S16: the line of both generations. -/
def earlyAck (polls : List Bool) : State :=
  { State.reset with line := ⟨[0x55, 0x01, 0x8A] ++ (confirmByte :: (ackBlock Config.reference 1).answersHeard ++ []), polls, 0⟩ }

/-- The reference parameters, but that a keyword wait times out at the second empty poll. -/
def hastyConfig : Config := { Config.reference with kwTimeoutMs := 2 }

theorem hastyConfig_valid : hastyConfig.Valid :=
  ⟨⟨rfl, rfl, rfl, rfl, rfl, rfl, rfl, rfl, rfl, rfl, rfl⟩, by decide, by decide, by decide, by decide, by decide,
    by decide, by decide, by decide, by decide⟩

/-- S11 with a timeout of two empty polls. -/
theorem witness_ConnectATimesOut :
    let s : State := { State.resetWith hastyConfig with line := ⟨[0x55], [false, true, false], 0⟩ }
    s.cfg.Valid ∧ (9600 : Half) ≠ 0 ∧ KeywordMissed s.cfg.kwTimeoutMs [none, some 0x55, none] ∧
      s.line.polls = keywordPolls [none, some 0x55, none] ++ [] ∧
      s.line.rx = keywordBytes [none, some 0x55, none] ++ [] ∧ ∀ n, s.undisturbed n :=
  ⟨hastyConfig_valid, by decide, witness_KeywordMissed, rfl, rfl, fun _ => undisturbed_of_no_input rfl⟩

/-- The attempts at their bounds: each connect command, and AUTOCONNECT's first attempt and its last. -/
theorem attempts_allowed :
    ∀ x ∈ [Attempt.connect .A 9600, .connect .B 10400, .autoconnect 0, .autoconnect 3], x.allowed := by
  intro x hx
  simp only [List.mem_cons, List.not_mem_nil, or_false] at hx
  rcases hx with rfl | rfl | rfl | rfl <;> simp [Attempt.allowed]

/-- The keyword at once. -/
def atOnce : KeywordAnswers := [some 0x55, some 0x01, some 0x8A]

theorem atOnce_found (gen : Gen) : KeywordFound (waitBound hastyConfig gen) atOnce := by
  cases gen
  · exact ⟨by decide, by decide, (by decide : 0 < 2)⟩
  · exact ⟨by decide, by decide, (by decide : 0 < 1)⟩

/-- A line on which the attempt finds these answers to its keyword wait, and then `rest`. -/
def attempting (x : Attempt) (answers : KeywordAnswers) (rest : List Byte) (inputs : List (Nat × Input)) : State :=
  { State.resetWith hastyConfig with
    line := ⟨keywordBytes answers ++ rest, x.earlierPolls hastyConfig ++ waitPolls x.gen answers ++ [], 0⟩
    inputs := inputs }

/-- Each attempt, in its generation and, with the parameter turned round, in the other one. -/
theorem witness_EarlyAckOnlyInItsGeneration (x : Attempt) (other : Bool) :
    let t := attempting x atOnce (confirmByte :: (ackBlock hastyConfig 1).answersHeard ++ []) []
    let s : State := { t with cfg := { hastyConfig with earlyAckGen := if other then (if x.gen = .A then .B else .A) else x.gen } }
    s.cfg.Valid ∧ KeywordFound (waitBound s.cfg x.gen) atOnce ∧
      s.line.polls = x.earlierPolls s.cfg ++ waitPolls x.gen atOnce ++ [] ∧
      s.line.rx = keywordBytes atOnce ++ confirmByte :: (ackBlock s.cfg 1).answersHeard ++ [] ∧ (∀ n, s.undisturbed n) ∧
      (other = false → x.gen = s.cfg.earlyAckGen) ∧ (other = true → x.gen ≠ s.cfg.earlyAckGen) := by
  obtain ⟨sourced, v0, v1, v2, v3, v4, v5, v6, v7, v8⟩ := hastyConfig_valid
  obtain ⟨r0, r1, r2, r3, r4, r5, r6, r7, r8, r9, r10⟩ := sourced
  refine ⟨⟨⟨r0, r1, r2, r3, r4, r5, r6, r7, r8, r9, r10⟩, v0, v1, v2, v3, v4, v5, v6, v7, v8⟩,
    atOnce_found x.gen, rfl, rfl, fun _ => undisturbed_of_no_input rfl, ?_, ?_⟩
  · rintro rfl; rfl
  · rintro rfl
    show x.gen ≠ if x.gen = .A then .B else .A
    cases x.gen <;> decide

/-- A wrong echo of the confirmation, a wrong title of the first identification block, and of the final ACK. -/
theorem witness_ConnectEndsFatal (x : Attempt) :
    let wrongEcho := attempting x atOnce [0x74] []
    let wrongTitle := fun (ps : List (List Byte)) (b : Block) =>
      attempting x atOnce (confirmByte :: acknowledgedAnswers hastyConfig 0xFE ps ++ b.answersHeard ++ []) []
    hastyConfig.Valid ∧ KeywordFound (waitBound hastyConfig x.gen) atOnce ∧
      (0x74 ≠ confirmByte ∧ wrongEcho.line.rx = keywordBytes atOnce ++ 0x74 :: [] ∧
        wrongEcho.line.polls = x.earlierPolls hastyConfig ++ waitPolls x.gen atOnce ++ [] ∧ ∀ n, wrongEcho.undisturbed n) ∧
      (∀ ps ∈ [[], payloads], ps.length ≤ 4 ∧ (∀ p ∈ [0x41] :: ps, p.length + 4 ≤ hastyConfig.maxBlock) ∧
        (0x2B : Byte) ≠ (if ps.length < 4 then hastyConfig.titleAscii else hastyConfig.titleAck) ∧
        ¬(ps = [] ∧ 0x2B = hastyConfig.titleAck ∧ x.gen = hastyConfig.earlyAckGen) ∧
        let b := block (0xFE + BitVec.ofNat 8 (2 * ps.length)) 0x2B [0x41]
        (wrongTitle ps b).line.rx
          = keywordBytes atOnce ++ confirmByte :: acknowledgedAnswers hastyConfig 0xFE ps ++ b.answersHeard ++ [] ∧
        (wrongTitle ps b).line.polls = x.earlierPolls hastyConfig ++ waitPolls x.gen atOnce ++ [] ∧
        ∀ n, (wrongTitle ps b).undisturbed n) := by
  refine ⟨hastyConfig_valid, atOnce_found x.gen, ⟨by decide, rfl, rfl, fun _ => undisturbed_of_no_input rfl⟩, ?_⟩
  intro ps hps
  refine ⟨?_, ?_, ?_, fun h => absurd h.2.1 (by decide), ?_⟩
  · revert ps; decide +kernel
  · revert ps; decide +kernel
  · revert ps; decide +kernel
  · exact ⟨by simp [attempting], rfl, fun _ => undisturbed_of_no_input rfl⟩

/-- An input due at the bounds of the frame, of the keyword wait, of the confirmation and of the identity exchange; and a
line that has nothing more to answer there. -/
theorem witness_ConnectStateNamesStep (x : Attempt) (m : Input) :
    let s := attempting x atOnce (confirmByte :: acknowledgedAnswers hastyConfig 1 payloads ++ [])
    let u := attempting x atOnce (confirmByte :: identityAnswers hastyConfig 1 payloads ++ [])
    let pending : KeywordAnswers := [some 0x55, some 0x01]
    hastyConfig.Valid ∧ KeywordFound (waitBound hastyConfig x.gen) atOnce ∧
      KeywordPending (waitBound hastyConfig x.gen) pending ∧
      (∀ n ∈ [0, 12], n < 13 ∧ (s [((x.earlier hastyConfig 0x56).length + n, m)]).inputs
        = ((x.earlier hastyConfig 0x56).length + n, m) :: []) ∧
      (KeywordOpen (waitBound hastyConfig x.gen) atOnce ∧
        (∀ n ∈ [0, 1, 2], n < (waitEvents x.gen atOnce).length ∧ (s [((x.toWait hastyConfig 0x56).length + n, m)]).inputs
          = ((x.toWait hastyConfig 0x56).length + n, m) :: []) ∧ (x.gen = .A → 5 < (waitEvents x.gen atOnce).length)) ∧
      (∀ inputs ∈ [[((x.toConfirm hastyConfig 0x56 pending).length, m)], []],
        let t := attempting x pending [] inputs
        t.line.rx = keywordBytes pending ++ [] ∧ t.line.polls = x.earlierPolls t.cfg ++ waitPolls x.gen pending ++ [] ∧
        ((∃ m later, t.inputs = ((x.toConfirm hastyConfig 0x56 pending).length, m) :: later) ∨
          ∀ n, t.undisturbed n)) ∧
      (attempting x atOnce [] []).line.rx = keywordBytes atOnce ∧
      (∀ n ∈ [0, 3], n < 4 ∧ (s [((x.toConfirm hastyConfig 0x56 atOnce).length + n, m)]).inputs
        = ((x.toConfirm hastyConfig 0x56 atOnce).length + n, m) :: []) ∧
      payloads.length = 4 ∧ (∀ p ∈ payloads, p.length + 4 ≤ hastyConfig.maxBlock) ∧
      (s []).line.rx = keywordBytes atOnce ++ confirmByte :: acknowledgedAnswers hastyConfig 1 payloads ++ [] ∧
      (∀ n, (s []).undisturbed n) ∧
      (u []).line.rx = keywordBytes atOnce ++ confirmByte :: identityAnswers hastyConfig 1 payloads ++ [] ∧
      (∀ n, (u [((x.toIdentity hastyConfig 0x56 atOnce).length + n, m)]).inputs
        = ((x.toIdentity hastyConfig 0x56 atOnce).length + n, m) :: []) ∧
      0 < (identityEvents hastyConfig 1 payloads).length := by
  refine ⟨hastyConfig_valid, atOnce_found x.gen, ?_, ?_, ⟨?_, ?_, ?_⟩, ?_, by simp [attempting], ?_, payloads_fit.1,
    payloads_fit.2, by simp [attempting], fun n => undisturbed_of_no_input rfl, by simp [attempting], fun _ => rfl,
    by decide +kernel⟩
  · cases x.gen
    · exact ⟨by decide, (by decide : 0 < 2)⟩
    · exact ⟨by decide, (by decide : 0 < 1)⟩
  · exact fun n hn => ⟨by revert n; decide, rfl⟩
  · cases x.gen
    · exact ⟨by decide, (by decide : 0 < 2)⟩
    · exact ⟨by decide, (by decide : 0 < 1)⟩
  · intro n hn
    refine ⟨?_, rfl⟩
    revert n
    cases x.gen <;> decide
  · intro h
    rw [h]
    decide
  · intro inputs hin
    simp only [List.mem_cons, List.not_mem_nil, or_false] at hin
    rcases hin with rfl | rfl
    · exact ⟨rfl, rfl, .inl ⟨m, [], rfl⟩⟩
    · exact ⟨rfl, rfl, .inr fun _ => undisturbed_of_no_input rfl⟩
  · exact fun n hn => ⟨by revert n; decide, rfl⟩

/-- The keyword wait of S11 is open up to its last answer, an empty poll. -/
theorem witness_ConnectStateNamesStep_missed : KeywordOpen 2 [none, some 0x55, none] := ⟨by decide, by decide⟩

/-- A line on which `m` attempts are silent and the next one connects, after an empty poll. -/
def retried (m : Nat) : State :=
  { State.resetWith hastyConfig with
    line :=
      ⟨keywordBytes [none, some 0x55, some 0x01, some 0x8A]
          ++ confirmByte :: identityAnswers hastyConfig 1 payloads ++ [],
        List.replicate (m * 2) false ++ keywordPolls [none, some 0x55, some 0x01, some 0x8A] ++ [], 0⟩ }

/-- At the first attempt (`m = 0`) and at the last (`m = 3`). -/
theorem witness_AutoconnectCompletes (m : Nat) :
    (0 < 4 ∧ 3 < 4) ∧ (retried m).cfg.Valid ∧ payloads.length = 4 ∧
      (∀ p ∈ payloads, p.length + 4 ≤ (retried m).cfg.maxBlock) ∧
      KeywordFound (retried m).cfg.kwTimeoutMs [none, some 0x55, some 0x01, some 0x8A] ∧
      (retried m).line.polls = List.replicate (m * (retried m).cfg.kwTimeoutMs) false
        ++ keywordPolls [none, some 0x55, some 0x01, some 0x8A] ++ [] ∧
      (retried m).line.rx = keywordBytes [none, some 0x55, some 0x01, some 0x8A]
        ++ confirmByte :: identityAnswers (retried m).cfg 1 payloads ++ [] ∧
      ∀ n, (retried m).undisturbed n :=
  ⟨by decide, hastyConfig_valid, payloads_fit.1, payloads_fit.2, ⟨by decide, by decide, (by decide : 1 < 2)⟩, rfl, rfl,
    fun _ => undisturbed_of_no_input rfl⟩

theorem witness_AutoconnectTimesOut :
    State.reset.cfg.Valid ∧ State.reset.line.rx = [] ∧ ∀ n, State.reset.undisturbed n :=
  ⟨reference_valid, rfl, fun _ => undisturbed_of_no_input rfl⟩

/-- F6b, the length 2, S22 and J6: each clause at its bound. -/
theorem witness_BadArgumentRejected :
    ((withTx State.reset [2]).txByte 0).toNat < 3 ∧
    (withTx State.reset [128]).cfg.maxBlock < ((withTx State.reset [128]).txByte 0).toNat + 1 ∧
    (let s := { ready [] with arg0 := 1025 }
     s.status.state = .ready ∧ s.cfg.membufBytes < s.arg0.toNat) := by
  decide

theorem witness_ReadyOperationsNeedReady : State.reset.status.state ≠ .ready := by decide

/-- O1: LOGIN, and a response with the next counter. -/
theorem witness_LoginAndGroupReadingExchangeBlocks_login :
    let i := Instr.login 0x0000 0x01
    let b := block 0x0B 0x09 []
    let payload : List Byte := [0, 0, 1, 0x12, 0x34]
    let request := block 0x0A 0x2B payload
    let s := { ready (request.answersSent ++ b.answersHeard ++ []) with arg0 := 0x00001234 }
    s.cfg.Valid ∧ s.status.state = .ready ∧ s.AcceptsAfterSend b ∧
      (i = .login 0x0000 0x01 ∧ 0x2B = s.cfg.titleLogin ∧
        payload = [(0x0000 : Half).extractLsb' 8 8, (0x0000 : Half).extractLsb' 0 8, 0x01, s.arg0.extractLsb' 8 8,
          s.arg0.extractLsb' 0 8]) ∧
      request = block (s.session.counter + 1) 0x2B payload ∧
      s.undisturbed (request.eventsSent s.cfg ++ b.eventsHeard s.cfg).length ∧
      s.line.rx = request.answersSent ++ b.answersHeard ++ [] :=
  ⟨reference_valid, rfl, ⟨rfl, by decide, .inr (by decide)⟩, ⟨rfl, rfl, by decide⟩, by decide, undisturbed_of_no_input rfl,
    rfl⟩

/-- O2: GROUP_READING; a title that is not checked. -/
theorem witness_LoginAndGroupReadingExchangeBlocks_group :
    let i := Instr.groupReading 1
    let b := block 0x0B 0xE7 [1, 0x64, 0]
    let request := block 0x0A 0x29 [1]
    let s := ready (request.answersSent ++ b.answersHeard ++ [])
    s.cfg.Valid ∧ s.status.state = .ready ∧ s.AcceptsAfterSend b ∧
      (i = .groupReading 1 ∧ 0x29 = s.cfg.titleGroup) ∧ request = block (s.session.counter + 1) 0x29 [1] ∧
      s.undisturbed (request.eventsSent s.cfg ++ b.eventsHeard s.cfg).length ∧
      s.line.rx = request.answersSent ++ b.answersHeard ++ [] :=
  ⟨reference_valid, rfl, ⟨rfl, by decide, .inr (by decide)⟩, ⟨rfl, rfl⟩, by decide, undisturbed_of_no_input rfl, rfl⟩

/-- O3, and the same response with a wrong title. -/
theorem witness_SafeCodeCustomAndChecksumReturnBytes_safe_code :
    ∀ title ∈ [(0xA2 : Byte), 0xA3],
      let i := Instr.safeCodeCustom
      let b := block 0x0B title [0, 0x12, 0x34]
      let request := block 0x0A 0x1B [0xA1]
      let s := ready (request.answersSent ++ b.answersHeard ++ [])
      s.cfg.Valid ∧ s.status.state = .ready ∧ s.AcceptsAfterSend b ∧
        (i = .safeCodeCustom ∧ [0xA1] = [s.cfg.safeReq] ∧ 0xA2 = s.cfg.safeRespTitle ∧ 1 = s.cfg.safeOffset) ∧
        request = block (s.session.counter + 1) s.cfg.titleCustom [0xA1] ∧
        s.undisturbed (request.eventsSent s.cfg ++ b.eventsHeard s.cfg).length ∧
        s.line.rx = request.answersSent ++ b.answersHeard ++ [] :=
  fun _ _ => ⟨reference_valid, rfl, ⟨rfl, (by decide : 6 + 1 ≤ 128), .inr rfl⟩, ⟨rfl, rfl, rfl, rfl⟩, rfl,
    undisturbed_of_no_input rfl, rfl⟩

/-- O4, and the same response with a wrong title. -/
theorem witness_SafeCodeCustomAndChecksumReturnBytes_checksum :
    ∀ title ∈ [(0xB3 : Byte), 0xB4],
      let i := Instr.calcChecksum
      let b := block 0x0B title [0, 0xAA, 0x5A, 0x0F]
      let request := block 0x0A 0x1B [0xB1, 0xB2]
      let s := ready (request.answersSent ++ b.answersHeard ++ [])
      s.cfg.Valid ∧ s.status.state = .ready ∧ s.AcceptsAfterSend b ∧
        (i = .calcChecksum ∧ [0xB1, 0xB2] = [s.cfg.cksK1, s.cfg.cksK2] ∧ 0xB3 = s.cfg.cksRespTitle ∧
          2 = s.cfg.cksOffset) ∧
        request = block (s.session.counter + 1) s.cfg.titleCustom [0xB1, 0xB2] ∧
        s.undisturbed (request.eventsSent s.cfg ++ b.eventsHeard s.cfg).length ∧
        s.line.rx = request.answersSent ++ b.answersHeard ++ [] :=
  fun _ _ => ⟨reference_valid, rfl, ⟨rfl, (by decide : 7 + 1 ≤ 128), .inr rfl⟩, ⟨rfl, rfl, rfl, rfl⟩, rfl,
    undisturbed_of_no_input rfl, rfl⟩

/-- A read that wraps the address, with a long and a short payload (O9), of each kind. -/
theorem witness_ReadMemoryCompletes (kind : MemKind) :
    let chunks : List (List Byte) := [List.replicate 40 0x11, []]
    let s := { ready (memAnswers Config.reference kind 0xFFF0 33 9 chunks ++ []) with arg0 := 33 }
    s.cfg.Valid ∧ s.status.state = .ready ∧ s.arg0.toNat ≤ s.cfg.membufBytes ∧ chunks.length = chunkCount s.arg0 ∧
      (∀ p ∈ chunks, p.length + 4 ≤ s.cfg.maxBlock) ∧
      s.undisturbed (memEvents s.cfg kind 0xFFF0 s.arg0 s.session.counter chunks).length ∧
      s.line.rx = memAnswers s.cfg kind 0xFFF0 s.arg0 s.session.counter chunks ++ [] :=
  ⟨reference_valid, rfl, (by decide : 33 ≤ 1024), (by decide : 2 = chunkCount 33),
    (by decide : ∀ p ∈ [List.replicate 40 (0x11 : Byte), []], p.length + 4 ≤ 128),
    undisturbed_of_no_input rfl, rfl⟩

/-- The empty read, and the longest read. -/
theorem witness_ReadMemoryCompletes_bounds :
    ([] : List (List Byte)).length = chunkCount 0 ∧ (List.replicate 32 ([] : List Byte)).length = chunkCount 1024 ∧
      (1024 : Word).toNat ≤ State.reset.cfg.membufBytes := by
  decide

/-- O5. -/
theorem witness_SafeCodeEepromReturnsBytes :
    let chunks : List (List Byte) := [[0x12, 0x34]]
    let s := ready (memAnswers Config.reference .ee 0x0010 2 9 chunks ++ [])
    s.cfg.Valid ∧ s.status.state = .ready ∧ chunks.length = chunkCount s.cfg.safeEeSize ∧
      (∀ p ∈ chunks, p.length + 4 ≤ s.cfg.maxBlock) ∧
      s.undisturbed (memEvents s.cfg .ee s.cfg.safeEeAddr s.cfg.safeEeSize s.session.counter chunks).length ∧
      s.line.rx = memAnswers s.cfg .ee s.cfg.safeEeAddr s.cfg.safeEeSize s.session.counter chunks ++ [] :=
  ⟨reference_valid, rfl, by decide, by decide, undisturbed_of_no_input rfl, rfl⟩

/-- O8, for each kind and for SAFE_CODE_EEPROM: the ACK's title is no response title; in the first chunk. -/
theorem witness_WrongTitleEndsMemoryRead (kind : MemKind) :
    let request := chunkRequest Config.reference kind 0x0010 2 9 0
    let response := block 0x0B 0x09 [0x11, 0x22]
    let s := { ready (request.answersSent ++ response.answersHeard ++ []) with arg0 := 2 }
    s.cfg.Valid ∧ s.status.state = .ready ∧ (2 = s.arg0 ∧ (2 : Word).toNat ≤ s.cfg.membufBytes) ∧
      (0x0010 = s.cfg.safeEeAddr ∧ 2 = s.cfg.safeEeSize) ∧ ([] : List (List Byte)).length < chunkCount 2 ∧
      (∀ p ∈ [[(0x11 : Byte), 0x22]], p.length + 4 ≤ s.cfg.maxBlock) ∧ 0x09 ≠ responseTitle s.cfg kind ∧
      response = block (s.session.counter + BitVec.ofNat 8 (4 * 0 + 2)) 0x09 [0x11, 0x22] ∧ (∀ n, s.undisturbed n) ∧
      s.line.rx = answersOfChunks s.cfg kind 0x0010 2 s.session.counter [] 0 ++ request.answersSent ++
        response.answersHeard ++ [] := by
  refine ⟨reference_valid, rfl, ⟨rfl, (by decide : 2 ≤ 1024)⟩, ⟨rfl, rfl⟩, by decide,
    (by decide : ∀ p ∈ [[(0x11 : Byte), 0x22]], p.length + 4 ≤ 128), ?_, rfl,
    fun _ => undisturbed_of_no_input rfl, rfl⟩
  cases kind <;> decide

/-- The last chunk of the longest read, the payloads before it too long for `MEMBUF`. -/
theorem witness_WrongTitleEndsMemoryRead_last (kind : MemKind) :
    let chunks := List.replicate 31 (List.replicate 124 (0x11 : Byte))
    let request := chunkRequest Config.reference kind 0 1024 9 31
    let response := block (9 + BitVec.ofNat 8 (4 * 31 + 2)) 0x09 []
    let s := { ready (answersOfChunks Config.reference kind 0 1024 9 chunks 31 ++ request.answersSent
      ++ response.answersHeard ++ []) with arg0 := 1024 }
    s.cfg.Valid ∧ s.status.state = .ready ∧ (1024 = s.arg0 ∧ (1024 : Word).toNat ≤ s.cfg.membufBytes) ∧
      chunks.length = 31 ∧ 31 < chunkCount 1024 ∧ (∀ p ∈ [] :: chunks, p.length + 4 ≤ Config.reference.maxBlock) ∧
      0x09 ≠ responseTitle s.cfg kind ∧ (∀ n, s.undisturbed n) ∧ s.cfg.membufBytes < chunks.flatten.length := by
  refine ⟨reference_valid, rfl, ⟨rfl, (by decide : 1024 ≤ 1024)⟩, rfl, by decide, by decide +kernel, ?_,
    fun _ => undisturbed_of_no_input rfl, (by decide +kernel : 1024 < _)⟩
  cases kind <;> decide

/-- An empty buffer and a full one. -/
theorem witness_AppendKeepsEarlierBytes :
    State.reset.cfg.Valid ∧ { State.reset with memlen := 0 }.memlen.toNat ≤ State.reset.cfg.membufBytes ∧
      { State.reset with memlen := 1024 }.memlen.toNat ≤ State.reset.cfg.membufBytes :=
  ⟨reference_valid, Nat.zero_le _, Nat.le_refl 1024⟩

theorem witness_CommandsKeepHostRegisters :
    (∃ t, exec (.sendEcho 0x75) (onLine [0x75]) = .next t) ∧
    (let s := { waiting with line := ⟨[0x3C], [], 0⟩ }
     s.canRun = true ∧ ∃ t, step s = .next t) :=
  ⟨⟨_, rfl⟩, by decide, _, rfl⟩

/-- S15 reaches Ready from Disconnected, at once and when a read interrupts it: two steps later then. -/
theorem witness_OnlyConnectReachesReady :
    (∃ t, exec (.connectA 0x56 9600) (earlyAck [true, true, true]) = .next t ∧ t.goesOn 0 = some t ∧
      t.status.state = .ready) ∧
    (let s := { earlyAck [true, true, true] with inputs := [(20, .read 0 4)] }
     ∃ t u, exec (.connectA 0x56 9600) s = .next t ∧ t.goesOn 2 = some u ∧ u.status.state = .ready ∧
      t.status.state = .confirming ∧ s.status.state ≠ .ready) :=
  ⟨⟨_, rfl, rfl, by decide +kernel⟩, _, _, rfl, rfl, by decide +kernel, by decide +kernel, by decide⟩

/-- DISCONNECT at once, and a RECV_PLAIN that goes on when its byte arrives. -/
theorem witness_ErrorRegistersKept :
    (∃ t, exec .disconnect State.reset = .next t ∧ t.noReset ∧ t.goesOn 0 = some t ∧ t.status.outcome ≠ .fatal ∧
      (∀ a baud, Instr.disconnect ≠ .connectA a baud ∧ Instr.disconnect ≠ .connectB a baud) ∧
      ∀ a, Instr.disconnect ≠ .autoconnect a) ∧
    (∃ t u, exec .recvPlain { State.reset with inputs := [(0, .arrive 0x3C)] } = .next t ∧ t.noReset ∧
      t.goesOn 2 = some u ∧ u.status.outcome = .ok) :=
  ⟨⟨_, rfl, (by unfold State.noReset; decide +kernel), rfl, by decide +kernel, by simp, by simp⟩,
    _, _, rfl, (by unfold State.noReset; decide +kernel), rfl, by decide +kernel⟩

/-- A command that ends FATAL (K2), at once and when its wrong echo arrives later. -/
theorem witness_ResultWrittenOnlyOnReturn :
    ((onLine [0x74]).status.outcome = .none ∧
      ∃ t, exec (.sendEcho 0x75) (onLine [0x74]) = .next t ∧ t.noReset ∧ t.goesOn 0 = some t ∧
        t.status.outcome ≠ .none ∧ t.status.outcome ≠ .ok ∧ Instr.sendEcho 0x75 ≠ .recvCompl) ∧
    (let s : State := { State.reset with inputs := [(2, .arrive 0x74)] }
     s.status.outcome = .none ∧ ∃ t u, exec (.sendEcho 0x75) s = .next t ∧ t.noReset ∧ t.goesOn 2 = some u ∧
        u.status.outcome ≠ .none ∧ u.status.outcome ≠ .ok) :=
  ⟨⟨rfl, _, rfl, (by unfold State.noReset; decide +kernel), rfl, by decide +kernel, by decide +kernel, by simp⟩,
    rfl, _, _, rfl, (by unfold State.noReset; decide +kernel), rfl, by decide +kernel,
    by decide +kernel⟩

/-- A frame under way: the next step ends it. -/
def framing : State :=
  { State.reset with
    status := { State.reset.status with busy := true }
    pc := .running (.wakeup 0) [.lineHold true 200, .lineRelease]
    lineMode := .direct
    history := [.lineAcquire] }

theorem witness_StepKeepsOutcomeInvariant : framing.OutcomeInv ∧ ∃ t, step framing = .next t :=
  ⟨⟨by decide, by decide, by decide, by decide⟩, _, rfl⟩

theorem witness_StepKeepsLineDiscipline : framing.OutcomeInv ∧ framing.LineInv ∧ ∃ t, step framing = .next t :=
  ⟨⟨by decide, by decide, by decide, by decide⟩, ⟨by decide, by decide⟩, _, rfl⟩

/-- A byte about to be sent, its delay past; the host has read `STATUS` in between. -/
def sending : State :=
  { onLine [0x75] with
    status := { State.reset.status with busy := true }
    pc := .running (.sendEcho 0x75) [.send 0x75, .recv (.echo 0x75)]
    history := [.memRead 0 4 1, .delay 1] }

theorem witness_StepKeepsSendsSpaced : sending.SpacingInv ∧ ∃ t, step sending = .next t :=
  ⟨⟨by decide, by decide⟩, _, rfl⟩

/-- A reception half done: the last byte of a block is still to come. -/
def receiving : State :=
  { onLine [3] with
    status := { State.reset.status with busy := true }
    pc := .running .recvBlock [.recv (.last 127)]
    rxRemaining := 1
    rxcount := 127 }

theorem witness_StepKeepsReceptionBounded : receiving.ReceptionInv ∧ ∃ t, step receiving = .next t :=
  ⟨⟨reference_valid, by decide, by decide, by decide, by simp⟩, _, rfl⟩

theorem witness_StepKeepsBuffersCanonical : receiving.BufferInv ∧ ∃ t, step receiving = .next t :=
  ⟨⟨reference_valid, ⟨by decide, by decide⟩, by decide⟩, _, rfl⟩

end Sys2Proof.Tests
end

/-! # What the host's accesses and arriving bytes leave alone (rules R44, R61, R64) -/

namespace Sys2Proof.Machine

variable (s : State)

/-- The offsets of the `TXBUF` window with an index below `MAX_BLOCK` take a byte (R61). -/
abbrev State.txTakes (offset : Nat) : Prop :=
  txBase ≤ offset ∧ offset < txBase + windowBytes ∧ offset - txBase < s.cfg.maxBlock

variable {s} in
theorem State.writeWindowByte_taken {offset : Nat} (h : s.txTakes offset) (b : Byte) :
    s.writeWindowByte offset b = s.setTx (offset - txBase) b := if_pos h

variable {s} in
theorem State.writeWindowByte_ignored {offset : Nat} (h : ¬ s.txTakes offset) (b : Byte) :
    s.writeWindowByte offset b = s := if_neg h

theorem State.setTx_frame (i : Nat) (b : Byte) : s.setTx i b = { s with mem := (s.setTx i b).mem } := rfl

/-- A byte written at the offset of a window writes memory alone (R61). -/
theorem State.writeWindowByte_frame (offset : Nat) (b : Byte) :
    s.writeWindowByte offset b = { s with mem := (s.writeWindowByte offset b).mem } := by
  by_cases h : s.txTakes offset
  · rw [State.writeWindowByte_taken h, State.setTx_frame]
  · rw [State.writeWindowByte_ignored h]

/-- Two changes of memory alone are one. -/
theorem State.mem_frame_trans {s t u : State} (h : t = { s with mem := t.mem }) (h' : u = { t with mem := u.mem }) :
    u = { s with mem := u.mem } :=
  h'.trans (by rw [h])

theorem State.writeWindowWord_frame (offset : Nat) (w : Word) :
    s.writeWindowWord offset w = { s with mem := (s.writeWindowWord offset w).mem } :=
  have hb := State.writeWindowByte_frame
  State.mem_frame_trans (State.mem_frame_trans (State.mem_frame_trans (hb s _ _) (hb _ _ _)) (hb _ _ _)) (hb _ _ _)

/-- A write anywhere but `CMD` writes `ARG0` and memory alone (R23, R44, R61). -/
theorem State.writeWord_frame (offset : Nat) (w : Word) :
    s.writeWord offset w = { s with arg0 := (s.writeWord offset w).arg0, mem := (s.writeWord offset w).mem } := by
  unfold State.writeWord
  split_ifs
  · rfl
  · rfl
  · rw [State.writeWindowWord_frame]

/-- A byte that arrives changes the line alone (R39, R71). -/
theorem State.arrive_frame (b : Byte) : s.arrive b = { s with line := (s.arrive b).line } := by
  unfold State.arrive
  split <;> rfl

end Sys2Proof.Machine

/-! # What is left of the pseudocode, line by line (rule R22) -/

namespace Sys2Proof.Machine

variable {s : State} {c : Instr} {op : Op} {rest : List Op}

/-- A step of a command that can move on moves it on. -/
theorem step_of_canRun (hc : s.canRun = true) : step s = .next s.runOn := if_pos hc

theorem State.not_idle_of_canRun (hc : s.canRun = true) : s.pc ≠ .idle := fun hp => by
  simp [State.canRun, hp] at hc

/-- What follows an attempt of AUTOCONNECT is a part of what is left. -/
theorem catchPoint_subset {a : Byte} {later : List Op} : ∀ {todo : List Op}, catchPoint todo = some (a, later) →
    ∀ op ∈ later, op ∈ todo := by
  intro todo
  induction todo with
  | nil => exact fun hc => nomatch hc
  | cons op rest ih =>
    intro hc o ho
    cases op with
    | attemptCatch b =>
      obtain ⟨-, rfl⟩ : b = a ∧ rest = later := by simpa [catchPoint] using hc
      exact List.mem_cons_of_mem _ ho
    | _ => exact List.mem_cons_of_mem _ (ih hc o ho)

/-- What holds of every line of the rest and of every line that a line pushes holds of every line that it leaves. -/
theorem Leaves.forall_todo {cfg : Config} {pc : Pc} {q : Op → Prop} (h : Leaves cfg c op rest pc)
    (hpush : ∀ ops, Pushes cfg op ops → ∀ o ∈ ops, q o) (hrest : ∀ o ∈ rest, q o)
    (hretry : op = .keywordTick → ∀ ms a, q (.delay ms) ∧ q (.attemptRun a) ∧ q (.attemptCatch a)) :
    ∀ o ∈ pc.todo, q o := by
  cases h with
  | ended => exact fun _ h => nomatch h
  | pushed hp => exact List.forall_mem_append.2 ⟨hpush _ hp, hrest⟩
  | @retried a later hop hc =>
    obtain ⟨hd, hr, hcatch⟩ := hretry hop cfg.retryDelayMs a
    exact List.forall_mem_cons.2 ⟨hd, List.forall_mem_cons.2 ⟨hr, List.forall_mem_cons.2 ⟨hcatch,
      fun o ho => hrest o (catchPoint_subset hc o ho)⟩⟩⟩

end Sys2Proof.Machine

/-! # The registers that tell how a command went (rules R21, R24, R26, R46) -/

namespace Sys2Proof.Machine

/-- The lines of pseudocode that only the connect commands and AUTOCONNECT make (R181 to R195); DISCONNECT sets STATE too,
but only to Disconnected (R196). -/
def Op.connects : Op → Bool
  | .attemptStart _ | .keywordStart _ | .keywordTick | .poll | .identityStart | .identityCheck | .identityNext
  | .attemptRun _ | .attemptCatch _ => true
  | .setState v => decide (v ≠ .disconnected)
  | .recv use => match use with
    | .keyword _ => true
    | .echo _ | .complement _ | .plainResult | .complResult | .length | .reply _ | .last _ => false
  | .configure _ | .lineAcquire | .lineHold _ _ | .lineRelease | .delay _ | .send _ | .fillTx _ | .sendBlock | .sendFrom _ _
  | .recvBlock | .storeLength _ | .recvFrom _ | .storeByte _ _ | .checkTitle _ | .memRead _ _ _ | .memLoop _
  | .appendPayload | .memAdvance _ | .resultMemlen | .resultPayload _ | .resultMembuf _ => false

/-- The lines of pseudocode that write `RESULT` (R24). -/
def Op.returns : Op → Bool
  | .recv use => match use with
    | .plainResult | .complResult => true
    | .echo _ | .complement _ | .length | .reply _ | .last _ | .keyword _ => false
  | .resultMemlen | .resultPayload _ | .resultMembuf _ => true
  | .configure _ | .lineAcquire | .lineHold _ _ | .lineRelease | .delay _ | .send _ | .poll | .attemptStart _ | .setState _
  | .keywordStart _ | .keywordTick | .fillTx _ | .sendBlock | .sendFrom _ _ | .recvBlock | .storeLength _ | .recvFrom _
  | .storeByte _ _ | .checkTitle _ | .identityStart | .identityCheck | .identityNext | .attemptRun _ | .attemptCatch _
  | .memRead _ _ _ | .memLoop _ | .appendPayload | .memAdvance _ => false

/-- `t` is `s` after a line of pseudocode after which the command goes on: it is still busy and has no outcome; only a
connect command clears the error registers or reaches Ready; and a line that writes `RESULT` leaves just the lines after it
to do, but for RECV_COMPL's. -/
structure State.GoesOnFrom (s t : State) (op : Op) : Prop where
  running : t.pc ≠ .idle
  busy : t.status.busy = s.status.busy
  outcome : t.status.outcome = s.status.outcome
  reject : t.status.reject = s.status.reject
  errors : (t.status.errCode = s.status.errCode ∧ t.errinfo = s.errinfo) ∨
    (op.connects = true ∧ t.status.errCode = .none ∧ t.errinfo = ⟨0, 0⟩)
  ready : t.status.state = .ready → s.status.state = .ready ∨ op.connects = true
  result : t.result = s.result ∨ (op.returns = true ∧ (op = .recv .complResult ∨ t.pc.todo = s.pc.todo))

/-- What one line of pseudocode, or the end of the pseudocode, does to the registers: the command goes on, or it ends FATAL
or TIMEOUT and leaves `RESULT` alone, TIMEOUT the error registers too (R24, R264, R266). -/
inductive State.LineResult (s : State) (op : Op) : State → Prop where
  | goesOn {t : State} (h : s.GoesOnFrom t op) : LineResult s op t
  | fatal {u : State} {code : ErrCode} (x y : Byte) (hc : code ≠ .none) (hr : u.result = s.result) :
      LineResult s op (u.raiseFatal code x y)
  | timeout {u : State} (hs : u.status = s.status) (he : u.errinfo = s.errinfo) (hr : u.result = s.result) :
      LineResult s op (u.timedOut.complete .timeout)

variable {s t : State} {c : Instr} {rest : List Op} {op : Op}

/-- A line that writes none of these registers. -/
theorem State.LineResult.quiet (hp : t.pc ≠ .idle) (hs : t.status = s.status) (he : t.errinfo = s.errinfo)
    (hr : t.result = s.result) : s.LineResult op t :=
  .goesOn ⟨hp, by rw [hs], by rw [hs], by rw [hs], .inl ⟨by rw [hs], he⟩, fun h => .inl (hs ▸ h), .inl hr⟩

/-- A line that writes `RESULT` and is then done. -/
theorem State.LineResult.returned (ho : op.returns = true) (hp : t.pc = .running c rest) (hsp : s.pc = .running c rest)
    (hs : t.status = s.status) (he : t.errinfo = s.errinfo) : s.LineResult op t :=
  .goesOn ⟨by rw [hp]; exact Pc.noConfusion, by rw [hs], by rw [hs], by rw [hs], .inl ⟨by rw [hs], he⟩,
    fun h => .inl (hs ▸ h), .inr ⟨ho, .inr (by rw [hp, hsp])⟩⟩

/-- `append_payload()` writes `MEMBUF`, `MEMLEN` and MEM_TRUNC alone (R228). -/
theorem State.appendBytes_frame (bytes : List Byte) : ∀ s : State, s.appendBytes bytes = { s with
    mem := (s.appendBytes bytes).mem
    memlen := (s.appendBytes bytes).memlen
    status := { s.status with memTrunc := (s.appendBytes bytes).status.memTrunc } } := by
  induction bytes with
  | nil => exact fun _ => rfl
  | cons b bs ih =>
    intro s
    refine (ih (s.appendByte b)).trans ?_
    by_cases h : s.memlen.toNat < s.cfg.membufBytes
    · simp only [State.appendBytes, State.appendByte_room h]
    · simp only [State.appendBytes, State.appendByte_full h]

theorem State.storeByte_lineResult (i : Nat) (b : Byte) {u : State} (hp : u.pc = .running c rest)
    (hs : u.status = s.status) (he : u.errinfo = s.errinfo) (hr : u.result = s.result) :
    s.LineResult op (u.storeByte i b) := by
  unfold State.storeByte
  split
  · exact .quiet (by simp [hp, Pc.push]) hs he hr
  · exact .fatal _ _ (by decide) hr

theorem State.raiseTimeout_lineResult {u : State} (hp : u.pc = .running c rest) (hs : u.status = s.status)
    (he : u.errinfo = s.errinfo) (hr : u.result = s.result) : s.LineResult op u.raiseTimeout := by
  unfold State.raiseTimeout
  rw [hp]
  simp only []
  split
  · exact .timeout hs he hr
  · split
    · exact .goesOn ⟨Pc.noConfusion, by simp [hs], by simp [hs], by simp [hs], .inl ⟨by simp [hs], he⟩, nofun,
        .inl hr⟩
    · exact .timeout hs he hr

/-- What follows a `Recv()` that answered; `u` is the state with the byte taken. -/
theorem State.received_lineResult (use : RecvUse) (b : Byte) {u : State} (hsp : s.pc = .running c rest)
    (hp : u.pc = .running c rest) (hs : u.status = s.status) (he : u.errinfo = s.errinfo) (hr : u.result = s.result) :
    s.LineResult (.recv use) (u.received use b) := by
  have hpush : ∀ ops, (u.push ops).pc ≠ .idle := fun ops => by simp [hp, Pc.push]
  have hne : u.pc ≠ .idle := by simp [hp]
  cases use with
  | echo sent =>
    simp only [State.received]
    split
    · exact .quiet hne hs he hr
    · exact .fatal _ _ (by decide) hr
  | complement sent =>
    simp only [State.received]
    split
    · exact .quiet hne hs he hr
    · exact .fatal _ _ (by decide) hr
  | plainResult => exact .returned rfl hp hsp hs he
  | complResult =>
    exact .goesOn ⟨hpush _, congrArg Status.busy hs, congrArg Status.outcome hs, congrArg Status.reject hs,
      .inl ⟨congrArg Status.errCode hs, he⟩, fun h => .inl (hs ▸ h), .inr ⟨rfl, .inl rfl⟩⟩
  | length => exact .quiet (hpush _) hs he hr
  | reply i => exact .quiet (hpush _) hs he hr
  | last i => exact State.storeByte_lineResult i b hp hs he hr
  | keyword gen =>
    simp only [State.received, State.keywordReceived]
    split
    · exact .quiet hne hs he hr
    · exact .quiet (by simp [hp, Pc.push]) hs he hr

/-- The inversion lemma for these registers: what one line of pseudocode does to them. -/
theorem State.doOp_lineResult (s : State) (c : Instr) (rest : List Op) (op : Op) :
    (s.goto c rest).LineResult op ((s.goto c rest).doOp op) := by
  cases op with
  | recv use =>
    simp only [State.doOp, State.receive]
    split
    · exact .quiet Pc.noConfusion rfl rfl rfl
    · exact State.received_lineResult use _ rfl rfl rfl rfl rfl
  | poll =>
    simp only [State.doOp, State.pollKeyword]
    split <;> exact .quiet Pc.noConfusion rfl rfl rfl
  | attemptStart gen =>
    exact .goesOn ⟨Pc.noConfusion, rfl, rfl, rfl, .inr ⟨rfl, rfl, rfl⟩, nofun, .inl rfl⟩
  | setState v =>
    refine .goesOn ⟨Pc.noConfusion, rfl, rfl, rfl, .inl ⟨rfl, rfl⟩, fun h => .inr ?_, .inl rfl⟩
    have hv : v = .ready := h
    simp [Op.connects, hv]
  | keywordStart gen => cases gen <;> exact .quiet Pc.noConfusion rfl rfl rfl
  | keywordTick =>
    simp only [State.doOp, State.keywordTick]
    split
    · exact State.raiseTimeout_lineResult (c := c) (rest := rest) rfl rfl rfl rfl
    · exact .quiet Pc.noConfusion rfl rfl rfl
  | fillTx bytes =>
    rw [State.doOp, State.setTxAll_eq]
    exact .quiet Pc.noConfusion rfl rfl rfl
  | sendFrom i L => simp only [State.doOp]; split <;> exact .quiet Pc.noConfusion rfl rfl rfl
  | storeLength b =>
    simp only [State.doOp, State.storeLength]
    split
    · exact .quiet Pc.noConfusion rfl rfl rfl
    · exact .fatal _ _ (by decide) rfl
  | recvFrom i => simp only [State.doOp]; split_ifs <;> exact .quiet Pc.noConfusion rfl rfl rfl
  | storeByte i b => exact State.storeByte_lineResult (c := c) (rest := rest) i b rfl rfl rfl rfl
  | checkTitle title =>
    simp only [State.doOp]
    split
    · exact .quiet Pc.noConfusion rfl rfl rfl
    · exact .fatal _ _ (by decide) rfl
  | identityCheck =>
    simp only [State.doOp, State.identityCheck]
    split_ifs
    · exact .goesOn ⟨Pc.noConfusion, rfl, rfl, rfl, .inl ⟨rfl, rfl⟩, fun _ => .inr rfl, .inl rfl⟩
    · exact .fatal _ _ (by decide) rfl
    · exact .quiet Pc.noConfusion rfl rfl rfl
    · exact .quiet Pc.noConfusion rfl rfl rfl
  | identityNext => simp only [State.doOp, State.identityNext]; split <;> exact .quiet Pc.noConfusion rfl rfl rfl
  | memRead k start size =>
    exact .goesOn ⟨Pc.noConfusion, rfl, rfl, rfl, .inl ⟨rfl, rfl⟩, .inl, .inl rfl⟩
  | memLoop k => simp only [State.doOp]; split <;> exact .quiet Pc.noConfusion rfl rfl rfl
  | appendPayload =>
    rw [State.doOp, State.appendBytes_frame]
    exact .goesOn ⟨Pc.noConfusion, rfl, rfl, rfl, .inl ⟨rfl, rfl⟩, .inl, .inl rfl⟩
  | resultMemlen => exact .returned (c := c) (rest := rest) rfl rfl rfl rfl rfl
  | resultPayload offset => exact .returned (c := c) (rest := rest) rfl rfl rfl rfl rfl
  | resultMembuf offset => exact .returned (c := c) (rest := rest) rfl rfl rfl rfl rfl
  | configure _ | lineAcquire | lineHold _ _ | lineRelease | delay _ | send _ | sendBlock | recvBlock | identityStart
  | attemptRun _ | attemptCatch _ | memAdvance _ => exact .quiet Pc.noConfusion rfl rfl rfl

/-- A move completes the command OK, or does one line with the rest left. -/
theorem State.tick_lineResult {s : State} (h : s.canRun = true) :
    s.tick = s.complete .ok ∨
    ∃ c op rest, s.pc = .running c (op :: rest) ∧ s.tick = (s.goto c rest).doOp op ∧
      (s.goto c rest).LineResult op s.tick := by
  rcases State.tick_cases h with ⟨c, -, ht⟩ | ⟨c, op, rest, hpc, ht⟩
  · exact .inl ht
  · exact .inr ⟨c, op, rest, hpc, ht, ht ▸ State.doOp_lineResult s c rest op⟩

end Sys2Proof.Machine

/-! # BUSY, OUTCOME, STATE and the error registers keep in step (rules R21, R22, R46, R269) -/

namespace Sys2Proof.Machine

variable {s : State}

/-- The end of a command that leaves the error registers alone, with any outcome but FATAL and TIMEOUT (R21, R267). -/
theorem State.OutcomeInv.ended {t : State} (h : s.OutcomeInv) (hb : t.status.busy = false) (hp : t.pc = .idle)
    (ho : t.status.outcome ≠ .fatal ∧ t.status.outcome ≠ .timeout) (he : t.status.errCode = s.status.errCode)
    (hi : t.errinfo = s.errinfo) : t.OutcomeInv where
  busy_iff := by simp [hb, hp]
  running_none := by simp [hb]
  failed_disconnected hf := absurd hf (not_or.2 ho)
  no_error_no_info hn := hi.trans (h.no_error_no_info (he ▸ hn))

/-- What one line of pseudocode does keeps the registers in step. -/
theorem State.OutcomeInv.of_lineResult {t : State} {op : Op} (h : s.OutcomeInv) (hr : s.pc ≠ .idle)
    (ht : s.LineResult op t) : t.OutcomeInv := by
  obtain ⟨hout, hrej⟩ := h.running_none (h.busy_iff.2 hr)
  cases ht with
  | goesOn g =>
    have hnone : t.status.outcome = .none := g.outcome.trans hout
    refine ⟨by simp [g.busy, h.busy_iff.2 hr, g.running], fun _ => ⟨hnone, g.reject.trans hrej⟩,
      by simp [hnone], fun hn => ?_⟩
    rcases g.errors with ⟨he, hi⟩ | ⟨-, -, hi⟩
    · exact hi.trans (h.no_error_no_info (he ▸ hn))
    · exact hi
  | fatal x y hc _ => exact ⟨by simp, by simp, by simp, fun hn => absurd hn hc⟩
  | timeout hs he _ =>
    refine ⟨by simp, by simp, by simp, fun hn => ?_⟩
    exact he.trans (h.no_error_no_info (hs ▸ hn))

theorem State.OutcomeInv.tick (hc : s.canRun = true) (h : s.OutcomeInv) : s.tick.OutcomeInv := by
  rcases State.tick_lineResult hc with ht | ⟨c, op, rest, hpc, -, hres⟩
  · rw [ht]
    exact h.ended rfl rfl (by simp) rfl rfl
  · refine State.OutcomeInv.of_lineResult (s := s.goto c rest) ?_ Pc.noConfusion hres
    obtain ⟨hbusy, hnone, hdisc, herr⟩ := h
    exact ⟨by simpa [hpc, State.goto] using hbusy, hnone, hdisc, herr⟩

/-- Acceptance finds no outcome to keep (R21). -/
theorem State.OutcomeInv.accept (w : Word) (h : s.OutcomeInv) : (s.accept w).OutcomeInv where
  busy_iff := by simp
  running_none _ := ⟨rfl, rfl⟩
  failed_disconnected := by simp
  no_error_no_info := h.no_error_no_info

/-- A command that begins is busy, and has no outcome yet. -/
theorem State.OutcomeInv.start (i : Instr) (hp : s.pc = .accepted) (h : s.OutcomeInv) :
    ((startState s i).started.goto i (startOps s i)).OutcomeInv := by
  have hst : (startState s i).status = s.status ∧ (startState s i).errinfo = s.errinfo := by cases i <;> exact ⟨rfl, rfl⟩
  obtain ⟨hstatus, herrinfo⟩ := hst
  obtain ⟨hout, hrej⟩ := h.running_none (h.busy_iff.2 (by simp [hp]))
  refine ⟨by simp [State.started, State.goto], fun _ => ?_, fun hf => ?_, fun hn => ?_⟩
  · simp [State.started, State.goto, hstatus, hout, hrej]
  · simp [State.started, State.goto, hstatus, hout] at hf
  · exact herrinfo.trans (h.no_error_no_info (by simpa [State.started, State.goto, hstatus] using hn))

/-- Settles O56: every move of the engine keeps the registers in step (`State.OutcomeInv.tick`), and so does what the outside
does. -/
theorem stepKeepsOutcomeInvariant : Obligations.StepKeepsOutcomeInvariant := by
  intro s t hs h
  refine step_keeps (P := State.OutcomeInv) h hs (fun _ hc h => h.tick hc) ?_ ?_ ?_ ?_ (fun _ w _ h => h.accept w) ?_
    (fun _ i hp h => h.start i hp) ?_ ?_ ?_
  case refine_1 => exact fun s _ ⟨h1, h2, h3, h4⟩ => ⟨h1, h2, h3, h4⟩
  case refine_2 => exact fun s _ _ ⟨h1, h2, h3, h4⟩ => ⟨h1, h2, h3, h4⟩
  case refine_3 => exact fun s _ _ ⟨h1, h2, h3, h4⟩ => ⟨h1, h2, h3, h4⟩
  case refine_4 => exact fun s _ ⟨h1, h2, h3, h4⟩ => ⟨h1, h2, h3, h4⟩
  case refine_5 => exact fun s r _ h => h.ended rfl rfl (by simp) rfl rfl
  case refine_6 => intro s offset w ⟨h1, h2, h3, h4⟩; rw [State.writeWord_frame]; exact ⟨h1, h2, h3, h4⟩
  case refine_7 => exact fun s _ => ⟨by simp [State.hardReset, State.resetWith], nofun, nofun, fun _ => rfl⟩
  case refine_8 => intro s b ⟨h1, h2, h3, h4⟩; rw [State.arrive_frame]; exact ⟨h1, h2, h3, h4⟩

end Sys2Proof.Machine

/-! # The line is under direct control only within a frame (rules R39, R122, R297) -/

namespace Sys2Proof.Machine

variable {s : State} {c : Instr} {op : Op} {rest : List Op}

/-- The lines of pseudocode that take, hold or release the line (R121). -/
def Op.holdsLine : Op → Bool
  | .lineAcquire | .lineHold _ _ | .lineRelease => true
  | .configure _ | .delay _ | .send _ | .recv _ | .poll | .attemptStart _ | .setState _ | .keywordStart _ | .keywordTick
  | .fillTx _ | .sendBlock | .sendFrom _ _ | .recvBlock | .storeLength _ | .recvFrom _ | .storeByte _ _ | .checkTitle _
  | .identityStart | .identityCheck | .identityNext | .attemptRun _ | .attemptCatch _ | .memRead _ _ _ | .memLoop _
  | .appendPayload | .memAdvance _ | .resultMemlen | .resultPayload _ | .resultMembuf _ => false

/-! ## The pseudocode left -/

/-- A line that does not touch the line mode leaves the check of the pseudocode where it was. -/
theorem keepsLine_cons (h : op.holdsLine = false) (m : LineMode) :
    keepsLine m (op :: rest) = (decide (m = .transport) && keepsLine .transport rest) := by
  cases op with
  | lineAcquire | lineHold _ _ | lineRelease => cases h
  | _ => cases m <;> rfl

theorem keepsLine_append {ops : List Op} (h : ∀ op ∈ ops, op.holdsLine = false) :
    keepsLine .transport (ops ++ rest) = keepsLine .transport rest := by
  induction ops with
  | nil => rfl
  | cons op ops ih =>
    rw [List.cons_append, keepsLine_cons (h op (by simp)), ih fun o ho => h o (List.mem_cons_of_mem _ ho)]
    rfl

/-- A whole wakeup frame leaves the line as it found it (R121). -/
theorem keepsLine_frame (cfg : Config) (a : Byte) :
    keepsLine .transport (frameOps cfg a ++ rest) = keepsLine .transport rest := by
  show keepsLine .direct ((wakeupBits cfg a).map (fun v => Op.lineHold v cfg.bitMs) ++ [.lineRelease] ++ rest) = _
  induction wakeupBits cfg a with
  | nil => rfl
  | cons b bs ih => exact ih

theorem keepsLine_connect (cfg : Config) (gen : Gen) (a : Byte) (baud : Half) :
    keepsLine .transport (connectOps cfg gen a baud ++ rest) = keepsLine .transport rest := by
  have hsplit : connectOps cfg gen a baud ++ rest = [.attemptStart gen, .configure baud] ++ (frameOps cfg a ++
      ([.setState .awaitingKeyword, .keywordStart gen] ++ confirmingOps cfg ++ [.identityStart] ++ rest)) := by
    simp [connectOps, addressingOps]
  rw [hsplit, keepsLine_append (by simp [Op.holdsLine]), keepsLine_frame,
    keepsLine_append (by simp [confirmingOps, sendEchoOps, Op.holdsLine])]

/-- What a line pushes leaves the line as it found it. -/
theorem Pushes.keepsLine {cfg : Config} {ops : List Op} (h : Pushes cfg op ops) :
    Machine.keepsLine .transport (ops ++ rest) = Machine.keepsLine .transport rest := by
  cases h with
  | attemptRun a baud => exact keepsLine_connect cfg .A a baud
  | keywordByte gen | keywordStart gen => cases gen <;> exact keepsLine_append (by simp [keywordWaitOps, Op.holdsLine])
  | _ => exact keepsLine_append (by
      simp [Op.holdsLine, sendEchoOps, sendComplOps, sendAckOps, recvAckOps, recvBlockExpectOps, chunkOps])

theorem keepsLine_tail {m : LineMode} (h : keepsLine m (op :: rest) = true) : ∃ m', keepsLine m' rest = true := by
  cases ho : op.holdsLine with
  | false => exact ⟨.transport, (Bool.and_eq_true_iff.1 (keepsLine_cons ho m ▸ h)).2⟩
  | true =>
    cases op with
    | lineAcquire =>
      cases m with
      | transport => exact ⟨.direct, h⟩
      | direct => cases h
    | lineHold level ms =>
      cases m with
      | transport => cases h
      | direct => exact ⟨.direct, h⟩
    | lineRelease =>
      cases m with
      | transport => cases h
      | direct => exact ⟨.transport, h⟩
    | _ => cases ho

/-- What follows an attempt of AUTOCONNECT is not within a frame. -/
theorem keepsLine_catchPoint {a : Byte} {later : List Op} : ∀ {todo : List Op} {m : LineMode},
    keepsLine m todo = true → catchPoint todo = some (a, later) → keepsLine .transport later = true := by
  intro todo
  induction todo with
  | nil => exact fun _ hc => nomatch hc
  | cons op rest ih =>
    intro m hk hc
    obtain ⟨m', hk'⟩ := keepsLine_tail hk
    cases op with
    | attemptCatch b =>
      obtain ⟨rfl, rfl⟩ : b = a ∧ rest = later := by simpa [catchPoint] using hc
      rw [keepsLine_cons rfl] at hk
      exact (Bool.and_eq_true_iff.1 hk).2
    | _ => exact ih hk' hc

/-- What is left after a line that is no part of a frame. -/
theorem Leaves.keepsLine {cfg : Config} {pc : Pc} (h : Leaves cfg c op rest pc)
    (hk : Machine.keepsLine .transport rest = true) : Machine.keepsLine .transport pc.todo = true := by
  cases h with
  | ended => rfl
  | pushed hp => exact hp.keepsLine.trans hk
  | retried _ hc =>
    show Machine.keepsLine .transport ([.delay _, .attemptRun _, .attemptCatch _] ++ _) = true
    rw [keepsLine_append (by simp [Op.holdsLine])]
    exact keepsLine_catchPoint hk hc

/-! ## The events -/

theorem lineModeOf_cons {e : Event} {older : List Event} {m : LineMode} (h : lineModeOf older = some m) :
    lineModeOf (e :: older) = lineAfter m e := by
  rw [lineModeOf, h]; rfl

/-- The transport has the line, and the history says so. -/
abbrev State.Attached (s : State) : Prop := s.lineMode = .transport ∧ lineModeOf s.history = some .transport

theorem State.Attached.record {e : Event} (h : s.Attached) (he : lineAfter .transport e = some .transport) :
    (s.record e).Attached :=
  ⟨h.1, (lineModeOf_cons h.2).trans he⟩

theorem State.Attached.event {e : Event} (h : s.Attached) (he : lineAfter .transport e = some .transport) :
    (s.event e).Attached := State.Attached.record h he

theorem State.Attached.raiseFatal (h : s.Attached) (code : ErrCode) (x y : Byte) : (s.raiseFatal code x y).Attached :=
  State.Attached.event h (e := .fatal code x y) rfl

theorem State.Attached.storeByte (h : s.Attached) (i : Nat) (b : Byte) : (s.storeByte i b).Attached := by
  unfold State.storeByte
  split
  · exact h
  · exact State.Attached.raiseFatal (s := s.storeRx i b) h ..

theorem State.Attached.raiseTimeout (h : s.Attached) : s.raiseTimeout.Attached := by
  have ht : s.timedOut.Attached := State.Attached.event h (e := .timeout) rfl
  unfold State.raiseTimeout
  split
  · exact ht
  · exact ht
  · split
    · exact ht
    · split <;> exact ht

theorem State.Attached.received (h : s.Attached) (use : RecvUse) (b : Byte) : (s.received use b).Attached := by
  cases use with
  | echo sent => simp only [State.received]; split; exacts [h, State.Attached.raiseFatal h ..]
  | complement sent => simp only [State.received]; split; exacts [h, State.Attached.raiseFatal h ..]
  | last i => exact State.Attached.storeByte h i b
  | keyword gen => simp only [State.received, State.keywordReceived]; split <;> exact h
  | plainResult | complResult | length | reply _ => exact h

/-- A line that is no part of a frame leaves the line with the transport. -/
theorem State.Attached.doOp (h : s.Attached) (ho : op.holdsLine = false) : (s.doOp op).Attached := by
  cases op with
  | lineAcquire | lineHold _ _ | lineRelease => cases ho
  | configure baud =>
    exact State.Attached.event (e := .configure baud)
      (s := { s with session := { s.session with baud := baud }, line := { s.line with baud := baud.toNat } }) h rfl
  | delay _ | send _ => exact State.Attached.event h rfl
  | recv use =>
    simp only [State.doOp, State.receive]
    split
    · exact h
    · rename_i b r _
      have hb := State.Attached.event (s := { s with line := { s.line with rx := r } }) h (e := .recv b) rfl
      exact State.Attached.received hb use b
  | poll =>
    have hp := State.Attached.event (s := { s with line := { s.line with polls := s.line.polls.tail } }) h
      (e := .poll s.line.pollAnswer) rfl
    simp only [State.doOp, State.pollKeyword]
    split <;> exact hp
  | keywordStart gen => cases gen <;> exact h
  | keywordTick =>
    simp only [State.doOp, State.keywordTick]
    split
    · exact State.Attached.raiseTimeout (s := { s with kwElapsed := s.kwElapsed + 1 }) h
    · exact h
  | fillTx bytes => rw [State.doOp, State.setTxAll_eq]; exact h
  | sendFrom i L => simp only [State.doOp]; split <;> exact h
  | storeLength b =>
    simp only [State.doOp, State.storeLength]
    split
    · exact h
    · exact State.Attached.raiseFatal (s := s.storeRx 0 b) h ..
  | recvFrom i => simp only [State.doOp]; split_ifs <;> exact h
  | storeByte i b => exact State.Attached.storeByte h i b
  | checkTitle title => simp only [State.doOp]; split; exacts [h, State.Attached.raiseFatal h ..]
  | identityCheck =>
    simp only [State.doOp, State.identityCheck]
    split_ifs
    exacts [h, State.Attached.raiseFatal h .., h, h]
  | identityNext => simp only [State.doOp, State.identityNext]; split <;> exact h
  | memLoop k => simp only [State.doOp]; split <;> exact h
  | appendPayload => rw [State.doOp, State.appendBytes_frame]; exact h
  | attemptStart _ | setState _ | sendBlock | recvBlock | identityStart | attemptRun _ | attemptCatch _ | memRead _ _ _
  | memAdvance _ | resultMemlen | resultPayload _ | resultMembuf _ => exact h

/-! ## The invariant -/

/-- A line that the pseudocode left may begin with keeps the line discipline. -/
theorem State.doOp_lineInv (hh : lineModeOf s.history = some s.lineMode)
    (hk : keepsLine s.lineMode (op :: rest) = true) : ((s.goto c rest).doOp op).LineInv := by
  cases ho : op.holdsLine with
  | false =>
    rw [keepsLine_cons ho, Bool.and_eq_true_iff, decide_eq_true_iff] at hk
    obtain ⟨hmode, hrest⟩ := hk
    have ha : ((s.goto c rest).doOp op).Attached := State.Attached.doOp (s := s.goto c rest) ⟨hmode, hmode ▸ hh⟩ ho
    refine ⟨by rw [ha.2, ha.1], ?_⟩
    rw [ha.1]
    exact (State.doOp_pc (s := s.goto c rest) rfl op).keepsLine hrest
  | true =>
    cases op with
    | lineAcquire =>
      cases hm : s.lineMode with
      | transport => exact ⟨lineModeOf_cons (hh.trans (congrArg some hm)), by rw [hm] at hk; exact hk⟩
      | direct => rw [hm] at hk; cases hk
    | lineHold level ms =>
      cases hm : s.lineMode with
      | transport => rw [hm] at hk; cases hk
      | direct =>
        refine ⟨(lineModeOf_cons (hh.trans (congrArg some hm))).trans (congrArg some hm.symm), ?_⟩
        show keepsLine s.lineMode rest = true
        rw [hm] at hk ⊢
        exact hk
    | lineRelease =>
      cases hm : s.lineMode with
      | transport => rw [hm] at hk; cases hk
      | direct => exact ⟨lineModeOf_cons (hh.trans (congrArg some hm)), by rw [hm] at hk; exact hk⟩
    | _ => cases ho

/-- While no command runs the transport has the line. -/
theorem State.LineInv.attached (h : s.LineInv) (hp : s.pc.todo = []) : s.Attached := by
  obtain ⟨hh, hk⟩ := h
  rw [hp] at hk
  cases hm : s.lineMode with
  | direct => rw [hm] at hk; cases hk
  | transport => exact ⟨hm, hm ▸ hh⟩

/-- What is left to do when nothing of a command is left keeps to the line mode, the transport having the line. -/
theorem State.Attached.lineInv (h : s.Attached) (hk : keepsLine .transport s.pc.todo = true) : s.LineInv :=
  ⟨by rw [h.1, h.2], by rw [h.1]; exact hk⟩

theorem State.LineInv.tick (hc : s.canRun = true) (h : s.LineInv) : s.tick.LineInv := by
  rcases State.tick_cases hc with ⟨c, hpc, ht⟩ | ⟨c, op, rest, hpc, ht⟩
  · rw [ht]
    exact State.Attached.lineInv (h.attached (by rw [hpc]; rfl)) rfl
  · obtain ⟨hh, hk⟩ := h
    rw [hpc] at hk
    exact ht ▸ State.doOp_lineInv hh hk

/-- The pseudocode that a command starts with leaves the line as it found it. -/
theorem keepsLine_startOps (i : Instr) : keepsLine .transport (startOps s i) = true := by
  rw [← List.append_nil (startOps s i)]
  cases i with
  | wakeup a => exact keepsLine_frame ..
  | connectA a baud | connectB a baud => exact keepsLine_connect ..
  | _ => exact keepsLine_append (by
      simp [startOps, Op.holdsLine, sendEchoOps, sendComplOps, recvBlockExpectOps])

/-- A host access is recorded in either line mode. -/
theorem State.LineInv.record {e : Event} (he : ∀ m, lineAfter m e = some m) (h : s.LineInv) : (s.record e).LineInv :=
  ⟨(lineModeOf_cons h.1).trans (he _), h.2⟩

/-- A reset releases the line, if it was under direct control (R290). -/
theorem State.LineInv.hardReset (h : s.LineInv) : s.hardReset.LineInv := by
  refine State.Attached.lineInv ⟨rfl, ?_⟩ rfl
  unfold State.hardReset
  cases hm : s.lineMode with
  | transport => exact h.1.trans (congrArg some hm)
  | direct => exact lineModeOf_cons (h.1.trans (congrArg some hm))

/-- Settles O57: a move of the engine does a line that the pseudocode left may begin with (`State.doOp_lineInv`), a command
begins and ends with the transport having the line, and the outside makes no line event but the release of a reset. -/
theorem stepKeepsLineDiscipline : Obligations.StepKeepsLineDiscipline := by
  intro s t hout hs h
  refine (step_keeps (P := fun s => s.LineInv ∧ (s.pc ≠ .idle → s.status.busy = true)) h ⟨hs, hout.busy_iff.2⟩
    (fun s hc h => ⟨h.1.tick hc, State.tick_busy hc h.2⟩) ?_ ?_ ?_ ?_ ?_ ?_ ?_ ?_ ?_ ?_).1
  case refine_1 => exact fun s _ h => h
  case refine_2 => exact fun s _ _ h => ⟨State.LineInv.record (fun m => by cases m <;> rfl) h.1, h.2⟩
  case refine_3 => exact fun s _ _ h => ⟨State.LineInv.record (fun m => by cases m <;> rfl) h.1, h.2⟩
  case refine_4 => exact fun s _ h => h
  case refine_5 =>
    intro s w hidle h
    have hp : s.pc = .idle := by_contra fun hne => absurd (h.2 hne) (by simp [hidle])
    exact ⟨State.Attached.lineInv (h.1.attached (by rw [hp]; rfl)) rfl, fun _ => rfl⟩
  case refine_6 =>
    intro s r hp h
    exact ⟨State.Attached.lineInv (h.1.attached (by rw [hp]; rfl)) rfl, nofun⟩
  case refine_7 =>
    intro s i hp h
    have ha : ((startState s i).started.goto i (startOps s i)).Attached := by
      cases i <;> exact h.1.attached (by rw [hp]; rfl)
    exact ⟨ha.lineInv (keepsLine_startOps i), fun _ => rfl⟩
  case refine_8 => intro s offset w h; rw [State.writeWord_frame]; exact h
  case refine_9 => exact fun s h => ⟨h.1.hardReset, nofun⟩
  case refine_10 => intro s b h; rw [State.arrive_frame]; exact h

end Sys2Proof.Machine

/-! # A reception stays within the buffer (rules R30, R38, R154, R155) -/

namespace Sys2Proof.Machine

variable {s t : State} {c : Instr} {op : Op} {rest : List Op} {limit remaining : Nat}

/-! ## The pseudocode left -/

/-- The lines of pseudocode that may come before a byte of the reception under way is stored: the reply and its echo. -/
def Op.replies : Op → Bool
  | .delay _ | .send _ => true
  | .recv use => match use with
    | .echo _ => true
    | .complement _ | .plainResult | .complResult | .length | .reply _ | .last _ | .keyword _ => false
  | .configure _ | .lineAcquire | .lineHold _ _ | .lineRelease | .poll | .attemptStart _ | .setState _ | .keywordStart _
  | .keywordTick | .fillTx _ | .sendBlock | .sendFrom _ _ | .recvBlock | .storeLength _ | .recvFrom _ | .storeByte _ _
  | .checkTitle _ | .identityStart | .identityCheck | .identityNext | .attemptRun _ | .attemptCatch _ | .memRead _ _ _
  | .memLoop _ | .appendPayload | .memAdvance _ | .resultMemlen | .resultPayload _ | .resultMembuf _ => false

/-- No reception is under way in the pseudocode left. -/
abbrev allOutside (todo : List Op) : Prop := ∀ op ∈ todo, op.outsideReception = true

theorem allOutside_cons : allOutside (op :: rest) ↔ op.outsideReception = true ∧ allOutside rest := List.forall_mem_cons

theorem receptionFits_replies (h : op.replies = true) :
    receptionFits limit remaining (op :: rest) ↔ receptionFits limit remaining rest := by
  cases op with
  | delay _ | send _ => exact Iff.rfl
  | recv use =>
    cases use with
    | echo _ => exact Iff.rfl
    | _ => cases h
  | _ => cases h

theorem receptionFits_replies_append {ops : List Op} (h : ∀ op ∈ ops, op.replies = true) :
    receptionFits limit remaining (ops ++ rest) ↔ receptionFits limit remaining rest := by
  induction ops with
  | nil => exact Iff.rfl
  | cons op ops ih =>
    rw [List.cons_append, receptionFits_replies (h op (by simp)), ih fun o ho => h o (List.mem_cons_of_mem _ ho)]

theorem receptionFits_sendEcho (cfg : Config) (b : Byte) :
    receptionFits limit remaining (sendEchoOps cfg b ++ rest) ↔ receptionFits limit remaining rest :=
  receptionFits_replies_append (by simp [sendEchoOps, Op.replies])

theorem receptionFits_outside (ho : op.outsideReception = true) (hr : op.replies = false) :
    receptionFits limit remaining (op :: rest) ↔ allOutside rest := by
  cases op with
  | delay _ | send _ => cases hr
  | recv use =>
    cases use with
    | echo _ => cases hr
    | length | reply _ | last _ => cases ho
    | _ => exact Iff.rfl
  | storeLength _ | storeByte _ _ | recvFrom _ => cases ho
  | _ => exact Iff.rfl

theorem allOutside.receptionFits : ∀ {todo : List Op}, allOutside todo → receptionFits limit remaining todo := by
  intro todo
  induction todo with
  | nil => exact fun _ => trivial
  | cons op rest ih =>
    intro h
    obtain ⟨ho, hrest⟩ := allOutside_cons.1 h
    cases hr : op.replies with
    | true => exact (receptionFits_replies hr).2 (ih hrest)
    | false => exact (receptionFits_outside ho hr).2 hrest

/-- What a line outside a reception pushes is outside a reception, but for the start of one. -/
theorem Pushes.allOutside {cfg : Config} {ops : List Op} (h : Pushes cfg op ops) (ho : op.outsideReception = true)
    (hb : op ≠ .recvBlock) : Machine.allOutside ops := by
  cases h with
  | blocked use => simpa [Machine.allOutside] using ho
  | lengthReply | byteReply | lastByte | storeLength | storeByte | recvLast | recvReply => cases ho
  | recvBlock => exact absurd rfl hb
  | keywordByte gen | keywordStart gen => cases gen <;> simp [Machine.allOutside, keywordWaitOps, Op.outsideReception]
  | attemptRun a baud =>
    simp [Machine.allOutside, connectOps, addressingOps, frameOps, confirmingOps, sendEchoOps, Op.outsideReception, or_imp,
      forall_and]
  | _ =>
    simp [Machine.allOutside, Op.outsideReception, sendEchoOps, sendComplOps, sendAckOps, recvAckOps, recvBlockExpectOps,
      chunkOps]

/-- What a line of a reply pushes is that line again, while the line does not answer it. -/
theorem Pushes.replies {cfg : Config} {ops : List Op} (h : Pushes cfg op ops) (hr : op.replies = true) :
    ∀ o ∈ ops, o.replies = true := by
  cases h with
  | nothing => simp
  | blocked use => simpa using hr
  | _ => cases hr

/-- What is left after a line outside a reception, but for the start of one, keeps a reception under way within its
bounds. -/
theorem Leaves.receptionFits {cfg : Config} {pc : Pc} (h : Leaves cfg c op rest pc) (ho : op.outsideReception = true)
    (hb : op ≠ .recvBlock) (hf : Machine.receptionFits limit remaining (op :: rest)) :
    Machine.receptionFits limit remaining pc.todo := by
  cases hr : op.replies with
  | false =>
    have hrest := (receptionFits_outside ho hr).1 hf
    exact allOutside.receptionFits
      (h.forall_todo (fun _ hp => hp.allOutside ho hb) hrest (fun _ _ _ => ⟨rfl, rfl, rfl⟩))
  | true =>
    have hrest := (receptionFits_replies hr).1 hf
    cases h with
    | ended => trivial
    | pushed hp => exact (receptionFits_replies_append (hp.replies hr)).2 hrest
    | retried hop _ => subst hop; cases hr

/-! ## The count and the countdown -/

/-- `t` has the parameters, the count of received bytes and the countdown of `s`. -/
abbrev State.SameCount (s t : State) : Prop := t.cfg = s.cfg ∧ t.rxcount = s.rxcount ∧ t.rxRemaining = s.rxRemaining

theorem State.raiseTimeout_sameCount (s : State) : s.SameCount s.raiseTimeout := by
  unfold State.raiseTimeout
  split
  · exact ⟨rfl, rfl, rfl⟩
  · exact ⟨rfl, rfl, rfl⟩
  · split
    · exact ⟨rfl, rfl, rfl⟩
    · split <;> exact ⟨rfl, rfl, rfl⟩

theorem State.received_sameCount (s : State) {use : RecvUse} (b : Byte) (ho : (Op.recv use).outsideReception = true) :
    s.SameCount (s.received use b) := by
  cases use with
  | length | reply _ | last _ => cases ho
  | echo _ | complement _ => simp only [State.received]; split <;> exact ⟨rfl, rfl, rfl⟩
  | plainResult | complResult => exact ⟨rfl, rfl, rfl⟩
  | keyword gen => simp only [State.received, State.keywordReceived]; split <;> exact ⟨rfl, rfl, rfl⟩

/-- A line outside a reception, but for the start of one, leaves the count and the countdown alone. -/
theorem State.doOp_sameCount (s : State) (ho : op.outsideReception = true) (hb : op ≠ .recvBlock) :
    s.SameCount (s.doOp op) := by
  cases op with
  | recvBlock => exact absurd rfl hb
  | storeLength _ | recvFrom _ | storeByte _ _ => cases ho
  | recv use =>
    simp only [State.doOp, State.receive]
    split
    · exact ⟨rfl, rfl, rfl⟩
    · rename_i b r _
      exact State.received_sameCount (({ s with line := { s.line with rx := r } } : State).event (.recv b)) b ho
  | poll => simp only [State.doOp, State.pollKeyword]; split <;> exact ⟨rfl, rfl, rfl⟩
  | keywordStart gen => cases gen <;> exact ⟨rfl, rfl, rfl⟩
  | keywordTick =>
    simp only [State.doOp, State.keywordTick]
    split
    · exact State.raiseTimeout_sameCount { s with kwElapsed := s.kwElapsed + 1 }
    · exact ⟨rfl, rfl, rfl⟩
  | fillTx bytes => rw [State.doOp, State.setTxAll_eq]; exact ⟨rfl, rfl, rfl⟩
  | sendFrom i L => simp only [State.doOp]; split <;> exact ⟨rfl, rfl, rfl⟩
  | checkTitle title => simp only [State.doOp]; split <;> exact ⟨rfl, rfl, rfl⟩
  | identityCheck => simp only [State.doOp, State.identityCheck]; split_ifs <;> exact ⟨rfl, rfl, rfl⟩
  | identityNext => simp only [State.doOp, State.identityNext]; split <;> exact ⟨rfl, rfl, rfl⟩
  | memLoop k => simp only [State.doOp]; split <;> exact ⟨rfl, rfl, rfl⟩
  | appendPayload => rw [State.doOp, State.appendBytes_frame]; exact ⟨rfl, rfl, rfl⟩
  | configure _ | lineAcquire | lineHold _ _ | lineRelease | delay _ | send _ | attemptStart _ | setState _ | sendBlock
  | identityStart | attemptRun _ | attemptCatch _ | memRead _ _ _ | memAdvance _ | resultMemlen | resultPayload _
  | resultMembuf _ => exact ⟨rfl, rfl, rfl⟩

/-! ## The lines of a reception -/

/-- A byte at index `i` is stored, with room for it: the count becomes `i + 1` and the rest still fits, or the counter check
ends the command (R154, R156). -/
theorem State.storeByte_receptionInv {i : Nat} (b : Byte) (hv : s.cfg.Valid) (h1 : 1 ≤ s.rxRemaining.toNat)
    (hfit : i + s.rxRemaining.toNat ≤ s.cfg.maxBlock) (hrest : allOutside rest) (hp : s.pc = .running c rest) :
    (s.storeByte i b).ReceptionInv := by
  have hmax := hv.maxBlock_le
  have hcount : (BitVec.ofNat 32 (i + 1)).toNat ≤ s.cfg.maxBlock := by rw [BitVec.toNat_ofNat]; omega
  unfold State.storeByte
  split
  · refine ⟨hv, hcount, ?_⟩
    have hleft : (s.rxRemaining - 1).toNat = s.rxRemaining.toNat - 1 :=
      BitVec.toNat_sub_of_le (by simpa [BitVec.le_def] using h1)
    simp only [State.push_pc, State.storedByte_pc, hp]
    refine ⟨?_, hrest⟩
    show i + 1 + (s.rxRemaining - 1).toNat ≤ s.cfg.maxBlock
    omega
  · exact ⟨hv, hcount, trivial⟩

/-- The length byte is stored: the block fits, or the size check ends the command (R155). -/
theorem State.storeLength_receptionInv (b : Byte) (hv : s.cfg.Valid) (hrest : allOutside rest)
    (hp : s.pc = .running c rest) : (s.storeLength b).ReceptionInv := by
  have hmin := hv.maxBlock_ge
  have hone : (1 : Word).toNat ≤ s.cfg.maxBlock := by show 1 ≤ s.cfg.maxBlock; omega
  unfold State.storeLength
  split
  · rename_i hfits
    refine ⟨hv, hone, ?_⟩
    simp only [State.push_pc, State.storedLength_pc, hp]
    refine ⟨?_, hrest⟩
    show 1 + b.toNat ≤ s.cfg.maxBlock
    have := of_decide_eq_true hfits
    omega
  · exact ⟨hv, hone, trivial⟩

/-- A `Recv()` of a reception: the byte is answered, or stored as the last one (R154). -/
theorem State.received_receptionInv {use : RecvUse} (b : Byte) (hv : s.cfg.Valid) (hn : s.rxcount.toNat ≤ s.cfg.maxBlock)
    (ho : (Op.recv use).outsideReception = false)
    (hf : receptionFits s.cfg.maxBlock s.rxRemaining.toNat (.recv use :: rest)) (hp : s.pc = .running c rest) :
    (s.received use b).ReceptionInv := by
  cases use with
  | length =>
    refine ⟨hv, hn, ?_⟩
    simp only [State.received, State.push_pc, hp, Pc.push, Pc.todo, List.append_assoc]
    exact (receptionFits_sendEcho _ _).2 hf
  | reply i =>
    refine ⟨hv, hn, ?_⟩
    simp only [State.received, State.push_pc, hp, Pc.push, Pc.todo, List.append_assoc]
    exact (receptionFits_sendEcho _ _).2 hf
  | last i =>
    obtain ⟨h1, hfit, hrest⟩ := hf
    exact State.storeByte_receptionInv b hv h1 hfit hrest hp
  | _ => cases ho

/-- What one line of pseudocode does keeps a reception within the buffer. -/
theorem State.doOp_receptionInv (hv : s.cfg.Valid) (hn : s.rxcount.toNat ≤ s.cfg.maxBlock)
    (hf : receptionFits s.cfg.maxBlock s.rxRemaining.toNat (op :: rest)) :
    ((s.goto c rest).doOp op).ReceptionInv := by
  by_cases hb : op = .recvBlock
  · subst hb
    exact ⟨hv, Nat.zero_le _, hf⟩
  cases ho : op.outsideReception with
  | true =>
    obtain ⟨hcfg, hcount, hleft⟩ := State.doOp_sameCount (s.goto c rest) ho hb
    have hpc := (State.doOp_pc (s := s.goto c rest) rfl op).receptionFits ho hb hf
    refine ⟨by rw [hcfg]; exact hv, by rw [hcfg, hcount]; exact hn, by rw [hcfg, hleft]; exact hpc⟩
  | false =>
    cases op with
    | recv use =>
      simp only [State.doOp, State.receive]
      split
      · exact ⟨hv, hn, hf⟩
      · exact State.received_receptionInv (c := c) (rest := rest) _ hv hn ho hf rfl
    | storeLength b => exact State.storeLength_receptionInv (c := c) (rest := rest) b hv hf rfl
    | storeByte i b =>
      obtain ⟨h1, hfit, hrest⟩ := hf
      exact State.storeByte_receptionInv (c := c) b hv h1 hfit hrest rfl
    | recvFrom i =>
      obtain ⟨hfit, hrest⟩ := hf
      have hpos : s.rxRemaining ≠ 0 → 1 ≤ s.rxRemaining.toNat := fun h =>
        Nat.one_le_iff_ne_zero.2 fun h0 => h (BitVec.eq_of_toNat_eq h0)
      simp only [State.doOp]
      split_ifs with h0 h1
      · exact ⟨hv, hn, allOutside.receptionFits hrest⟩
      · exact ⟨hv, hn, hpos h0, hfit, hrest⟩
      · exact ⟨hv, hn, hpos h0, hfit, hrest⟩
    | _ => cases ho

theorem State.ReceptionInv.tick (hc : s.canRun = true) (h : s.ReceptionInv) : s.tick.ReceptionInv := by
  obtain ⟨hv, hn, hf⟩ := h
  rcases State.tick_cases hc with ⟨c, -, ht⟩ | ⟨c, op, rest, hpc, ht⟩
  · rw [ht]
    exact ⟨hv, hn, trivial⟩
  · rw [hpc] at hf
    exact ht ▸ State.doOp_receptionInv hv hn hf

/-- No reception is under way when a command starts. -/
theorem allOutside_startOps (i : Instr) : allOutside (startOps s i) := by
  cases i <;> simp [allOutside, startOps, connectOps, addressingOps, frameOps, confirmingOps, sendEchoOps, sendComplOps,
    recvBlockExpectOps, Op.outsideReception, or_imp, forall_and]

theorem State.ReceptionInv.start (i : Instr) (h : s.ReceptionInv) :
    ((startState s i).started.goto i (startOps s i)).ReceptionInv := by
  obtain ⟨hv, hn, -⟩ := h
  have hsame : s.SameCount ((startState s i).started.goto i (startOps s i)) := by cases i <;> exact ⟨rfl, rfl, rfl⟩
  obtain ⟨hcfg, hcount, -⟩ := hsame
  exact ⟨hcfg ▸ hv, by rw [hcfg, hcount]; exact hn, (allOutside_startOps i).receptionFits⟩

/-- Settles O59: every move of the engine keeps the reception under way within its bounds (`State.doOp_receptionInv`), and a
command starts with none. -/
theorem stepKeepsReceptionBounded : Obligations.StepKeepsReceptionBounded := by
  intro s t hs h
  refine step_keeps (P := State.ReceptionInv) h hs (fun _ hc h => h.tick hc) ?_ ?_ ?_ ?_ ?_ ?_ (fun _ i _ h => h.start i)
    ?_ ?_ ?_
  case refine_1 => exact fun s _ ⟨hv, hn, hf⟩ => ⟨hv, hn, hf⟩
  case refine_2 => exact fun s _ _ ⟨hv, hn, hf⟩ => ⟨hv, hn, hf⟩
  case refine_3 => exact fun s _ _ ⟨hv, hn, hf⟩ => ⟨hv, hn, hf⟩
  case refine_4 => exact fun s _ ⟨hv, hn, hf⟩ => ⟨hv, hn, hf⟩
  case refine_5 => exact fun s _ _ ⟨hv, hn, _⟩ => ⟨hv, hn, trivial⟩
  case refine_6 => exact fun s _ _ ⟨hv, hn, _⟩ => ⟨hv, hn, trivial⟩
  case refine_7 => intro s offset w ⟨hv, hn, hf⟩; rw [State.writeWord_frame]; exact ⟨hv, hn, hf⟩
  case refine_8 => exact fun s ⟨hv, _, _⟩ => ⟨hv, Nat.zero_le _, trivial⟩
  case refine_9 => intro s b ⟨hv, hn, hf⟩; rw [State.arrive_frame]; exact ⟨hv, hn, hf⟩

end Sys2Proof.Machine

/-! # The buffers stay canonical, and MEMLEN within MEMBUF (rules R29, R226, R228) -/

namespace Sys2Proof.Machine

variable {s t : State} {op : Op}

/-- What the invariant of the buffers says of a state, its parameters being valid: only memory and `MEMLEN` matter. -/
abbrev State.BuffersFit (s : State) : Prop := Memory.wf s.mem ∧ s.memlen.toNat ≤ s.cfg.membufBytes

theorem State.bufferInv_iff : s.BufferInv ↔ s.cfg.Valid ∧ s.BuffersFit :=
  ⟨fun h => ⟨h.valid, h.canonical, h.length⟩, fun h => ⟨h.1, h.2.1, h.2.2⟩⟩

theorem State.BuffersFit.setTx (h : s.BuffersFit) (i : Nat) (b : Byte) : (s.setTx i b).BuffersFit :=
  ⟨Memory.wf_write _ _ h.1, h.2⟩

theorem State.BuffersFit.setTxAll (bytes : List (Nat × Byte)) :
    ∀ {s : State}, s.BuffersFit → (s.setTxAll bytes).BuffersFit := by
  induction bytes with
  | nil => exact id
  | cons p ps ih => exact fun h => ih (State.BuffersFit.setTx h p.1 p.2)

/-- A byte is appended only where there is room for it (R228). -/
theorem State.BuffersFit.appendByte (hv : s.cfg.Valid) (h : s.BuffersFit) (b : Byte) : (s.appendByte b).BuffersFit := by
  by_cases hroom : s.memlen.toNat < s.cfg.membufBytes
  · rw [State.appendByte_room hroom]
    have hmax := hv.membuf_le
    refine ⟨Memory.wf_write _ _ h.1, ?_⟩
    show (s.memlen + 1).toNat ≤ s.cfg.membufBytes
    rw [toNat_add_one (by omega)]
    exact hroom
  · rw [State.appendByte_full hroom]
    exact h

theorem State.BuffersFit.appendBytes (bytes : List Byte) : ∀ {s : State}, s.cfg.Valid → s.BuffersFit →
    (s.appendBytes bytes).BuffersFit := by
  induction bytes with
  | nil => exact fun _ h => h
  | cons b bs ih =>
    intro s hv h
    have hcfg : (s.appendByte b).cfg = s.cfg := by unfold State.appendByte; split <;> rfl
    exact ih (hcfg ▸ hv) (State.BuffersFit.appendByte hv h b)

theorem State.BuffersFit.storeByte (h : s.BuffersFit) (i : Nat) (b : Byte) : (s.storeByte i b).BuffersFit := by
  have hw : Memory.wf (Memory.write s.mem (rxBase + i) b) := Memory.wf_write _ _ h.1
  unfold State.storeByte
  split <;> exact ⟨hw, h.2⟩

theorem State.BuffersFit.storeLength (h : s.BuffersFit) (b : Byte) : (s.storeLength b).BuffersFit := by
  have hw : Memory.wf (Memory.write s.mem rxBase b) := Memory.wf_write _ _ h.1
  unfold State.storeLength
  split <;> exact ⟨hw, h.2⟩

theorem State.BuffersFit.raiseTimeout (h : s.BuffersFit) : s.raiseTimeout.BuffersFit := by
  unfold State.raiseTimeout
  split
  · exact h
  · exact h
  · split
    · exact h
    · split <;> exact h

theorem State.BuffersFit.received (h : s.BuffersFit) (use : RecvUse) (b : Byte) : (s.received use b).BuffersFit := by
  cases use with
  | echo _ | complement _ => simp only [State.received]; split <;> exact h
  | last i => exact State.BuffersFit.storeByte h i b
  | keyword gen => simp only [State.received, State.keywordReceived]; split <;> exact h
  | plainResult | complResult | length | reply _ => exact h

/-- What one line of pseudocode does keeps the buffers canonical, and `MEMLEN` within `MEMBUF`. -/
theorem State.BuffersFit.doOp (hv : s.cfg.Valid) (h : s.BuffersFit) (op : Op) : (s.doOp op).BuffersFit := by
  cases op with
  | recv use =>
    simp only [State.doOp, State.receive]
    split
    · exact h
    · rename_i b r _
      exact State.BuffersFit.received (s := ({ s with line := { s.line with rx := r } } : State).event (.recv b)) h use b
  | poll => simp only [State.doOp, State.pollKeyword]; split <;> exact h
  | attemptStart gen => exact ⟨Memory.wf_forget _ _ h.1, h.2⟩
  | keywordStart gen => cases gen <;> exact h
  | keywordTick =>
    simp only [State.doOp, State.keywordTick]
    split
    · exact State.BuffersFit.raiseTimeout (s := { s with kwElapsed := s.kwElapsed + 1 }) h
    · exact h
  | fillTx bytes => exact State.BuffersFit.setTxAll bytes h
  | sendBlock => exact ⟨Memory.wf_write _ _ (Memory.wf_write _ _ h.1), h.2⟩
  | sendFrom i L => simp only [State.doOp]; split <;> exact h
  | recvBlock => exact ⟨Memory.wf_forget _ _ h.1, h.2⟩
  | storeLength b => exact State.BuffersFit.storeLength h b
  | recvFrom i => simp only [State.doOp]; split_ifs <;> exact h
  | storeByte i b => exact State.BuffersFit.storeByte h i b
  | checkTitle title => simp only [State.doOp]; split <;> exact h
  | identityCheck =>
    simp only [State.doOp, State.identityCheck]
    split_ifs
    exacts [h, h, ⟨Memory.wf_writeFrom _ h.1, h.2⟩, h]
  | identityNext => simp only [State.doOp, State.identityNext]; split <;> exact h
  | memRead k start size => exact ⟨Memory.wf_forget _ _ h.1, Nat.zero_le _⟩
  | memLoop k => simp only [State.doOp]; split <;> exact h
  | appendPayload => exact State.BuffersFit.appendBytes _ hv h
  | configure _ | lineAcquire | lineHold _ _ | lineRelease | delay _ | send _ | setState _ | identityStart | attemptRun _
  | attemptCatch _ | memAdvance _ | resultMemlen | resultPayload _ | resultMembuf _ => exact h

theorem State.BufferInv.tick (hc : s.canRun = true) (h : s.BufferInv) : s.tick.BufferInv := by
  obtain ⟨hv, hfit⟩ := State.bufferInv_iff.1 h
  refine State.bufferInv_iff.2 ⟨by rw [(State.tick_sameHost hc).cfg]; exact hv, ?_⟩
  rcases State.tick_cases hc with ⟨c, -, ht⟩ | ⟨c, op, rest, -, ht⟩
  · exact ht ▸ hfit
  · exact ht ▸ State.BuffersFit.doOp (s := s.goto c rest) hv hfit op

theorem State.writeWindowByte_wf (offset : Nat) (b : Byte) (h : Memory.wf s.mem) :
    Memory.wf (s.writeWindowByte offset b).mem := by
  by_cases ht : s.txTakes offset
  · rw [State.writeWindowByte_taken ht, State.setTx_mem]
    exact Memory.wf_write _ _ h
  · rw [State.writeWindowByte_ignored ht]
    exact h

theorem State.writeWord_wf (offset : Nat) (w : Word) (h : Memory.wf s.mem) : Memory.wf (s.writeWord offset w).mem := by
  unfold State.writeWord
  split_ifs
  · exact h
  · exact h
  · exact State.writeWindowByte_wf _ _ (State.writeWindowByte_wf _ _ (State.writeWindowByte_wf _ _
      (State.writeWindowByte_wf _ _ h)))

/-- Settles O60: the lines of pseudocode and the host write memory by writes and forgettings alone, which keep it canonical,
and a byte is appended to `MEMBUF` only where there is room. -/
theorem stepKeepsBuffersCanonical : Obligations.StepKeepsBuffersCanonical := by
  intro s t hs h
  refine step_keeps (P := State.BufferInv) h hs (fun _ hc h => h.tick hc) ?_ ?_ ?_ ?_ ?_ ?_ ?_ ?_ ?_ ?_
  case refine_1 => exact fun s _ ⟨hv, hm, hl⟩ => ⟨hv, hm, hl⟩
  case refine_2 => exact fun s _ _ ⟨hv, hm, hl⟩ => ⟨hv, hm, hl⟩
  case refine_3 => exact fun s _ _ ⟨hv, hm, hl⟩ => ⟨hv, hm, hl⟩
  case refine_4 => exact fun s _ ⟨hv, hm, hl⟩ => ⟨hv, hm, hl⟩
  case refine_5 => exact fun s _ _ ⟨hv, hm, hl⟩ => ⟨hv, hm, hl⟩
  case refine_6 => exact fun s _ _ ⟨hv, hm, hl⟩ => ⟨hv, hm, hl⟩
  case refine_7 => intro s i _ ⟨hv, hm, hl⟩; cases i <;> exact ⟨hv, hm, hl⟩
  case refine_8 =>
    intro s offset w ⟨hv, hm, hl⟩
    have hw := State.writeWord_wf offset w hm
    rw [State.writeWord_frame]
    exact ⟨hv, hw, hl⟩
  case refine_9 => exact fun s ⟨hv, _, _⟩ => ⟨hv, State.resetWith_mem_wf s.cfg, Nat.zero_le _⟩
  case refine_10 => intro s b ⟨hv, hm, hl⟩; rw [State.arrive_frame]; exact ⟨hv, hm, hl⟩

end Sys2Proof.Machine

/-! # What commands leave alone (rules R23, R24, R26, R44, R46, R180) -/

namespace Sys2Proof.Machine

variable {s t : State} {c : Instr} {op : Op} {rest : List Op}

/-! ## The host's registers -/

theorem State.started_sameHost (i : Instr) (ops : List Op) : s.SameHost ((startState s i).started.goto i ops) := by
  cases i <;> exact ⟨rfl, rfl, rfl, rfl, rfl, rfl, rfl⟩

theorem exec_sameHost {i : Instr} (h : exec i s = .next t) : s.SameHost t :=
  exec_keeps (P := s.SameHost) h (fun _ => ⟨rfl, rfl, rfl, rfl, rfl, rfl, rfl⟩) (State.started_sameHost i _)
    (fun _ hc hs => hs.trans (State.tick_sameHost hc))

theorem State.runOn_sameHost (s : State) : s.SameHost s.runOn :=
  State.runOn_keeps (P := s.SameHost) (fun _ hc hs => hs.trans (State.tick_sameHost hc)) (State.SameHost.refl s)

/-- Settles O52: the frame of a move (`State.tick_sameHost`) over the runs of a command and of a later step. -/
theorem commandsKeepHostRegisters : Obligations.CommandsKeepHostRegisters := by
  refine ⟨fun i s t h => ?_, fun s t hc h => ?_⟩
  · obtain ⟨harg0, hcmd, hover, hcfg, hreads, hacc, -⟩ := exec_sameHost h
    exact ⟨harg0, hcmd, hover, hcfg, hreads, hacc⟩
  · obtain rfl : s.runOn = t := Host.Outcome.next.inj ((step_of_canRun hc).symm.trans h)
    obtain ⟨harg0, hcmd, hover, hcfg, hreads, hacc, -⟩ := s.runOn_sameHost
    exact ⟨harg0, hcmd, hover, hcfg, hreads, hacc⟩

/-! ## Commands that go on -/

/-- `t` has the sequencer's position and the registers of `s` that tell how its command went. -/
structure State.SameProgress (s t : State) : Prop where
  pc : t.pc = s.pc
  outcome : t.status.outcome = s.status.outcome
  errCode : t.status.errCode = s.status.errCode
  state : t.status.state = s.status.state
  errinfo : t.errinfo = s.errinfo
  result : t.result = s.result

theorem State.noReset_tail {p : Nat × Input} {later : List (Nat × Input)} (hi : s.inputs = p :: later) (h : s.noReset) :
    ({ s with inputs := later } : State).noReset :=
  fun q hq => h q (hi ▸ List.mem_cons_of_mem _ hq)

/-- A host that does not reset the block has no reset to come. -/
theorem State.noReset.not_reset {n : Nat} {later : List (Nat × Input)} (h : s.noReset)
    (hi : s.inputs = (n, .reset) :: later) : False :=
  h (n, .reset) (by simp [hi]) rfl

/-- A command that has not ended is busy. -/
theorem exec_busy {i : Instr} (h : exec i s = .next t) : t.pc ≠ .idle → t.status.busy = true :=
  exec_keeps (P := fun t => t.pc ≠ .idle → t.status.busy = true) h (fun _ hne => absurd rfl hne) (fun _ => rfl)
    (fun _ hc => State.tick_busy hc)

/-- What is said of a command's progress alone, and what every move keeps, holds as the command goes on, with no reset
meanwhile unless a reset keeps it too. -/
theorem State.goesOn_keeps_progress {Q : State → Prop} (hq : ∀ s t, s.SameProgress t → Q s → Q t)
    (hm : ∀ s, s.canRun = true → Q s → Q s.tick) {n : Nat} (hx : s.noReset ∨ ∀ v : State, Q v.hardReset)
    (hb : s.pc ≠ .idle → s.status.busy = true) (h : Q s) (hp : s.pc ≠ .accepted) (hg : s.goesOn n = some t) : Q t := by
  refine (State.goesOn_keeps
    (P := fun s => (s.noReset ∨ ∀ v : State, Q v.hardReset) ∧ (s.pc ≠ .idle → s.status.busy = true) ∧ Q s)
    (fun _ h => h.2.1) ?_ ?_ ?_ ?_ ?_ ?_ ?_ n ⟨hx, hb, h⟩ hp hg).2.2
  case refine_1 =>
    exact fun s hc ⟨hx, hb, h⟩ => ⟨hx.imp_left (State.tick_sameHost hc).noReset, State.tick_busy hc hb, hm s hc h⟩
  case refine_2 =>
    exact fun s _ _ hi ⟨hx, hb, h⟩ => ⟨hx.imp_left (State.noReset_tail hi), hb, hq s _ ⟨rfl, rfl, rfl, rfl, rfl, rfl⟩ h⟩
  case refine_3 => exact fun s _ _ ⟨hx, hb, h⟩ => ⟨hx, hb, hq s _ ⟨rfl, rfl, rfl, rfl, rfl, rfl⟩ h⟩
  case refine_4 => exact fun s _ _ ⟨hx, hb, h⟩ => ⟨hx, hb, hq s _ ⟨rfl, rfl, rfl, rfl, rfl, rfl⟩ h⟩
  case refine_5 => exact fun s _ ⟨hx, hb, h⟩ => ⟨hx, hb, hq s _ ⟨rfl, rfl, rfl, rfl, rfl, rfl⟩ h⟩
  case refine_6 =>
    intro s n later hi ⟨hx, _, _⟩
    have hkept := hx.resolve_left fun hr => hr.not_reset hi
    exact ⟨.inr hkept, nofun, hkept _⟩
  case refine_7 =>
    intro s b _ ⟨hx, hb, h⟩
    rw [State.arrive_frame]
    exact ⟨hx, hb, hq s _ ⟨rfl, rfl, rfl, rfl, rfl, rfl⟩ h⟩

/-- The same from the command's start on: a rejection, the pseudocode's start and every move have to keep it. -/
theorem exec_goesOn_keeps {Q : State → Prop} (hq : ∀ s t, s.SameProgress t → Q s → Q t)
    (hm : ∀ s, s.canRun = true → Q s → Q s.tick) {i : Instr} {n : Nat} {u : State} (hexec : exec i s = .next t)
    (hg : t.goesOn n = some u) (hx : t.noReset ∨ ∀ v : State, Q v.hardReset) (hr : ∀ r, Q (s.reject r))
    (hl : Q ((startState s i).started.goto i (startOps s i))) : Q u :=
  State.goesOn_keeps_progress hq hm hx (exec_busy hexec) (exec_keeps hexec hr hl hm) (exec_begun hexec) hg

/-! ## The pseudocode of a command that is no connect command -/

/-- The commands that make a session (R180). -/
def isConnect : Instr → Bool
  | .connectA _ _ | .connectB _ _ | .autoconnect _ => true
  | .wakeup _ | .sendEcho _ | .sendCompl _ | .recvPlain | .recvCompl | .sendBlock | .recvBlock | .recvBlockExpect _
  | .disconnect | .login _ _ | .groupReading _ | .readMemRam _ | .readMemRom _ | .readMemEe _ | .safeCodeCustom
  | .safeCodeEeprom | .calcChecksum => false

/-- No line of the pseudocode left is one that only connect commands make. -/
abbrev noConnect (todo : List Op) : Prop := ∀ op ∈ todo, op.connects = false

theorem noConnect_startOps {i : Instr} (hi : isConnect i = false) : noConnect (startOps s i) := by
  cases i with
  | connectA _ _ | connectB _ _ | autoconnect _ => cases hi
  | _ => simp [noConnect, startOps, frameOps, sendEchoOps, sendComplOps, recvBlockExpectOps, Op.connects, or_imp,
      forall_and]

theorem Pushes.noConnect {cfg : Config} {ops : List Op} (h : Pushes cfg op ops) (ho : op.connects = false) :
    Machine.noConnect ops := by
  cases h with
  | blocked use => simpa [Machine.noConnect] using ho
  | keywordByte | polledByte | polledNone | keywordStart | keywordTick | identityStart | identityAck | identityNext
  | identityEnd | attemptRun => cases ho
  | _ =>
    simp [Machine.noConnect, Op.connects, sendEchoOps, sendComplOps, sendAckOps, recvAckOps, recvBlockExpectOps, chunkOps]

/-- A move leaves no connect line to do where none was left. -/
theorem State.tick_noConnect (hc : s.canRun = true) (h : noConnect s.pc.todo) : noConnect s.tick.pc.todo := by
  rcases State.tick_cases hc with ⟨c, -, ht⟩ | ⟨c, op, rest, hpc, ht⟩
  · rw [ht]; exact fun _ h => nomatch h
  · rw [hpc] at h
    obtain ⟨ho, hrest⟩ := List.forall_mem_cons.1 h
    exact ht ▸ (State.doOp_pc (s := s.goto c rest) rfl op).forall_todo (fun _ hp => hp.noConnect ho) hrest
      (fun hop => by subst hop; cases ho)

/-! ## Ready -/

/-- A command that is no connect command, as it goes on: the session is Ready only if it was, which `ready` says. -/
structure State.KeepsReady (ready : Prop) (s : State) : Prop where
  todo : noConnect s.pc.todo
  state : s.status.state = .ready → ready

theorem State.KeepsReady.tick {ready : Prop} (hc : s.canRun = true) (h : s.KeepsReady ready) : s.tick.KeepsReady ready := by
  obtain ⟨htodo, hstate⟩ := h
  refine ⟨State.tick_noConnect hc htodo, ?_⟩
  rcases State.tick_lineResult hc with ht | ⟨c, op, rest, hpc, -, hres⟩
  · rw [ht]; exact hstate
  · rw [hpc] at htodo
    have ho : op.connects = false := htodo op (by simp [Pc.todo])
    generalize s.tick = t at hres ⊢
    cases hres with
    | goesOn g => exact fun hr => (g.ready hr).elim hstate fun hop => by simp [ho] at hop
    | fatal x y _ _ => exact nofun
    | timeout _ _ _ => exact nofun

/-- Settles O53: a command that is no connect command has no line left that reaches Ready, however it goes on. -/
theorem onlyConnectReachesReady : Obligations.OnlyConnectReachesReady := by
  intro i s t u n hexec hgo hready
  cases hi : isConnect i with
  | true =>
    cases i with
    | connectA a baud => exact .inr (.inl ⟨a, baud, .inl rfl⟩)
    | connectB a baud => exact .inr (.inl ⟨a, baud, .inr rfl⟩)
    | autoconnect a => exact .inr (.inr ⟨a, rfl⟩)
    | _ => cases hi
  | false =>
    have hkept : u.KeepsReady (s.status.state = .ready) :=
      exec_goesOn_keeps (fun s t h ⟨htodo, hst⟩ => ⟨h.pc ▸ htodo, h.state ▸ hst⟩) (fun _ hc h => h.tick hc) hexec hgo
        (.inr fun _ => ⟨nofun, nofun⟩) (fun _ => ⟨nofun, id⟩) ⟨noConnect_startOps hi, by cases i <;> exact id⟩
    exact .inl (hkept.state hready)

/-! ## The error registers -/

/-- A command that is no connect command, as it goes on: the error registers are as they were, unless it ended FATAL. -/
structure State.KeepsErrors (errCode : ErrCode) (errinfo : ErrInfo) (s : State) : Prop where
  todo : noConnect s.pc.todo
  errors : (s.status.errCode = errCode ∧ s.errinfo = errinfo) ∨ (s.pc = .idle ∧ s.status.outcome = .fatal)

theorem State.KeepsErrors.tick {code : ErrCode} {info : ErrInfo} (hc : s.canRun = true) (h : s.KeepsErrors code info) :
    s.tick.KeepsErrors code info := by
  obtain ⟨htodo, herr⟩ := h
  refine ⟨State.tick_noConnect hc htodo, ?_⟩
  obtain ⟨hcode, hinfo⟩ := herr.resolve_right fun hf => State.not_idle_of_canRun hc hf.1
  rcases State.tick_lineResult hc with ht | ⟨c, op, rest, hpc, -, hres⟩
  · rw [ht]; exact .inl ⟨hcode, hinfo⟩
  · rw [hpc] at htodo
    have ho : op.connects = false := htodo op (by simp [Pc.todo])
    generalize s.tick = t at hres ⊢
    cases hres with
    | goesOn g =>
      rcases g.errors with ⟨h1, h2⟩ | ⟨hop, -⟩
      · exact .inl ⟨h1.trans hcode, h2.trans hinfo⟩
      · simp [ho] at hop
    | fatal x y _ _ => exact .inr ⟨rfl, rfl⟩
    | timeout hs he _ => exact .inl ⟨(congrArg Status.errCode hs).trans hcode, he.trans hinfo⟩

/-- Settles O54: of the lines of pseudocode only an attempt's start clears the error registers, and only `raise Fatal`
writes them. -/
theorem errorRegistersKept : Obligations.ErrorRegistersKept := by
  intro i s t u n hexec hreset hgo hfatal hconn hauto
  have hi : isConnect i = false := by
    cases i with
    | connectA a baud => exact absurd rfl (hconn a baud).1
    | connectB a baud => exact absurd rfl (hconn a baud).2
    | autoconnect a => exact absurd rfl (hauto a)
    | _ => rfl
  have hkept : u.KeepsErrors s.status.errCode s.errinfo :=
    exec_goesOn_keeps
      (fun s t h ⟨htodo, herr⟩ => ⟨h.pc ▸ htodo, by rw [h.errCode, h.errinfo, h.pc, h.outcome]; exact herr⟩)
      (fun _ hc h => h.tick hc) hexec hgo (.inl hreset) (fun _ => ⟨nofun, .inl ⟨rfl, rfl⟩⟩)
      ⟨noConnect_startOps hi, by cases i <;> exact .inl ⟨rfl, rfl⟩⟩
  exact hkept.errors.resolve_right fun hf => hfatal hf.2

end Sys2Proof.Machine

/-! # RESULT is written as a command returns (rule R24) -/

namespace Sys2Proof.Machine

variable {s t : State} {c : Instr} {op : Op} {rest : List Op}

/-! ## Commands that return no value -/

/-- The commands that return a value in `RESULT` (R24). -/
def returnsValue : Instr → Bool
  | .recvPlain | .recvCompl | .readMemRam _ | .readMemRom _ | .readMemEe _ | .safeCodeCustom | .safeCodeEeprom
  | .calcChecksum => true
  | .wakeup _ | .sendEcho _ | .sendCompl _ | .sendBlock | .recvBlock | .recvBlockExpect _ | .connectA _ _ | .connectB _ _
  | .autoconnect _ | .disconnect | .login _ _ | .groupReading _ => false

theorem returnsValue_iff {i : Instr} : returnsValue i = true ↔
    i ∈ [Instr.recvPlain, .recvCompl, .safeCodeCustom, .safeCodeEeprom, .calcChecksum] ∨
      ∃ a, i = .readMemRam a ∨ i = .readMemRom a ∨ i = .readMemEe a := by
  cases i <;> simp [returnsValue]

/-- No line of the pseudocode left writes `RESULT`. -/
abbrev noReturn (todo : List Op) : Prop := ∀ op ∈ todo, op.returns = false

theorem noReturn_startOps {i : Instr} (hi : returnsValue i = false) : noReturn (startOps s i) := by
  cases i with
  | recvPlain | recvCompl | readMemRam _ | readMemRom _ | readMemEe _ | safeCodeCustom | safeCodeEeprom | calcChecksum =>
    cases hi
  | _ => simp [noReturn, startOps, connectOps, addressingOps, confirmingOps, frameOps, sendEchoOps, sendComplOps,
      recvBlockExpectOps, Op.returns, or_imp, forall_and]

theorem Pushes.noReturn {cfg : Config} {ops : List Op} (h : Pushes cfg op ops) (ho : op.returns = false) :
    Machine.noReturn ops := by
  cases h with
  | blocked use => simpa [Machine.noReturn] using ho
  | keywordByte gen | keywordStart gen => cases gen <;> simp [Machine.noReturn, keywordWaitOps, Op.returns]
  | attemptRun a baud =>
    simp [Machine.noReturn, connectOps, addressingOps, frameOps, confirmingOps, sendEchoOps, Op.returns, or_imp, forall_and]
  | _ => simp [Machine.noReturn, Op.returns, sendEchoOps, sendComplOps, sendAckOps, recvAckOps, recvBlockExpectOps, chunkOps]

/-- A command that returns no value, as it goes on: `RESULT` is `r`. -/
structure State.KeepsResult (r : Word) (s : State) : Prop where
  todo : noReturn s.pc.todo
  result : s.result = r

theorem State.KeepsResult.tick {r : Word} (hc : s.canRun = true) (h : s.KeepsResult r) : s.tick.KeepsResult r := by
  obtain ⟨htodo, hresult⟩ := h
  rcases State.tick_lineResult hc with ht | ⟨c, op, rest, hpc, ht, hres⟩
  · exact ⟨by rw [ht]; exact nofun, by rw [ht]; exact hresult⟩
  · rw [hpc] at htodo
    obtain ⟨ho, hrest⟩ := List.forall_mem_cons.1 htodo
    refine ⟨ht ▸ (State.doOp_pc (s := s.goto c rest) rfl op).forall_todo (fun _ hp => hp.noReturn ho) hrest
      (fun _ _ _ => ⟨rfl, rfl, rfl⟩), ?_⟩
    generalize s.tick = t at hres ⊢
    cases hres with
    | goesOn g => exact (g.result.resolve_right fun hr => by simp [ho] at hr).trans hresult
    | fatal x y _ hr => exact hr.trans hresult
    | timeout _ _ hr => exact hr.trans hresult

/-! ## Commands that return a value, but for RECV_COMPL -/

/-- Only the last line of the pseudocode left may write `RESULT`, and it is not RECV_COMPL's, which replies after it. -/
def returnsLast : List Op → Prop
  | [] => True
  | op :: rest => (op.returns = true → rest = [] ∧ op ≠ .recv .complResult) ∧ returnsLast rest

theorem returnsLast_append {ops : List Op} (h : noReturn ops) (hrest : returnsLast rest) : returnsLast (ops ++ rest) := by
  induction ops with
  | nil => exact hrest
  | cons op ops ih =>
    obtain ⟨ho, hops⟩ := List.forall_mem_cons.1 h
    exact ⟨fun hr => by simp [ho] at hr, ih hops⟩

theorem returnsLast_startOps {i : Instr} (hi : returnsValue i = true) (hc : i ≠ .recvCompl) :
    returnsLast (startOps s i) := by
  cases i with
  | recvCompl => exact absurd rfl hc
  | recvPlain | readMemRam _ | readMemRom _ | readMemEe _ | safeCodeCustom | safeCodeEeprom | calcChecksum =>
    simp [returnsLast, startOps, recvBlockExpectOps, Op.returns]
  | _ => cases hi

/-- What is left after a line, no connect line being left, still writes `RESULT` in its last line only. -/
theorem Leaves.returnsLast {cfg : Config} {pc : Pc} (h : Leaves cfg c op rest pc) (hn : op.connects = false)
    (hl : Machine.returnsLast (op :: rest)) : Machine.returnsLast pc.todo := by
  obtain ⟨hop, hrest⟩ := hl
  cases h with
  | ended => trivial
  | pushed hp =>
    cases ho : op.returns with
    | false => exact returnsLast_append (hp.noReturn ho) hrest
    | true =>
      cases hp with
      | nothing => exact hrest
      | blocked use => exact ⟨hop, hrest⟩
      | complReply b => exact absurd rfl (hop rfl).2
      | _ => cases ho
  | retried hk _ => subst hk; cases hn

/-- A command that returns a value, as it goes on: `RESULT` is `r` until its last line is done, and stays so if
the command does not end OK. -/
structure State.ReturnsAtEnd (r : Word) (s : State) : Prop where
  todo : noConnect s.pc.todo
  result : (s.pc ≠ .idle ∧ s.status.outcome = .none ∧ ((s.result = r ∧ returnsLast s.pc.todo) ∨ s.pc.todo = [])) ∨
    (s.pc = .idle ∧ (s.status.outcome = .ok ∨ s.result = r))

theorem State.ReturnsAtEnd.tick {r : Word} (hc : s.canRun = true) (h : s.ReturnsAtEnd r) : s.tick.ReturnsAtEnd r := by
  obtain ⟨htodo, hresult⟩ := h
  refine ⟨State.tick_noConnect hc htodo, ?_⟩
  obtain ⟨-, hnone, hresult⟩ := hresult.resolve_right fun hf => State.not_idle_of_canRun hc hf.1
  rcases State.tick_lineResult hc with ht | ⟨c, op, rest, hpc, ht, hres⟩
  · rw [ht]; exact .inr ⟨rfl, .inl rfl⟩
  · rw [hpc] at htodo hresult
    obtain ⟨hr, hlast⟩ := hresult.resolve_right (List.cons_ne_nil _ _)
    have hleft := ht ▸ (State.doOp_pc (s := s.goto c rest) rfl op).returnsLast (htodo op (by simp [Pc.todo])) hlast
    generalize s.tick = t at hres hleft ⊢
    cases hres with
    | goesOn g =>
      refine .inl ⟨g.running, g.outcome.trans hnone, ?_⟩
      rcases g.result with hsame | ⟨hop, hcompl | hdone⟩
      · exact .inl ⟨hsame.trans hr, hleft⟩
      · exact absurd hcompl (hlast.1 hop).2
      · exact .inr (hdone.trans (hlast.1 hop).1)
    | fatal x y _ hu => exact .inr ⟨rfl, .inr (hu.trans hr)⟩
    | timeout _ _ hu => exact .inr ⟨rfl, .inr (hu.trans hr)⟩

/-- An ended command that returned nothing left `RESULT` as it was. -/
theorem State.ReturnsAtEnd.kept {r : Word} (h : s.ReturnsAtEnd r) (hn : s.status.outcome ≠ .none)
    (hk : s.status.outcome ≠ .ok) : s.result = r := by
  rcases h.result with ⟨-, hnone, -⟩ | ⟨-, hok | hr⟩
  · exact absurd hnone hn
  · exact absurd hok hk
  · exact hr

/-- Settles O55: a command that returns no value has no line that writes `RESULT`; one that does writes it in its last line,
but for RECV_COMPL. -/
theorem resultWrittenOnlyOnReturn : Obligations.ResultWrittenOnlyOnReturn := by
  intro i s t u n hnone hexec hreset hgo
  cases hi : returnsValue i with
  | false =>
    have hkept : u.KeepsResult s.result :=
      exec_goesOn_keeps (fun s t h ⟨htodo, hr⟩ => ⟨h.pc ▸ htodo, h.result.trans hr⟩) (fun _ hc h => h.tick hc) hexec hgo
        (.inl hreset) (fun _ => ⟨nofun, rfl⟩) ⟨noReturn_startOps hi, by cases i <;> rfl⟩
    exact ⟨.inl hkept.result, fun _ _ _ => hkept.result⟩
  | true =>
    refine ⟨.inr (returnsValue_iff.1 hi), fun hne hok hc => ?_⟩
    have hconn : isConnect i = false := by
      cases i with
      | connectA _ _ | connectB _ _ | autoconnect _ => cases hi
      | _ => rfl
    have hstart : ((startState s i).started.goto i (startOps s i)).ReturnsAtEnd s.result :=
      ⟨noConnect_startOps hconn, .inl ⟨Pc.noConfusion, by cases i <;> exact hnone,
        .inl ⟨by cases i <;> rfl, returnsLast_startOps hi hc⟩⟩⟩
    have hkept : u.ReturnsAtEnd s.result :=
      exec_goesOn_keeps
        (fun s t h ⟨htodo, hr⟩ => ⟨h.pc ▸ htodo, by rw [h.pc, h.outcome, h.result]; exact hr⟩)
        (fun _ hc h => h.tick hc) hexec hgo (.inl hreset) (fun _ => ⟨nofun, .inr ⟨rfl, .inr rfl⟩⟩) hstart
    exact hkept.kept hne hok

end Sys2Proof.Machine

/-! # The host's writes, and what arrives (rules R23, R31, R39, R44, R61, R62, R64, R71) -/

namespace Sys2Proof.Machine

variable {s : State}

/-! ## Accesses that the block admits -/

theorem land_read {offset : Nat} (ho : offset < hostSpace) (h4 : (s.cfg.hostBase + offset) % 4 = 0) :
    land (.read (s.cfg.hostBase + offset) 4) s = .next (s.noteRead (s.cfg.hostBase + offset) 4 offset) :=
  State.access_admitted ho h4 _

/-- A write is recorded, and then issues a command or reaches a register or window (R12). -/
theorem land_write {offset : Nat} (v : Word) (ho : offset < hostSpace) (h4 : (s.cfg.hostBase + offset) % 4 = 0) :
    land (.write (s.cfg.hostBase + offset) 4 v) s =
      if offset = offCmd then issue v (s.record (.memWrite (s.cfg.hostBase + offset) 4 v))
      else .next ((s.record (.memWrite (s.cfg.hostBase + offset) 4 v)).writeWord offset v) :=
  State.access_admitted ho h4 _

theorem State.writeWord_busy (h : s.status.busy = true) (offset : Nat) (w : Word) : s.writeWord offset w = s := if_pos h

theorem State.writeWord_idle {offset : Nat} (h : s.status.busy = false) (ho : offset ≠ offArg0) (w : Word) :
    s.writeWord offset w = s.writeWindowWord offset w := by
  rw [State.writeWord, if_neg (by simp [h]), if_neg ho]

theorem State.writeWord_arg0 (h : s.status.busy = false) (w : Word) : s.writeWord offArg0 w = { s with arg0 := w } := by
  rw [State.writeWord, if_neg (by simp [h]), if_pos rfl]

theorem issue_busy (h : s.status.busy = true) (w : Word) :
    issue w s = .next { s with status := { s.status with overrun := true } } := if_pos h

/-- Settles O9: a busy block ignores a write but for OVERRUN, and answers every read. -/
theorem writesWhileBusyIgnored : Obligations.WritesWhileBusyIgnored := by
  intro s offset v hbusy ho h4
  refine ⟨?_, land_read ho h4⟩
  rw [land_write v ho h4]
  by_cases hcmd : offset = offCmd
  · rw [if_pos hcmd, issue_busy (by exact hbusy), decide_eq_true hcmd, Bool.or_true]
    rfl
  · rw [if_neg hcmd, State.writeWord_busy (by exact hbusy), decide_eq_false hcmd, Bool.or_false]
    rfl

/-- A word written outside the `TXBUF` window is ignored (R61, R64). -/
theorem State.writeWindowWord_outside {offset : Nat} (w : Word)
    (h : offset + 4 ≤ txBase ∨ txBase + windowBytes ≤ offset) : s.writeWindowWord offset w = s := by
  have hout : ∀ j < 4, ¬ s.txTakes (offset + j) := fun j hj ht => by
    obtain ⟨hlo, hhi, -⟩ := ht
    omega
  unfold State.writeWindowWord
  rw [State.writeWindowByte_ignored (show ¬ s.txTakes offset from hout 0 (by omega)),
    State.writeWindowByte_ignored (hout 1 (by omega)),
    State.writeWindowByte_ignored (hout 2 (by omega)), State.writeWindowByte_ignored (hout 3 (by omega))]

/-- Settles O11: outside `CMD` and the `TXBUF` window only `ARG0` takes a word. -/
theorem idleWritesReachOnlyWritable : Obligations.IdleWritesReachOnlyWritable := by
  intro s offset v hidle ho h4 hcmd hout
  rw [land_write v ho h4, if_neg hcmd]
  by_cases harg : offset = offArg0
  · subst harg
    rw [State.writeWord_arg0 (by exact hidle), if_pos rfl]
    rfl
  · rw [State.writeWord_idle (by exact hidle) harg, State.writeWindowWord_outside v hout, if_neg harg]
    rfl

/-! ## The `TXBUF` window -/

/-- The index of a byte of the `TXBUF` window below `MAX_BLOCK` reads the byte, and one above it 0 (R61). -/
theorem State.windowByte_txBase {i : Nat} (hi : i < windowBytes) :
    s.windowByte (txBase + i) = if i < s.cfg.maxBlock then s.txByte i else 0 := by
  unfold State.windowByte
  rw [if_pos ⟨by omega, by omega⟩, Nat.add_sub_cancel_left]

/-- A byte written at a window's offset is what that offset reads, if `TXBUF` takes it; every other byte keeps its value. -/
theorem State.writeWindowByte_windowByte (offset : Nat) (b : Byte) (a : Nat) :
    (s.writeWindowByte offset b).windowByte a = if a = offset ∧ s.txTakes offset then b else s.windowByte a := by
  by_cases ht : s.txTakes offset
  · rw [State.writeWindowByte_taken ht]
    obtain ⟨hlo, hhi, hmax⟩ := ht
    have hi : offset = txBase + (offset - txBase) := (Nat.add_sub_cancel' hlo).symm
    by_cases ha : a = offset
    · rw [if_pos ⟨ha, hlo, hhi, hmax⟩, ha, hi, Nat.add_sub_cancel_left, State.windowByte_txBase (by omega),
        State.setTx_cfg, if_pos hmax, State.setTx_txByte_same _ _ (by omega)]
    · rw [if_neg (fun h => ha h.1), State.setTx_windowByte_other _ _ (hi ▸ ha)]
  · rw [State.writeWindowByte_ignored ht, if_neg (fun h => ht h.2)]

theorem State.writeWindowByte_txTakes (offset : Nat) (b : Byte) (a : Nat) :
    (s.writeWindowByte offset b).txTakes a ↔ s.txTakes a := by
  rw [State.writeWindowByte_frame]

/-- The four bytes of a word written to a window, and every other byte (R62). -/
theorem State.writeWindowWord_windowByte (offset : Nat) (w : Word) (a : Nat) :
    (s.writeWindowWord offset w).windowByte a =
      if offset ≤ a ∧ a < offset + 4 ∧ s.txTakes a then w.extractLsb' (8 * (a - offset)) 8 else s.windowByte a := by
  unfold State.writeWindowWord
  simp only [State.writeWindowByte_windowByte, State.writeWindowByte_txTakes]
  by_cases hin : offset ≤ a ∧ a < offset + 4
  · obtain ⟨j, rfl⟩ := Nat.exists_eq_add_of_le hin.1
    have hj : j < 4 := by omega
    interval_cases j <;> simp
  · rw [if_neg (by omega), if_neg (by omega), if_neg (by omega), if_neg (by omega), if_neg (fun h => hin ⟨h.1, h.2.1⟩)]

/-- Settles O14: each of the four bytes lands where the window takes it, and memory alone changes. -/
theorem txWriteChangesItsBytes : Obligations.TxWriteChangesItsBytes := by
  intro s i v hidle h4 hi
  have hspace : txBase + i < hostSpace := by simp only [txBase, hostSpace, windowBytes] at *; omega
  rw [Nat.add_assoc] at h4 ⊢
  have harg : txBase + i ≠ offArg0 := by simp only [txBase, offArg0]; omega
  have hcmd : txBase + i ≠ offCmd := by simp only [txBase, offCmd]; omega
  refine ⟨_, by rw [land_write v hspace h4, if_neg hcmd, State.writeWord_idle (by exact hidle) harg], ?_, ?_, ?_⟩
  · intro j hj hij
    rw [State.writeWindowWord_windowByte, Nat.add_sub_cancel_left]
    by_cases hmax : i + j < s.cfg.maxBlock
    · rw [if_pos ⟨by omega, by omega, by omega, by omega, by show _ < s.cfg.maxBlock; omega⟩, if_pos hmax]
    · have hnot : ¬ s.txTakes (txBase + i + j) := fun ht => by
        have hlt : txBase + i + j - txBase < s.cfg.maxBlock := ht.2.2
        omega
      rw [if_neg (fun h => hnot h.2.2), if_neg hmax, Nat.add_assoc]
      exact (State.windowByte_txBase hij).trans (if_neg hmax)
  · intro a ha
    rw [State.writeWindowWord_windowByte, if_neg]
    · rfl
    · rintro ⟨hlo, hhi, ht⟩
      obtain ⟨-, hw, -⟩ := ht
      omega
  · rw [State.writeWindowWord_frame]
    rfl

/-! ## A byte that arrives -/

theorem State.arrive_direct (h : s.lineMode = .direct) (b : Byte) : s.arrive b = s := by
  rw [State.arrive, h]

/-- RECV_PLAIN on a silent line waits for a byte, with no event made (R22, R132). -/
theorem exec_recvPlain_silent (h : s.line.rx = []) :
    exec .recvPlain s = .next (s.started.goto .recvPlain [.recv .plainResult]) :=
  congrArg Host.Outcome.next (State.launch_eq (RunsIn.refl _) (State.canRun_of_empty h) (Nat.zero_le _))

/-- The step in which a blocked command's byte arrives (R71). -/
theorem step_arrive {i : Instr} {use : RecvUse} {rest : List Op} {n : Nat} {b : Byte} {later : List (Nat × Input)}
    (hrx : s.line.rx = []) (hm : s.lineMode = .transport) (hi : s.inputs = (n, .arrive b) :: later) :
    step (s.goto i (.recv use :: rest)) =
      .next (State.goto { s with inputs := later, line := { s.line with rx := [b] } } i (.recv use :: rest)) := by
  have hbegin : (s.goto i (.recv use :: rest)).canBegin = false := by simp [State.canBegin]
  rw [step_land (State.canRun_of_empty hrx) hbegin hi, land, State.arrive_transport (by exact hm)]
  simp [State.goto, hrx]

/-- The step in which RECV_PLAIN takes its byte and completes OK (R132). -/
theorem step_recvPlain {b : Byte} (hrx : s.line.rx = [b]) (hu : s.undisturbed 1) :
    step (s.goto .recvPlain [.recv .plainResult]) =
      .next (State.complete { s.past [.recv b] [] with result := zextByte b } .ok) := by
  have hmove : RunsIn 1 (s.goto .recvPlain [.recv .plainResult])
      (State.goto { s.past [.recv b] [] with result := zextByte b } .recvPlain []) :=
    RunsIn.recv hu hrx rfl
  have hcan : (s.goto .recvPlain [.recv .plainResult]).canRun = true := by
    have hdue : (s.goto .recvPlain [.recv .plainResult]).inputDue = false := hu.not_due
    have hready : (s.goto .recvPlain [.recv .plainResult]).blocked = false := by simp [State.blocked, hrx]
    simp [State.canRun, hdue, hready]
  rw [step_of_canRun hcan]
  refine congrArg _ ((hmove.trans RunsIn.done).result (State.canRun_of_idle rfl) ?_)
  exact le_trans (by omega) State.burst_ge

/-- Settles O23: what arrives reaches the line in TRANSPORT alone, and a blocked RECV_PLAIN takes it and completes. -/
theorem arrivalCompletesReceive : Obligations.ArrivalCompletesReceive := by
  refine ⟨fun s b h => congrArg _ (State.arrive_direct h b), fun s b h => congrArg _ (State.arrive_transport h b), ?_⟩
  intro s n b hrx hm hi
  exact ⟨_, _, _, exec_recvPlain_silent hrx, rfl, rfl, step_arrive (s := s.started) hrx hm hi, rfl, rfl,
    step_recvPlain (s := { s.started with inputs := [], line := { s.line with rx := [b] } }) rfl (fun _ hp => by cases hp),
    rfl, rfl, rfl, rfl, rfl⟩

end Sys2Proof.Machine

/-! # Reset, the registers' layout, and the start of a command (rules R21, R25, R27, R28, R45, R73, R84) -/

namespace Sys2Proof.Machine

variable {s : State}

/-! ## After reset -/

/-- Outside the `ID` window an unlisted byte is unspecified. -/
theorem Memory.unlisted_outside {a : Nat} (h : a < idBase ∨ idBase + idBytes ≤ a) : Memory.unlisted a = none :=
  if_neg (by omega)

/-- Settles O5: the reset state is written down with these values, and its memory lists no byte. -/
theorem resetValues : Obligations.ResetValues := by
  intro cfg s
  have hstatus : Status.word ⟨false, .none, .none, .none, false, false, .disconnected⟩ = 0 := by decide
  have hsession : Session.word ⟨0, false, .A, 0⟩ = 0 := by decide
  have herrinfo : ErrInfo.word ⟨0, 0⟩ = 0 := by decide
  refine ⟨⟨rfl, hstatus⟩, ⟨rfl, rfl, rfl⟩, ⟨rfl, hsession⟩, ⟨herrinfo, rfl, rfl⟩,
    fun k hk => ?_, fun i hi => ⟨?_, ?_⟩, fun i => ?_,
    rfl, rfl, rfl, rfl, rfl, rfl, rfl, rfl, rfl⟩
  · have hid : Memory.read s.mem (idBase + k) = some 0 := if_pos (by omega)
    rw [State.idByte, hid]
    rfl
  · exact Memory.unlisted_outside (.inl (by simp only [txBase, idBase, windowBytes] at *; omega))
  · exact Memory.unlisted_outside (.inl (by simp only [rxBase, idBase, windowBytes] at *; omega))
  · exact Memory.unlisted_outside (.inr (by simp only [memBase, idBase, idBytes]; omega))

theorem referenceParameters_sourced : Config.reference.Sourced :=
  ⟨rfl, rfl, rfl, rfl, rfl, rfl, rfl, rfl, rfl, rfl, rfl⟩

/-- The reference parameters meet rule R6. -/
theorem referenceParameters_valid : Config.reference.Valid :=
  ⟨referenceParameters_sourced, by decide, by decide, by decide, by decide, by decide, by decide, by decide, by decide,
    by decide⟩

/-- Settles O6: an idle block with an empty history and no bytes meets every invariant. -/
theorem resetMeetsInvariants : Obligations.ResetMeetsInvariants := by
  refine ⟨referenceParameters_valid, fun cfg hv => ⟨?_, ?_, ?_, ?_, ?_, ?_⟩⟩
  · obtain ⟨h1, h2, h3, h4, h5, h6, h7, h8, h9, h10, h11⟩ := hv.sourced
    exact ⟨h1, h2, h3, h4, h5, h6, h7, h8, h9, h10, h11⟩
  · exact ⟨by simp [State.resetWith], nofun, fun _ => rfl, fun _ => rfl⟩
  · exact ⟨rfl, rfl⟩
  · exact ⟨rfl, rfl⟩
  · exact ⟨hv, Nat.zero_le _, trivial⟩
  · exact ⟨hv, State.resetWith_mem_wf cfg, Nat.zero_le _⟩

/-! ## The layout of the registers -/

/-- A field of `STATUS`, the widths of its parts written out. -/
theorem Status.word_extract (t : Status) (start len : Nat) : t.word.extractLsb' start len =
    ((0 : BitVec 13) ++ t.state.code ++ (0 : BitVec 3) ++ bit t.memTrunc ++ bit t.overrun ++ t.reject.code
      ++ t.errCode.code ++ t.outcome.code ++ bit t.busy).extractLsb' start len := rfl

/-- A field of `SESSION`, the widths of its parts written out. -/
theorem Session.word_extract (t : Session) (start len : Nat) : t.word.extractLsb' start len =
    (t.baud ++ (0 : BitVec 6) ++ genBit t.gen ++ bit t.firstSeen ++ t.counter).extractLsb' start len := rfl

/-- A field of `ERRINFO`, the widths of its parts written out. -/
theorem ErrInfo.word_extract (t : ErrInfo) (start len : Nat) : t.word.extractLsb' start len =
    ((0 : BitVec 16) ++ t.actual ++ t.expected).extractLsb' start len := rfl

theorem Status.word_fields (t : Status) :
    t.word.extractLsb' 0 1 = bit t.busy ∧ t.word.extractLsb' 1 3 = t.outcome.code ∧
    t.word.extractLsb' 4 4 = t.errCode.code ∧ t.word.extractLsb' 8 3 = t.reject.code ∧
    t.word.extractLsb' 11 1 = bit t.overrun ∧ t.word.extractLsb' 12 1 = bit t.memTrunc ∧
    t.word.extractLsb' 13 3 = 0 ∧ t.word.extractLsb' 16 3 = t.state.code ∧ t.word.extractLsb' 19 13 = 0 := by
  simp [Status.word_extract, BitVec.extractLsb'_append_eq_of_le, BitVec.extractLsb'_append_eq_of_add_le,
    BitVec.extractLsb'_eq_self, -Nat.reduceAdd]

theorem Session.word_fields (t : Session) :
    t.word.extractLsb' 0 8 = t.counter ∧ t.word.extractLsb' 8 1 = bit t.firstSeen ∧
    t.word.extractLsb' 9 1 = bit (decide (t.gen = .B)) ∧ t.word.extractLsb' 10 6 = 0 ∧
    t.word.extractLsb' 16 16 = t.baud := by
  have hgen : bit (decide (t.gen = .B)) = genBit t.gen := by cases t.gen <;> rfl
  rw [hgen]
  simp [Session.word_extract, BitVec.extractLsb'_append_eq_of_le, BitVec.extractLsb'_append_eq_of_add_le,
    BitVec.extractLsb'_eq_self, -Nat.reduceAdd]

theorem ErrInfo.word_fields (t : ErrInfo) :
    t.word.extractLsb' 0 8 = t.expected ∧ t.word.extractLsb' 8 8 = t.actual ∧ t.word.extractLsb' 16 16 = 0 := by
  simp [ErrInfo.word_extract, BitVec.extractLsb'_append_eq_of_le, BitVec.extractLsb'_append_eq_of_add_le,
    BitVec.extractLsb'_eq_self, -Nat.reduceAdd]

theorem State.readWord_register {offset : Nat} {w : Word} (h : s.register offset = some w) : s.readWord offset = w := by
  rw [State.readWord, h]

/-- Settles O15: the fields of each word are parts of the concatenation that makes it, and the rest is written down so. -/
theorem registerFieldLayout : Obligations.RegisterFieldLayout :=
  ⟨fun _ => ⟨State.readWord_register rfl, State.readWord_register rfl, State.readWord_register rfl,
      State.readWord_register rfl, State.readWord_register rfl, State.readWord_register rfl, State.readWord_register rfl,
      State.readWord_register rfl⟩,
    Status.word_fields, ⟨rfl, rfl⟩, ⟨rfl, rfl, rfl, rfl, rfl⟩, ⟨rfl, rfl, rfl, rfl, rfl, rfl⟩, ⟨rfl, rfl, rfl, rfl⟩,
    ⟨rfl, rfl, rfl, rfl, rfl, rfl⟩, Session.word_fields, ErrInfo.word_fields⟩

/-! ## The start of a command -/

theorem issue_idle (h : s.status.busy = false) (w : Word) :
    issue w s = if (s.accept w).canBegin then (s.accept w).beginCommand else .next (s.accept w) :=
  if_neg (by simp [h])

/-- A word written while no input is due at once begins its command in the same step (R21, R73). -/
theorem issue_begins (h : s.status.busy = false) (w : Word) (hu : s.undisturbed 1) :
    issue w s = (s.accept w).beginCommand := by
  have hdue : (s.accept w).inputDue = false := State.inputDue_eq_false.2 (State.undisturbed.congr hu rfl)
  rw [issue_idle h, if_pos (State.canBegin_iff.2 ⟨State.accept_pc s w, hdue⟩)]

/-- An input that is due at once finds the word accepted and nothing of its command done (R73). -/
theorem issue_waits (h : s.status.busy = false) (w : Word) (hu : ¬ s.undisturbed 1) : issue w s = .next (s.accept w) := by
  rw [issue_idle h, if_neg]
  exact fun hc => hu (State.inputDue_eq_false.1 (State.canBegin_iff.1 hc).2)

theorem elapse_postpone (l : List (Nat × Input)) : elapse 1 (postpone l) = l := by
  cases l <;> rfl

/-- A postponed input is not due at once. -/
theorem State.undisturbed_postpone {l : List (Nat × Input)} (h : s.inputs = postpone l) : s.undisturbed 1 := by
  intro p hp
  rw [h] at hp
  cases l with
  | nil => cases hp
  | cons q l => cases hp; exact Nat.succ_pos _

theorem tableWord_32 {w : Nat} (h : w < 2 ^ 32) : tableWord 32 w = BitVec.ofNat 32 w := by
  rw [tableWord, Nat.mod_eq_of_lt h]

/-- The state in which a word written to `CMD` has been accepted, `later` being the inputs still to come (R21). -/
def State.issued (s : State) (w : Word) (later : List (Nat × Input)) : State :=
  (({ s with inputs := later } : State).record (.memWrite (s.cfg.hostBase + offCmd) 4 w)).accept w

/-- A step of an idle block whose host writes to `CMD` next begins the command, if no other input is due at once. -/
theorem step_cmd_begins {n : Nat} {w : Word} {later : List (Nat × Input)} (hidle : s.status.busy = false)
    (hp : s.pc = .idle) (h4 : s.cfg.hostBase % 4 = 0) (hi : s.inputs = (n, .write (s.cfg.hostBase + offCmd) 4 w) :: later)
    (hu : (s.issued w later).undisturbed 1) : step s = (s.issued w later).beginCommand := by
  rw [step_cmd hp h4 hi, issue_begins (by exact hidle) w (by exact hu)]
  rfl

theorem step_cmd_waits {n : Nat} {w : Word} {later : List (Nat × Input)} (hidle : s.status.busy = false)
    (hp : s.pc = .idle) (h4 : s.cfg.hostBase % 4 = 0) (hi : s.inputs = (n, .write (s.cfg.hostBase + offCmd) 4 w) :: later)
    (hu : ¬ (s.issued w later).undisturbed 1) : step s = .next (s.issued w later) := by
  rw [step_cmd hp h4 hi, issue_waits (by exact hidle) w (by exact hu)]
  rfl

/-- A step of a block whose accepted command an input at once interrupts lets that input land (R73). -/
theorem step_accepted_land {m : Input} {later : List (Nat × Input)} (hp : s.pc = .accepted)
    (hi : s.inputs = (0, m) :: later) : step s = land m { s with inputs := later } := by
  have hdue : s.inputDue = true := by simp [State.inputDue, hi]
  exact step_land (by simp [State.canRun, hp]) (by simp [State.canBegin, hdue]) hi

/-- A step of a block with a word placed by `withFetchWord` begins the word's command (R21). -/
theorem step_withFetchWord {w : Nat} (hw : w < 2 ^ 32) (h4 : s.cfg.hostBase % 4 = 0) :
    step (s.withFetchWord 32 w) =
      ((s.withFetchWord 32 w).issued (BitVec.ofNat 32 w) (postpone s.inputs)).beginCommand := by
  have hinputs : (s.withFetchWord 32 w).inputs =
      (0, .write (s.cfg.hostBase + offCmd) 4 (BitVec.ofNat 32 w)) :: postpone s.inputs := by
    rw [← tableWord_32 hw]; rfl
  exact step_cmd_begins rfl rfl h4 hinputs (State.undisturbed_postpone rfl)

/-- Settles O8: acceptance, then the command's begin if no input is due at once, in each of the places where a word waits. -/
theorem stepRunsDecodedCommand : Obligations.StepRunsDecodedCommand := by
  refine ⟨fun s n w later hidle hpc hi h4 => ⟨?_, ?_, ?_⟩, fun s hpc => ⟨?_, ?_, ?_, ?_⟩, fun s hc => step_of_canRun hc,
    fun s w hw h4 => ⟨?_, ?_⟩⟩
  · intro hu i hd
    rw [step_cmd_begins hidle hpc h4 hi hu, State.beginCommand_decoded (by exact hd)]
    rfl
  · intro hu hd
    rw [step_cmd_begins hidle hpc h4 hi hu, State.beginCommand_reserved (by exact hd)]
    rfl
  · exact step_cmd_waits hidle hpc h4 hi
  · intro hu i hd
    rw [step_begin hpc hu, State.beginCommand_decoded hd]
  · intro hu hd
    rw [step_begin hpc hu, State.beginCommand_reserved hd]
    rfl
  · intro later h4 hi
    have h4' : (({ s with inputs := later } : State).cfg.hostBase + offStatus) % 4 = 0 := h4
    exact (step_accepted_land hpc hi).trans (land_read (by decide) h4')
  · exact fun m later hi => step_accepted_land hpc hi
  · intro i hd
    rw [step_withFetchWord hw h4, State.beginCommand_decoded (by exact hd)]
    simp only [State.issued, State.accept_inputs, State.record_inputs, elapse_postpone]
    rfl
  · intro hd
    rw [step_withFetchWord hw h4, State.beginCommand_reserved (by exact hd)]
    simp only [State.issued, State.accept_inputs, State.record_inputs, elapse_postpone]
    rfl

end Sys2Proof.Machine

/-! # What the host reads, and the accesses that stop (rules R12, R60 to R64) -/

namespace Sys2Proof.Machine

variable {s t : State} {address width : Nat}

/-! ## The accesses that the block does not admit -/

/-- An access inside the space that is not 4 bytes wide, or whose bus address is no multiple of 4, is refused (R63). -/
theorem State.access_refused (hlo : s.cfg.hostBase ≤ address) (hhi : address < s.cfg.hostBase + hostSpace)
    (h : width ≠ 4 ∨ address % 4 ≠ 0) (k : Nat → Host.Outcome State Fault Refusal) :
    s.access address width k = .refused .hostBadAccess := by
  have hadm : admitted address width = false := by
    rw [admitted, Bool.and_eq_false_iff, decide_eq_false_iff_not, decide_eq_false_iff_not]
    exact h
  simp [State.access, hostOffset, hlo, hhi, hadm]

/-- An access outside the space faults, whatever its width (R60; assumption 8). -/
theorem State.access_outside (h : address < s.cfg.hostBase ∨ s.cfg.hostBase + hostSpace ≤ address)
    (k : Nat → Host.Outcome State Fault Refusal) : s.access address width k = .fault .hostAddressOutsideSpace := by
  have hout : hostOffset s.cfg address = none := if_neg (by omega)
  rw [State.access, hout]

/-- Settles O12: both accesses take the one way through `State.access`, which stops before it looks at a value. -/
theorem unadmittedAccessStops : Obligations.UnadmittedAccessStops := fun _ _ _ _ =>
  ⟨fun hlo hhi h => ⟨State.access_refused hlo hhi h _, State.access_refused hlo hhi h _⟩,
    fun h => ⟨State.access_outside h _, State.access_outside h _⟩⟩

/-! ## A read that the block answers -/

/-- A read that is answered only records the access (R12, R64). -/
theorem land_read_next (h : land (.read address width) s = .next t) :
    ∃ offset, t = s.noteRead address width offset := by
  obtain ⟨offset, -, -, -, -, hk⟩ := access_cases h
  exact ⟨offset, (Host.Outcome.next.inj hk).symm⟩

@[simp] theorem State.noteRead_readWord (o offset : Nat) :
    (s.noteRead address width o).readWord offset = s.readWord offset := rfl

/-- The record of a read is the host's, so it is none of the events of `ENGINE` (R65). -/
theorem State.noteRead_engineEvents (o : Nat) :
    engineEvents (s.noteRead address width o).history = engineEvents s.history := rfl

/-- Settles O10: an admitted read is `State.noteRead`, and every read that is answered is an admitted one. -/
theorem hostReadHasNoSideEffect : Obligations.HostReadHasNoSideEffect := by
  refine ⟨fun s offset ho h4 => land_read ho h4, fun s t address width h => ?_⟩
  obtain ⟨o, rfl⟩ := land_read_next h
  exact ⟨rfl, State.noteRead_engineEvents o, State.noteRead_readWord o⟩

/-! ## The windows' offsets -/

/-- `TXBUF`, `RXBUF` and `ID` stand one directly after the other, and `MEMBUF` above them (R61). -/
theorem windows_in_order : txBase + windowBytes = rxBase ∧ rxBase + windowBytes = idBase ∧ idBase + idBytes ≤ memBase := by
  decide

theorem State.windowByte_rxBase {i : Nat} (hi : i < windowBytes) :
    s.windowByte (rxBase + i) = if i < s.cfg.maxBlock then s.rxByte i else 0 := by
  obtain ⟨htx, -, -⟩ := windows_in_order
  rw [State.windowByte, if_neg (by omega), if_pos (by omega), Nat.add_sub_cancel_left]

theorem State.windowByte_idBase {k : Nat} (hk : k < idBytes) : s.windowByte (idBase + k) = s.idByte k := by
  obtain ⟨htx, hrx, -⟩ := windows_in_order
  rw [State.windowByte, if_neg (by omega), if_neg (by omega), if_pos (by omega), Nat.add_sub_cancel_left]

theorem State.windowByte_memBase {i : Nat} (hi : i < s.cfg.membufBytes) :
    s.windowByte (memBase + i) = s.membufByte i := by
  obtain ⟨htx, hrx, hid⟩ := windows_in_order
  rw [State.windowByte, if_neg (by omega), if_neg (by omega), if_neg (by omega), if_pos (by omega),
    Nat.add_sub_cancel_left]

theorem State.windowByte_outside {offset : Nat} (h : offset < txBase ∨ (idBase + idBytes ≤ offset ∧ offset < memBase) ∨
    memBase + s.cfg.membufBytes ≤ offset) : s.windowByte offset = 0 := by
  obtain ⟨htx, hrx, hid⟩ := windows_in_order
  rw [State.windowByte, if_neg (by omega), if_neg (by omega), if_neg (by omega), if_neg (by omega)]

/-! ## The words of the windows -/

/-- Byte `j` of a word that four bytes make is the one at the `j`-th of the four offsets (R62). -/
theorem wordOfBytes_byte (f : Nat → Byte) {a j : Nat} (hj : j < 4) :
    (wordOfBytes (f a) (f (a + 1)) (f (a + 2)) (f (a + 3))).extractLsb' (8 * j) 8 = f (a + j) := by
  interval_cases j <;>
    simp [wordOfBytes, BitVec.extractLsb'_append_eq_of_le, BitVec.extractLsb'_append_eq_of_add_le,
      BitVec.extractLsb'_eq_self, -Nat.reduceAdd]

/-- `RXCOUNT`, at 0x001C, is the last of the registers (R61). -/
theorem State.register_none {offset : Nat} (h : 0x20 ≤ offset) : s.register offset = none := by
  have hne : ∀ r ≤ offRxcount, offset ≠ r := fun r hr => by simp only [offRxcount] at hr; omega
  rw [State.register]
  iterate 8 rw [if_neg (hne _ (by decide))]

theorem State.readWord_window {offset : Nat} (h : 0x20 ≤ offset) : s.readWord offset =
    wordOfBytes (s.windowByte offset) (s.windowByte (offset + 1)) (s.windowByte (offset + 2)) (s.windowByte (offset + 3)) := by
  rw [State.readWord, State.register_none h]

/-- The byte of a window, in the aligned word around it (R62). -/
theorem State.readWord_byte {offset : Nat} (h : 0x20 ≤ offset) :
    (s.readWord (offset - offset % 4)).extractLsb' (8 * (offset % 4)) 8 = s.windowByte offset := by
  rw [State.readWord_window (by omega), wordOfBytes_byte s.windowByte (Nat.mod_lt _ (by decide)),
    Nat.sub_add_cancel (Nat.mod_le ..)]

/-- Settles O13: each window has the law of its offsets, and a word from 0x20 on is the four window bytes at its offsets. -/
theorem windowWordIsLittleEndian : Obligations.WindowWordIsLittleEndian := by
  refine ⟨fun s offset => State.readWord_byte, fun s hv => ?_, fun s i hi => ⟨State.windowByte_txBase hi,
    State.windowByte_rxBase hi⟩, fun s j k hj hk => ?_, fun s i => State.windowByte_memBase,
    fun s offset => State.windowByte_outside, fun s offset h => ?_⟩
  · have hmax := hv.maxBlock_ge
    have htx : ∀ i < 4, s.windowByte (0x0100 + i) = s.txByte i := fun i hi =>
      State.windowByte_tx (by omega) (by simp only [windowBytes]; omega)
    rw [State.readWord_window (by decide), ← htx 0 (by decide), ← htx 1 (by decide), ← htx 2 (by decide),
      ← htx 3 (by decide)]
    rfl
  · rw [Nat.add_assoc]
    exact State.windowByte_idBase (by simp only [idBytes]; omega)
  · have hzero : ∀ i < 4, s.windowByte (offset + i) = 0 := fun i hi =>
      State.windowByte_outside (by simp only [txBase, idBase, idBytes, memBase]; omega)
    rw [State.readWord_window (by omega), show s.windowByte offset = 0 from hzero 0 (by decide), hzero 1 (by decide),
      hzero 2 (by decide), hzero 3 (by decide)]
    rfl

end Sys2Proof.Machine

/-! # The command word and the opcode map (rules R80 to R85) -/

namespace Sys2Proof

open Laws.OpcodeRow (cmdWord_bit)

variable {w w' : Word} {i : Instr} {r : Row}

/-! ## The fields of a word (R80) -/

@[simp] theorem opField_cmdWord (op x : Byte) (y : Half) : opField (cmdWord op x y) = op := by
  refine BitVec.eq_of_getLsbD_eq fun k hk => ?_
  rw [opField, BitVec.getLsbD_extractLsb', cmdWord_bit]
  simp [hk]

@[simp] theorem xField_cmdWord (op x : Byte) (y : Half) : xField (cmdWord op x y) = x := by
  refine BitVec.eq_of_getLsbD_eq fun k hk => ?_
  rw [xField, BitVec.getLsbD_extractLsb', cmdWord_bit]
  simp [hk]

@[simp] theorem yField_cmdWord (op x : Byte) (y : Half) : yField (cmdWord op x y) = y := by
  refine BitVec.eq_of_getLsbD_eq fun k hk => ?_
  rw [yField, BitVec.getLsbD_extractLsb', cmdWord_bit, if_neg (by omega), if_neg (by omega), Nat.sub_sub,
    Nat.add_sub_cancel_left]
  simp [hk]

/-- A word is its three fields (R80). -/
theorem cmdWord_fields (w : Word) : cmdWord (opField w) (xField w) (yField w) = w := by
  refine BitVec.eq_of_getLsbD_eq fun k hk => ?_
  rw [cmdWord_bit, opField, xField, yField]
  simp only [BitVec.getLsbD_extractLsb']
  split_ifs with hop hx
  · simp [hop]
  · simp [hx, Nat.add_sub_cancel' (not_lt.1 hop)]
  · rw [show 16 + (k - 8 - 8) = k by omega]
    simp [show k - 8 - 8 < 16 by omega]

theorem opField_and (w m : Word) : opField (w &&& m) = opField w &&& opField m := BitVec.extractLsb'_and

theorem xField_and (w m : Word) : xField (w &&& m) = xField w &&& xField m := BitVec.extractLsb'_and

theorem yField_and (w m : Word) : yField (w &&& m) = yField w &&& yField m := BitVec.extractLsb'_and

theorem kindField_and (w m : Word) : kindField (w &&& m) = kindField w &&& kindField m := BitVec.extractLsb'_and

theorem wordOfBytes_eq (b0 b1 b2 b3 : Byte) : wordOfBytes b0 b1 b2 b3 = cmdWord b0 b1 (b3 ++ b2) := rfl

/-- The bytes of a word, as the host stores them, are the word's (R62, R80). -/
theorem decodeBytes_bytesOfWord (w : Word) (rest : List Byte) :
    decodeBytes (bytesOfWord w ++ rest) = (decode w).map fun i => (i, rest) := by
  have hy : w.extractLsb' 24 8 ++ w.extractLsb' 16 8 = yField w :=
    BitVec.extractLsb'_append_extractLsb'_eq_extractLsb' rfl
  have hw : wordOfBytes (w.extractLsb' 0 8) (w.extractLsb' 8 8) (w.extractLsb' 16 8) (w.extractLsb' 24 8) = w := by
    rw [wordOfBytes_eq, hy]; exact cmdWord_fields w
  show (decode (wordOfBytes _ _ _ _)).map _ = _
  rw [hw]
  rfl

theorem word_ext_iff : w = w' ↔ opField w = opField w' ∧ xField w = xField w' ∧ yField w = yField w' := by
  refine ⟨fun h => h ▸ ⟨rfl, rfl, rfl⟩, fun ⟨hop, hx, hy⟩ => ?_⟩
  rw [← cmdWord_fields w, hop, hx, hy, cmdWord_fields]

/-! ## The bits that a command uses (R81 to R83) -/

/-- The bits of `X` that a command uses. -/
def usedX : Instr → Byte
  | .wakeup _ | .sendEcho _ | .sendCompl _ | .recvBlockExpect _ | .connectA _ _ | .connectB _ _ | .autoconnect _
  | .login _ _ | .groupReading _ => 0xFF
  | .readMemRam _ | .readMemRom _ | .readMemEe _ => 0x03
  | .recvPlain | .recvCompl | .sendBlock | .recvBlock | .disconnect | .safeCodeCustom | .safeCodeEeprom
  | .calcChecksum => 0x00

/-- The bits of `Y` that a command uses. -/
def usedY : Instr → Half
  | .connectA _ _ | .connectB _ _ | .login _ _ | .readMemRam _ | .readMemRom _ | .readMemEe _ => 0xFFFF
  | .wakeup _ | .sendEcho _ | .sendCompl _ | .recvPlain | .recvCompl | .sendBlock | .recvBlock | .recvBlockExpect _
  | .autoconnect _ | .disconnect | .groupReading _ | .safeCodeCustom | .safeCodeEeprom | .calcChecksum => 0x0000

theorem usedBits_eq (i : Instr) : usedBits i = cmdWord 0xFF (usedX i) (usedY i) := by
  have hop : (0x000000FF : Word) = cmdWord 0xFF 0x00 0x0000 := by decide
  have hopx : (0x0000FFFF : Word) = cmdWord 0xFF 0xFF 0x0000 := by decide
  have hkind : (0xFFFF03FF : Word) = cmdWord 0xFF 0x03 0xFFFF := by decide
  have hall : (0xFFFFFFFF : Word) = cmdWord 0xFF 0xFF 0xFFFF := by decide
  cases i <;> simp only [usedBits, usedX, usedY, hop, hopx, hkind, hall]

@[simp] theorem byte_and_ones (x : Byte) : x &&& 0xFF#8 = x := BitVec.and_allOnes

@[simp] theorem half_and_ones (y : Half) : y &&& 0xFFFF#16 = y := BitVec.and_allOnes

theorem and_usedBits_iff : w &&& usedBits i = encode i ↔ opField w = opField (encode i) ∧
    xField w &&& usedX i = xField (encode i) ∧ yField w &&& usedY i = yField (encode i) := by
  rw [word_ext_iff, opField_and, xField_and, yField_and, usedBits_eq, opField_cmdWord, xField_cmdWord, yField_cmdWord,
    BitVec.ofNat_eq_ofNat, byte_and_ones]

/-- The kind of a memory read is `X` with its other bits ignored (R82). -/
theorem kindField_toNat (w : Word) : (kindField w).toNat = (xField w &&& 0x03).toNat := by
  rw [kindField, xField, BitVec.toNat_and, show (0x03 : Byte).toNat = 2 ^ 2 - 1 from rfl, Nat.and_two_pow_sub_one_eq_mod,
    BitVec.extractLsb'_toNat, BitVec.extractLsb'_toNat]
  omega

/-- Decoding answers the command that the word's used bits spell (R84). -/
theorem decode_eq_some_iff : decode w = some i ↔ w &&& usedBits i = encode i := by
  rw [and_usedBits_iff]
  constructor
  · intro h
    unfold decode at h
    split at h
    case h_15 => -- `READ_MEM`, where the kind bits decide
      rw [kindField_toNat] at h
      split at h <;> cases h <;> simp_all [encode, usedX, usedY, ← BitVec.toNat_inj, -BitVec.toNat_and]
    all_goals cases h <;> simp_all [encode, usedX, usedY, ← BitVec.toNat_inj]
  · rintro ⟨hop, hx, hy⟩
    cases i <;> simp [encode, usedX, usedY] at hop hx hy <;>
      simp [decode, hop, hx, hy, kindField_toNat, -BitVec.toNat_and]

theorem decode_encode (i : Instr) : decode (encode i) = some i := by
  rw [decode_eq_some_iff, and_usedBits_iff]
  cases i <;> simp [encode, usedX, usedY]

/-- Settles O1: the host's four bytes of a word are the word (`decodeBytes_bytesOfWord`), and a command's word decodes to the
command (`decode_encode`). -/
theorem decodeInvertsEncode : Obligations.DecodeInvertsEncode := by
  intro i rest _
  rw [encodeBytes, decodeBytes_bytesOfWord, decode_encode, Option.map_some]

/-- Settles O3: `decode_eq_some_iff` read in both directions. -/
theorem decodeIgnoresUnusedBits : Obligations.DecodeIgnoresUnusedBits :=
  ⟨fun _ _ h => (decode_eq_some_iff.1 h).symm, fun _ _ _ h hw => decode_eq_some_iff.2 (hw.trans (decode_eq_some_iff.1 h))⟩

/-- Settles O4: the decoder is evaluated on each word. -/
theorem sampleWordsDecode : Obligations.SampleWordsDecode := by
  unfold Obligations.SampleWordsDecode
  decide

/-! ## The opcode map (R83, R84) -/

/-- Two rows that the same word meets agree where both masks look. -/
theorem pattern_agree {r r' : Row} (h : w &&& r.mask = r.pattern) (h' : w &&& r'.mask = r'.pattern) :
    r.pattern &&& r'.mask = r'.pattern &&& r.mask := by
  rw [← h, ← h', BitVec.and_assoc, BitVec.and_assoc, BitVec.and_comm r.mask]

theorem opcodeMap_disjoint :
    opcodeMap.Pairwise fun r r' => ∀ w : Word, ¬(w &&& r.mask = r.pattern ∧ w &&& r'.mask = r'.pattern) :=
  have h : opcodeMap.Pairwise fun r r' => r.pattern &&& r'.mask ≠ r'.pattern &&& r.mask := by decide
  h.imp fun hne _ hw => hne (pattern_agree hw.1 hw.2)

/-- A row looks at the opcode, the rows of `READ_MEM` also at the kind, and a row's pattern decodes to a command of the
row. -/
theorem opcodeMap_rows : ∀ r ∈ opcodeMap,
    (r.mask = 0xFF ∨ r.mask = 0x3FF) ∧ (r.mask = 0x3FF ↔ opField r.pattern = 0x42) ∧
      (decode r.pattern).map mnemonic = some r.mnemonic := by
  decide

open Laws.OpcodeRow in
theorem opcodeRow (i : Instr) : Statement i := by
  cases i
  exacts [wakeup _, sendEcho _, sendCompl _, recvPlain, recvCompl, sendBlock, recvBlock, recvBlockExpect _, connectA _ _,
    connectB _ _, autoconnect _, disconnect, login _ _, groupReading _, readMemRam _, readMemRom _, readMemEe _,
    safeCodeCustom, safeCodeEeprom, calcChecksum]

theorem opField_of_row (hr : r ∈ opcodeMap) (hw : w &&& r.mask = r.pattern) : opField w = opField r.pattern := by
  have hmask : opField r.mask = 0xFF#8 := by
    rcases (opcodeMap_rows r hr).1 with h | h <;> rw [h] <;> decide
  rw [← hw, opField_and, hmask, byte_and_ones]

/-- A command's row looks only at bits that the command uses. -/
theorem usedBits_and_mask (hr : r ∈ opcodeMap) (hi : encode i &&& r.mask = r.pattern) : usedBits i &&& r.mask = r.mask := by
  obtain ⟨h | h, hkind, -⟩ := opcodeMap_rows r hr
  · rw [h]
    cases i <;> simp [usedBits]
  · have hop : opField (encode i) = 0x42 := (opField_of_row hr hi).trans (hkind.1 h)
    rw [h]
    cases i <;> simp [usedBits, encode] at hop ⊢

theorem row_of_decode (h : decode w = some i) : ∃ r ∈ opcodeMap, w &&& r.mask = r.pattern := by
  obtain ⟨r, hr, -, hi⟩ := opcodeRow i
  exact ⟨r, hr, by rw [← hi, ← decode_eq_some_iff.1 h, BitVec.and_assoc, usedBits_and_mask hr hi]⟩

/-- Which command a word decodes to is up to its opcode, and for `READ_MEM` to its kind (R83). -/
theorem decode_mnemonic_congr (hop : opField w = opField w') (hkind : opField w' = 0x42 → kindField w = kindField w') :
    (decode w).map mnemonic = (decode w').map mnemonic := by
  unfold decode
  rw [hop]
  split
  case h_15 h =>
    rw [hkind (BitVec.eq_of_toNat_eq h)]
    split <;> rfl
  all_goals rfl

/-- A word that a row selects decodes to a command of the row (R84). -/
theorem decode_of_row (hr : r ∈ opcodeMap) (hw : w &&& r.mask = r.pattern) :
    (decode w).map mnemonic = some r.mnemonic := by
  obtain ⟨-, hkind, hdec⟩ := opcodeMap_rows r hr
  rw [← hdec]
  refine decode_mnemonic_congr (opField_of_row hr hw) fun hop => ?_
  have hones : kindField 0x3FF = BitVec.allOnes 2 := by decide
  rw [← hw, hkind.2 hop, kindField_and, hones, BitVec.and_allOnes]

/-- Settles O2: a word that decodes to a command is selected by that command's row (`row_of_decode`), and a word that a row
selects decodes to a command of that row (`decode_of_row`); so without a row there is no command, and `execute` rejects. -/
theorem decodeFollowsOpcodeMap : Obligations.DecodeFollowsOpcodeMap := by
  have hnone : ∀ w : Word, (∀ r ∈ opcodeMap, w &&& r.mask ≠ r.pattern) → decode w = none := fun w h =>
    Option.eq_none_iff_forall_ne_some.2 fun i hi =>
      have ⟨r, hr, hw⟩ := row_of_decode hi
      h r hr hw
  refine ⟨opcodeMap_disjoint, fun w => ?_, fun w s h => ?_⟩
  · cases hf : opcodeMap.find? fun r => decide (w &&& r.mask = r.pattern) with
    | none => rw [hnone w (by simpa using hf)]; rfl
    | some r => exact decode_of_row (List.mem_of_find?_eq_some hf) (by simpa using List.find?_some hf)
  · rw [Machine.execute, hnone w h]
    rfl

end Sys2Proof

/-! # A request, its response, and the end of the command (rules R221, R222, R230, R232) -/

namespace Sys2Proof.Machine

section

variable {s t : State} {c : Instr} {rest : List Op} {title : Byte} {payload r : List Byte} {b : Block}

theorem State.AcceptsAfterSend.length_lt (h : s.AcceptsAfterSend b) : b.2.length < 256 := h.counted ▸ b.1.isLt

/-- What an exchange of a request and a response leaves alone. -/
theorem State.exchanged_kept (hp : payload.length + 4 ≤ 256) :
    (s.exchanged title payload b r).status = s.status ∧ (s.exchanged title payload b r).result = s.result ∧
      (s.exchanged title payload b r).errinfo = s.errinfo ∧
      (s.exchanged title payload b r).line = { s.line with rx := r } := by
  rw [State.exchanged_eq hp]
  exact ⟨rfl, rfl, rfl, rfl⟩

/-- A step has room for the moves of an exchange, and for a few more (assumption 6). -/
theorem State.exchange_le_burst
    (hrx : s.line.rx = (block (s.session.counter + 1) title payload).answersSent ++ b.answersHeard ++ r) :
    5 * payload.length + 6 * b.2.length + 32 ≤ s.burst := by
  have hburst := State.burst_ge (s := s)
  have hsent := length_le_exchange (block (s.session.counter + 1) title payload).bytes
  have hheard := length_le_heardAnswers b.1 b.2
  rw [length_block_bytes] at hsent
  rw [hrx, List.length_append, List.length_append, Block.answersSent, Block.answersHeard] at hburst
  omega

/-- A command that exchanges a request and a response on a correct line and then ends within three moves. -/
theorem State.launch_exchange {m : Nat} (hp : payload.length + 4 ≤ 256) (hb : s.AcceptsAfterSend b)
    (hu : s.undisturbed ((block (s.session.counter + 1) title payload).eventsSent s.cfg ++ b.eventsHeard s.cfg).length)
    (hrx : s.line.rx = (block (s.session.counter + 1) title payload).answersSent ++ b.answersHeard ++ r)
    (hend : RunsIn m ((s.exchanged title payload b r).started.goto c rest) t) (hm : m ≤ 3) (ht : t.pc = .idle) :
    s.launch c (.fillTx (requestBlock title payload) :: .sendBlock :: .recvBlock :: rest) = t := by
  obtain ⟨hcounted, hfits, hcounter⟩ := hb
  obtain ⟨n, hn, hrun⟩ := RunsIn.exchange (s := s.started) (c := c) (rest := rest) hp ⟨hcounted, hfits, hcounter⟩ hu hrx
  rw [State.exchanged_started] at hrun
  have hroom := State.exchange_le_burst hrx
  exact State.launch_eq (hrun.trans hend) (State.canRun_of_idle ht) (by omega)

/-- Of what `State.ExchangedTo` says, an end FATAL of the command adds to the history (R264). -/
theorem State.exchanged_raiseFatal_to {u : State} (hu : u = s.exchanged title payload b r) (hp : payload.length + 4 ≤ 256)
    (hb : b.2.length < 256) (code : ErrCode) (x y : Byte) :
    s.ExchangedTo (u.started.raiseFatal code x y) (block (s.session.counter + 1) title payload) b [.fatal code x y] :=
  State.exchanged_to hp hb u.result (u.started.raiseFatal code x y).status ⟨x, y⟩ [.fatal code x y] (elapse 1 u.inputs)
    (by rw [← hu]; rfl)

/-- Of what `State.ExchangedTo` says, an end OK of the command changes nothing, whatever it returns (R21). -/
theorem State.exchanged_complete_to {u : State} (hu : u = s.exchanged title payload b r) (hp : payload.length + 4 ≤ 256)
    (hb : b.2.length < 256) (x : Word) :
    s.ExchangedTo (State.complete { u.started with result := x } .ok) (block (s.session.counter + 1) title payload) b [] :=
  State.exchanged_to hp hb x { u.status with outcome := .ok, busy := false } u.errinfo [] u.inputs (by rw [← hu]; rfl)

/-- The workshop code's bytes are bytes of `ARG0` (R82). -/
theorem State.workshop_bytes (s : State) :
    hiByte s.workshop = s.arg0.extractLsb' 8 8 ∧ loByte s.workshop = s.arg0.extractLsb' 0 8 := by
  constructor <;> refine BitVec.eq_of_getLsbD_eq fun k hk => ?_ <;> simp [hiByte, loByte, State.workshop]

theorem State.whenReady_ready (h : s.status.state = .ready) (k : State) : s.whenReady k = k := if_pos h

/-- The response has the wrong title: the command ends FATAL (R158, R264). -/
theorem RunsIn.checkTitle_wrong (h : s.rxByte 2 ≠ title) :
    RunsIn 1 (s.goto c (.checkTitle title :: rest)) (s.raiseFatal .title title (s.rxByte 2)) :=
  RunsIn.silent rfl (if_neg h)

/-- The response has the right title: two bytes of its payload are returned (R230, R232). -/
theorem RunsIn.checkTitle_result {offset : Nat} (h : s.rxByte 2 = title) :
    RunsIn 3 (s.goto c [.checkTitle title, .resultPayload offset])
      (State.complete { s with result := zextHalf (s.payloadValue offset) } .ok) :=
  have hresult : RunsIn 1 (s.goto c [.resultPayload offset])
      (State.goto { s with result := zextHalf (s.payloadValue offset) } c []) := RunsIn.silent rfl rfl
  ((RunsIn.checkTitle h).trans hresult).trans RunsIn.done

end

/-- Settles O46: both commands are one exchange (`State.launch_exchange`), after which nothing is left to do. -/
theorem loginAndGroupReadingExchangeBlocks : Obligations.LoginAndGroupReadingExchangeBlocks := by
  intro s i title payload b r _ hready hb hi request hu hrx
  obtain ⟨hexec, hp⟩ : exec i s = .next (s.launch i [.fillTx (requestBlock title payload), .sendBlock, .recvBlock]) ∧
      payload.length + 4 ≤ 256 := by
    obtain ⟨hhi, hlo⟩ := s.workshop_bytes
    rcases hi with ⟨safeCode, fern, rfl, rfl, rfl⟩ | ⟨group, rfl, rfl, rfl⟩
    · rw [← hhi, ← hlo]
      exact ⟨congrArg Host.Outcome.next (State.whenReady_ready hready _), by simp⟩
    · exact ⟨congrArg Host.Outcome.next (State.whenReady_ready hready _), by simp⟩
  obtain ⟨hstatus, hresult, herrinfo, hline⟩ := State.exchanged_kept (s := s) (title := title) (r := r) (b := b) hp
  rw [hexec, State.launch_exchange hp hb hu hrx RunsIn.done (by decide) rfl]
  generalize hex : s.exchanged title payload b r = u at *
  refine ⟨_, rfl, State.exchanged_complete_to hex.symm hp hb.length_lt u.result, ?_, hresult, herrinfo, hline⟩
  simp [State.started, hstatus]

/-- Settles O47: both commands are one exchange (`State.launch_exchange`), which the title check ends or which returns its two
bytes. -/
theorem safeCodeCustomAndChecksumReturnBytes : Obligations.SafeCodeCustomAndChecksumReturnBytes := by
  intro s i payload title offset b r _ hready hb hi request hu hrx
  obtain ⟨hexec, hp⟩ : exec i s = .next (s.launch i [.fillTx (requestBlock s.cfg.titleCustom payload), .sendBlock,
      .recvBlock, .checkTitle title, .resultPayload offset]) ∧ payload.length + 4 ≤ 256 := by
    rcases hi with ⟨rfl, rfl, rfl, rfl⟩ | ⟨rfl, rfl, rfl, rfl⟩ <;>
      exact ⟨congrArg Host.Outcome.next (State.whenReady_ready hready _), by simp⟩
  obtain ⟨hstatus, hresult, herrinfo, hline⟩ :=
    State.exchanged_kept (s := s) (title := s.cfg.titleCustom) (r := r) (b := b) hp
  by_cases htitle : (s.exchanged s.cfg.titleCustom payload b r).rxByte 2 = title
  · rw [hexec, State.launch_exchange hp hb hu hrx (RunsIn.checkTitle_result htitle) (by decide) rfl]
    generalize hex : s.exchanged s.cfg.titleCustom payload b r = u at *
    refine ⟨_, rfl, hline, fun _ => ⟨State.exchanged_complete_to hex.symm hp hb.length_lt _, ?_, herrinfo, rfl⟩,
      fun hne => absurd htitle hne⟩
    simp [State.started, hstatus]
  · rw [hexec, State.launch_exchange hp hb hu hrx (RunsIn.checkTitle_wrong htitle) (by decide) rfl]
    generalize hex : s.exchanged s.cfg.titleCustom payload b r = u at *
    refine ⟨_, rfl, hline, fun heq => absurd heq htitle, fun _ => ?_⟩
    rw [State.raiseFatal_rxByte, State.started_rxByte]
    refine ⟨State.exchanged_raiseFatal_to hex.symm hp hb.length_lt _ _ _, ?_, rfl, hresult⟩
    simp [State.started, hstatus]

end Sys2Proof.Machine

/-! # The wakeup frame (rules R120, R121) -/

namespace Sys2Proof.Machine

variable {s : State} {c : Config} {a b : Byte}

/-! ## The ten bits (R120) -/

/-- An exclusive or over a list, counted with the list's ones, has the parity it started with. -/
theorem count_true_add_foldl_xor (l : List Bool) :
    ∀ p : Bool, (l.count true + (l.foldl Bool.xor p).toNat) % 2 = p.toNat := by
  induction l with
  | nil => decide
  | cons v l ih =>
    intro p
    have htail := ih (p ^^ v)
    rw [List.foldl_cons]
    cases v with
    | false => simpa using htail
    | true =>
      rw [List.count_cons_self]
      cases p <;> simp at htail ⊢ <;> omega

/-- The address bits that are sent. -/
def addressBits (c : Config) (a : Byte) : List Bool := (List.range c.wakeupAddrBits).map fun i => a.getLsbD i

@[simp] theorem addressBits_length (c : Config) (a : Byte) : (addressBits c a).length = c.wakeupAddrBits := by
  simp [addressBits]

theorem addressBits_congr (h : ∀ i < c.wakeupAddrBits, a.getLsbD i = b.getLsbD i) : addressBits c a = addressBits c b :=
  List.map_congr_left fun i hi => h i (List.mem_range.1 hi)

/-- The frame is made of the address bits alone. -/
theorem wakeupBits_eq (c : Config) (a : Byte) :
    wakeupBits c a = [false] ++ addressBits c a ++ [(addressBits c a).foldl Bool.xor true, true] := by
  rw [wakeupBits, wakeupParity, addressBits, List.foldl_map]

/-- The address bits and the parity bit hold an odd number of ones. -/
theorem wakeupBits_odd (c : Config) (a : Byte) :
    (((wakeupBits c a).drop 1).take (c.wakeupAddrBits + 1)).count true % 2 = 1 := by
  have hsplit : ((wakeupBits c a).drop 1).take (c.wakeupAddrBits + 1) =
      addressBits c a ++ [(addressBits c a).foldl Bool.xor true] := by
    simp [wakeupBits_eq, List.take_append]
  have hones : ∀ v : Bool, [v].count true = v.toNat := by decide
  rw [hsplit, List.count_append, hones]
  exact count_true_add_foldl_xor (addressBits c a) true

/-- Settles O16: the seven address bits are listed, their parity is odd (`wakeupBits_odd`), and bit 7 is not among them
(`addressBits_congr`). -/
theorem wakeupBitsFollowParityRule : Obligations.WakeupBitsFollowParityRule := by
  intro c a hv
  have hseven : c.wakeupAddrBits = 7 := hv.sourced.wakeupAddrBits
  refine ⟨?_, ?_, ?_⟩
  · rw [wakeupBits, wakeupParity, hseven]
    rfl
  · simpa only [hseven] using wakeupBits_odd c a
  · have hbit : ∀ i < 7, (0x80 : Byte).getLsbD i = false := by decide
    have hsent : addressBits c (a ^^^ 0x80) = addressBits c a := addressBits_congr fun i hi => by
      rw [BitVec.getLsbD_xor, hbit i (hseven ▸ hi), Bool.xor_false]
    rw [wakeupBits_eq, wakeupBits_eq, hsent]

/-! ## The command (R121) -/

/-- A step has room for the frame's twelve moves and the command's end (assumption 6). -/
theorem State.frame_lt_burst : 13 ≤ s.burst := le_trans (by omega) State.burst_ge

/-- WAKEUP runs its frame and ends OK. -/
theorem State.launch_frame {i : Instr} (hv : s.cfg.Valid) (hu : s.undisturbed 12) :
    s.launch i (frameOps s.cfg a) =
      State.complete { s.started.past (frameEvents s.cfg a) s.line.rx with lineMode := .transport } .ok := by
  have hframe := RunsIn.frame (s := s.started) (c := i) (rest := []) a hv hu
  rw [List.append_nil] at hframe
  exact State.launch_eq (hframe.trans RunsIn.done) (State.canRun_of_idle rfl) State.frame_lt_burst

theorem frameEvents_eq (hv : c.Valid) (a : Byte) : frameEvents c a =
    .lineAcquire :: (wakeupBits c a).map (fun v => .lineHold v 200) ++ [.lineRelease] := by
  rw [frameEvents, hv.sourced.bitMs]

theorem frameEvents_length_twelve (hv : c.Valid) (a : Byte) : (frameEvents c a).length = 12 :=
  Nat.succ.inj (frameEvents_length hv a 0)

/-- Settles O17: the word's `OP` selects WAKEUP, whose run is the frame and the end of the command
(`State.launch_frame`). -/
theorem wakeupSendsFrame : Obligations.WakeupSendsFrame := by
  refine ⟨fun a y => ?_, fun a s hv hu => ?_⟩
  · simp [decode]
  · refine congrArg Host.Outcome.next ((State.launch_frame hv hu).trans ?_)
    rw [State.past, frameEvents_length_twelve hv, frameEvents_eq hv]
    rfl

end Sys2Proof.Machine

/-! # Every Send directly follows its delay (rules R135, R296) -/

namespace Sys2Proof.Machine

variable {s : State} {c : Instr} {op : Op} {ops rest : List Op} {cfg : Config} {ready : Bool}

/-- The line of pseudocode that sends a byte (R130). -/
def Op.sends : Op → Bool
  | .send _ => true
  | _ => false

/-- The line of pseudocode that a `Send` must directly follow: the delay of `INTERBYTE_MS` (R130). -/
def Op.readies (cfg : Config) : Op → Bool
  | .delay ms => decide (ms = cfg.interbyteMs)
  | _ => false

/-! ## The pseudocode left -/

/-- A line is in its place when it sends nothing or is ready to, and the rest is when it is after that line. -/
theorem opsSpaced_cons : opsSpaced cfg ready (op :: rest) = ((!op.sends || ready) && opsSpaced cfg (op.readies cfg) rest) := by
  cases op <;> rfl

/-- A delay just past does no harm. -/
theorem opsSpaced_mono (h : opsSpaced cfg false ops = true) : opsSpaced cfg ready ops = true := by
  cases ops with
  | nil => rfl
  | cons op rest =>
    rw [opsSpaced_cons, Bool.or_false, Bool.and_eq_true_iff] at h
    obtain ⟨hquiet, hrest⟩ := h
    rw [opsSpaced_cons, hquiet, hrest]
    rfl

theorem opsSpaced_append (hrest : opsSpaced cfg false rest = true) : ∀ {ops : List Op} {ready : Bool},
    opsSpaced cfg ready ops = true → opsSpaced cfg ready (ops ++ rest) = true := by
  intro ops
  induction ops with
  | nil => exact fun _ => opsSpaced_mono hrest
  | cons op ops ih =>
    intro ready h
    rw [opsSpaced_cons, Bool.and_eq_true_iff] at h
    obtain ⟨hready, hops⟩ := h
    rw [List.cons_append, opsSpaced_cons, hready, ih hops]
    rfl

/-- A byte sent by `send_echo()` has its delay before it (R130). -/
theorem opsSpaced_sendEcho (b : Byte) : opsSpaced cfg ready (sendEchoOps cfg b ++ rest) = opsSpaced cfg false rest := by
  simp [sendEchoOps, opsSpaced]

theorem opsSpaced_silent (h : ∀ op ∈ ops, op.sends = false) : opsSpaced cfg ready ops = true := by
  induction ops generalizing ready with
  | nil => rfl
  | cons op ops ih =>
    rw [opsSpaced_cons, h op (by simp), ih fun o ho => h o (List.mem_cons_of_mem _ ho)]
    rfl

theorem opsSpaced_connect (gen : Gen) (a : Byte) (baud : Half) : opsSpaced cfg ready (connectOps cfg gen a baud) = true := by
  have hconfirm : opsSpaced cfg false (confirmingOps cfg ++ [.identityStart]) = true := by
    simp [confirmingOps, sendEchoOps, opsSpaced]
  have hsplit : connectOps cfg gen a baud = (.attemptStart gen :: addressingOps cfg a baud ++ [.keywordStart gen]) ++
      (confirmingOps cfg ++ [.identityStart]) := by simp [connectOps]
  rw [hsplit]
  exact opsSpaced_append hconfirm (opsSpaced_silent (by simp [addressingOps, frameOps, Op.sends, or_imp, forall_and]))

/-- Every byte that a line sends has its delay before it. -/
theorem Pushes.opsSpaced (h : Pushes cfg op ops) : Machine.opsSpaced cfg ready ops = true := by
  cases h with
  | complReply b | sendTerminator i L b => rw [← List.append_nil (sendEchoOps cfg b), opsSpaced_sendEcho]; rfl
  | lengthReply b | byteReply i b => rw [opsSpaced_sendEcho]; rfl
  | sendByte i L b => rw [sendComplOps, List.append_assoc, opsSpaced_sendEcho]; rfl
  | attemptRun a baud => exact opsSpaced_connect ..
  | keywordByte gen | keywordStart gen => cases gen <;> rfl
  | _ => exact opsSpaced_silent (by simp [Op.sends, sendAckOps, recvAckOps, recvBlockExpectOps, chunkOps])

/-- What follows an attempt of AUTOCONNECT waits for its own delay. -/
theorem opsSpaced_catchPoint {a : Byte} {later : List Op} : ∀ {todo : List Op} {ready : Bool},
    opsSpaced cfg ready todo = true → catchPoint todo = some (a, later) → opsSpaced cfg false later = true := by
  intro todo
  induction todo with
  | nil => exact fun _ hc => nomatch hc
  | cons op rest ih =>
    intro ready h hc
    rw [opsSpaced_cons, Bool.and_eq_true_iff] at h
    obtain ⟨-, hrest⟩ := h
    cases op with
    | attemptCatch b =>
      obtain ⟨-, rfl⟩ : b = a ∧ rest = later := by simpa [catchPoint] using hc
      exact hrest
    | _ => exact ih hrest hc

/-- What is left after a line, where the rest waits for its own delays. -/
theorem Leaves.opsSpaced {pc : Pc} (h : Leaves cfg c op rest pc) (hrest : Machine.opsSpaced cfg false rest = true) :
    Machine.opsSpaced cfg ready pc.todo = true := by
  cases h with
  | ended => rfl
  | pushed hp => exact opsSpaced_append hrest hp.opsSpaced
  | retried _ hc =>
    exact opsSpaced_append (ops := [.delay _, .attemptRun _, .attemptCatch _]) (opsSpaced_catchPoint hrest hc)
      (opsSpaced_silent (by simp [Op.sends]))

/-- The pseudocode that a command starts with has a delay before every byte it sends. -/
theorem opsSpaced_startOps (i : Instr) : opsSpaced s.cfg ready (startOps s i) = true := by
  cases i with
  | sendEcho b => exact Pushes.opsSpaced (.complReply b)
  | sendCompl b => rw [startOps, sendComplOps, opsSpaced_sendEcho]; rfl
  | connectA a baud | connectB a baud => exact opsSpaced_connect ..
  | wakeup a => exact opsSpaced_silent (by simp [startOps, frameOps, Op.sends, or_imp, forall_and])
  | _ => exact opsSpaced_silent (by simp [startOps, recvBlockExpectOps, Op.sends])

/-! ## The events -/

/-- Every `Send` among the events of `ENGINE` so far directly follows a delay of `INTERBYTE_MS`. -/
abbrev State.Spaced (s : State) : Prop := sendsSpaced s.cfg (engineEvents s.history) = true

theorem engineEvents_cons {e : Event} (he : e.byHost = false) (older : List Event) :
    engineEvents (e :: older) = e :: engineEvents older := by
  simp [engineEvents, he]

/-- An event of `ENGINE` other than a `Send` needs no delay before it. -/
theorem State.Spaced.event {e : Event} (h : s.Spaced) (hb : e.byHost = false) (he : ∀ b, e ≠ .send b) :
    (s.event e).Spaced := by
  show sendsSpaced s.cfg (engineEvents (e :: s.history)) = true
  rw [engineEvents_cons hb]
  cases e with
  | send b => exact absurd rfl (he b)
  | _ => exact h

theorem State.Spaced.raiseFatal (h : s.Spaced) (code : ErrCode) (x y : Byte) : (s.raiseFatal code x y).Spaced :=
  State.Spaced.event h (e := .fatal code x y) rfl nofun

theorem State.Spaced.storeByte (h : s.Spaced) (i : Nat) (b : Byte) : (s.storeByte i b).Spaced := by
  unfold State.storeByte
  split
  · exact h
  · exact State.Spaced.raiseFatal (s := s.storeRx i b) h ..

theorem State.Spaced.raiseTimeout (h : s.Spaced) : s.raiseTimeout.Spaced := by
  have ht : s.timedOut.Spaced := State.Spaced.event h (e := .timeout) rfl nofun
  unfold State.raiseTimeout
  split
  · exact ht
  · exact ht
  · split
    · exact ht
    · split <;> exact ht

theorem State.Spaced.received (h : s.Spaced) (use : RecvUse) (b : Byte) : (s.received use b).Spaced := by
  cases use with
  | echo sent => simp only [State.received]; split; exacts [h, State.Spaced.raiseFatal h ..]
  | complement sent => simp only [State.received]; split; exacts [h, State.Spaced.raiseFatal h ..]
  | last i => exact State.Spaced.storeByte h i b
  | keyword gen => simp only [State.received, State.keywordReceived]; split <;> exact h
  | plainResult | complResult | length | reply _ => exact h

/-- A line that sends nothing makes events that need no delay before them. -/
theorem State.Spaced.doOp (h : s.Spaced) (ho : op.sends = false) : (s.doOp op).Spaced := by
  cases op with
  | send _ => cases ho
  | configure baud =>
    exact State.Spaced.event (e := .configure baud)
      (s := { s with session := { s.session with baud := baud }, line := { s.line with baud := baud.toNat } }) h rfl nofun
  | lineAcquire =>
    exact State.Spaced.event (e := .lineAcquire) (s := { s with lineMode := .direct }) h rfl nofun
  | lineRelease =>
    exact State.Spaced.event (e := .lineRelease) (s := { s with lineMode := .transport }) h rfl nofun
  | lineHold _ _ | delay _ => exact State.Spaced.event h rfl nofun
  | recv use =>
    simp only [State.doOp, State.receive]
    split
    · exact h
    · rename_i b r _
      have hb := State.Spaced.event (s := { s with line := { s.line with rx := r } }) h (e := .recv b) rfl nofun
      exact State.Spaced.received hb use b
  | poll =>
    have hp := State.Spaced.event (s := { s with line := { s.line with polls := s.line.polls.tail } }) h
      (e := .poll s.line.pollAnswer) rfl nofun
    simp only [State.doOp, State.pollKeyword]
    split <;> exact hp
  | keywordStart gen => cases gen <;> exact h
  | keywordTick =>
    simp only [State.doOp, State.keywordTick]
    split
    · exact State.Spaced.raiseTimeout (s := { s with kwElapsed := s.kwElapsed + 1 }) h
    · exact h
  | fillTx bytes => rw [State.doOp, State.setTxAll_eq]; exact h
  | sendFrom i L => simp only [State.doOp]; split <;> exact h
  | storeLength b =>
    simp only [State.doOp, State.storeLength]
    split
    · exact h
    · exact State.Spaced.raiseFatal (s := s.storeRx 0 b) h ..
  | recvFrom i => simp only [State.doOp]; split_ifs <;> exact h
  | storeByte i b => exact State.Spaced.storeByte h i b
  | checkTitle title => simp only [State.doOp]; split; exacts [h, State.Spaced.raiseFatal h ..]
  | identityCheck =>
    simp only [State.doOp, State.identityCheck]
    split_ifs
    exacts [h, State.Spaced.raiseFatal h .., h, h]
  | identityNext => simp only [State.doOp, State.identityNext]; split <;> exact h
  | memLoop k => simp only [State.doOp]; split <;> exact h
  | appendPayload => rw [State.doOp, State.appendBytes_frame]; exact h
  | attemptStart _ | setState _ | sendBlock | recvBlock | identityStart | attemptRun _ | attemptCatch _ | memRead _ _ _
  | memAdvance _ | resultMemlen | resultPayload _ | resultMembuf _ => exact h

/-! ## The invariant -/

/-- The last event of `ENGINE` was a delay of `INTERBYTE_MS`. -/
abbrev State.readyToSend (s : State) : Bool :=
  decide ((engineEvents s.history).head? = some (.delay s.cfg.interbyteMs))

/-- A byte sent when the last event was its delay. -/
theorem State.Spaced.send (h : s.Spaced) (hr : s.readyToSend = true) (b : Byte) : (s.event (.send b)).Spaced := by
  obtain ⟨older, hold⟩ := List.head?_eq_some_iff.1 (of_decide_eq_true hr)
  show sendsSpaced s.cfg (engineEvents (.send b :: s.history)) = true
  rw [engineEvents_cons rfl]
  rw [State.Spaced, hold] at h
  rw [hold, sendsSpaced, decide_eq_true rfl, h]
  rfl

/-- After a delay the engine is ready to send exactly if it was one of `INTERBYTE_MS`. -/
theorem State.readyToSend_delay (ms : Nat) : (s.event (.delay ms)).readyToSend = decide (ms = s.cfg.interbyteMs) := by
  show decide ((engineEvents (.delay ms :: s.history)).head? = some (.delay s.cfg.interbyteMs)) = _
  rw [engineEvents_cons rfl]
  simp

/-- A line that the pseudocode left may begin with keeps the spacing. -/
theorem State.doOp_spacingInv (hh : s.Spaced) (hk : opsSpaced s.cfg s.readyToSend (op :: rest) = true) :
    ((s.goto c rest).doOp op).SpacingInv := by
  rw [opsSpaced_cons, Bool.and_eq_true_iff] at hk
  obtain ⟨hready, hrest⟩ := hk
  cases op with
  | send b => exact ⟨State.Spaced.send (s := s.goto c rest) hh hready b, opsSpaced_mono hrest⟩
  | delay ms =>
    refine ⟨State.Spaced.doOp (s := s.goto c rest) hh rfl, ?_⟩
    show opsSpaced s.cfg ((s.goto c rest).event (.delay ms)).readyToSend rest = true
    rw [State.readyToSend_delay]
    exact hrest
  | _ =>
    refine ⟨State.Spaced.doOp (s := s.goto c rest) hh rfl, ?_⟩
    rw [(State.doOp_sameHost (s.goto c rest) _).cfg]
    exact (State.doOp_pc (s := s.goto c rest) rfl _).opsSpaced hrest

theorem State.SpacingInv.tick (hc : s.canRun = true) (h : s.SpacingInv) : s.tick.SpacingInv := by
  obtain ⟨hh, hk⟩ := h
  rcases State.tick_cases hc with ⟨c, -, ht⟩ | ⟨c, op, rest, hpc, ht⟩
  · exact ht ▸ ⟨hh, rfl⟩
  · rw [hpc] at hk
    exact ht ▸ State.doOp_spacingInv hh hk

/-- A reset makes no event but the release of the line (R290). -/
theorem State.SpacingInv.hardReset (h : s.SpacingInv) : s.hardReset.SpacingInv := by
  refine ⟨?_, rfl⟩
  unfold State.hardReset
  cases s.lineMode with
  | transport => exact h.1
  | direct => exact State.Spaced.event h.1 (e := .lineRelease) rfl nofun

/-- Settles O58: a move of the engine does a line that the pseudocode left may begin with (`State.doOp_spacingInv`), every
command and every line that pushes others puts the delay before each byte it sends, and the outside sends nothing. -/
theorem stepKeepsSendsSpaced : Obligations.StepKeepsSendsSpaced := by
  intro s t hs h
  refine step_keeps (P := State.SpacingInv) h hs (fun _ hc h => h.tick hc) ?_ ?_ ?_ ?_ ?_ ?_ ?_ ?_
    (fun _ h => h.hardReset) ?_
  case refine_1 => exact fun s _ h => h
  case refine_2 => exact fun s _ _ h => h
  case refine_3 => exact fun s _ _ h => h
  case refine_4 => exact fun s _ h => h
  case refine_5 => exact fun s _ _ h => ⟨h.1, rfl⟩
  case refine_6 => exact fun s _ _ h => ⟨h.1, rfl⟩
  case refine_7 =>
    intro s i _ h
    have hh : ((startState s i).started.goto i (startOps s i)).Spaced := by cases i <;> exact h.1
    have hcfg : (startState s i).cfg = s.cfg := by cases i <;> rfl
    refine ⟨hh, ?_⟩
    show opsSpaced (startState s i).cfg _ (startOps s i) = true
    rw [hcfg]
    exact opsSpaced_startOps i
  case refine_8 => intro s offset w h; rw [State.writeWord_frame]; exact h
  case refine_9 => intro s b h; rw [State.arrive_frame]; exact h

end Sys2Proof.Machine

/-! # The codec's commands (rules R130 to R133, R264) -/

namespace Sys2Proof.Machine

variable {s u : State} {c : Instr} {ops : List Op} {b e : Byte} {r : List Byte}

/-- A launched command whose last line is a check: it completes OK, or ends FATAL (R21, R264). -/
theorem State.launch_checked {p : Prop} [Decidable p] {n : Nat} {code : ErrCode} {x y : Byte}
    (h : RunsIn n (s.started.goto c ops) (if p then u.goto c [] else u.raiseFatal code x y)) (hn : n ≤ 12) :
    s.launch c ops = if p then u.complete .ok else u.raiseFatal code x y := by
  have hb := s.frame_lt_burst
  split_ifs at h ⊢
  · exact State.launch_eq (h.trans RunsIn.done) (State.canRun_of_idle rfl) (by omega)
  · exact State.launch_eq h (State.canRun_of_idle rfl) (by omega)

/-- SEND_ECHO's run: one byte sent, its echo checked. -/
theorem State.launch_sendEcho (hu : s.undisturbed 3) (hrx : s.line.rx = e :: r) :
    s.launch c (sendEchoOps s.cfg b) =
      let t := s.started.past [.delay s.cfg.interbyteMs, .send b, .recv e] r
      if e = b then t.complete .ok else t.raiseFatal .echo b e := by
  have hsend := RunsIn.sendEchoTo (s := s.started) (c := c) (rest := []) (b := b) hu hrx rfl
  rw [List.append_nil] at hsend
  exact State.launch_checked hsend (by omega)

/-- Settles O18: the word's `OP` selects SEND_ECHO, whose run is `State.launch_sendEcho`. -/
theorem sendEchoChecksEcho : Obligations.SendEchoChecksEcho :=
  ⟨fun b y => by simp [decode], fun _ _ _ _ hu hrx => congrArg Host.Outcome.next (State.launch_sendEcho hu hrx)⟩

/-- SEND_COMPL's run where the echo is wrong: it ends before the complement is read. -/
theorem State.launch_sendCompl_echo (hu : s.undisturbed 3) (hrx : s.line.rx = e :: r) (he : e ≠ b) :
    s.launch c (sendComplOps s.cfg b) =
      (s.past [.delay s.cfg.interbyteMs, .send b, .recv e] r).raiseFatal .echo b e := by
  have hsend : RunsIn 3 (s.started.goto c (sendComplOps s.cfg b))
      ((s.past [.delay s.cfg.interbyteMs, .send b, .recv e] r).raiseFatal .echo b e) :=
    RunsIn.sendEchoTo (s := s.started) hu hrx (if_neg he)
  exact State.launch_eq hsend (State.canRun_of_idle rfl) (le_trans (by omega) s.frame_lt_burst)

/-- SEND_COMPL's run where the echo is right: the complement is checked. -/
theorem State.launch_sendCompl {k : Byte} (hu : s.undisturbed 4) (hrx : s.line.rx = b :: k :: r) :
    s.launch c (sendComplOps s.cfg b) =
      let t := s.started.past [.delay s.cfg.interbyteMs, .send b, .recv b, .recv k] r
      if k = compl b then t.complete .ok else t.raiseFatal .complement (compl b) k := by
  have hsend := RunsIn.sendEcho (s := s.started) (c := c) (rest := [.recv (.complement b)]) (hu.mono (by omega)) hrx
  have hcheck := RunsIn.recv (c := c) (use := .complement b) (rest := [])
    (State.undisturbed.past (s := s.started) (es := [.delay s.cfg.interbyteMs, .send b, .recv b]) (r := k :: r) hu) rfl rfl
  rw [State.past_past] at hcheck
  exact State.launch_checked (hsend.trans hcheck) (by omega)

/-- Settles O19: the word's `OP` selects SEND_COMPL, whose run ends at a wrong echo (`State.launch_sendCompl_echo`) or with
the check of the complement (`State.launch_sendCompl`). -/
theorem sendComplChecksComplement : Obligations.SendComplChecksComplement :=
  ⟨fun b y => by simp [decode], fun _ _ hu =>
    ⟨fun _ _ hrx he => congrArg Host.Outcome.next (State.launch_sendCompl_echo (hu.mono (by omega)) hrx he),
      fun _ _ hrx => congrArg Host.Outcome.next (State.launch_sendCompl hu hrx)⟩⟩

/-- RECV_PLAIN's run: one byte received, and left in `RESULT`. -/
theorem State.launch_recvPlain (hu : s.undisturbed 1) (hrx : s.line.rx = b :: r) :
    s.launch c [.recv .plainResult] = State.complete { s.past [.recv b] r with result := zextByte b } .ok := by
  have hrecv : RunsIn 1 (s.started.goto c [.recv .plainResult])
      (State.goto { s.started.past [.recv b] r with result := zextByte b } c []) := RunsIn.recv hu hrx rfl
  exact State.launch_eq (hrecv.trans RunsIn.done) (State.canRun_of_idle rfl) (le_trans (by omega) s.frame_lt_burst)

/-- Settles O20: the word's `OP` selects RECV_PLAIN, whose run is `State.launch_recvPlain`. -/
theorem recvPlainReturnsByte : Obligations.RecvPlainReturnsByte :=
  ⟨fun x y => by simp [decode], fun _ _ _ hu hrx => congrArg Host.Outcome.next (State.launch_recvPlain hu hrx)⟩

/-- RECV_COMPL's run: the byte is left in `RESULT` before the reply, whose echo is checked. -/
theorem State.launch_recvCompl (hu : s.undisturbed 4) (hrx : s.line.rx = b :: e :: r) :
    s.launch c [.recv .complResult] =
      let t := State.past { s.started with result := zextByte b }
        [.recv b, .delay s.cfg.interbyteMs, .send (compl b), .recv e] r
      if e = compl b then t.complete .ok else t.raiseFatal .echo (compl b) e := by
  have hrecv : RunsIn 1 (s.started.goto c [.recv .complResult])
      ((State.past { s.started with result := zextByte b } [.recv b] (e :: r)).goto c
        (sendEchoOps s.cfg (compl b) ++ [])) :=
    RunsIn.recv (hu.mono (by omega)) hrx rfl
  have hreply := RunsIn.sendEchoTo (c := c) (rest := []) (b := compl b)
    (s := State.past { s.started with result := zextByte b } [.recv b] (e :: r)) (State.undisturbed.past hu) rfl rfl
  rw [State.past_past] at hreply
  exact State.launch_checked (hrecv.trans hreply) (by omega)

/-- Settles O21: the word's `OP` selects RECV_COMPL, whose run is `State.launch_recvCompl`. -/
theorem recvComplKeepsResult : Obligations.RecvComplKeepsResult :=
  ⟨fun x y => by simp [decode], fun _ _ _ _ hu hrx => congrArg Host.Outcome.next (State.launch_recvCompl hu hrx)⟩

end Sys2Proof.Machine

/-! # Arguments out of range, and blocks sent (rules R150 to R152, R264, R267) -/

namespace Sys2Proof.Machine

variable {s t u : State} {c : Instr} {rest : List Op} {b k e l : Byte} {r : List Byte}

/-! ## Arguments out of range (R267) -/

/-- SEND_BLOCK's check of its length (R150). -/
theorem sendLengthOk_iff {cfg : Config} : sendLengthOk cfg l = true ↔ 3 ≤ l.toNat ∧ l.toNat + 1 ≤ cfg.maxBlock := by
  simp [sendLengthOk]

theorem exec_sendBlock_rejects (h : ¬ (3 ≤ (s.txByte 0).toNat ∧ (s.txByte 0).toNat + 1 ≤ s.cfg.maxBlock)) :
    exec .sendBlock s = .next (s.reject .badArg) :=
  congrArg Host.Outcome.next (if_neg (mt sendLengthOk_iff.1 h))

theorem exec_sendBlock_launches (h3 : 3 ≤ (s.txByte 0).toNat) (hmax : (s.txByte 0).toNat + 1 ≤ s.cfg.maxBlock) :
    exec .sendBlock s = .next (s.launch .sendBlock [.sendBlock]) :=
  congrArg Host.Outcome.next (if_pos (sendLengthOk_iff.2 ⟨h3, hmax⟩))

/-- In Ready, a memory read of more than `MEMBUF` holds is rejected (R223). -/
theorem State.readMem_rejects {kind : MemKind} {start : Half} (hready : s.status.state = .ready)
    (hsize : s.cfg.membufBytes < s.arg0.toNat) : s.readMem c kind start = s.reject .badArg :=
  (State.whenReady_ready hready _).trans (if_pos hsize)

/-- Settles O44: each command tests its argument before it launches anything. -/
theorem badArgumentRejected : Obligations.BadArgumentRejected := by
  refine fun s => ⟨fun h => exec_sendBlock_rejects (by omega), fun a => ⟨rfl, rfl⟩, fun start hready hsize => ?_⟩
  have hrejects : ∀ c kind, s.readMem c kind start = s.reject .badArg := fun _ _ => State.readMem_rejects hready hsize
  exact ⟨congrArg Host.Outcome.next (hrejects _ _), congrArg Host.Outcome.next (hrejects _ _),
    congrArg Host.Outcome.next (hrejects _ _)⟩

/-! ## SEND_BLOCK on a correct line (R150 to R152) -/

/-- SEND_BLOCK's run on a correct line. -/
theorem State.launch_sendBlock (hu : s.undisturbed (sentEvents s.cfg s.outgoing).length)
    (hrx : s.line.rx = exchange s.outgoing ++ r) : s.launch c [.sendBlock] = (s.sent r).complete .ok := by
  have hsend := RunsIn.sendBlock (s := s.started) (c := c) (rest := []) hu hrx
  have hroom : 5 * (s.txByte 0).toNat + 5 + 1 ≤ s.burst := by
    have hburst := State.burst_ge (s := s)
    have hlen := length_le_exchange s.outgoing
    rw [hrx, List.length_append] at hburst
    rw [State.outgoing_length] at hlen
    omega
  exact State.launch_eq (hsend.trans RunsIn.done) (State.canRun_of_idle rfl) hroom

/-- Settles O24: an admitted length launches the block (`exec_sendBlock_launches`), whose run is `State.launch_sendBlock`. -/
theorem sendBlockCompletes : Obligations.SendBlockCompletes := fun _ _ h3 hmax hu hrx =>
  (exec_sendBlock_launches h3 hmax).trans (congrArg Host.Outcome.next (State.launch_sendBlock hu hrx))

/-- Settles O25: the state that SEND_BLOCK leaves is `State.sent`, whose windows are `State.sent_txByte_counter`,
`State.sent_txByte_last` and `State.sent_windowByte_other`. -/
theorem sendBlockFillsPlaceholders : Obligations.SendBlockFillsPlaceholders := by
  intro s r _ h3 hmax hu hrx
  have hcounter : (s.sent r).windowByte (txBase + 1) = s.session.counter + 1 := by
    rw [State.windowByte_tx (by rw [State.sent_cfg]; omega) (by decide), State.sent_txByte_counter r (by omega)]
  have hlast : (s.sent r).windowByte (txBase + (s.txByte 0).toNat) = terminator := by
    rw [State.windowByte_tx (by rw [State.sent_cfg]; omega) (s.txByte 0).isLt, State.sent_txByte_last]
  exact ⟨_, sendBlockCompletes s r h3 hmax hu hrx, hcounter, hlast, fun _ => State.sent_windowByte_other r,
    State.sent_session r, by rw [State.complete_status, State.sent_status], rfl, rfl⟩

/-! ## SEND_BLOCK when an answer is wrong (R150, R264) -/

/-- The events of sending bytes that are each answered with their echo and their complement (R131). -/
def complEvents (cfg : Config) (bytes : List Byte) : List Event :=
  bytes.flatMap fun b => [.delay cfg.interbyteMs, .send b, .recv b, .recv (compl b)]

/-- What a correct line answers to them (R131). -/
def complAnswers (bytes : List Byte) : List Byte := bytes.flatMap fun b => [b, compl b]

theorem complEvents_length (cfg : Config) (bytes : List Byte) : (complEvents cfg bytes).length = 4 * bytes.length := by
  simp [complEvents, List.length_flatMap, Nat.mul_comm]

theorem complAnswers_length (bytes : List Byte) : (complAnswers bytes).length = 2 * bytes.length := by
  simp [complAnswers, List.length_flatMap, Nat.mul_comm]

/-- The first `i` bytes of `TXBUF`. -/
def State.txBytes (s : State) (i : Nat) : List Byte := (List.range i).map s.txByte

theorem State.txBytes_length (i : Nat) : (s.txBytes i).length = i := by simp [State.txBytes]

theorem State.txBytes_succ (i : Nat) : s.txBytes (i + 1) = s.txBytes i ++ [s.txByte i] := by
  simp [State.txBytes, List.range_succ]

/-- A byte of the block before its last is sent with its complement awaited. -/
theorem RunsIn.sendFrom_compl {i L : Nat} (hi : i < L) : RunsIn 1 (s.goto c (.sendFrom i L :: rest))
    (s.goto c (sendComplOps s.cfg (s.txByte i) ++ .sendFrom (i + 1) L :: rest)) :=
  RunsIn.silent rfl ((if_pos hi).trans (by rw [State.goto_push, List.append_assoc]; rfl))

/-- Every byte of the block, its last too, is sent with its echo awaited. -/
theorem RunsIn.sendFrom_echo {i L : Nat} (hi : i ≤ L) : ∃ later, RunsIn 1 (s.goto c (.sendFrom i L :: rest))
    (s.goto c (sendEchoOps s.cfg (s.txByte i) ++ later)) := by
  rcases Nat.lt_or_eq_of_le hi with hlt | rfl
  · refine ⟨.recv (.complement (s.txByte i)) :: .sendFrom (i + 1) L :: rest, ?_⟩
    have hsend := RunsIn.sendFrom_compl (s := s) (c := c) (rest := rest) hlt
    rwa [sendComplOps, List.append_assoc] at hsend
  · exact ⟨rest, RunsIn.silent rfl (if_neg (Nat.lt_irrefl i))⟩

/-- The block's first `i` bytes make `4 * i` events. -/
theorem State.undisturbed.past_complEvents {i n : Nat} (hu : s.undisturbed (4 * i + n)) (r : List Byte) :
    (s.past (complEvents s.cfg (s.txBytes i)) r).undisturbed n :=
  State.undisturbed.past (by rwa [complEvents_length, State.txBytes_length])

/-- The block's first `i` bytes, all answered rightly. -/
theorem RunsIn.sendFirst {i L : Nat} : ∀ {r : List Byte}, i ≤ L → s.undisturbed (4 * i) →
    s.line.rx = complAnswers (s.txBytes i) ++ r →
    RunsIn (5 * i) (s.goto c (.sendFrom 0 L :: rest))
      ((s.past (complEvents s.cfg (s.txBytes i)) r).goto c (.sendFrom i L :: rest)) := by
  induction i with
  | zero =>
    intro r _ _ hrx
    obtain rfl : s.line.rx = r := hrx
    have hpast : s.past (complEvents s.cfg (s.txBytes 0)) s.line.rx = s := State.past_nil
    rw [hpast]
    exact RunsIn.refl _
  | succ i ih =>
    intro r hi hu hrx
    have hanswers : complAnswers (s.txBytes (i + 1)) = complAnswers (s.txBytes i) ++ [s.txByte i, compl (s.txByte i)] := by
      simp [complAnswers, State.txBytes_succ]
    have hevents : complEvents s.cfg (s.txBytes (i + 1)) = complEvents s.cfg (s.txBytes i) ++
        [.delay s.cfg.interbyteMs, .send (s.txByte i), .recv (s.txByte i), .recv (compl (s.txByte i))] := by
      simp [complEvents, State.txBytes_succ]
    rw [hanswers, List.append_assoc] at hrx
    have hfirst := ih (by omega) (hu.mono (by omega)) hrx
    have hopen := RunsIn.sendFrom_compl (c := c) (rest := rest) (L := L)
      (s := s.past (complEvents s.cfg (s.txBytes i)) ([s.txByte i, compl (s.txByte i)] ++ r)) hi
    have hbyte := RunsIn.sendCompl (c := c) (rest := .sendFrom (i + 1) L :: rest) (b := s.txByte i)
      (s := s.past (complEvents s.cfg (s.txBytes i)) ([s.txByte i, compl (s.txByte i)] ++ r))
      (State.undisturbed.past_complEvents hu _) rfl
    rw [State.past_past, State.past_cfg, ← hevents] at hbyte
    rw [State.past_txByte, State.past_cfg] at hopen
    exact (hfirst.trans hopen).trans hbyte

/-- A byte whose complement may be wrong (R131). -/
theorem RunsIn.sendComplTo (hu : s.undisturbed 4) (hrx : s.line.rx = b :: k :: r)
    (h : ((s.past [.delay s.cfg.interbyteMs, .send b, .recv b, .recv k] r).goto c rest).received (.complement b) k = t) :
    RunsIn 4 (s.goto c (sendComplOps s.cfg b ++ rest)) t := by
  have hsend := RunsIn.sendEcho (c := c) (rest := .recv (.complement b) :: rest) (hu.mono (by omega)) hrx
  have hcheck := RunsIn.recv (c := c) (use := .complement b) (rest := rest) (t := t)
    (State.undisturbed.past (s := s) (es := [.delay s.cfg.interbyteMs, .send b, .recv b]) (r := k :: r) hu) rfl
    (by rw [State.past_past]; exact h)
  rw [sendComplOps, List.append_assoc]
  exact hsend.trans hcheck

/-- SEND_BLOCK's run up to byte `i`, the bytes before it answered rightly, and then to an end that comes within five
moves. -/
theorem State.launch_sendBlock_to {i m : Nat} (hopen : u = s.openBlock (s.txByte 0)) (hi : i ≤ (s.txByte 0).toNat)
    (hu : s.undisturbed (4 * i)) (hrx : s.line.rx = complAnswers (u.txBytes i) ++ r)
    (hend : RunsIn m ((u.started.past (complEvents s.cfg (u.txBytes i)) r).goto c [.sendFrom i (s.txByte 0).toNat]) t)
    (hm : m ≤ 5) (ht : t.pc = .idle) : s.launch c [.sendBlock] = t := by
  subst hopen
  have hopens : RunsIn 1 (s.started.goto c [.sendBlock])
      ((s.openBlock (s.txByte 0)).started.goto c [.sendFrom 0 (s.txByte 0).toNat]) := RunsIn.silent rfl rfl
  have hfirst := RunsIn.sendFirst (s := (s.openBlock (s.txByte 0)).started) (c := c) (rest := []) hi hu hrx
  have hroom : 1 + 5 * i + m ≤ s.burst := by
    have hburst := State.burst_ge (s := s)
    rw [hrx, List.length_append, complAnswers_length, State.txBytes_length] at hburst
    omega
  exact State.launch_eq ((hopens.trans hfirst).trans hend) (State.canRun_of_idle ht) hroom

/-- SEND_BLOCK's run where byte `i` has the wrong echo. -/
theorem State.launch_sendBlock_echo {i : Nat} (hopen : u = s.openBlock (s.txByte 0)) (hi : i ≤ (s.txByte 0).toNat)
    (hu : s.undisturbed (4 * (i + 1))) (hrx : s.line.rx = complAnswers (u.txBytes i) ++ e :: r) (he : e ≠ u.txByte i) :
    s.launch c [.sendBlock] = (u.past (complEvents s.cfg (u.txBytes i) ++
      [.delay s.cfg.interbyteMs, .send (u.txByte i), .recv e]) r).raiseFatal .echo (u.txByte i) e := by
  subst hopen
  set u := s.openBlock (s.txByte 0)
  have hnow : (u.started.past (complEvents s.cfg (u.txBytes i)) (e :: r)).undisturbed 3 :=
    State.undisturbed.past_complEvents (s := u.started) (State.undisturbed.mono (s := s) hu (by omega)) _
  obtain ⟨later, hbyte⟩ := RunsIn.sendFrom_echo (s := u.started.past (complEvents s.cfg (u.txBytes i)) (e :: r)) (c := c)
    (rest := []) hi
  have hecho := RunsIn.sendEchoTo (c := c) (rest := later) (b := u.txByte i) hnow rfl (if_neg he)
  rw [State.past_past] at hecho
  exact State.launch_sendBlock_to rfl hi (hu.mono (by omega)) hrx (hbyte.trans hecho) (by omega) rfl

/-- SEND_BLOCK's run where byte `i`, not the last, has the wrong complement. -/
theorem State.launch_sendBlock_compl {i : Nat} (hopen : u = s.openBlock (s.txByte 0)) (hi : i < (s.txByte 0).toNat)
    (hu : s.undisturbed (4 * (i + 1))) (hrx : s.line.rx = complAnswers (u.txBytes i) ++ u.txByte i :: k :: r)
    (hk : k ≠ compl (u.txByte i)) :
    s.launch c [.sendBlock] = (u.past (complEvents s.cfg (u.txBytes i) ++
      [.delay s.cfg.interbyteMs, .send (u.txByte i), .recv (u.txByte i), .recv k]) r).raiseFatal .complement
        (compl (u.txByte i)) k := by
  subst hopen
  set u := s.openBlock (s.txByte 0)
  have hnow : (u.started.past (complEvents s.cfg (u.txBytes i)) (u.txByte i :: k :: r)).undisturbed 4 :=
    State.undisturbed.past_complEvents (s := u.started) (State.undisturbed.mono (s := s) hu (by omega)) _
  have hbyte := RunsIn.sendFrom_compl (s := u.started.past (complEvents s.cfg (u.txBytes i)) (u.txByte i :: k :: r)) (c := c)
    (rest := []) hi
  have hcompl := RunsIn.sendComplTo (c := c) (rest := [.sendFrom (i + 1) (s.txByte 0).toNat]) hnow rfl (if_neg hk)
  rw [State.past_past] at hcompl
  exact State.launch_sendBlock_to rfl hi.le (hu.mono (by omega)) hrx (hbyte.trans hcompl) (by omega) rfl

/-- The block that SEND_BLOCK sends is the opened `TXBUF`, byte by byte. -/
theorem State.outgoing_getD {i : Nat} (hi : i ≤ (s.txByte 0).toNat) :
    s.outgoing.getD i 0 = (s.openBlock (s.txByte 0)).txByte i := by
  simp [State.outgoing, List.getD_eq_getElem?_getD, List.getElem?_range (Nat.lt_succ_of_le hi)]

theorem State.outgoing_take {i : Nat} (hi : i ≤ (s.txByte 0).toNat) :
    s.outgoing.take i = (s.openBlock (s.txByte 0)).txBytes i := by
  rw [State.outgoing, ← List.map_take, List.take_range, Nat.min_eq_left (by omega), State.txBytes]

/-- Settles O26: the run up to the wrong answer is `State.launch_sendBlock_echo` or `State.launch_sendBlock_compl`. -/
theorem sendBlockStopsAtWrongAnswer : Obligations.SendBlockStopsAtWrongAnswer := by
  intro s i r h3 hmax hu b earlier answers
  refine ⟨fun e hi he hrx => ?_, fun k hi hk hrx => ?_⟩
  · simp only [b, earlier, answers, State.outgoing_getD hi, State.outgoing_take hi] at he hrx ⊢
    exact (exec_sendBlock_launches h3 hmax).trans (congrArg Host.Outcome.next (State.launch_sendBlock_echo rfl hi hu hrx he))
  · simp only [b, earlier, answers, State.outgoing_getD hi.le, State.outgoing_take hi.le] at hk hrx ⊢
    exact (exec_sendBlock_launches h3 hmax).trans
      (congrArg Host.Outcome.next (State.launch_sendBlock_compl rfl hi hu hrx hk))

end Sys2Proof.Machine

/-! # Blocks received (rules R154 to R160) -/

namespace Sys2Proof.Machine

variable {s t : State} {c : Instr} {rest : List Op} {b : Block} {x l title : Byte} {r : List Byte}

/-! ## RECV_BLOCK on a correct line (R154, R157) -/

theorem State.Hears.length_lt (h : s.Hears b.1 b.2) : b.2.length < 256 := h.counted ▸ b.1.isLt

/-- A reception on a correct line that then ends within three moves. -/
theorem State.launch_recvBlock_to {m : Nat} (hb : s.Hears b.1 b.2) (hu : s.undisturbed (b.eventsHeard s.cfg).length)
    (hrx : s.line.rx = b.answersHeard ++ r) (hend : RunsIn m ((s.heard b.1 b.2 r).started.goto c rest) t) (hm : m ≤ 3)
    (ht : t.pc = .idle) : s.launch c (.recvBlock :: rest) = t := by
  obtain ⟨hcounted, hfits, hcounter⟩ := hb
  obtain ⟨n, hn, hrecv⟩ :=
    RunsIn.recvBlock (s := s.started) (c := c) (rest := rest) ⟨hcounted, hfits, hcounter⟩ hu hrx
  have hroom : n + m ≤ s.burst := by
    have hburst := State.burst_ge (s := s)
    have hlen := length_le_heardAnswers b.1 b.2
    rw [hrx, List.length_append, Block.answersHeard] at hburst
    omega
  exact State.launch_eq (hrecv.trans hend) (State.canRun_of_idle ht) hroom

/-- Settles O27: the reception leaves nothing to do. -/
theorem recvBlockCompletes : Obligations.RecvBlockCompletes := fun _ _ _ hb hu hrx =>
  congrArg Host.Outcome.next (State.launch_recvBlock_to hb hu hrx RunsIn.done (by decide) rfl)

/-- Settles O28: the state that RECV_BLOCK leaves is `State.heard`, whose windows are `State.heard_rxByte`,
`State.heard_rxByte_beyond` and `State.heard_windowByte_elsewhere`. -/
theorem recvBlockStoresBytes : Obligations.RecvBlockStoresBytes := by
  intro s b r _ hb hu hrx
  have hreceived : ∀ i < b.bytes.length, (s.heard b.1 b.2 r).rxByte i = b.bytes.getD i 0 :=
    fun _ => State.heard_rxByte hb.length_lt
  have hbeyond : ∀ i, b.bytes.length ≤ i → (s.heard b.1 b.2 r).rxByte i = Config.freeByte .rx s.nextMark i :=
    fun _ => State.heard_rxByte_beyond
  have helsewhere : ∀ a, a < rxBase ∨ rxBase + windowBytes ≤ a → (s.heard b.1 b.2 r).windowByte a = s.windowByte a :=
    fun _ => State.heard_windowByte_elsewhere hb.length_lt
  exact ⟨_, recvBlockCompletes s b r hb hu hrx, hreceived, hbeyond, rfl, rfl, helsewhere, rfl, rfl, rfl⟩

/-- Settles O31: after the reception the title is compared, which ends the command FATAL or leaves nothing to do. -/
theorem recvBlockExpectChecksTitle : Obligations.RecvBlockExpectChecksTitle := by
  intro s title b r hb hu hrx
  refine congrArg Host.Outcome.next (a₁ := s.launch _ [.recvBlock, .checkTitle title]) ?_
  dsimp only
  split_ifs with htitle
  · have hcheck := RunsIn.checkTitle (s := (s.heard b.1 b.2 r).started) (c := .recvBlockExpect title) (rest := []) htitle
    exact State.launch_recvBlock_to hb hu hrx (hcheck.trans RunsIn.done) (by decide) rfl
  · have hcheck := RunsIn.checkTitle_wrong (s := (s.heard b.1 b.2 r).started) (c := .recvBlockExpect title) (rest := [])
      htitle
    exact State.launch_recvBlock_to hb hu hrx hcheck (by decide) rfl

/-! ## A block sent and looped back (R160) -/

/-- The bytes of a sent block after its length byte, with counter `k` in place of the one sent. -/
def State.returned (s : State) (k : Byte) : List Byte := (s.outgoing.drop 1).set 0 k

theorem State.returned_length (k : Byte) : (s.returned k).length = (s.txByte 0).toNat := by
  simp [State.returned, State.outgoing_length]

theorem State.returned_eq_cons {k : Byte} (h : (s.txByte 0).toNat ≠ 0) : ∃ later, s.returned k = k :: later := by
  cases hret : s.returned k with
  | nil => exact absurd (hret ▸ s.returned_length k).symm h
  | cons x later =>
    have hk : (s.returned k)[0]? = some k := by
      rw [State.returned, List.getElem?_set_self (by simp [State.outgoing_length]; omega)]
    rw [hret] at hk
    exact ⟨later, by simpa using hk⟩

/-- But for its counter and its last byte, the block comes back as it stands in `TXBUF`. -/
theorem State.returned_getD {k : Byte} {i : Nat} (h1 : i ≠ 1) (hi : i < (s.txByte 0).toNat) :
    (s.txByte 0 :: s.returned k).getD i 0 = s.txByte i := by
  cases i with
  | zero => rfl
  | succ i =>
    rw [List.getD_cons_succ, State.returned, List.getD_eq_getElem?_getD, List.getElem?_set_ne (by omega), List.getElem?_drop,
      ← List.getD_eq_getElem?_getD, Nat.add_comm 1 i, State.outgoing_getD hi.le, State.openBlock_mem_txByte _ _ [] rfl,
      State.sent_txByte_other [] h1 (by omega)]

/-- Settles O33: the block that comes back is one that the engine hears after it has sent it. -/
theorem loopBackReproducesBlock : Obligations.LoopBackReproducesBlock := by
  intro s k r _ h3 hmax hinputs hcounter hrx
  obtain ⟨later, hret⟩ := s.returned_eq_cons (k := k) (by omega)
  have hquiet : ∀ {u : State} {n : Nat}, u.inputs = elapse n s.inputs → ∀ m, u.undisturbed m := by
    intro u n hi m
    simp [State.undisturbed, hi, hinputs, elapse]
  set t := (s.sent (heardAnswers (s.txByte 0) (s.returned k) ++ r)).complete .ok
  have hsent : exec .sendBlock s = .next t :=
    sendBlockCompletes s _ h3 hmax (hquiet (n := 0) (elapse_zero _).symm _) (by rw [hrx, List.append_assoc]; rfl)
  have hsession : t.session = s.session.sent := rfl
  have hears : t.Hears (s.txByte 0) (s.returned k) := by
    refine ⟨s.returned_length k, hmax, ?_⟩
    rw [hsession, hret]
    rcases hcounter with hfirst | rfl
    · exact .inl hfirst
    · exact .inr (by rw [Session.sent, BitVec.add_assoc]; rfl)
  have hheard := recvBlockCompletes t (s.txByte 0, s.returned k) r hears (hquiet rfl _) rfl
  have hbytes : ∀ i, i ≠ 1 → i < (s.txByte 0).toNat →
      ((t.heard (s.txByte 0) (s.returned k) r).complete .ok).rxByte i = s.txByte i := by
    intro i h1 hi
    have hlen := s.returned_length k
    rw [State.complete_rxByte, State.heard_rxByte (hlen ▸ (s.txByte 0).isLt) (by omega), State.returned_getD h1 hi]
  refine ⟨t, _, hsent, rfl, ?_, hheard, rfl, ?_, ?_, hbytes 0 (by decide) (by omega), hbytes 2 (by decide) (by omega),
    fun i hi => hbytes i (by omega), ?_, rfl⟩
  · rw [hsession, Session.sent]
  · rw [State.complete_session, State.heard_session, hret, Session.heard]
  · rw [State.complete_session, State.heard_session, hret, Session.heard]
  · rw [State.complete_rxcount, State.heard_rxcount, State.returned_length]

/-! ## A reception that is cut short (R155, R156) -/

/-- The start of a reception: the length byte is received and answered, and is to be stored. -/
theorem RunsIn.recvLengthByte (hu : s.undisturbed 4) (hrx : s.line.rx = l :: compl l :: r) :
    RunsIn 5 (s.goto c (.recvBlock :: rest))
      ((s.startReception.past (lengthEvents s.cfg l) r).goto c (.storeLength l :: rest)) := by
  have hstart : RunsIn 1 (s.goto c (.recvBlock :: rest)) (s.startReception.goto c (.recv .length :: rest)) :=
    RunsIn.silent rfl rfl
  exact hstart.trans (RunsIn.recvCompl (ops := [.storeLength l]) (fun _ => rfl) hu hrx)

/-- A length byte that claims too much (R155). -/
theorem State.storeLength_overflows (h : s.cfg.maxBlock < l.toNat + 1) :
    s.storeLength l = (s.storeRx 0 l).raiseFatal .overflow (sizeExpected s.cfg) l :=
  if_neg (by simpa [sizeFits] using h)

/-- Settles O29: the length byte is answered (`RunsIn.recvLengthByte`), and its storing ends the reception. -/
theorem oversizedBlockOverflows : Obligations.OversizedBlockOverflows := by
  intro s l r hl hu hrx
  have hbyte := RunsIn.recvLengthByte (s := s.started) (c := .recvBlock) (rest := []) hu hrx
  have hstore := RunsIn.silent (c := .recvBlock) (rest := []) (op := .storeLength l)
    (s := s.started.startReception.past (lengthEvents s.cfg l) r) rfl (State.storeLength_overflows hl)
  exact congrArg Host.Outcome.next
    (State.launch_eq (hbyte.trans hstore) (State.canRun_of_idle rfl) (le_trans (by decide) s.frame_lt_burst))

/-- The first counter byte of a session is its baseline (R156). -/
theorem checkCounter_first {t : Session} (h : t.firstSeen = false) :
    checkCounter t x = .ok { t with counter := x, firstSeen := true } := if_pos h

/-- A later counter byte that is the next one is accepted (R156). -/
theorem checkCounter_next {t : Session} (h : t.firstSeen = true) (hx : x = t.counter + 1) :
    checkCounter t x = .ok { t with counter := x } := by
  rw [checkCounter, if_neg (by simp [h]), if_pos hx]

/-- A later counter byte that is not the next one is not accepted (R156). -/
theorem checkCounter_rejects {t : Session} (h : t.firstSeen = true) (hx : x ≠ t.counter + 1) :
    checkCounter t x = .error (t.counter + 1) := by
  rw [checkCounter, if_neg (by simp [h]), if_neg hx]

theorem State.storeByte_rejects (h : s.session.firstSeen = true) (hx : x ≠ s.session.counter + 1) :
    s.storeByte 1 x = (s.storeRx 1 x).raiseFatal .counter (s.session.counter + 1) x := by
  rw [State.storeByte, if_pos rfl, checkCounter_rejects h hx]

/-- A reception on a correct line up to its second byte, and then to an end that comes within six moves. -/
theorem State.launch_recvBlock_second {m : Nat} (hl : l.toNat + 1 ≤ s.cfg.maxBlock) (hu : s.undisturbed 4)
    (hrx : s.line.rx = l :: compl l :: r)
    (hend : RunsIn m (((s.started.startReception.storedLength l).past (lengthEvents s.cfg l) r).goto c [.recvFrom 1]) t)
    (hm : m ≤ 6) (ht : t.pc = .idle) : s.launch c [.recvBlock] = t :=
  State.launch_eq ((RunsIn.recvLength (s := s.started) hl hu hrx).trans hend) (State.canRun_of_idle ht)
    (le_trans (by omega) s.frame_lt_burst)

/-- More than one byte is to come: the next is answered with its complement (R154). -/
theorem RunsIn.recvFrom_reply {i : Nat} (h : 2 ≤ s.rxRemaining.toNat) :
    RunsIn 1 (s.goto c (.recvFrom i :: rest)) (s.goto c (.recv (.reply i) :: rest)) := by
  have h0 : s.rxRemaining ≠ 0 := fun h0 => by rw [h0] at h; exact absurd h (by decide)
  have h1 : s.rxRemaining ≠ 1 := fun h1 => by rw [h1] at h; exact absurd h (by decide)
  exact RunsIn.silent rfl ((if_neg h0).trans (if_neg h1))

/-- One byte is to come: it is the last (R154). -/
theorem RunsIn.recvFrom_last {i : Nat} (h : s.rxRemaining = 1) :
    RunsIn 1 (s.goto c (.recvFrom i :: rest)) (s.goto c (.recv (.last i) :: rest)) :=
  RunsIn.silent rfl ((if_neg (show ¬ s.rxRemaining = 0 by rw [h]; decide)).trans (if_pos h))

/-- A wrong counter that is not the block's last byte ends the reception after its reply, whose events are those of the
length byte's (R154, R156). -/
theorem State.launch_recvBlock_counter {u : State} (hstored : u = s.startReception.storedLength l)
    (hl : l.toNat + 1 ≤ s.cfg.maxBlock) (h2 : 2 ≤ l.toNat) (hseen : s.session.firstSeen = true)
    (hx : x ≠ s.session.counter + 1) (hu : s.undisturbed 8) (hrx : s.line.rx = l :: compl l :: x :: compl x :: r) :
    s.launch c [.recvBlock] = ((u.storeRx 1 x).past (lengthEvents s.cfg l ++ lengthEvents s.cfg x) r).raiseFatal .counter
      (s.session.counter + 1) x := by
  subst hstored
  set v := s.started.startReception.storedLength l
  set u := v.past (lengthEvents s.cfg l) (x :: compl x :: r)
  have hnow : u.undisturbed 4 := State.undisturbed.past (s := v) hu
  have hreply := RunsIn.recvFrom_reply (s := u) (c := c) (rest := []) (i := 1) h2
  have hbyte := RunsIn.recvCompl (s := u) (c := c) (use := .reply 1) (ops := [.storeByte 1 x]) (rest := [])
    (fun _ => rfl) hnow rfl
  have hstore := RunsIn.silent (c := c) (rest := []) (op := .storeByte 1 x)
    (s := v.past (lengthEvents s.cfg l ++ lengthEvents s.cfg x) r) rfl (State.storeByte_rejects hseen hx)
  rw [State.past_past] at hbyte
  have hend := (hreply.trans hbyte).trans hstore
  exact State.launch_recvBlock_second hl (hu.mono (by decide)) hrx hend (by decide) rfl

/-- A wrong counter that is the block's last byte ends the reception without a reply (R154, R156). -/
theorem State.launch_recvBlock_lastCounter {u : State} (hstored : u = s.startReception.storedLength 1)
    (hl : (1 : Byte).toNat + 1 ≤ s.cfg.maxBlock) (hseen : s.session.firstSeen = true) (hx : x ≠ s.session.counter + 1)
    (hu : s.undisturbed 5) (hrx : s.line.rx = 1 :: compl 1 :: x :: r) :
    s.launch c [.recvBlock] = ((u.storeRx 1 x).past (lengthEvents s.cfg 1 ++ [.recv x]) r).raiseFatal .counter
      (s.session.counter + 1) x := by
  subst hstored
  set u := (s.started.startReception.storedLength 1).past (lengthEvents s.cfg 1) (x :: r)
  have hnow : u.undisturbed 1 := State.undisturbed.past (s := s.started.startReception.storedLength 1) hu
  have hlast := RunsIn.recvFrom_last (s := u) (c := c) (rest := []) (i := 1) rfl
  have hbyte := RunsIn.recv (s := u) (c := c) (use := .last 1) (rest := []) hnow rfl
    (State.storeByte_rejects (s := (u.past [.recv x] r).goto c []) hseen hx)
  rw [State.past_past] at hbyte
  exact State.launch_recvBlock_second hl (hu.mono (by decide)) hrx (hlast.trans hbyte) (by decide) rfl

/-- Settles O30: the check accepts the baseline and the next counter, and any other ends the reception
(`State.launch_recvBlock_counter`, `State.launch_recvBlock_lastCounter`). -/
theorem counterContinuity : Obligations.CounterContinuity := by
  refine ⟨fun _ _ => checkCounter_first, fun _ _ => checkCounter_next, fun s l x r hl hseen hx hu => ⟨?_, ?_⟩⟩
  · exact fun h2 hrx => congrArg Host.Outcome.next (State.launch_recvBlock_counter rfl hl h2 hseen hx hu hrx)
  · rintro rfl hrx
    exact congrArg Host.Outcome.next (State.launch_recvBlock_lastCounter rfl hl hseen hx (hu.mono (by omega)) hrx)

end Sys2Proof.Machine

/-! # The end of a session, and the keyword matcher (rules R183, R196) -/

namespace Sys2Proof.Machine

variable {s : State}

/-- Settles O43: DISCONNECT is one line of pseudocode that makes no event. -/
theorem disconnectEndsSession : Obligations.DisconnectEndsSession := by
  refine ⟨fun x y => by simp [decode], fun s => ?_⟩
  have hset : RunsIn 1 (s.started.goto .disconnect [.setState .disconnected])
      ((s.started.setSession .disconnected).goto .disconnect []) := RunsIn.silent rfl rfl
  exact congrArg Host.Outcome.next
    (State.launch_eq (hset.trans RunsIn.done) (State.canRun_of_idle rfl) (le_trans (by decide) s.frame_lt_burst))

/-- The keyword sequence (R91). -/
def keyword : List Byte := [0x55, 0x01, 0x8A]

theorem keywordByte_eq (pos : Fin 4) : keywordByte pos = keyword[pos.val]? := by
  revert pos; decide

/-- A byte that matches is the next of the keyword (R183). -/
theorem keywordStep_of_match {pos : Fin 4} {b : Byte} (h : keywordByte pos = some b) :
    keyword.take (keywordStep pos b).val = keyword.take pos.val ++ [b] := by
  have hlt : pos.val < 3 := by
    by_contra hge
    rw [keywordByte_eq, List.getElem?_eq_none (by simp [keyword]; omega)] at h
    cases h
  have hval : (pos + 1).val = pos.val + 1 := by rw [Fin.val_add]; exact Nat.mod_eq_of_lt (by omega)
  rw [keywordStep, if_pos h, hval, List.take_add_one, ← keywordByte_eq, h, Option.toList_some]

theorem keywordStep_of_mismatch {pos : Fin 4} {b : Byte} (h : keywordByte pos ≠ some b) : keywordStep pos b = 0 :=
  if_neg h

/-- As far as the matcher has come, the last bytes are the keyword's first (R183). -/
theorem keyword_take_isSuffix (bytes : List Byte) : keyword.take (bytes.foldl keywordStep 0).val <:+ bytes := by
  induction bytes using List.reverseRecOn with
  | nil => exact List.suffix_refl _
  | append_singleton earlier b ih =>
    rw [List.foldl_append, List.foldl_cons, List.foldl_nil]
    by_cases hb : keywordByte (earlier.foldl keywordStep 0) = some b
    · obtain ⟨before, hbefore⟩ := ih
      exact ⟨before, by rw [keywordStep_of_match hb, ← List.append_assoc, hbefore]⟩
    · rw [keywordStep_of_mismatch hb]
      exact List.nil_suffix

/-- Settles O34: a match is `keyword_take_isSuffix` at position 3. -/
theorem keywordMatcher : Obligations.KeywordMatcher := by
  refine ⟨fun b => ?_, fun b => ?_, fun b => ?_, fun bytes h => ?_, by decide, by decide⟩
  · simp [keywordStep, keywordByte, eq_comm]
  · simp [keywordStep, keywordByte, eq_comm]
  · simp [keywordStep, keywordByte, eq_comm]
  · obtain ⟨earlier, hearlier⟩ := keyword_take_isSuffix bytes
    rw [h] at hearlier
    exact ⟨earlier, hearlier.symm⟩

end Sys2Proof.Machine

/-! # Runs of the connect sequence to their end (rules R181 to R195, R264, R266) -/

namespace Sys2Proof.Machine

variable {s z t : State} {x : Attempt} {v : SessionState} {es fs : List Event} {a k : Byte} {c : Instr} {rest : List Op}
  {answers : KeywordAnswers} {polls : List Bool} {payloads : List (List Byte)} {r : List Byte} {l : Line}

/-! ## What holds all through an attempt -/

theorem State.ConnectsOn.refl (s : State) : s.ConnectsOn s [] s.line := by
  have hpast := State.past_connectsOn (s := s) [] s.line.rx
  rwa [State.past_nil] at hpast

/-- `t` is the state of the command `s` started, anywhere in the attempt `x`, after these events of the command; `l` is what
the line then is. -/
structure State.Within (s t : State) (x : Attempt) (es : List Event) (l : Line) : Prop where
  kept : s.KeptByConnect t
  status : t.status = { s.status with busy := true, errCode := .none, state := t.status.state }
  errinfo : t.errinfo = ⟨0, 0⟩
  session : t.session.gen = x.gen ∧ t.session.baud = x.baud
  lineMode : t.lineMode = .transport
  history : t.history = es.reverse ++ s.history
  line : t.line = l
  attempt : t.attempt.val = x.number s

/-- What a part of the attempt leaves alone holds on. -/
theorem State.InAttempt.connectsOn (h : s.InAttempt z x v es r polls) (hon : z.ConnectsOn t fs l) :
    s.Within t x (es ++ fs) l where
  kept := h.kept.trans hon.kept
  status := by rw [hon.status, h.status]
  errinfo := hon.errinfo.trans h.errinfo
  session := by rw [hon.session.1, hon.session.2, h.session]; exact ⟨rfl, rfl⟩
  lineMode := hon.hidden.1.trans h.lineMode
  history := by rw [hon.history, h.history, List.reverse_append, List.append_assoc]
  line := hon.line
  attempt := by rw [hon.hidden.2, h.attempt]

theorem State.InAttempt.within (h : s.InAttempt z x v es r polls) : s.Within z x es ⟨r, polls, x.baud.toNat⟩ := by
  have hon := h.connectsOn (State.ConnectsOn.refl z)
  rwa [List.append_nil, h.line] at hon

/-- The error that ends an attempt FATAL (R264). -/
theorem State.Within.failedTo (h : s.Within t x es l) (code : ErrCode) (expected actual : Byte) :
    s.FailedTo (t.raiseFatal code expected actual) code expected actual where
  kept := ⟨h.kept.cfg, h.kept.registers, h.kept.chunks, h.kept.windows⟩
  status := by rw [State.raiseFatal_status, h.status]
  errinfo := rfl
  idle := rfl
  lineMode := h.lineMode

/-- What the identity exchange leaves (R190): the identification blocks had these payloads, and the first counter was `k`. -/
structure State.Identified (s t : State) (k : Byte) (payloads : List (List Byte)) : Prop where
  state : t.status.state = .ready
  counter : t.session.counter = k + 8
  firstSeen : t.session.firstSeen = true
  ids : ∀ j < 3, ∀ i < 12, i ≤ (payloads.getD j []).length →
    t.idByte (12 * j + i) = (payloads.getD j [] ++ [terminator]).getD i 0
  sent : ∀ i < 4, t.txByte i = (ackBlock s.cfg (k + 7)).bytes.getD i 0
  received : ∀ i < 4, t.rxByte i = (ackBlock s.cfg (k + 8)).bytes.getD i 0
  rxcount : t.rxcount = 4

/-- The identity exchange: four blocks acknowledged, and the final ACK (R190). -/
theorem RunsIn.identity (hv : s.cfg.Valid) (hindex : s.idIndex.val = 0) (hfour : payloads.length = 4)
    (hfit : ∀ p ∈ payloads, p.length + 4 ≤ s.cfg.maxBlock) (hseen : s.session.firstSeen = false)
    (hu : s.undisturbed (identityEvents s.cfg k payloads).length)
    (hrx : s.line.rx = identityAnswers s.cfg k payloads ++ r) :
    ∃ n t, n ≤ 32 * (identityAnswers s.cfg k payloads).length + 40 ∧
      RunsIn n (s.goto c (identityOps s.cfg 0 rest)) (t.goto c rest) ∧
      s.ConnectsOn t (identityEvents s.cfg k payloads) { s.line with rx := r } ∧ s.Identified t k payloads := by
  rw [identityEvents_eq, hfour, List.length_append] at hu
  rw [identityAnswers_eq, hfour, List.append_assoc] at hrx
  obtain ⟨n, u, hn, hblocks, honBlocks, -, -, hcounter, -, hids, -, hsent⟩ := RunsIn.acknowledged (c := c) (rest := rest)
    payloads k 0 hv (by omega) (fun _ => hindex) hfit (.inl hseen) (hu.mono (by omega)) hrx
  obtain ⟨hfirst, hsent⟩ := hsent (by rintro rfl; cases hfour)
  have hcfg : u.cfg = s.cfg := honBlocks.kept.cfg
  rw [hfour] at hblocks hcounter hids hsent
  have hcounter : k + BitVec.ofNat 8 8 = u.session.counter + 1 := hcounter.resolve_left (by simp [hfirst])
  obtain ⟨m, t, hm, hack, honAck, tcounter, tfirst, tready, tids, tsent, treceived, trxcount⟩ :=
    RunsIn.finalAck (s := u) (c := c) (rest := rest) (r := r) (k := k + BitVec.ofNat 8 8) (hcfg ▸ hv) hcounter
      (by rw [hcfg]; exact State.undisturbed.congr (State.undisturbed.past (r := s.line.rx) hu) honBlocks.inputs)
      (by rw [hcfg, honBlocks.line])
  rw [hcfg] at hack honAck treceived
  have hon := honBlocks.trans honAck
  rw [honBlocks.line] at hon
  refine ⟨n + m, t, ?_, hblocks.trans hack, ?_, tready, tcounter, tfirst, ?_, ?_, treceived, trxcount⟩
  · rw [identityAnswers_eq, List.length_append]; omega
  · rw [identityEvents_eq, hfour]; exact hon
  · intro j hj i hi hle
    have hid := hids j (by omega) (by omega) i hi hle
    rw [tids]
    rwa [Nat.zero_add] at hid
  · intro i hi
    rw [tsent]
    exact hsent i hi

/-! ## Attempts that reach Ready through the identity exchange (R190 to R195) -/

/-- An attempt on a correct line: the keyword, the confirmation, the identity exchange, and OK. -/
theorem exec_connects (hv : s.cfg.Valid) (hx : x.allowed) (hfour : payloads.length = 4)
    (hfit : ∀ p ∈ payloads, p.length + 4 ≤ s.cfg.maxBlock) (hf : KeywordFound (waitBound s.cfg x.gen) answers)
    (hp : s.line.polls = x.earlierPolls s.cfg ++ waitPolls x.gen answers ++ polls)
    (hrx : s.line.rx = keywordBytes answers ++ confirmByte :: identityAnswers s.cfg k payloads ++ r)
    (hes : es = x.toIdentity s.cfg a answers ++ identityEvents s.cfg k payloads) (hu : s.undisturbed es.length) :
    ∃ t, exec (x.command a) s = .next t ∧ s.ConnectedTo t x.gen x.baud k payloads ∧
      t.history = es.reverse ++ s.history ∧ t.line = ⟨r, polls, x.baud.toNat⟩ ∧ t.attempt.val = x.number s := by
  subst hes
  rw [List.length_append] at hu
  obtain ⟨z, hz, hindex, hexec⟩ := exec_to_identity (a := a) (r := identityAnswers s.cfg k payloads ++ r) hv hx hf hp
    (by rw [hrx, List.append_assoc, List.cons_append]) (hu.mono (Nat.le_add_right _ _))
  have hcfg : z.cfg = s.cfg := hz.kept.cfg
  obtain ⟨n, t, hn, hrun, hon, hid⟩ := RunsIn.identity (s := z) (c := x.command a) (rest := x.tailOps a) (k := k)
    (payloads := payloads) (r := r) (hcfg ▸ hv) hindex hfour (hcfg ▸ hfit) (by rw [hz.session])
    (hcfg ▸ hz.undisturbed hu) (by rw [hz.line, hcfg])
  obtain ⟨d, hd, hdone⟩ := RunsIn.attemptDone (s := t) (x := x) (a := a)
  rw [hcfg] at hn hrun hon
  rw [hz.line] at hon
  have hw := hz.connectsOn hon
  refine ⟨t.complete .ok, hexec _ _ (hrun.trans hdone) (State.canRun_of_idle rfl) ?_, ?_, hw.history, hw.line, hw.attempt⟩
  · rw [List.length_append]; omega
  · obtain ⟨hready, hcounter, hfirst, hids, hsent, hreceived, hcount⟩ := hid
    obtain ⟨hkept, hstatus, herrinfo, ⟨hgen, hbaud⟩, hmode, -, -, -⟩ := hw
    refine ⟨⟨hkept.cfg, hkept.registers, hkept.chunks, hkept.windows⟩, ?_, herrinfo, ?_, rfl, hmode, hids, hcfg ▸ hsent,
      hcfg ▸ hreceived, hcount⟩
    · rw [State.complete_status, hstatus, hready]
    · show t.session = _
      rw [← hcounter, ← hfirst, ← hgen, ← hbaud]

/-- The same for CONNECT_A and CONNECT_B, in their own terms. -/
theorem exec_connect_connects {gen : Gen} {baud : Half} (hv : s.cfg.Valid) (hbaud : baud ≠ 0) (hfour : payloads.length = 4)
    (hfit : ∀ p ∈ payloads, p.length + 4 ≤ s.cfg.maxBlock)
    (hk : s.KeywordComes gen answers polls (confirmByte :: identityAnswers s.cfg k payloads ++ r))
    (hes : es = connectEvents s.cfg a baud (waitEvents gen answers) (identityEvents s.cfg k payloads))
    (hu : s.undisturbed es.length) :
    ∃ t, exec ((Attempt.connect gen baud).command a) s = .next t ∧ s.ConnectedTo t gen baud k payloads ∧
      t.history = es.reverse ++ s.history ∧ t.line = ⟨r, polls, baud.toNat⟩ ∧ t.attempt = s.attempt := by
  obtain ⟨hfound, hpolls, hbytes⟩ := hk
  obtain ⟨t, hexec, hto, hhistory, hline, hattempt⟩ := exec_connects (x := .connect gen baud) (a := a) hv hbaud hfour hfit
    hfound hpolls (by rw [hbytes, List.append_assoc]) hes hu
  exact ⟨t, hexec, hto, hhistory, hline, Fin.ext hattempt⟩

/-- Settles O35: an attempt of Generation A on a correct line. -/
theorem connectACompletes : Obligations.ConnectACompletes := fun _ _ _ _ _ _ _ _ hv hbaud hfour hfit hk hu =>
  exec_connect_connects (gen := .A) hv hbaud hfour hfit hk rfl hu

/-- Settles O36: an attempt of Generation B on a correct line. -/
theorem connectBCompletes : Obligations.ConnectBCompletes := fun _ _ _ _ _ _ _ _ hv hbaud hfour hfit hk hu =>
  exec_connect_connects (gen := .B) hv hbaud hfour hfit hk rfl hu

/-- Settles O41: the attempt of AUTOCONNECT after `m` silent ones, on a correct line. -/
theorem autoconnectCompletes : Obligations.AutoconnectCompletes := by
  intro s a m answers polls k payloads r hv hm hfour hfit hf hp hrx events hu
  exact exec_connects (x := .autoconnect m) (a := a) hv hm hfour hfit hf hp hrx
    (by simp [events, Attempt.toIdentity, Attempt.toConfirm, Attempt.toWait, connectEvents, Attempt.earlier, Attempt.baud,
      Attempt.gen, waitEvents]) hu

end Sys2Proof.Machine

/-! # Attempts that time out (rules R184, R195, R266) -/

namespace Sys2Proof.Machine

variable {s t z : State} {x : Attempt} {v : SessionState} {es : List Event} {a : Byte} {c : Instr} {ops : List Op}
  {polls : List Bool} {r : List Byte}

/-- A timeout that nothing catches ends the command (R266). -/
theorem State.raiseTimeout_uncaught (h : catchPoint ops = none) :
    (s.goto c ops).raiseTimeout = s.timedOut.complete .timeout := by
  unfold State.raiseTimeout
  simp only [State.goto_pc, h]
  rfl

/-- The timeout of AUTOCONNECT's last attempt ends the command (R195). -/
theorem State.raiseTimeout_last {p : Byte × List Op} (h : catchPoint ops = some p)
    (hlast : ¬ s.attempt.val + 1 < autoAttempts s.cfg) : (s.goto c ops).raiseTimeout = s.timedOut.complete .timeout := by
  unfold State.raiseTimeout
  simp only [State.goto_pc, h]
  exact if_neg hlast

/-- What a timeout that ends the command leaves (R184, R266). -/
theorem State.InAttempt.timedOutTo (h : s.InAttempt z x v es r polls) (hgen : x.gen = .A) :
    s.TimedOutTo (z.timedOut.complete .timeout) x.baud where
  kept := ⟨h.kept.cfg, h.kept.registers, h.kept.chunks, h.kept.windows⟩
  status := by rw [State.complete_status, State.timedOut_status, h.status]
  errinfo := h.errinfo
  session := hgen ▸ h.session
  idle := rfl
  lineMode := h.lineMode
  ids := h.ids
  buffers := h.buffers

theorem State.InAttempt.timedOut_history (h : s.InAttempt z x v es r polls) :
    (z.timedOut.complete .timeout).history = (es ++ [Event.timeout]).reverse ++ s.history := by
  refine (congrArg (Event.timeout :: ·) h.history).trans ?_
  rw [List.reverse_append]
  rfl

/-- Settles O40: nothing catches the timeout of the attempt of CONNECT_A. -/
theorem connectATimesOut : Obligations.ConnectATimesOut := by
  intro s a baud answers polls r hv hbaud hmissed hp hrx events hu
  obtain ⟨w, hw, hexec⟩ := exec_attempt (s := s) (a := a) (x := .connect .A baud) hv hbaud hp (fun _ _ => Nat.zero_le _)
  have hcfg : w.cfg = s.cfg := hw.kept.cfg
  obtain ⟨n, hn, hrun⟩ := RunsIn.missedAttempt (s := w) (c := .connectA a baud)
    (rest := Attempt.tailOps a (.connect .A baud)) a baud answers
    polls r (hcfg ▸ hv) (hcfg ▸ hmissed) hw.line.2 (hw.line.1.trans hrx)
    (hcfg ▸ State.undisturbed.congr (hu.mono (by simp [events])) (hw.inputs.trans (elapse_zero _)))
  rw [State.raiseTimeout_uncaught rfl, hcfg] at hrun
  have hz := State.InAttempt.of_before (r := r) (polls := polls) (pos := keywordAfter answers) (e := s.cfg.kwTimeoutMs)
    .awaitingKeyword (.configure baud :: frameEvents s.cfg a ++ keywordEvents answers) hw
  rw [hcfg] at hn
  have hroom : n ≤ 3 * s.cfg.kwTimeoutMs + 64 * s.line.rx.length + 200 := by
    rw [hrx, List.length_append]; omega
  exact ⟨_, hexec n _ hrun (State.canRun_of_idle rfl) hroom, hz.timedOutTo rfl, hz.timedOut_history, hz.line⟩

/-! ## AUTOCONNECT on a silent line (R195) -/

/-- AUTOCONNECT as it begins (R195). -/
def State.autostarted (s : State) : State := State.started { s with attempt := 0 }

theorem exec_autoconnect {n : Nat} (h : RunsIn n (s.autostarted.goto (.autoconnect a) [.attemptRun a, .attemptCatch a]) t)
    (ht : t.canRun = false) (hn : n ≤ s.burst) : exec (.autoconnect a) s = .next t :=
  congrArg Host.Outcome.next (State.launch_eq (s := { s with attempt := 0 }) h ht hn)

/-- AUTOCONNECT's state after its first `j + 1` attempts, all silent, is the state before its next one. -/
theorem State.retried_beforeAttempt {m : Fin 4} {j : Nat} (hm : m.val = j + 1) :
    s.BeforeAttempt (s.autostarted.retried a m j) (.autoconnect (j + 1)) a
      (s.line.polls.drop ((j + 1) * s.cfg.kwTimeoutMs)) where
  kept :=
    have hkept := State.attempting_kept (s := s.autostarted) .A (autoBaud j) .disconnected
      (retriedEvents s.cfg a (j + 1)) s.line.rx (s.line.polls.drop ((j + 1) * s.cfg.kwTimeoutMs)) 0 s.cfg.kwTimeoutMs
    ⟨hkept.cfg, hkept.registers, hkept.chunks, hkept.windows⟩
  status := rfl
  line := ⟨rfl, rfl⟩
  history := rfl
  inputs := rfl
  buffers := ⟨State.attempting_txByte (s := s.autostarted) .A (autoBaud j) .disconnected [] [] [] 0 0,
    State.attempting_rxByte (s := s.autostarted) .A (autoBaud j) .disconnected [] [] [] 0 0, rfl⟩
  attempt := hm

/-- A line with no byte answers every poll empty (R9). -/
theorem Line.silentFor_of_no_byte {l : Line} (h : l.rx = []) (n : Nat) : l.silentFor n := by
  intro m _
  unfold Line.pollAnswer
  split <;> simp [h]

/-- AUTOCONNECT's last attempt, silent, ends the command (R195). -/
theorem RunsIn.lastSilent (hv : s.cfg.Valid) (hs : s.line.silentFor s.cfg.kwTimeoutMs) (ha : s.attempt.val = 3)
    (hu : s.undisturbed (silentEvents s.cfg a (autoBaud 3)).length)
    (hes : es = .configure (autoBaud 3) :: frameEvents s.cfg a ++ keywordEvents (List.replicate s.cfg.kwTimeoutMs none)) :
    RunsIn (3 * s.cfg.kwTimeoutMs + 17) (s.goto c [.attemptRun a, .attemptCatch a])
      ((s.attempting .A (autoBaud 3) .awaitingKeyword es s.line.rx (s.line.polls.drop s.cfg.kwTimeoutMs) 0
        s.cfg.kwTimeoutMs).timedOut.complete .timeout) := by
  subst hes
  have hbaud : attemptBaud s.cfg s.attempt = autoBaud 3 := by rw [attemptBaud_eq hv, ha]
  have hrun := RunsIn.silentAttempt (c := c) (rest := [.attemptCatch a]) a hv hs (by rwa [hbaud])
  rwa [hbaud, State.raiseTimeout_last rfl (by
    show ¬ s.attempt.val + 1 < autoAttempts s.cfg
    rw [autoAttempts_eq hv]; omega)] at hrun

/-- The events of four silent attempts (R195). -/
theorem fourSilent_eq {cfg : Config} (hv : cfg.Valid) : silentEvents cfg a 10400 ++ [.delay 2000] ++
    silentEvents cfg a 9600 ++ [.delay 2000] ++ silentEvents cfg a 10400 ++ [.delay 2000] ++ silentEvents cfg a 9600 =
      retriedEvents cfg a 3 ++ silentEvents cfg a (autoBaud 3) := by
  simp [retriedEvents, List.range_succ, autoBaud, hv.sourced.retryDelayMs]

/-- Settles O42: three silent attempts, and the timeout of the fourth. -/
theorem autoconnectTimesOut : Obligations.AutoconnectTimesOut := by
  intro s a hv hrx events hu
  have hevents : events = retriedEvents s.cfg a 3 ++ silentEvents s.cfg a (autoBaud 3) := fourSilent_eq hv
  rw [hevents, List.length_append] at hu
  have hretries := RunsIn.retries (s := s.autostarted) (c := .autoconnect a) a hv rfl 2 (by decide)
    (Line.silentFor_of_no_byte hrx _) (State.undisturbed.congr (hu.mono (Nat.le_add_right _ _)) rfl)
  have hw : s.BeforeAttempt (s.autostarted.retried a 3 2) (.autoconnect 3) a _ := State.retried_beforeAttempt rfl
  have hlast := RunsIn.lastSilent (s := s.autostarted.retried a 3 2) (c := .autoconnect a) (a := a) hv
    (Line.silentFor_of_no_byte (hw.line.1.trans hrx) _) rfl
    (State.undisturbed.congr (State.undisturbed.past (r := s.line.rx) hu) hw.inputs) rfl
  have hz := State.InAttempt.of_before (r := s.line.rx)
    (polls := (s.line.polls.drop (3 * s.cfg.kwTimeoutMs)).drop s.cfg.kwTimeoutMs) (pos := 0) (e := s.cfg.kwTimeoutMs)
    .awaitingKeyword
    (.configure (autoBaud 3) :: frameEvents s.cfg a ++ keywordEvents (List.replicate s.cfg.kwTimeoutMs none)) hw
  have hroom : 3 * (3 * s.cfg.kwTimeoutMs + 18) + (3 * s.cfg.kwTimeoutMs + 17) ≤ s.burst := by
    rw [State.burst_eq hv]; omega
  refine ⟨_, exec_autoconnect (hretries.trans hlast) (State.canRun_of_idle rfl) hroom, hz.timedOutTo rfl, ?_, ?_, rfl⟩
  · refine hz.timedOut_history.trans ?_
    rw [hevents]
    simp [silentEvents, Attempt.earlier]
  · refine hz.line.trans ?_
    rw [hrx, List.drop_drop, show 3 * s.cfg.kwTimeoutMs + s.cfg.kwTimeoutMs = 4 * s.cfg.kwTimeoutMs by omega]
    rfl

end Sys2Proof.Machine

/-! # Runs of the connect sequence that an identity block or a wrong answer ends (rules R186, R189, R190, R264) -/

namespace Sys2Proof.Machine

variable {s u w : State} {x : Attempt} {es : List Event} {a b k title : Byte} {c : Instr} {rest : List Op}
  {answers : KeywordAnswers} {polls : List Bool} {payload body r : List Byte} {l : Line} {n : Nat}

/-! ## What a reception and a FATAL end leave -/

theorem State.heard_idByte (hlen : body.length < 256) (i : Nat) : (s.heard b body r).idByte i = s.idByte i := by
  unfold State.idByte
  rw [State.heard_read_elsewhere hlen (.inr (by simp only [rxBase, idBase, windowBytes]; omega))]

theorem State.heard_txByte (hlen : body.length < 256) : (s.heard b body r).txByte = s.txByte := by
  funext i
  unfold State.txByte
  rw [State.heard_txMark]
  split
  · rename_i hi
    rw [State.heard_read_elsewhere hlen (.inl (by simp only [txBase, rxBase, windowBytes] at *; omega))]
  · rfl

/-- The session of an attempt right after a block with counter `k` was received (R156). -/
theorem State.Within.heard_session (h : s.Within (u.heard (block k title payload).1 (block k title payload).2 r) x es l) :
    (u.heard (block k title payload).1 (block k title payload).2 r).session = ⟨k, true, x.gen, x.baud⟩ := by
  rw [← h.session.1, ← h.session.2]
  rfl

theorem State.Within.raiseFatal_history {t : State} (h : s.Within t x es l) (code : ErrCode) (expected actual : Byte) :
    (t.raiseFatal code expected actual).history = (es ++ [Event.fatal code expected actual]).reverse ++ s.history := by
  refine (congrArg (Event.fatal code expected actual :: ·) h.history).trans ?_
  rw [List.reverse_append]
  rfl

theorem State.BeforeAttempt.undisturbed (h : s.BeforeAttempt w x a polls)
    (hu : s.undisturbed ((x.earlier s.cfg a).length + n)) : w.undisturbed n :=
  State.undisturbed.congr (State.undisturbed.past (r := s.line.rx) hu) h.inputs

theorem Attempt.toConfirm_eq (x : Attempt) (cfg : Config) (a : Byte) (answers : KeywordAnswers) :
    x.toConfirm cfg a answers =
      x.earlier cfg a ++ (.configure x.baud :: frameEvents cfg a ++ waitEvents x.gen answers) := by
  simp [Attempt.toConfirm, Attempt.toWait]

/-! ## The early ACK (R189) -/

/-- The shortcut: the first identification block is an ACK, in the generation `EARLY_ACK_GEN`. -/
theorem RunsIn.earlyAck (hv : s.cfg.Valid) (hindex : s.idIndex = 0) (hseen : s.session.firstSeen = false)
    (hgen : s.session.gen = s.cfg.earlyAckGen) (hu : s.undisturbed ((ackBlock s.cfg k).eventsHeard s.cfg).length)
    (hrx : s.line.rx = (ackBlock s.cfg k).answersHeard ++ r) :
    ∃ n, n ≤ 30 ∧ RunsIn n (s.goto c (identityOps s.cfg 0 rest))
      (((s.heard (ackBlock s.cfg k).1 (ackBlock s.cfg k).2 r).setSession .ready).goto c rest) := by
  have hfits : 3 + 1 ≤ s.cfg.maxBlock := le_trans (by decide) hv.maxBlock_ge
  have hlen : (ackBlock s.cfg k).2.length = 3 := rfl
  obtain ⟨n, hn, hrecv⟩ := RunsIn.recvBlock (c := c) (rest := .identityCheck :: rest) (l := (ackBlock s.cfg k).1)
    (body := (ackBlock s.cfg k).2) ⟨rfl, hfits, .inl hseen⟩ hu hrx
  have htitle : (s.heard (ackBlock s.cfg k).1 (ackBlock s.cfg k).2 r).rxByte 2 = s.cfg.titleAck :=
    State.heard_rxByte (by rw [hlen]; decide) (by rw [hlen]; decide)
  have hcheck : RunsIn 1 ((s.heard (ackBlock s.cfg k).1 (ackBlock s.cfg k).2 r).goto c (.identityCheck :: rest))
      (((s.heard (ackBlock s.cfg k).1 (ackBlock s.cfg k).2 r).setSession .ready).goto c rest) :=
    RunsIn.silent rfl (if_pos ⟨hindex, htitle, hgen⟩)
  exact ⟨n + 1, by omega, hrecv.trans hcheck⟩

/-- Settles O37: in its generation the ACK is the shortcut (`RunsIn.earlyAck`), in the other it is a wrong title
(`RunsIn.wrongTitle`); the state that the reception leaves is the same. -/
theorem earlyAckOnlyInItsGeneration : Obligations.EarlyAckOnlyInItsGeneration := by
  intro s a x answers polls k r hv hx hf hp hrx events hu
  simp only [events, List.length_append] at hu
  obtain ⟨z, hz, hindex, hexec⟩ := exec_to_identity (a := a) (r := (ackBlock s.cfg k).answersHeard ++ r) hv hx hf hp
    (by rw [hrx, List.append_assoc, List.cons_append]) (hu.mono (Nat.le_add_right _ _))
  have hcfg : z.cfg = s.cfg := hz.kept.cfg
  have hseen : z.session.firstSeen = false := by rw [hz.session]
  have hgen : z.session.gen = x.gen := by rw [hz.session]
  have hlen : (ackBlock s.cfg k).2.length < 256 := by show 3 < 256; decide
  have hrun : z.undisturbed ((ackBlock z.cfg k).eventsHeard z.cfg).length := by rw [hcfg]; exact hz.undisturbed hu
  have hanswers : z.line.rx = (ackBlock z.cfg k).answersHeard ++ r := by rw [hz.line, hcfg]
  have hw := hz.connectsOn (State.heard_connectsOn (b := ackBlock s.cfg k) (r := r) hlen)
  rw [hcfg, hz.line] at hw
  have hsession := State.Within.heard_session hw
  have hids : ∀ i < idBytes, (z.heard (ackBlock s.cfg k).1 (ackBlock s.cfg k).2 r).idByte i = 0 := fun i hi => by
    rw [State.heard_idByte hlen, hz.ids i hi]
  have htx : (z.heard (ackBlock s.cfg k).1 (ackBlock s.cfg k).2 r).txByte = s.txByte := by
    rw [State.heard_txByte hlen, hz.buffers.1]
  obtain ⟨hcfg', hregs, hchunks, hwindows⟩ := hw.kept
  by_cases hearly : x.gen = s.cfg.earlyAckGen
  · obtain ⟨n, hn, hack⟩ := RunsIn.earlyAck (s := z) (c := x.command a) (rest := x.tailOps a) (hcfg ▸ hv)
      (Fin.ext hindex) hseen (by rw [hgen, hcfg, hearly]) hrun hanswers
    rw [hcfg] at hack
    obtain ⟨d, hd, hdone⟩ := RunsIn.attemptDone (x := x) (a := a)
      (s := (z.heard (ackBlock s.cfg k).1 (ackBlock s.cfg k).2 r).setSession .ready)
    refine ⟨_, hexec _ _ (hack.trans hdone) (State.canRun_of_idle rfl) (by omega), ⟨hcfg', hregs, hchunks, hwindows⟩, hw.line,
      hsession, rfl, hids, htx, fun _ => ⟨?_, hw.errinfo, hw.history⟩, fun hother => absurd hearly hother⟩
    rw [State.complete_status, State.setSession_status, hw.status]
  · obtain ⟨n, hn, htitle⟩ := RunsIn.wrongTitle (s := z) (c := x.command a) (rest := x.tailOps a) (j := 0) (k := k)
      (title := s.cfg.titleAck) (payload := []) (r := r) (hcfg ▸ hv) (fun _ => hindex)
      (le_trans (by decide) (hcfg ▸ hv.maxBlock_ge)) (.inl hseen)
      (by rw [hcfg]; exact hv.ascii_ne_ack.symm) (by rw [hgen, hcfg]; exact fun h => hearly h.2.2)
      (by rw [← hcfg]; exact hrun) (by rw [← hcfg]; exact hanswers)
    rw [hcfg] at htitle
    have hfailed := hw.failedTo .title s.cfg.titleAscii s.cfg.titleAck
    refine ⟨_, hexec _ _ htitle (State.canRun_of_idle rfl) (le_trans hn (by simp)), hfailed.kept, hw.line, hsession, rfl, hids,
      htx, fun h => absurd h hearly, fun _ => ⟨hfailed.status, hfailed.errinfo, ?_⟩⟩
    exact congrArg (Event.fatal .title s.cfg.titleAscii s.cfg.titleAck :: ·) hw.history

/-! ## Wrong answers (R186, R190, R264) -/

section
variable (hv : s.cfg.Valid) (hx : x.allowed) (hf : KeywordFound (waitBound s.cfg x.gen) answers)
  (hp : s.line.polls = x.earlierPolls s.cfg ++ waitPolls x.gen answers ++ polls)
include hv hx hf hp

/-- A confirmation whose echo is wrong ends the attempt (R186). -/
theorem exec_wrongConfirmation (hb : b ≠ confirmByte) (hrx : s.line.rx = keywordBytes answers ++ b :: r)
    (hes : es = x.toConfirm s.cfg a answers ++
      [.delay s.cfg.settleMs, .delay s.cfg.interbyteMs, .send confirmByte, .recv b, .fatal .echo confirmByte b])
    (hu : s.undisturbed es.length) :
    ∃ t, exec (x.command a) s = .next t ∧ s.FailedTo t .echo confirmByte b ∧ t.session = ⟨0, false, x.gen, x.baud⟩ ∧
      (∀ i < idBytes, t.idByte i = 0) ∧ t.history = es.reverse ++ s.history ∧ t.line = ⟨r, polls, x.baud.toNat⟩ := by
  subst hes
  rw [List.length_append] at hu
  obtain ⟨w, e, -, hw, hexec⟩ := exec_to_confirmation (a := a) hv hx hf hp hrx (hu.mono (Nat.le_add_right _ _))
  rw [Attempt.toConfirm_eq, List.length_append, Nat.add_assoc] at hu
  set ms : List Event := .configure x.baud :: frameEvents s.cfg a ++ waitEvents x.gen answers
  have hend := RunsIn.wrongConfirmation (s := w) (c := x.command a) (rest := x.tailOps a) (gen := x.gen) (baud := x.baud)
    (es := ms) (polls := polls) (r := r) (pos := 3) (e := e) hb (hw.undisturbed (hu.mono (by simp)))
  rw [hw.kept.cfg] at hend
  have hz := State.InAttempt.of_before (r := r) (polls := polls) (pos := 3) (e := e) .confirming
    (ms ++ [.delay s.cfg.settleMs, .delay s.cfg.interbyteMs, .send confirmByte, .recv b]) hw
  refine ⟨_, hexec _ _ hend (State.canRun_of_idle rfl) (by rw [List.length_cons]; omega),
    hz.within.failedTo .echo confirmByte b, hz.session, hz.ids, ?_, hz.line⟩
  rw [hz.within.raiseFatal_history, Attempt.toConfirm_eq]
  simp [ms]

/-- A block of the identity exchange with another title ends the attempt, but for the early ACK (R190). -/
theorem exec_wrongTitle {ps : List (List Byte)} {b : Block} (hfour : ps.length ≤ 4)
    (hfit : ∀ p ∈ payload :: ps, p.length + 4 ≤ s.cfg.maxBlock) (htitle : title ≠ identityTitle s.cfg ps.length)
    (hearly : ¬(ps = [] ∧ title = s.cfg.titleAck ∧ x.gen = s.cfg.earlyAckGen))
    (hblock : b = block (k + BitVec.ofNat 8 (2 * ps.length)) title payload)
    (hrx : s.line.rx = keywordBytes answers ++ confirmByte :: acknowledgedAnswers s.cfg k ps ++ b.answersHeard ++ r)
    (hes : es = x.toIdentity s.cfg a answers ++ acknowledgedEvents s.cfg k ps ++ b.eventsHeard s.cfg ++
      [.fatal .title (identityTitle s.cfg ps.length) title])
    (hu : s.undisturbed es.length) :
    ∃ t, exec (x.command a) s = .next t ∧ s.FailedTo t .title (identityTitle s.cfg ps.length) title ∧
      t.session = ⟨k + BitVec.ofNat 8 (2 * ps.length), true, x.gen, x.baud⟩ ∧
      (∀ j < 3, j < ps.length → ∀ i < 12, i ≤ (ps.getD j []).length →
        t.idByte (12 * j + i) = (ps.getD j [] ++ [terminator]).getD i 0) ∧
      (∀ j < 3, ps.length ≤ j → ∀ i < 12, t.idByte (12 * j + i) = 0) ∧
      t.history = es.reverse ++ s.history ∧ t.line = ⟨r, polls, x.baud.toNat⟩ := by
  subst hes hblock
  generalize hcounter : k + BitVec.ofNat 8 (2 * ps.length) = counter at *
  simp only [List.length_append, Nat.add_assoc] at hu
  obtain ⟨z, hz, hindex, hexec⟩ := exec_to_identity (a := a)
    (r := acknowledgedAnswers s.cfg k ps ++ ((block counter title payload).answersHeard ++ r)) hv hx hf hp (by simp [hrx])
    (hu.mono (Nat.le_add_right _ _))
  have hcfg : z.cfg = s.cfg := hz.kept.cfg
  have hz' := hz.undisturbed hu
  obtain ⟨n, u, hn, hblocks, hon, -, huindex, hucounter, hold, hids, -, -⟩ := RunsIn.acknowledged (s := z)
    (c := x.command a) (rest := x.tailOps a) (r := (block counter title payload).answersHeard ++ r) ps k 0 (hcfg ▸ hv)
    (by omega) (fun _ => hindex) (by rw [hcfg]; exact fun p hp => hfit p (List.mem_cons_of_mem _ hp))
    (.inl (by rw [hz.session])) (by rw [hcfg]; exact hz'.mono (Nat.le_add_right _ _)) (by rw [hz.line, hcfg])
  rw [hcfg] at hn hblocks hon
  rw [hz.line] at hon
  have hucfg : u.cfg = s.cfg := hon.kept.cfg.trans hcfg
  have hugen : u.session.gen = x.gen := by rw [hon.session.1, hz.session]
  simp only [Nat.zero_add] at hblocks huindex hold hids
  obtain ⟨m, hm, hend⟩ := RunsIn.wrongTitle (s := u) (c := x.command a) (rest := x.tailOps a) (j := ps.length)
    (k := counter) (title := title) (payload := payload) (r := r) (hucfg ▸ hv) huindex
    (hucfg ▸ hfit payload List.mem_cons_self) (hcounter ▸ hucounter) (hucfg ▸ htitle)
    (by rw [hugen, hucfg, List.length_eq_zero_iff]; exact hearly)
    (by
      rw [hucfg]
      exact State.undisturbed.congr (State.undisturbed.past (r := z.line.rx) (hz'.mono (by omega))) hon.inputs)
    (by rw [hon.line])
  rw [hucfg] at hend
  have hmax : (block counter title payload).2.length < 256 := by
    have hmax := hv.maxBlock_le
    have hfits := hfit payload List.mem_cons_self
    rw [block_body_length]; omega
  have hheard := State.heard_connectsOn (s := u) (b := block counter title payload) (r := r) hmax
  rw [hucfg, hon.line] at hheard
  have hw := hz.connectsOn (hon.trans hheard)
  have hroom := length_le_heardAnswers (block counter title payload).1 (block counter title payload).2
  rw [block_body_length, ← Block.answersHeard] at hroom
  refine ⟨_, hexec _ _ (hblocks.trans hend) (State.canRun_of_idle rfl) ?_, hw.failedTo _ _ _, hw.heard_session,
    fun j hj hjlen i hi hle => ?_, fun j hj hjlen i hi => ?_, ?_, hw.line⟩
  · rw [List.length_append, List.length_append]; omega
  · exact (State.heard_idByte (r := r) hmax _).trans (hids j hjlen hj i hi hle)
  · refine (State.heard_idByte (r := r) hmax _).trans ((hold _ (.inr (by omega))).trans (hz.ids _ ?_))
    simp only [idBytes]; omega
  · rw [hw.raiseFatal_history]
    simp only [List.append_assoc]

end

/-- Settles O38: the two ways are `exec_wrongConfirmation` and `exec_wrongTitle`. -/
theorem connectEndsFatal : Obligations.ConnectEndsFatal := by
  intro s a x answers polls hv hx hf hp
  refine ⟨fun e r he hrx hu => exec_wrongConfirmation hv hx hf hp he hrx rfl hu, ?_⟩
  intro k title ps payload r hfour hfit expected htitle hearly counter b hrx events hu
  exact exec_wrongTitle hv hx hf hp hfour hfit htitle hearly rfl hrx rfl hu

end Sys2Proof.Machine

/-! # `STATE` while the connect sequence goes on (rules R180 to R191) -/

namespace Sys2Proof.Machine

variable {s t u w z : State} {x : Attempt} {v : SessionState} {es : List Event} {a k : Byte} {c : Instr} {op : Op}
  {ops rest : List Op} {answers : KeywordAnswers} {polls : List Bool} {r : List Byte} {m : Input}
  {later : List (Nat × Input)} {n : Nat}

/-! ## Where a command can pause -/

/-- The command `i` of `s`, having made these events, comes to `t`, whose next line is `op`: one that makes an event. If it can
go no further there, `t` is what the command answers. -/
structure State.ComesTo (s : State) (i : Instr) (es : List Event) (v : SessionState) (t : State) (op : Op) : Prop where
  running : s.RunningAt t es v
  inputs : t.inputs = elapse es.length s.inputs
  next : ∃ c rest, t.pc = .running c (op :: rest)
  isEvent : op.isEvent = true
  answers : t.canRun = false → exec i s = .next t

/-- An input that is due there finds the command so. -/
theorem State.ComesTo.of_due {i : Instr} (h : s.ComesTo i es v t op) (hi : s.inputs = (es.length, m) :: later) :
    ∃ t, exec i s = .next t ∧ s.RunningAt t es v := by
  obtain ⟨c, rest, hpc⟩ := h.next
  have hdue : (t.goto c (op :: rest)).canRun = false := State.canRun_of_due h.isEvent (h.inputs.trans (elapse_due hi))
  exact ⟨t, h.answers (State.goto_self hpc ▸ hdue), h.running⟩

/-- A line that has no byte for a `Recv()` there leaves the command so. -/
theorem State.ComesTo.of_no_byte {i : Instr} {use : RecvUse} (h : s.ComesTo i es v t (.recv use)) (hrx : t.line.rx = []) :
    ∃ t, exec i s = .next t ∧ s.RunningAt t es v := by
  obtain ⟨c, rest, hpc⟩ := h.next
  have hblocked : (t.goto c (.recv use :: rest)).canRun = false := State.canRun_of_empty hrx
  exact ⟨t, h.answers (State.goto_self hpc ▸ hblocked), h.running⟩

/-- A point of the pseudocode that the command's run comes to. -/
theorem State.ComesTo.of_goto {i : Instr}
    (hstatus : u.status = { s.status with busy := true, errCode := .none, state := v })
    (hhistory : u.history = es.reverse ++ s.history) (hinputs : u.inputs = elapse es.length s.inputs)
    (hop : op.isEvent = true)
    (hanswers : (u.goto c (op :: rest)).canRun = false → exec i s = .next (u.goto c (op :: rest))) :
    s.ComesTo i es v (u.goto c (op :: rest)) op where
  running := ⟨congrArg Status.busy hstatus, congrArg Status.state hstatus, hhistory⟩
  inputs := hinputs
  next := ⟨c, rest, rfl⟩
  isEvent := hop
  answers := hanswers

/-! ## Addressing (R182) -/

theorem Attempt.take_toWait (x : Attempt) (cfg : Config) (a : Byte) (n : Nat) :
    (x.toWait cfg a).take ((x.earlier cfg a).length + n) =
      x.earlier cfg a ++ ((.configure x.baud :: frameEvents cfg a : List Event).take n) := by
  rw [Attempt.toWait, List.take_length_add_append]

/-- Up to the last event of the frame. -/
theorem exec_to_addressing (hv : s.cfg.Valid) (hx : x.allowed) (hp : s.line.polls = x.earlierPolls s.cfg ++ polls)
    (hn : n < 13) (hu : s.undisturbed ((x.earlier s.cfg a).length + n)) :
    ∃ t op, s.ComesTo (x.command a) ((x.toWait s.cfg a).take ((x.earlier s.cfg a).length + n)) .addressing t op := by
  obtain ⟨w, hw, hexec⟩ := exec_attempt (a := a) hv hx hp (hu.mono (Nat.le_add_right _ _))
  set opening := openingEvents s.cfg a x.baud
  set after := Op.setState .awaitingKeyword :: .keywordStart x.gen :: (confirmingOps s.cfg ++ .identityStart :: x.tailOps a)
  have hlen : opening.length = 13 := by
    rw [← List.length_map Prod.snd, openingEvents_snd, frameEvents_length hv]
  have hops : connectOps s.cfg x.gen a x.baud ++ x.tailOps a = .attemptStart x.gen :: (opening.map Prod.fst ++ after) := by
    rw [openingEvents_fst]
    simp [connectOps, addressingOps, after]
  have hstart : RunsIn 1 (w.goto (x.command a) (.attemptStart x.gen :: (opening.map Prod.fst ++ after)))
      ((w.attemptStart x.gen).goto (x.command a) (opening.map Prod.fst ++ after)) := RunsIn.silent rfl rfl
  obtain ⟨t, hrun, hstatus, hhistory, hinputs, -⟩ := RunsIn.eventsOnly (c := x.command a) (rest := after) opening
    (s := w.attemptStart x.gen) n (by omega) (openingEvents_plain _ _ _) (State.undisturbed.congr (hw.undisturbed hu) rfl)
  obtain ⟨p, hp', hdrop⟩ : ∃ p ∈ opening, (opening.map Prod.fst).drop n = p.1 :: (opening.map Prod.fst).drop (n + 1) :=
    ⟨opening[n], List.getElem_mem _, by rw [List.drop_eq_getElem_cons (by simp; omega), List.getElem_map]⟩
  rw [hdrop, List.cons_append] at hrun
  have hstatus : t.status = { s.status with busy := true, errCode := .none, state := .addressing } := by
    rw [hstatus, State.attemptStart_status, hw.status]
  rw [Attempt.take_toWait, ← openingEvents_snd]
  refine ⟨_, p.1, .of_goto hstatus ?_ ?_ (openingEvents_plain _ _ _ p hp').isEvent
    fun ht => hexec _ _ (hops ▸ hstart.trans hrun) ht (by omega)⟩
  · rw [hhistory, State.attemptStart_history, hw.history, List.reverse_append, List.append_assoc]
  · rw [hinputs, State.attemptStart_inputs, hw.inputs, elapse_elapse, List.length_append, List.length_take,
      List.length_map, hlen, Nat.min_eq_left (by omega)]

/-! ## The keyword wait (R184, R185) -/

theorem keywordBytes_append (l₁ l₂ : KeywordAnswers) : keywordBytes (l₁ ++ l₂) = keywordBytes l₁ ++ keywordBytes l₂ :=
  List.filterMap_append

theorem keywordPolls_append (l₁ l₂ : KeywordAnswers) : keywordPolls (l₁ ++ l₂) = keywordPolls l₁ ++ keywordPolls l₂ :=
  List.map_append

theorem keywordEvents_append (l₁ l₂ : KeywordAnswers) : keywordEvents (l₁ ++ l₂) = keywordEvents l₁ ++ keywordEvents l₂ :=
  List.flatMap_append

/-- Each answer is two events (R184). -/
theorem keywordEvents_length (answers : KeywordAnswers) : (keywordEvents answers).length = 2 * answers.length := by
  induction answers with
  | nil => rfl
  | cons answer answers ih =>
    have hcons : keywordEvents (answer :: answers) = keywordEvents [answer] ++ keywordEvents answers :=
      keywordEvents_append [answer] answers
    have hone : (keywordEvents [answer]).length = 2 := by cases answer <;> rfl
    rw [hcons, List.length_append, ih, hone, List.length_cons]
    omega

/-- Without empty polls, the answers are their bytes. -/
theorem map_some_keywordBytes (h : answers.count none < 1) : (keywordBytes answers).map some = answers := by
  induction answers with
  | nil => rfl
  | cons answer answers ih =>
    cases answer with
    | none => simp at h
    | some b =>
      rw [List.count_cons_of_ne (by simp)] at h
      exact congrArg (some b :: ·) (ih h)

theorem length_keywordBytes (h : answers.count none < 1) : (keywordBytes answers).length = answers.length := by
  simpa using congrArg List.length (map_some_keywordBytes h)

/-- While a keyword wait is open, the answers before the last leave the keyword pending. -/
theorem KeywordOpen.take_pending {bound : Nat} (h : KeywordOpen bound answers) (hn : n < answers.length) :
    KeywordPending bound (answers.take n) where
  pending := fun j hj => by
    rw [List.length_take] at hj
    rw [List.take_take, Nat.min_eq_left (by omega)]
    exact h.pending j (by omega)
  inTime := by
    have htake : answers.take n = answers.dropLast.take n := by
      rw [List.dropLast_eq_take, List.take_take, Nat.min_eq_left (by omega)]
    rw [htake]
    exact lt_of_le_of_lt ((List.take_sublist _ _).count_le _) h.inTime

/-- A generation's keyword wait, the keyword not matched yet (R184, R185). -/
theorem RunsIn.pending {gen : Gen} (hpending : KeywordPending (waitBound s.cfg gen) answers)
    (hp : s.line.polls = waitPolls gen answers ++ polls) (hrx : s.line.rx = keywordBytes answers ++ r)
    (hu : s.undisturbed (waitEvents gen answers).length) (hpos : s.kwPos = 0) (helapsed : gen = .A → s.kwElapsed = 0) :
    ∃ n pos e, n ≤ 3 * s.cfg.kwTimeoutMs + 2 * (keywordBytes answers).length ∧
      RunsIn n (s.goto c (keywordWaitOps gen ++ rest))
        ((s.waited (waitEvents gen answers) r polls pos e).goto c (keywordWaitOps gen ++ rest)) := by
  obtain ⟨hunmatched, hintime⟩ := hpending
  cases gen with
  | A =>
    replace hintime : answers.count none < s.cfg.kwTimeoutMs := hintime
    obtain ⟨n, hn, hrun⟩ := RunsIn.pendingA (c := c) (rest := rest) answers (by rw [hpos]; exact hunmatched)
      (by rw [helapsed rfl, Nat.zero_add]; exact hintime) hp hrx hu
    exact ⟨n, _, _, by omega, hrun⟩
  | B =>
    replace hintime : answers.count none < 1 := hintime
    have hall := map_some_keywordBytes hintime
    have hlen := length_keywordBytes hintime
    replace hp : s.line.polls = polls := hp
    have hrun := RunsIn.pendingB (c := c) (rest := rest) (r := r) (s := s) (keywordBytes answers)
      (by rw [hpos, hall, hlen]; exact hunmatched) hrx (hu.mono (by simp [waitEvents]))
    rw [hp] at hrun
    exact ⟨_, _, _, by omega, hrun⟩

theorem keywordWaitOps_eq (gen : Gen) :
    ∃ op : Op, keywordWaitOps gen = [op] ∧ op.isEvent = true ∧ (gen = .B → op = .recv (.keyword .B)) := by
  cases gen with
  | A => exact ⟨_, rfl, rfl, fun h => nomatch h⟩
  | B => exact ⟨_, rfl, rfl, fun _ => rfl⟩

/-- After a poll, a line that makes an event comes next: the `Recv()` or the delay (R184). -/
theorem RunsIn.polled (hu : s.undisturbed 1) :
    ∃ (u : State) (op : Op) (ops : List Op), RunsIn 1 (s.goto c (.poll :: rest)) (u.goto c (op :: ops)) ∧
      op.isEvent = true ∧ u.status = s.status ∧ u.history = .poll s.line.pollAnswer :: s.history ∧
      u.inputs = elapse 1 s.inputs := by
  set u := s.waited [.poll s.line.pollAnswer] s.line.rx s.line.polls.tail s.kwPos s.kwElapsed
  cases hpoll : s.line.pollAnswer with
  | true =>
    have hrun : RunsIn 1 (s.goto c (.poll :: rest)) (u.goto c (.recv (.keyword .A) :: rest)) :=
      RunsIn.act (by simp) hu (if_pos hpoll)
    exact ⟨u, _, _, hrun, rfl, rfl, by simp [u, hpoll, State.waited], rfl⟩
  | false =>
    have hrun : RunsIn 1 (s.goto c (.poll :: rest)) (u.goto c (.delay 1 :: .keywordTick :: rest)) :=
      RunsIn.act (by simp) hu (if_neg (show ¬ s.line.pollAnswer = true by simp [hpoll]))
    exact ⟨u, _, _, hrun, rfl, rfl, by simp [u, hpoll, State.waited], rfl⟩

/-- The line answers a poll as the next answer of the keyword wait says. -/
theorem Line.pollAnswer_eq_isSome (answer : Option Byte) (baud : Nat) :
    (Line.mk (keywordBytes (answer :: answers) ++ r) (keywordPolls (answer :: answers) ++ polls) baud).pollAnswer =
      answer.isSome := by
  cases answer <;> rfl

/-! ## The first answers of a keyword wait -/

theorem waitPolls_take_append_drop (gen : Gen) (answers : KeywordAnswers) (n : Nat) :
    waitPolls gen (answers.take n) ++ waitPolls gen (answers.drop n) = waitPolls gen answers := by
  cases gen with
  | A => exact (keywordPolls_append _ _).symm.trans (by rw [List.take_append_drop]; rfl)
  | B => rfl

theorem keywordBytes_take_append_drop (answers : KeywordAnswers) (n : Nat) :
    keywordBytes (answers.take n) ++ keywordBytes (answers.drop n) = keywordBytes answers := by
  rw [← keywordBytes_append, List.take_append_drop]

theorem take_keywordEvents (hn : n ≤ answers.length) :
    (keywordEvents answers).take (2 * n) = keywordEvents (answers.take n) := by
  rw [← List.take_append_drop n answers, keywordEvents_append, List.take_append_drop]
  exact List.take_left' (by rw [keywordEvents_length, List.length_take, Nat.min_eq_left hn])

/-- Each answer starts with its poll (R184). -/
theorem take_keywordEvents_poll (hn : n < answers.length) :
    (keywordEvents answers).take (2 * n + 1) = keywordEvents (answers.take n) ++ [.poll answers[n].isSome] := by
  have hdrop : (keywordEvents answers).drop (2 * n) = keywordEvents (answers.drop n) := by
    rw [← List.take_append_drop n answers, keywordEvents_append, List.take_append_drop]
    exact List.drop_left' (by rw [keywordEvents_length, List.length_take, Nat.min_eq_left hn.le])
  have hpoll : (keywordEvents (answers[n] :: answers.drop (n + 1))).take 1 = [.poll answers[n].isSome] := by
    cases answers[n] <;> rfl
  rw [List.take_add, take_keywordEvents hn.le, hdrop, List.drop_eq_getElem_cons hn, hpoll]

/-- Generation B's answers are bytes: `n` events are the first `n` answers (R185). -/
theorem KeywordOpen.take_bytes (h : KeywordOpen 1 answers) (hn : n < (keywordBytes answers).length) :
    n < answers.length ∧ (waitEvents .B answers).take n = waitEvents .B (answers.take n) := by
  have hlt : n < answers.length := lt_of_lt_of_le hn (List.length_filterMap_le _ _)
  have hlen : (keywordBytes (answers.take n)).length = n := by
    rw [length_keywordBytes (h.take_pending hlt).inTime, List.length_take, Nat.min_eq_left hlt.le]
  refine ⟨hlt, ?_⟩
  rw [waitEvents, waitEvents, ← List.map_take, ← keywordBytes_take_append_drop answers n, List.take_left' hlen]

section
variable (hv : s.cfg.Valid) (hx : x.allowed)
  (hp : s.line.polls = x.earlierPolls s.cfg ++ waitPolls x.gen answers ++ polls)
  (hrx : s.line.rx = keywordBytes answers ++ r)
include hv hx hp hrx

/-- While the keyword is pending, what an attempt's run leads to from its next answer on is what its command leads to. -/
theorem exec_to_pending (hpending : KeywordPending (waitBound s.cfg x.gen) answers)
    (hu : s.undisturbed (x.toConfirm s.cfg a answers).length) :
    ∃ z rest, s.InAttempt z x .awaitingKeyword (x.toConfirm s.cfg a answers) r polls ∧
      ∀ n t, RunsIn n (z.goto (x.command a) (keywordWaitOps x.gen ++ rest)) t → t.canRun = false → n ≤ 10 →
        exec (x.command a) s = .next t := by
  rw [Attempt.toConfirm_eq, List.length_append] at hu
  rw [List.append_assoc] at hp
  obtain ⟨w, hw, hexec⟩ := exec_attempt (a := a) hv hx hp (hu.mono (Nat.le_add_right _ _))
  have hcfg : w.cfg = s.cfg := hw.kept.cfg
  set opening : List Event := .configure x.baud :: frameEvents s.cfg a
  set after := confirmingOps s.cfg ++ .identityStart :: x.tailOps a
  have hlen : opening.length = 13 := frameEvents_length hv a x.baud
  have hu := hw.undisturbed hu
  rw [List.length_append, hlen] at hu
  have hopening := RunsIn.opening (s := w) (c := x.command a) (rest := after) x.gen a x.baud (hcfg ▸ hv)
    (hu.mono (Nat.le_add_right _ _))
  rw [hcfg] at hopening
  set w1 := w.attempting x.gen x.baud .awaitingKeyword opening w.line.rx w.line.polls 0 (w.elapsedAt x.gen)
  have hcfg1 : w1.cfg = s.cfg := hcfg
  obtain ⟨n, pos, e, hn, hwait⟩ := RunsIn.pending (s := w1) (c := x.command a) (rest := after) (gen := x.gen)
    (hcfg1 ▸ hpending) hw.line.2 (hw.line.1.trans hrx)
    (State.undisturbed.congr (State.undisturbed.past (s := w) (es := opening) (r := w.line.rx) (hlen ▸ hu)) rfl) rfl
    (fun hgen => by show w.elapsedAt x.gen = 0; rw [hgen]; rfl)
  rw [State.attempting_waited] at hwait
  rw [hcfg1] at hn
  refine ⟨_, after, ?_, fun d t h ht hd => hexec (16 + n + d) t (((?_ : RunsIn 16 _ _).trans hwait).trans h) ht ?_⟩
  · rw [Attempt.toConfirm_eq]
    exact State.InAttempt.of_before _ _ hw
  · have hops : connectOps s.cfg x.gen a x.baud ++ x.tailOps a =
        .attemptStart x.gen :: addressingOps s.cfg a x.baud ++ (.keywordStart x.gen :: after) := by
      simp [connectOps, after]
    rw [hops]
    exact hopening
  · rw [hrx, List.length_append]; omega

/-- After the first `n` answers, the keyword still pending: `exec_to_pending` for them. -/
theorem exec_to_answer (hpending : KeywordPending (waitBound s.cfg x.gen) (answers.take n))
    (hu : s.undisturbed (x.toConfirm s.cfg a (answers.take n)).length) :
    ∃ z rest, s.InAttempt z x .awaitingKeyword (x.toConfirm s.cfg a (answers.take n))
        (keywordBytes (answers.drop n) ++ r) (waitPolls x.gen (answers.drop n) ++ polls) ∧
      ∀ d t, RunsIn d (z.goto (x.command a) (keywordWaitOps x.gen ++ rest)) t → t.canRun = false → d ≤ 10 →
        exec (x.command a) s = .next t :=
  exec_to_pending hv hx
    (by rw [hp, ← waitPolls_take_append_drop x.gen answers n]; simp only [List.append_assoc])
    (by rw [hrx, ← keywordBytes_take_append_drop answers n, List.append_assoc]) hpending hu

/-- After the first `n` answers, the next is asked for. -/
theorem exec_to_nextAnswer (hpending : KeywordPending (waitBound s.cfg x.gen) (answers.take n))
    (hu : s.undisturbed (x.toConfirm s.cfg a (answers.take n)).length) :
    ∃ t op, s.ComesTo (x.command a) (x.toConfirm s.cfg a (answers.take n)) .awaitingKeyword t op ∧
      t.line.rx = keywordBytes (answers.drop n) ++ r ∧ (x.gen = .B → op = .recv (.keyword .B)) := by
  obtain ⟨z, rest, hz, hexec⟩ := exec_to_answer hv hx hp hrx hpending hu
  obtain ⟨op, hops, hop, hrecv⟩ := keywordWaitOps_eq x.gen
  rw [hops] at hexec
  exact ⟨_, op, .of_goto hz.status hz.history hz.inputs hop fun ht => hexec 0 _ (RunsIn.refl _) ht (by decide),
    congrArg Line.rx hz.line, hrecv⟩

/-- After the first `n` answers and the next poll of Generation A, its byte or its delay is next. -/
theorem exec_to_polled (hopen : KeywordOpen (waitBound s.cfg x.gen) answers) (hn : n < answers.length) (hgen : x.gen = .A)
    (hu : s.undisturbed ((x.toConfirm s.cfg a (answers.take n)).length + 1)) :
    ∃ t op, s.ComesTo (x.command a) (x.toConfirm s.cfg a (answers.take n) ++ [.poll answers[n].isSome]) .awaitingKeyword
      t op := by
  obtain ⟨z, rest, hz, hexec⟩ := exec_to_answer hv hx hp hrx (hopen.take_pending hn) (hu.mono (Nat.le_add_right _ _))
  obtain ⟨u, op, ops, hpoll, hop, hstatus, hhistory, hinputs⟩ := RunsIn.polled (s := z) (c := x.command a) (rest := rest)
    (hz.undisturbed hu)
  rw [hgen] at hexec
  have hanswer : z.line.pollAnswer = answers[n].isSome := by
    rw [hz.line, hgen, List.drop_eq_getElem_cons hn]
    exact Line.pollAnswer_eq_isSome _ _
  refine ⟨_, op, .of_goto (hstatus.trans hz.status) ?_ ?_ hop fun ht => hexec 1 _ hpoll ht (by decide)⟩
  · rw [hhistory, hanswer, hz.history, List.reverse_append (bs := [Event.poll _])]; rfl
  · rw [hinputs, hz.inputs, elapse_elapse, List.length_append]; rfl

/-- Between any two events of the keyword wait. -/
theorem exec_to_wait (hopen : KeywordOpen (waitBound s.cfg x.gen) answers) (hn : n < (waitEvents x.gen answers).length)
    (hu : s.undisturbed ((x.toWait s.cfg a).length + n)) :
    ∃ t op, s.ComesTo (x.command a) (x.toWait s.cfg a ++ (waitEvents x.gen answers).take n) .awaitingKeyword t op := by
  rw [← Nat.min_eq_left hn.le, ← List.length_take, ← List.length_append] at hu
  cases hgen : x.gen with
  | A =>
    simp only [hgen, waitEvents, keywordEvents_length] at hn hu ⊢
    obtain ⟨q, rfl | rfl⟩ := Nat.even_or_odd' n
    · have hq : q < answers.length := by omega
      have heq : x.toWait s.cfg a ++ (keywordEvents answers).take (2 * q) = x.toConfirm s.cfg a (answers.take q) := by
        rw [take_keywordEvents hq.le, Attempt.toConfirm, hgen]; rfl
      rw [heq] at hu ⊢
      obtain ⟨t, op, ht, -⟩ := exec_to_nextAnswer hv hx hp hrx (hopen.take_pending hq) hu
      exact ⟨t, op, ht⟩
    · have hq : q < answers.length := by omega
      have heq : x.toWait s.cfg a ++ (keywordEvents answers).take (2 * q + 1) =
          x.toConfirm s.cfg a (answers.take q) ++ [.poll answers[q].isSome] := by
        rw [take_keywordEvents_poll hq, ← List.append_assoc, Attempt.toConfirm, hgen]; rfl
      rw [heq] at hu ⊢
      rw [List.length_append] at hu
      exact exec_to_polled hv hx hp hrx hopen hq hgen hu
  | B =>
    rw [hgen] at hn hu
    have hbytes : KeywordOpen 1 answers := by rw [hgen] at hopen; exact hopen
    obtain ⟨hlt, htake⟩ := hbytes.take_bytes (lt_of_lt_of_eq hn (List.length_map _))
    have heq : x.toWait s.cfg a ++ waitEvents .B (answers.take n) = x.toConfirm s.cfg a (answers.take n) := by
      rw [Attempt.toConfirm, hgen]
    rw [htake, heq] at hu ⊢
    obtain ⟨t, op, ht, -⟩ := exec_to_nextAnswer hv hx hp hrx (hopen.take_pending hlt) hu
    exact ⟨t, op, ht⟩

/-- After all answers of a keyword wait whose keyword is pending, an input that is due, or a line that answers Generation B's
`Recv()` no more, finds the command so. -/
theorem exec_paused_pending (hpending : KeywordPending (waitBound s.cfg x.gen) answers)
    (hpause : (∃ m later, s.inputs = ((x.toConfirm s.cfg a answers).length, m) :: later) ∨
      (x.gen = .B ∧ r = [] ∧ s.undisturbed (x.toConfirm s.cfg a answers).length)) :
    ∃ t, exec (x.command a) s = .next t ∧ s.RunningAt t (x.toConfirm s.cfg a answers) .awaitingKeyword := by
  have hu : s.undisturbed (x.toConfirm s.cfg a answers).length := by
    rcases hpause with ⟨m, later, hi⟩ | ⟨-, -, hu⟩
    · exact State.undisturbed_of_due hi le_rfl
    · exact hu
  rw [← answers.take_length] at hpending hu
  obtain ⟨t, op, ht, hbytes, hrecv⟩ := exec_to_nextAnswer hv hx hp hrx hpending hu
  rw [answers.take_length] at ht
  rcases hpause with ⟨m, later, hi⟩ | ⟨hgen, hempty, -⟩
  · exact ht.of_due hi
  · obtain rfl := hrecv hgen
    exact ht.of_no_byte (by rw [hbytes, hempty, List.drop_length]; rfl)

end

/-! ## An identity exchange that an input interrupts (R189, R190) -/

theorem identityOps_eq (cfg : Config) (j : Nat) (rest : List Op) : ∃ ops, identityOps cfg j rest = .recvBlock :: ops := by
  unfold identityOps
  split <;> exact ⟨_, rfl⟩

/-- The identity exchange of an attempt is an exchange of blocks (R190). -/
theorem exchanging_identityOps (cfg : Config) (x : Attempt) (a : Byte) : exchanging (identityOps cfg 0 (x.tailOps a)) := by
  have htail : onlyCatch (x.tailOps a) := by
    cases x with
    | connect gen baud => exact fun op hop => nomatch hop
    | autoconnect m => exact fun op hop => ⟨a, List.mem_singleton.1 hop⟩
  exact .inl ⟨rfl, .inr ⟨.inl rfl, htail⟩⟩

theorem State.goto_status : (s.goto c ops).status = s.status := rfl

@[simp] theorem State.alone_cfg (s : State) : s.alone.cfg = s.cfg := rfl
@[simp] theorem State.alone_status (s : State) : s.alone.status = s.status := rfl

theorem State.alone_undisturbed (s : State) {n : Nat} : s.alone.undisturbed n := fun _ h => nomatch h

/-- An input that is due within the identity exchange finds the command there: until then it goes as it goes alone. -/
theorem exec_interrupted {N : Nat} (hz : s.InAttempt z x .exchangingIdentity (x.toIdentity s.cfg a answers) r polls)
    (hexec : ∀ d t, RunsIn d (z.goto (x.command a) (identityOps s.cfg 0 (x.tailOps a))) t → t.canRun = false →
      d ≤ 64 * r.length + 150 → exec (x.command a) s = .next t)
    (hrun : RunsIn N (z.alone.goto (x.command a) (identityOps s.cfg 0 (x.tailOps a))) u) (hN : N ≤ 64 * r.length + 150)
    (hstate : u.status.state ≠ .disconnected) (hhistory : u.history = es.reverse ++ z.history) (hn : n < es.length)
    (hi : s.inputs = ((x.toIdentity s.cfg a answers).length + n, m) :: later) :
    ∃ t, exec (x.command a) s = .next t ∧
      s.RunningAt t (x.toIdentity s.cfg a answers ++ es.take n) .exchangingIdentity := by
  obtain ⟨d, t, hd, hto, hstuck, hstatus, hpast⟩ := RunsIn.interrupted N (hrun 0) (exchanging_identityOps _ _ _) hstate
    hhistory hn (hz.inputs.trans (elapse_due hi))
  refine ⟨t, hexec d t hto hstuck (by omega), ?_, ?_, ?_⟩
  · rw [hstatus, hz.status]
  · rw [hstatus, hz.status]
  · rw [hpast, hz.history, List.reverse_append, List.append_assoc]

/-! ## The confirmation, and the blocks of the identity exchange (R186, R190) -/

section
variable (hv : s.cfg.Valid) (hx : x.allowed) (hf : KeywordFound (waitBound s.cfg x.gen) answers)
  (hp : s.line.polls = x.earlierPolls s.cfg ++ waitPolls x.gen answers ++ polls)
include hv hx hf hp

/-- Before the confirmation's last event, or any event before it. -/
theorem exec_to_confirming (hrx : s.line.rx = keywordBytes answers ++ r) (hn : n ≤ 3)
    (hu : s.undisturbed ((x.toConfirm s.cfg a answers).length + n)) :
    ∃ t op, s.ComesTo (x.command a) (x.toConfirm s.cfg a answers ++ (confirmEvents s.cfg).take n) .confirming t op ∧
      t.line.rx = r ∧ (n = 3 → ∃ use, op = .recv use) := by
  obtain ⟨w, e, -, hw, hexec⟩ := exec_to_confirmation (a := a) hv hx hf hp hrx (hu.mono (Nat.le_add_right _ _))
  rw [Attempt.toConfirm_eq, List.length_append, Nat.add_assoc] at hu
  rw [Attempt.toConfirm_eq]
  generalize (.configure x.baud :: frameEvents s.cfg a ++ waitEvents x.gen answers : List Event) = ms at *
  obtain ⟨u, op, ops, hrun, hop, hrecv, hbytes, hstatus, hhistory, hinputs⟩ := RunsIn.confirmingPart (c := x.command a)
    (rest := x.tailOps a) (gen := x.gen) (baud := x.baud) (polls := polls) (r := r) (pos := 3) (e := e) n hn
    (hw.undisturbed hu)
  rw [hw.kept.cfg] at hrun hhistory
  have hlen : ((confirmEvents s.cfg).take n).length = n := List.length_take_of_le (le_trans hn (Nat.le_succ 3))
  refine ⟨_, op, .of_goto (hstatus.trans (by rw [hw.status])) ?_ ?_ hop
    fun ht => hexec _ _ hrun ht (by omega), hbytes, hrecv⟩
  · rw [hhistory, hw.history, List.append_assoc, List.reverse_append (as := x.earlier s.cfg a), List.append_assoc]
  · rw [hinputs, hw.inputs, elapse_elapse, List.append_assoc, List.length_append, List.length_append, hlen]

/-- Between its blocks, the identity exchange waits for the next block's length byte. -/
theorem exec_to_block {ps : List (List Byte)} (hfour : ps.length ≤ 4)
    (hfit : ∀ p ∈ ps, p.length + 4 ≤ s.cfg.maxBlock)
    (hrx : s.line.rx = keywordBytes answers ++ confirmByte :: acknowledgedAnswers s.cfg k ps ++ r)
    (hu : s.undisturbed (x.toIdentity s.cfg a answers ++ acknowledgedEvents s.cfg k ps).length) :
    ∃ t, s.ComesTo (x.command a) (x.toIdentity s.cfg a answers ++ acknowledgedEvents s.cfg k ps) .exchangingIdentity t
      (.recv .length) ∧ t.line.rx = r := by
  rw [List.length_append] at hu
  obtain ⟨z, hz, hindex, hexec⟩ := exec_to_identity (a := a) (r := acknowledgedAnswers s.cfg k ps ++ r) hv hx hf hp
    (by rw [hrx, List.append_assoc, List.cons_append]) (hu.mono (Nat.le_add_right _ _))
  have hcfg : z.cfg = s.cfg := hz.kept.cfg
  obtain ⟨n, u, hn, hblocks, hon, hstatus, -⟩ := RunsIn.acknowledged (s := z) (c := x.command a) (rest := x.tailOps a)
    (r := r) ps k 0 (hcfg ▸ hv) (by omega) (fun _ => hindex) (hcfg ▸ hfit) (.inl (by rw [hz.session]))
    (hcfg ▸ hz.undisturbed hu) (by rw [hz.line, hcfg])
  obtain ⟨ops, hops⟩ := identityOps_eq z.cfg (0 + ps.length) (x.tailOps a)
  rw [hops] at hblocks
  rw [hcfg] at hn hblocks hon
  have hstart : RunsIn 1 (u.goto (x.command a) (.recvBlock :: ops))
      (u.startReception.goto (x.command a) (.recv .length :: ops)) := RunsIn.silent rfl rfl
  refine ⟨_, .of_goto (u := u.startReception) (hstatus.trans hz.status) ?_ ?_ rfl
    fun ht => hexec _ _ (hblocks.trans hstart) ht ?_, congrArg Line.rx hon.line⟩
  · exact hon.history.trans (by rw [hz.history, List.reverse_append, List.append_assoc])
  · exact hon.inputs.trans (by rw [hz.inputs, elapse_elapse, List.length_append])
  · rw [List.length_append]; omega

/-- Inside the blocks and the acknowledgements of the identity exchange. -/
theorem exec_interrupted_blocks {ps : List (List Byte)} (hfour : ps.length ≤ 4)
    (hfit : ∀ p ∈ ps, p.length + 4 ≤ s.cfg.maxBlock)
    (hrx : s.line.rx = keywordBytes answers ++ confirmByte :: acknowledgedAnswers s.cfg k ps ++ r)
    (hn : n < (acknowledgedEvents s.cfg k ps).length)
    (hi : s.inputs = ((x.toIdentity s.cfg a answers).length + n, m) :: later) :
    ∃ t, exec (x.command a) s = .next t ∧
      s.RunningAt t (x.toIdentity s.cfg a answers ++ (acknowledgedEvents s.cfg k ps).take n) .exchangingIdentity := by
  obtain ⟨z, hz, hindex, hexec⟩ := exec_to_identity (a := a) (r := acknowledgedAnswers s.cfg k ps ++ r) hv hx hf hp
    (by rw [hrx, List.append_assoc, List.cons_append]) (State.undisturbed_of_due hi (Nat.le_add_right _ _))
  have hcfg : z.cfg = s.cfg := hz.kept.cfg
  obtain ⟨N, u, hN, hrun, hon, hstatus, -⟩ := RunsIn.acknowledged (s := z.alone) (c := x.command a) (rest := x.tailOps a)
    (r := r) ps k 0 (hcfg ▸ hv) (by omega) (fun _ => hindex) (hcfg ▸ hfit) (.inl (congrArg Session.firstSeen hz.session))
    z.alone_undisturbed ((congrArg Line.rx hz.line).trans (by rw [State.alone_cfg, hcfg]))
  rw [State.alone_cfg, hcfg] at hN hrun hon
  refine exec_interrupted hz hexec hrun (by rw [List.length_append]; omega) ?_ hon.history hn hi
  rw [State.goto_status, hstatus, State.alone_status, hz.status]
  exact SessionState.noConfusion

/-- Anywhere in a whole identity exchange, until the final ACK has been received. -/
theorem exec_interrupted_identity {payloads : List (List Byte)} (hfour : payloads.length = 4)
    (hfit : ∀ p ∈ payloads, p.length + 4 ≤ s.cfg.maxBlock)
    (hrx : s.line.rx = keywordBytes answers ++ confirmByte :: identityAnswers s.cfg k payloads ++ r)
    (hn : n < (identityEvents s.cfg k payloads).length)
    (hi : s.inputs = ((x.toIdentity s.cfg a answers).length + n, m) :: later) :
    ∃ t, exec (x.command a) s = .next t ∧
      s.RunningAt t (x.toIdentity s.cfg a answers ++ (identityEvents s.cfg k payloads).take n) .exchangingIdentity := by
  obtain ⟨z, hz, hindex, hexec⟩ := exec_to_identity (a := a) (r := identityAnswers s.cfg k payloads ++ r) hv hx hf hp
    (by rw [hrx, List.append_assoc, List.cons_append]) (State.undisturbed_of_due hi (Nat.le_add_right _ _))
  have hcfg : z.cfg = s.cfg := hz.kept.cfg
  obtain ⟨N, u, hN, hrun, hon, hid⟩ := RunsIn.identity (s := z.alone) (c := x.command a) (rest := x.tailOps a) (k := k)
    (r := r) (hcfg ▸ hv) hindex hfour (hcfg ▸ hfit) (congrArg Session.firstSeen hz.session) z.alone_undisturbed
    ((congrArg Line.rx hz.line).trans (by rw [State.alone_cfg, hcfg]))
  rw [State.alone_cfg, hcfg] at hN hrun hon
  refine exec_interrupted hz hexec hrun (by rw [List.length_append]; omega) ?_ hon.history hn hi
  rw [State.goto_status, hid.state]
  exact SessionState.noConfusion

end

/-- Settles O39: at every event of an attempt that something from outside is due, and at every `Recv()` that the line leaves
unanswered, the command stands where the lemma about that step has it. -/
theorem connectStateNamesStep : Obligations.ConnectStateNamesStep := by
  intro s a x answers polls rest hv hx hp
  refine ⟨fun n m later hn hi => ?_, fun hopen hrx n m later hn hi => ?_, fun hpending hrx hpause => ?_,
    fun hf => ⟨fun n m later hn hrx hi => ?_, fun hrx hu => ?_, fun k ps hfour hfit hrx => ⟨fun n m later hn hi => ?_,
      fun hempty hu => ?_⟩, fun k payloads hfour hfit hrx n m later hn hi => ?_⟩⟩
  · rw [List.append_assoc] at hp
    obtain ⟨t, op, ht⟩ := exec_to_addressing hv hx hp hn (State.undisturbed_of_due hi le_rfl)
    have hlen : ((x.toWait s.cfg a).take ((x.earlier s.cfg a).length + n)).length = (x.earlier s.cfg a).length + n := by
      rw [List.length_take_of_le]
      rw [Attempt.toWait, List.length_append, frameEvents_length hv]; omega
    exact ht.of_due (hlen ▸ hi)
  · obtain ⟨t, op, ht⟩ := exec_to_wait hv hx hp hrx hopen hn (State.undisturbed_of_due hi le_rfl)
    exact ht.of_due (by rw [hi, List.length_append, List.length_take_of_le hn.le])
  · exact exec_paused_pending hv hx hp hrx hpending hpause
  · obtain ⟨t, op, ht, -⟩ := exec_to_confirming hv hx hf hp hrx (Nat.le_of_lt_succ hn) (State.undisturbed_of_due hi le_rfl)
    exact ht.of_due (by rw [hi, List.length_append, List.length_take_of_le hn.le])
  · obtain ⟨t, op, ht, hbytes, hrecv⟩ := exec_to_confirming (r := []) hv hx hf hp (by rw [hrx, List.append_nil]) le_rfl hu
    obtain ⟨use, rfl⟩ := hrecv rfl
    exact ht.of_no_byte hbytes
  · rcases Nat.lt_or_eq_of_le hn with hlt | rfl
    · exact exec_interrupted_blocks hv hx hf hp hfour hfit hrx hlt hi
    · rw [List.take_length]
      rw [← List.length_append] at hi
      obtain ⟨t, ht, -⟩ := exec_to_block hv hx hf hp hfour hfit hrx (State.undisturbed_of_due hi le_rfl)
      exact ht.of_due hi
  · obtain ⟨t, ht, hbytes⟩ := exec_to_block hv hx hf hp hfour hfit hrx hu
    exact ht.of_no_byte (hbytes.trans hempty)
  · exact exec_interrupted_identity hv hx hf hp hfour hfit hrx hn hi

end Sys2Proof.Machine

/-! # Outside Ready (rules R220, R267) -/

namespace Sys2Proof.Machine

theorem State.whenReady_rejects {s : State} (h : s.status.state ≠ .ready) (k : State) :
    s.whenReady k = s.reject .notReady := if_neg h

/-- Settles O45: each of these commands is a `require_ready()` before anything else. -/
theorem readyOperationsNeedReady : Obligations.ReadyOperationsNeedReady := by
  intro s i hready hi
  have hrejects : ∀ k, exec i s = .next (s.whenReady k) → exec i s = .next (s.reject .notReady) := fun k hexec =>
    hexec.trans (congrArg Host.Outcome.next (State.whenReady_rejects hready k))
  rcases hi with hi | ⟨safeCode, fern, rfl⟩ | ⟨group, rfl⟩ | ⟨start, rfl | rfl | rfl⟩
  · simp only [List.mem_cons, List.not_mem_nil, or_false] at hi
    rcases hi with rfl | rfl | rfl <;> exact hrejects _ rfl
  all_goals exact hrejects _ rfl

end Sys2Proof.Machine

/-! # Memory reads (rules R223 to R231) -/

namespace Sys2Proof.Machine

variable {s t : State} {c i : Instr} {rest : List Op} {op : Op} {kind : MemKind} {start : Half} {size : Word}
  {payloads : List (List Byte)} {payload data r : List Byte} {es : List Event} {title : Byte} {n : Nat}

/-! ## Appending a payload (R228) -/

/-- Appending touches no window but `MEMBUF`. -/
theorem State.appendBytes_windowByte (hc : s.cfg.membufBytes ≤ 0xF000) (hl : s.memlen.toNat ≤ s.cfg.membufBytes) {a : Nat}
    (ha : a < memBase ∨ memBase + s.cfg.membufBytes ≤ a) : (s.appendBytes payload).windowByte a = s.windowByte a := by
  have he := State.appendBytes_eq payload s hc hl
  refine State.windowByte_congr (by rw [he]) (by rw [he]) (by rw [he]) (by rw [he]) ?_
  rw [he, Memory.read_writeFrom, List.length_take, if_neg (by omega)]

/-- Settles O51: what `State.appendBytes_readsOn` says of `MEMBUF`, and the frames of the windows and the registers. -/
theorem appendKeepsEarlierBytes : Obligations.AppendKeepsEarlierBytes := by
  intro s payload hv hl t
  have happend : s.ReadsOn t payload 0 [] s.line.rx := State.appendBytes_readsOn hv.membuf_le hl
  exact ⟨happend.memlen, happend.older, happend.newer, congrArg Status.memTrunc happend.status,
    fun _ => State.appendBytes_windowByte hv.membuf_le hl, State.appendBytes_frame payload s⟩

/-! ## What a memory read leaves that has read so far (R226, R228) -/

/-- `MEMBUF` holds what was appended, as far as it fits. -/
theorem State.ReadsOn.stored (h : (s.startMemRead start size).ReadsOn t data n es r) :
    t.memlen.toNat = min data.length s.cfg.membufBytes ∧ ∀ i < t.memlen.toNat, t.membufByte i = data.getD i 0 := by
  refine ⟨?_, fun i hi => h.newer i (Nat.zero_le i) hi⟩
  simpa using h.memlen

theorem State.ReadsOn.started_status (h : (s.started.startMemRead start size).ReadsOn t data n es r) : t.status =
    { s.status with busy := true, memTrunc := decide (s.cfg.membufBytes < data.length) } := by
  simpa [State.started] using h.status

theorem State.ReadsOn.read_windows (h : (s.startMemRead start size).ReadsOn t data n es r) : ∀ a,
    (a < txBase ∨ txBase + 7 ≤ a) → (a < rxBase ∨ rxBase + windowBytes ≤ a) →
    (a < memBase ∨ memBase + s.cfg.membufBytes ≤ a) → t.windowByte a = s.windowByte a :=
  fun a htx hrx hmem => (h.windows a htx hrx hmem).trans (State.startMemRead_windowByte hmem)

/-- A memory read whose command then ends OK, whatever it returns. -/
theorem State.ReadsOn.memReadTo
    (h : (s.started.startMemRead start size).ReadsOn t data (4 * chunkCount size) es r) (x : Word) :
    s.MemReadTo (State.complete { t with result := x } .ok) size data := by
  obtain ⟨hcfg, hcmd, harg0, -, herrinfo, hreads, -, -⟩ := h.same
  obtain ⟨hpos, helapsed, hmode, hattempt, hindex⟩ := h.hidden
  obtain ⟨hmemlen, hcontents⟩ := h.stored
  exact
    { cfg := hcfg
      memlen := hmemlen
      contents := hcontents
      status := by rw [State.complete_status]; simp only [h.started_status]
      counter := h.counter
      session := h.session
      errinfo := herrinfo
      idle := rfl
      registers := ⟨harg0, hcmd, hreads⟩
      hidden := ⟨hmode, hattempt, hindex, hpos, helapsed⟩
      windows := h.read_windows }

/-! ## The commands (R223 to R225, R231) -/

/-- The READ_MEM command for a kind of memory. -/
def readCommand (start : Half) : MemKind → Instr
  | .ram => .readMemRam start
  | .rom => .readMemRom start
  | .ee => .readMemEe start

theorem exec_readCommand (hready : s.status.state = .ready) (hsize : s.arg0.toNat ≤ s.cfg.membufBytes) :
    exec (readCommand start kind) s =
      .next (s.launch (readCommand start kind) [.memRead kind start s.arg0, .resultMemlen]) := by
  have hlaunches : ∀ c, s.readMem c kind start = s.launch c [.memRead kind start s.arg0, .resultMemlen] := fun c =>
    (State.whenReady_ready hready _).trans (if_neg (Nat.not_lt.2 hsize))
  cases kind <;> exact congrArg Host.Outcome.next (hlaunches _)

theorem exec_safeCodeEeprom (hready : s.status.state = .ready) : exec .safeCodeEeprom s =
    .next (s.launch .safeCodeEeprom
      [.memRead .ee s.cfg.safeEeAddr s.cfg.safeEeSize, .resultMembuf s.cfg.safeEeOffset]) :=
  congrArg Host.Outcome.next (State.whenReady_ready hready _)

/-! ## On a correct line (R226, R227) -/

/-- A command that reads memory on a correct line, and then returns a value that it computes without an event. -/
theorem State.launch_memRead {value : State → Word} (hop : op.isEvent = false)
    (hvalue : ∀ t : State, (t.goto c []).doOp op = State.goto { t with result := value t } c []) (hv : s.cfg.Valid)
    (hn : payloads.length = chunkCount size) (hfit : ∀ p ∈ payloads, p.length + 4 ≤ s.cfg.maxBlock)
    (hu : s.undisturbed (memEvents s.cfg kind start size s.session.counter payloads).length)
    (hrx : s.line.rx = memAnswers s.cfg kind start size s.session.counter payloads ++ r) :
    ∃ t, s.launch c [.memRead kind start size, op] = State.complete { t with result := value t } .ok ∧
      (s.started.startMemRead start size).ReadsOn t payloads.flatten (4 * chunkCount size)
        (memEvents s.cfg kind start size s.session.counter payloads) r := by
  obtain ⟨m, t, hm, hread, hon⟩ := RunsIn.memRead (s := s.started) (c := c) (rest := [op]) hv hn hfit hu hrx
  have hreturn : RunsIn 1 (t.goto c [op]) (State.goto { t with result := value t } c []) := RunsIn.silent hop (hvalue t)
  have hroom : m + 1 + 1 ≤ s.burst := by
    have hburst := State.burst_ge (s := s)
    have hm' : m ≤ 32 * s.line.rx.length + 3 := hm
    omega
  exact ⟨t, State.launch_eq ((hread.trans hreturn).trans RunsIn.done) (State.canRun_of_idle rfl) hroom, hon⟩

/-- Settles O48: the read (`State.launch_memRead`), and RESULT is MEMLEN. -/
theorem readMemoryCompletes : Obligations.ReadMemoryCompletes := by
  intro s kind start payloads r hv hready hsize hn hfit events hu hrx
  obtain ⟨t, hlaunch, hon⟩ := State.launch_memRead (c := readCommand start kind) (op := .resultMemlen)
    (value := State.memlen) rfl (fun _ => rfl) hv hn hfit hu hrx
  have hexec := exec_readCommand (start := start) (kind := kind) hready hsize
  rw [hlaunch] at hexec
  exact ⟨_, hexec, hon.memReadTo _, rfl, hon.history, hon.line⟩

/-- Settles O49: the read (`State.launch_memRead`), and RESULT is two bytes of what it left in `MEMBUF`. -/
theorem safeCodeEepromReturnsBytes : Obligations.SafeCodeEepromReturnsBytes := by
  intro s payloads r hv hready hn hfit events hu hrx
  obtain ⟨t, hlaunch, hon⟩ := State.launch_memRead (c := .safeCodeEeprom) (op := .resultMembuf s.cfg.safeEeOffset)
    (value := fun t => zextHalf (t.membufValue s.cfg.safeEeOffset)) rfl (fun _ => rfl) hv hn hfit hu hrx
  have hexec := exec_safeCodeEeprom hready
  rw [hlaunch] at hexec
  exact ⟨_, hexec, hon.memReadTo _, rfl, hon.history, hon.line⟩

/-! ## A wrong title (R158, R265) -/

/-- A chunk starts with its request and the reception of the response (R226). -/
theorem chunkOps_eq (cfg : Config) (kind : MemKind) (n : Word) (address : Half) (rest : List Op) : ∃ later,
    chunkOps cfg kind n address ++ rest = .fillTx (memRequest cfg kind n address) :: .sendBlock :: .recvBlock ::
      .checkTitle (responseTitle cfg kind) :: later := ⟨_, rfl⟩

/-- A chunk whose response has a wrong title: the request is sent and the response received, and no more. -/
theorem RunsIn.chunk_wrongTitle (hm : s.cfg.maxBlock ≤ 256) (hfit : payload.length + 4 ≤ s.cfg.maxBlock)
    (hl : s.memlen.toNat ≤ s.cfg.membufBytes) (hleft : s.chunkLeft ≠ 0) (htitle : title ≠ responseTitle s.cfg kind)
    (hu : s.undisturbed ((s.nextRequest kind).eventsSent s.cfg ++
      (block (s.session.counter + 2) title payload).eventsHeard s.cfg).length)
    (hrx : s.line.rx = (s.nextRequest kind).answersSent ++
      (block (s.session.counter + 2) title payload).answersHeard ++ r) :
    ∃ m t, m ≤ 6 * payload.length + 64 ∧
      RunsIn m (s.goto c (.memLoop kind :: rest)) (t.raiseFatal .title (responseTitle s.cfg kind) title) ∧
      s.ReadsOn t [] 2 ((s.nextRequest kind).eventsSent s.cfg ++
        (block (s.session.counter + 2) title payload).eventsHeard s.cfg) r := by
  have hloop : RunsIn 1 (s.goto c (.memLoop kind :: rest))
      (s.goto c (chunkOps s.cfg kind (chunkSize s.cfg s.chunkLeft) s.chunkAddr ++ rest)) :=
    RunsIn.silent rfl (if_neg hleft)
  obtain ⟨later, hops⟩ := chunkOps_eq s.cfg kind (chunkSize s.cfg s.chunkLeft) s.chunkAddr rest
  rw [hops] at hloop
  have hb : (block (s.session.counter + 2) title payload).2.length < 256 := by rw [block_body_length]; omega
  obtain ⟨m, hmoves, hexchange⟩ := RunsIn.exchange (c := c)
    (rest := .checkTitle (responseTitle s.cfg kind) :: later) (by simp) (State.acceptsAfterSend_block (by omega) hfit) hu hrx
  have hreceived := State.exchanged_rxByte (s := s) (title := requestTitle s.cfg kind) (r := r)
    (payload := [(chunkSize s.cfg s.chunkLeft).setWidth 8, hiByte s.chunkAddr, loByte s.chunkAddr]) hb (i := 2)
    (by rw [length_block_bytes]; omega)
  rw [getD_block_title] at hreceived
  have hcheck := RunsIn.checkTitle_wrong (c := c) (rest := later) (hreceived.trans_ne htitle)
  rw [hreceived] at hcheck
  rw [block_body_length] at hmoves
  exact ⟨1 + m + 1, _, by simp only [List.length_cons, List.length_nil] at hmoves; omega,
    (hloop.trans hexchange).trans hcheck, State.exchanged_readsOn (by simp) hb hl rfl⟩

/-- A command that reads memory, and whose chunk after the first ones gets a response with a wrong title. -/
theorem State.launch_memRead_wrongTitle (hv : s.cfg.Valid) (hj : payloads.length < chunkCount size)
    (hfit : ∀ p ∈ payload :: payloads, p.length + 4 ≤ s.cfg.maxBlock) (htitle : title ≠ responseTitle s.cfg kind)
    (hes : es = eventsOfChunks s.cfg kind start size s.session.counter payloads payloads.length ++
      ((chunkRequest s.cfg kind start size s.session.counter payloads.length).eventsSent s.cfg ++
        (block (s.session.counter + BitVec.ofNat 8 (4 * payloads.length + 2)) title payload).eventsHeard s.cfg))
    (hu : s.undisturbed es.length)
    (hrx : s.line.rx = answersOfChunks s.cfg kind start size s.session.counter payloads payloads.length ++
      ((chunkRequest s.cfg kind start size s.session.counter payloads.length).answersSent ++
        (block (s.session.counter + BitVec.ofNat 8 (4 * payloads.length + 2)) title payload).answersHeard ++ r)) :
    ∃ t, s.launch c (.memRead kind start size :: rest) = t.raiseFatal .title (responseTitle s.cfg kind) title ∧
      (s.started.startMemRead start size).ReadsOn t payloads.flatten (4 * payloads.length + 2) es r := by
  obtain ⟨hpayload, hpayloads⟩ := List.forall_mem_cons.1 hfit
  rw [hes, List.length_append] at hu
  obtain ⟨m, u, hm, hfirst, hon, hleft, haddr⟩ := RunsIn.memFirst (s := s.started) (c := c) (rest := rest) hv hj.le hpayloads
    (hu.mono (Nat.le_add_right _ _)) hrx
  rw [flatMap_payloads] at hon
  have hcfg : u.cfg = s.cfg := hon.same.1
  have hl : u.memlen.toNat ≤ u.cfg.membufBytes := by rw [hon.memlen, hcfg]; exact Nat.min_le_right _ _
  have hcounter : u.session.counter = s.session.counter + BitVec.ofNat 8 (4 * payloads.length) := hon.counter
  have hrequest := State.nextRequest_eq (kind := kind) (hcfg ▸ hv.sourced.chunkMax) hj hleft (haddr hj) hcounter
  have hnext : u.session.counter + 2 = s.session.counter + BitVec.ofNat 8 (4 * payloads.length + 2) := by
    rw [hcounter]; exact byte_add_ofNat ..
  have hne : u.chunkLeft ≠ 0 := by
    intro h0
    have hzero : u.chunkLeft.toNat = 0 := congrArg BitVec.toNat h0
    unfold chunkCount at hj
    omega
  have hlater : u.undisturbed _ :=
    State.undisturbed.congr (State.undisturbed.past (r := s.line.rx) hu) hon.inputs
  obtain ⟨m', t, hm', hlast, hon'⟩ := RunsIn.chunk_wrongTitle (s := u) (c := c) (rest := rest) (kind := kind) (r := r)
    (payload := payload) (hcfg ▸ hv.maxBlock_le) (hcfg ▸ hpayload) hl hne (hcfg ▸ htitle)
    (by rw [hrequest, hnext, hcfg]; exact hlater) (by rw [hrequest, hnext, hcfg, hon.line])
  rw [hrequest, hnext, hcfg] at hon'
  rw [hcfg] at hlast
  have hall := hon.trans (Nat.zero_le _) hon'
  rw [List.append_nil] at hall
  have hroom : m + m' ≤ s.burst := by
    have hburst := State.burst_ge (s := s)
    have hheard := length_le_heardAnswers
      (block (s.session.counter + BitVec.ofNat 8 (4 * payloads.length + 2)) title payload).1
      (block (s.session.counter + BitVec.ofNat 8 (4 * payloads.length + 2)) title payload).2
    rw [block_body_length] at hheard
    have hm1 : m ≤ 32 * (answersOfChunks s.cfg kind start size s.session.counter payloads payloads.length).length + 1 := hm
    rw [hrx, List.length_append, List.length_append, List.length_append, Block.answersHeard] at hburst
    omega
  exact ⟨t, State.launch_eq (hfirst.trans hlast) (State.canRun_of_idle rfl) hroom, hes ▸ hall⟩

/-- Settles O50: what the chunks before left (`State.launch_memRead_wrongTitle`), and the FATAL end. -/
theorem wrongTitleEndsMemoryRead : Obligations.WrongTitleEndsMemoryRead := by
  intro s i kind start size payloads title payload r hv hready hi hj hfit htitle j request response events hu hrx
  obtain ⟨rest, hexec⟩ : ∃ rest, exec i s = .next (s.launch i (.memRead kind start size :: rest)) := by
    rcases hi with ⟨rfl, rfl, hsize⟩ | ⟨rfl, rfl, rfl, rfl⟩
    · exact ⟨_, exec_readCommand hready hsize⟩
    · exact ⟨_, exec_safeCodeEeprom hready⟩
  obtain ⟨t, hlaunch, hon⟩ := State.launch_memRead_wrongTitle (c := i) (rest := rest) (r := r) hv hj hfit htitle
    (List.append_assoc ..) hu (by rw [hrx]; simp only [List.append_assoc]; rfl)
  obtain ⟨hmemlen, hcontents⟩ := hon.stored
  obtain ⟨-, -, -, hresult, -, -, -, -⟩ := hon.same
  rw [hlaunch] at hexec
  refine ⟨_, hexec, ?_, rfl, hresult, hmemlen, hcontents, hon.counter, rfl, hon.read_windows, ?_, hon.line⟩
  · rw [State.raiseFatal_status]; simp only [hon.started_status]
  · rw [State.raiseFatal_history, hon.history]; rfl

end Sys2Proof.Machine

/-! # The wrong echo of a reply (rule R268) -/

namespace Sys2Proof.Machine

variable {s : State} {c : Instr} {use : RecvUse} {ops rest : List Op} {l x e : Byte} {r : List Byte}

/-- A byte whose reply has a wrong echo: the reception ends before what was to follow the reply is done, whatever the
byte is (R133, R268). -/
theorem RunsIn.recvCompl_wrongEcho (huse : ∀ v : State, v.received use x = v.push (sendEchoOps v.cfg (compl x) ++ ops))
    (hu : s.undisturbed 4) (hrx : s.line.rx = x :: e :: r) (he : e ≠ compl x) :
    RunsIn 4 (s.goto c (.recv use :: rest))
      ((s.past [.recv x, .delay s.cfg.interbyteMs, .send (compl x), .recv e] r).raiseFatal .echo (compl x) e) := by
  have hrecv : RunsIn 1 (s.goto c (.recv use :: rest))
      ((s.past [.recv x] (e :: r)).goto c (sendEchoOps s.cfg (compl x) ++ (ops ++ rest))) :=
    RunsIn.recv (hu.mono (by omega)) hrx (by rw [huse, State.goto_push, List.append_assoc]; rfl)
  have hecho := RunsIn.sendEchoTo (s := s.past [.recv x] (e :: r)) (c := c) (rest := ops ++ rest) (b := compl x)
    (State.undisturbed.past hu) rfl (if_neg he)
  rw [State.past_past] at hecho
  exact hrecv.trans hecho

/-- A reception whose first reply has a wrong echo: the length byte is neither stored nor checked (R155, R268). -/
theorem State.launch_recvBlock_lengthEcho (hu : s.undisturbed 4) (hrx : s.line.rx = l :: e :: r) (he : e ≠ compl l) :
    s.launch c [.recvBlock] = (s.startReception.past
      [.recv l, .delay s.cfg.interbyteMs, .send (compl l), .recv e] r).raiseFatal .echo (compl l) e := by
  have hstart : RunsIn 1 (s.started.goto c [.recvBlock]) (s.started.startReception.goto c [.recv .length]) :=
    RunsIn.silent rfl rfl
  have hbyte := RunsIn.recvCompl_wrongEcho (s := s.started.startReception) (c := c) (use := .length)
    (ops := [.storeLength l]) (rest := []) (fun _ => rfl) hu hrx he
  exact State.launch_eq (hstart.trans hbyte) (State.canRun_of_idle rfl) (le_trans (by omega) s.frame_lt_burst)

/-- A reception whose second reply has a wrong echo: the counter byte is neither stored nor checked (R156, R268). -/
theorem State.launch_recvBlock_counterEcho (h2 : 2 ≤ l.toNat) (hl : l.toNat + 1 ≤ s.cfg.maxBlock) (hu : s.undisturbed 8)
    (hrx : s.line.rx = l :: compl l :: x :: e :: r) (he : e ≠ compl x) :
    s.launch c [.recvBlock] = ((s.startReception.storedLength l).past (lengthEvents s.cfg l ++
      [.recv x, .delay s.cfg.interbyteMs, .send (compl x), .recv e]) r).raiseFatal .echo (compl x) e := by
  set v := s.started.startReception.storedLength l
  set u := v.past (lengthEvents s.cfg l) (x :: e :: r)
  have hnow : u.undisturbed 4 := State.undisturbed.past (s := v) hu
  have hreply := RunsIn.recvFrom_reply (s := u) (c := c) (rest := []) (i := 1) h2
  have hbyte := RunsIn.recvCompl_wrongEcho (s := u) (c := c) (use := .reply 1) (ops := [.storeByte 1 x]) (rest := [])
    (fun _ => rfl) hnow rfl he
  rw [State.past_past] at hbyte
  exact State.launch_recvBlock_second hl (hu.mono (by decide)) hrx (hreply.trans hbyte) (by decide) rfl

/-- Settles O32: the echo is checked before the byte is stored, for the length byte (`State.launch_recvBlock_lengthEcho`)
and for the counter byte (`State.launch_recvBlock_counterEcho`). -/
theorem replyEchoCheckedFirst : Obligations.ReplyEchoCheckedFirst := fun _ _ _ _ hu =>
  ⟨fun he hrx => congrArg Host.Outcome.next (State.launch_recvBlock_lengthEcho (hu.mono (by decide)) hrx he),
    fun _ h2 hl he hrx => congrArg Host.Outcome.next (State.launch_recvBlock_counterEcho h2 hl hu hrx he)⟩

end Sys2Proof.Machine

/-! # A hardware reset, and a command blocked in a `Recv()` (rules R12, R44, R290, R300) -/

namespace Sys2Proof.Machine

variable {s t : State} {m : Input}

/-! ## The reset -/

theorem State.hardReset_history_direct (h : s.lineMode = .direct) :
    s.hardReset.history = .lineRelease :: s.history := by
  simp only [State.hardReset, h]

theorem State.hardReset_history_transport (h : s.lineMode = .transport) : s.hardReset.history = s.history := by
  simp only [State.hardReset, h]

/-- Settles O7: a reset is `State.hardReset`, which takes the block's fields from `State.resetWith`. -/
theorem hardResetAbandonsCommand : Obligations.HardResetAbandonsCommand := fun s =>
  ⟨s.hardReset, rfl, ⟨rfl, rfl, rfl, rfl, rfl, rfl, rfl, rfl, rfl, rfl, rfl, rfl, rfl, rfl, rfl, rfl, rfl, rfl⟩,
    State.hardReset_history_direct, State.hardReset_history_transport, rfl⟩

/-! ## A blocked command -/

theorem State.blocked_iff : s.blocked = true ↔ (∃ c use rest, s.pc = .running c (.recv use :: rest)) ∧ s.line.rx = [] := by
  unfold State.blocked
  split
  case h_1 c use rest hpc => simp [hpc]
  case h_2 hpc => exact ⟨nofun, fun ⟨⟨c, use, rest, hp⟩, _⟩ => absurd hp (hpc c use rest)⟩

theorem State.blocked_congr (hpc : t.pc = s.pc) (hline : t.line = s.line) : t.blocked = s.blocked := by
  unfold State.blocked
  rw [hpc, hline]

/-- A blocked command with nothing arriving: the engine cannot move, no command is to begin, and no input lands (R300). -/
theorem step_blocked (h : s.blocked = true) (hi : s.inputs = []) : step s = .next s := by
  obtain ⟨⟨c, use, rest, hpc⟩, -⟩ := State.blocked_iff.1 h
  have hrun : s.canRun = false := by simp [State.canRun, hpc, h]
  have hbegin : s.canBegin = false := by simp [State.canBegin, hpc]
  simp [step, hrun, hbegin, awaitInput, hi]

/-! ## An access to a busy block -/

theorem engineEvents_cons_byHost {e : Event} (he : e.byHost = true) (older : List Event) :
    engineEvents (e :: older) = engineEvents older := by
  simp [engineEvents, he]

/-- An access to a busy block leaves everything but OVERRUN and the records of what the host did (R12, R44). -/
theorem land_busy (hbusy : s.status.busy = true) (hreset : m ≠ .reset) (harrive : ∀ b, m ≠ .arrive b)
    (h : land m s = .next t) : ∃ overrun reads e, e.byHost = true ∧ t = { s with
      status := { s.status with overrun := overrun }
      hostReads := reads
      history := e :: s.history } := by
  cases m with
  | read address width =>
    obtain ⟨offset, rfl⟩ := land_read_next h
    exact ⟨s.status.overrun, _, .memRead address width (s.readWord offset), rfl, rfl⟩
  | write address width v =>
    obtain ⟨offset, h4, ho, rfl, rfl, -⟩ := access_cases h
    obtain ⟨hwrite, -⟩ := writesWhileBusyIgnored s offset v hbusy ho h4
    rw [hwrite] at h
    exact ⟨_, s.hostReads, .memWrite (s.cfg.hostBase + offset) 4 v, rfl, (Host.Outcome.next.inj h).symm⟩
  | reset => exact absurd rfl hreset
  | arrive b => exact absurd rfl (harrive b)

/-- Settles O22: a blocked block is busy, so an access leaves it `pc` and the line (`land_busy`), and with them the
`Recv()` that the line does not answer. -/
theorem blockedReceiveCannotBeCancelled : Obligations.BlockedReceiveCannotBeCancelled := by
  refine ⟨fun s t m hbusy hblocked hreset harrive h => ?_, fun s => step_blocked⟩
  obtain ⟨overrun, reads, e, he, ht⟩ := land_busy hbusy hreset harrive h
  have hpc : t.pc = s.pc := by rw [ht]
  have hline : t.line = s.line := by rw [ht]
  have hevents : engineEvents t.history = engineEvents s.history := by rw [ht]; exact engineEvents_cons_byHost he _
  have hstatus : t.status = { s.status with overrun := t.status.overrun } := by rw [ht]
  refine ⟨hpc, ?_, hline, hevents, hstatus, step_blocked ?_ rfl⟩
  · rw [State.blocked_congr hpc hline, hblocked]
  · rw [State.blocked_congr (s := s) (by exact hpc) (by exact hline), hblocked]

end Sys2Proof.Machine
